-- ==== Sys2Proof/Word.lean ====
section
/-! DEFINITION. The one word type of the model: a byte of host memory, of a staging buffer or of a value. Keys,
addresses, sequences and counts are plain natural numbers, bounded where they are decoded. -/

namespace Sys2Proof

/-- A byte (R1, R192: values and structures are bytes). -/
abbrev Byte := BitVec 8

end Sys2Proof
end

