-- ==== Sys2Proof/Syntax.lean ====
section
/-! DEFINITION. The commands and events of spec/opcode_table.json, one constructor a row. A context, ring or bank is a
number; a host read carries the bytes it brought, or `none` for a host-memory access error (R43, R157). -/

namespace Sys2Proof

/-- The memory a parity error is detected in (R176). -/
inductive ParityMemory where
  | index
  | segmentTable
  deriving DecidableEq, Repr, Inhabited

/-- What the media reports to a controller that asked for a suspension (R86). -/
inductive SuspendOutcome where
  | tookEffect
  | endedWithPass
  | endedWithFail
  deriving DecidableEq, Repr, Inhabited

/-- The commands: host accesses to the register window, resets and supply events, the ends of host transfers, the steps
of a job, and the reports of the media and of the timers. -/
inductive Instr where
  /-- START: a write of CONTROL with START alone (R173). -/
  | start
  /-- STOP: a write of CONTROL with STOP alone (R171). -/
  | stop
  /-- ENGINE_RESET: a write of CONTROL with ENGINE_RESET (R174). -/
  | engineReset
  /-- ADMIN_SIZE_WRITE: a write of ADMIN_SIZE (R153). -/
  | adminSizeWrite (value : BitVec 32)
  /-- POST: a write of POST, bits 3:0 and 25:16 (R154, R179). -/
  | post (ring : BitVec 4) (tail : BitVec 10)
  /-- ACK: a write of ACK, bits 3:0, bit 8 and bits 25:16 (R159, R179). -/
  | ack (ring : BitVec 4) (arm : Bool) (head : BitVec 10)
  /-- STATE_READ: a read of `width` bytes at a byte offset of the register region; the read of STATE itself is of 4 bytes at
  0x004, and the reads of other registers and of other widths, which have no row of their own, are commands of the same
  form (R179, R180; assumption 28). -/
  | stateRead (offset width : Nat)
  /-- REGISTER_WRITE: a write of `width` bytes at a byte offset of the window (R179). -/
  | registerWrite (offset width : Nat) (value : BitVec 32)
  /-- LINK_RESET: a PCIe hot reset or a loss of link (R175). -/
  | linkReset
  /-- COLD_RESET: power-on, or the release of the reset input (R175). -/
  | coldReset
  /-- PARITY_ERROR: a parity error in index or segment-table memory (R176). -/
  | parityError (memory : ParityMemory)
  /-- DESCRIPTOR_FETCH_DONE: the end of the descriptor fetch in flight (R157). -/
  | descriptorFetchDone (descriptor : Option (List Byte))
  /-- DONE_RECORD_WRITTEN: the end of a ring's done-record write (R158). -/
  | doneRecordWritten (ring : Nat) (ok : Bool)
  /-- NOTICE_WRITE_DONE: the end of the notice write in flight (R165, R166). -/
  | noticeWriteDone (ok : Bool)
  /-- PUT: the start of a PUT job (R31). -/
  | put (ctx : Nat)
  /-- GET: the start of a GET job (R35). -/
  | get (ctx : Nat)
  /-- PROBE: a PROBE job (R37). -/
  | probe (ctx : Nat)
  /-- DELETE: the start of a DELETE job (R38). -/
  | delete (ctx : Nat)
  /-- MATCH: the start of a MATCH job (R39). -/
  | matchValue (ctx : Nat)
  /-- SCAN: the start of a SCAN job (R41). -/
  | scan (ctx : Nat)
  /-- OPEN_RING (R161). -/
  | openRing (ctx : Nat)
  /-- CLOSE_RING (R162). -/
  | closeRing (ctx : Nat)
  /-- SET_NOTICE (R166). -/
  | setNotice (ctx : Nat)
  /-- SET_LIMITS (R183). -/
  | setLimits (ctx : Nat)
  /-- QUERY_ENGINE (R185). -/
  | queryEngine (ctx : Nat)
  /-- QUERY_SEGMENT (R187). -/
  | querySegment (ctx : Nat)
  /-- RECLAIM (R129). -/
  | reclaim (ctx : Nat)
  /-- SCRUB (R132). -/
  | scrub (ctx : Nat)
  /-- FORMAT (R188). -/
  | format (ctx : Nat)
  /-- LOADING_DONE: the end of a job's host read into staging (R31, R39). -/
  | loadingDone (ctx : Nat) (data : Option (List Byte))
  /-- RETURNING_DONE: the end of a GET's value transfer (R36). -/
  | returningDone (ctx : Nat) (ok : Bool)
  /-- SCAN_BATCH_DONE: the end of a SCAN's batch transfer (R41). -/
  | scanBatchDone (ctx : Nat) (ok : Bool)
  /-- REPORT_WRITE_DONE: the end of a query's report write (R182). -/
  | reportWriteDone (ctx : Nat) (ok : Bool)
  /-- SPACE_WAIT_EXPIRY: a waiting job's deadline expires (R71). -/
  | spaceWaitExpiry (ctx : Nat)
  /-- QUANTUM_EXPIRY: the quantum of a bank's active operation expires (R85). -/
  | quantumExpiry (bank : Nat)
  /-- SUSPEND_REPORT: the media's report on a suspension asked for (R86). -/
  | suspendReport (bank : Nat) (outcome : SuspendOutcome)
  /-- READ_DONE: the end of a bank's READ. `flips` are the flipped bits the code finds in each cell read, in cell order, 0
  where the list ends (R89, R98; assumption 4). -/
  | readDone (bank : Nat) (flips : List Nat)
  /-- BLANK_CHECK_DONE: the end of a bank's BLANK_CHECK; `disturbed` when some cell that holds nothing has a bit out of
  the erased state (R78, R137). -/
  | blankCheckDone (bank : Nat) (disturbed : Bool)
  /-- PROGRAM_DONE: the end of a bank's PROGRAM with pass or fail (R90 to R92). -/
  | programDone (bank : Nat) (pass : Bool)
  /-- ERASE_DONE: the end of a bank's ERASE with pass or fail (R93). -/
  | eraseDone (bank : Nat) (pass : Bool)
  /-- PROGRAM_TIMEOUT: a PROGRAM has reached 2 ms of run time (R88). -/
  | programTimeout (bank : Nat)
  /-- ERASE_TIMEOUT: an ERASE has reached 25 ms of run time (R88). -/
  | eraseTimeout (bank : Nat)
  /-- RESET_INPUT_ASSERTED: the assertion of the module's reset input (R175). -/
  | resetInputAsserted
  /-- POWER_LOSS: a loss of supply (R175). -/
  | powerLoss
  deriving DecidableEq, Repr, Inhabited

end Sys2Proof
end

