-- ==== Sys2Proof/Decode.lean ====
section
/-! DEFINITION. The command that a word spells by the bits of spec/opcode_table.json. No row of the table gives bits: the
part takes register accesses, protocol events and reports, not encoded words, so no word spells a command. -/

namespace Sys2Proof

/-- The command a word of `nbits` bits spells: none, as no row of the table has bits (assumption 27). -/
def decodeTableWord (_nbits _w : Nat) : Option Instr := none

end Sys2Proof
end

