-- ==== Sys2Proof/Machine/Cells.lean ====
section
/-! DEFINITION. What a cell of the array can hold, as records and fields (the guide gives no bits of a cell, 00_scope),
and the open outcomes of an operation that is cut short. -/

namespace Sys2Proof.Machine

/-- The kind of a record (R2). -/
inductive RecordKind where
  | value
  | tombstone
  | loss
  deriving DecidableEq, Repr, Inhabited

/-- The contents of a header cell whose record marker and header check hold (R2). `checked` are the bytes whose CRC the
header carries as its value check: the guide gives the CRC no polynomial, so the 32 bits themselves are
`Config.crc checked` (assumption 6). -/
structure RecordHeader where
  kind : RecordKind
  key : Nat
  rseq : Nat
  len : Nat
  checked : List Byte
  deriving DecidableEq, Repr, Inhabited

/-- What a programmed cell holds. An erased cell is one the array does not list. -/
inductive CellData where
  /-- A record header whose marker and header check hold (R2). -/
  | header (h : RecordHeader)
  /-- A value cell: up to 64 bytes of the value (the padding of the last cell is not kept, R2). -/
  | value (bytes : List Byte)
  /-- A format cell whose marker and check hold (R54). -/
  | format (erases : Nat) (estimated : Bool)
  /-- An open cell whose marker and check hold (R54). -/
  | opened (sseq : Nat)
  /-- A retire cell whose mark and check hold (R54). -/
  | retire
  /-- A cell out of the erased state that is none of the above: a disturbed cell, of contents nothing gave it. -/
  | stray (tag : Nat)
  /-- A cell that a program cut short has left partly programmed: it meets no marker and check (R23, R54, R96,
  assumption 50). -/
  | torn (tag : Nat)
  deriving DecidableEq, Repr, Inhabited

/-- What one cell of a program that was cut short or failed holds afterwards (R88, R96). -/
inductive TornCell where
  | blank
  | whole
  | stray (tag : Nat)
  deriving DecidableEq, Repr, Inhabited

/-- What one cell of a segment whose erase was cut short or failed holds afterwards (R78, R96). -/
inductive EraseRemnant where
  | kept
  | erased
  | stray (tag : Nat)
  deriving DecidableEq, Repr, Inhabited

end Sys2Proof.Machine
end

