-- ==== Sys2Proof/Config.lean ====
section
/-! DEFINITION. The free values: what the guide leaves open, as constants without a body, so that nothing can be proved
of the value they take. Those read through a counter take `Engine.draws`, which every use advances. -/

namespace Sys2Proof

open Sys2Proof.Machine

/-- The 32-bit value check of a byte string (R2: "a 32-bit CRC over the value bytes"; no polynomial is given). Free,
assumption 6. -/
opaque Config.crc : List Byte → BitVec 32

/-- The record header that 64 bytes which were not programmed as a header spell, if they spell one (R2: the guide gives
the header no layout). Free, assumption 7. -/
opaque Config.headerOfBytes : List Byte → Option RecordHeader

/-- The 64 bytes of a cell that is not a value cell (no layout is given, 00_scope). Free, assumption 7. -/
opaque Config.layoutBytes : CellData → List Byte

/-- What the cell `cell` of a program that was cut short or failed holds, for the draw `n` (R88, R96). Free,
assumption 5. -/
opaque Config.tornCell (n cell : Nat) : TornCell

/-- Whether an erase that was cut short or failed had brought its format cell wholly to the erased state (R78). Free,
assumption 5. -/
opaque Config.formatCellErased (n : Nat) : Bool

/-- What a cut-short or failed erase has left of its format cell, when it has not wholly erased it. Free,
assumption 5. -/
opaque Config.formatRemnant (n : Nat) : EraseRemnant

/-- What a cut-short or failed erase that has erased its format cell has left of the cell `cell`. Free,
assumption 5. -/
opaque Config.eraseRemnant (n cell : Nat) : EraseRemnant

/-- The write sequence counter between a reset and phase 4 of the mount, which "has no defined value" (R4, R23). Free,
assumption 8. -/
opaque Config.undefinedSequence (n : Nat) : Nat

end Sys2Proof
end

