-- ==== Sys2Proof/Machine/Values.lean ====
section
/-! DEFINITION. The numbers of the part: sizes, limits, defaults and times, each with its rule. Times are in µs. -/

namespace Sys2Proof.Machine

/-- Segments in the array (00_scope, section 3.1). -/
abbrev segmentCount : Nat := 512
/-- Segments of one bank (section 3.1). -/
abbrev segmentsPerBank : Nat := 128
/-- Banks (section 3.1). -/
abbrev bankCount : Nat := 4
/-- Cells of one segment (section 3.1). -/
abbrev cellsPerSegment : Nat := 2048
/-- The first record cell (R54). -/
abbrev firstRecordCell : Nat := 2
/-- The retire cell, one past the last record cell (R54). -/
abbrev retireCell : Nat := 2047
/-- Record cells of one segment (R54). -/
abbrev recordCells : Nat := 2045
/-- Index capacity (R6). -/
abbrev indexCapacity : Nat := 65536
/-- The exhausted value of the write sequence counter, 2^48 (R4). -/
abbrev writeSeqExhausted : Nat := 281474976710656
/-- The exhausted value of the segment sequence counter, 2^32 (R5). -/
abbrev segSeqExhausted : Nat := 4294967296
/-- One past the highest key, 2^64 (R1). -/
abbrev keyLimit : Nat := 18446744073709551616
/-- The longest value, in bytes (R1). -/
abbrev maxValue : Nat := 4032
/-- The highest SCAN capacity, in bytes (R28). -/
abbrev maxScanCapacity : Nat := 65520
/-- Scan entries that staging holds (R26). -/
abbrev scanBatch : Nat := 256
/-- Job contexts (R24). -/
abbrev contextCount : Nat := 32
/-- Contexts one ring may hold (R24). -/
abbrev contextsPerRing : Nat := 16
/-- The last position of a chain (R45). -/
abbrev chainLength : Nat := 16
/-- Notices the queue holds (R164). -/
abbrev noticeQueueSize : Nat := 16
/-- One past the highest notice number (R164). -/
abbrev noticeNumbers : Nat := 65536
/-- Places of the refresh list (R108). -/
abbrev refreshPlaces : Nat := 8
/-- FREE segments a host head needs at its opening (R58). -/
abbrev hostHeadFree : Nat := 3
/-- The gap above the low watermark (R72). -/
abbrev watermarkGap : Nat := 4
/-- The retired count that adds RETIRED_LIMIT (R69, R145). -/
abbrev retiredLimit : Nat := 48
/-- The highest erase count, 2^24 - 1 (R54). -/
abbrev maxEraseCount : Nat := 16777215
/-- The waste the start test allows for (R114). -/
abbrev startWaste : Nat := 63
/-- The quantum of a program (R78). -/
abbrev programQuantum : Nat := 30
/-- The suspend limit of a program (R78). -/
abbrev programSuspends : Nat := 4
/-- The suspend limit of an erase (R78). -/
abbrev eraseSuspends : Nat := 32
/-- The highest host streak (R80). -/
abbrev maxStreak : Nat := 8
/-- Flipped bits the code corrects in a cell (R97). -/
abbrev correctable : Nat := 4
/-- Default low watermark (R170). -/
abbrev defaultLowWater : Nat := 24
/-- Default space wait limit, in ms (R170). -/
abbrev defaultSpaceWait : Nat := 200
/-- Default erase quantum (R170). -/
abbrev defaultEraseQuantum : Nat := 500
/-- Default refresh threshold (R170). -/
abbrev defaultThreshold : Nat := 3
/-- What IDENT reads (R179). -/
abbrev identValue : Nat := 0x06400002

/-- The bank of a segment: its number divided by 128 (R55). -/
def bankOf (seg : Nat) : Nat := seg / segmentsPerBank

end Sys2Proof.Machine
end

