-- ==== Sys2Proof/Machine/State.lean ====
section
/-! DEFINITION. The state of the part, block by block as 00_scope names the blocks, every field with the rule that gives
it; the state after reset; the reasons a step can stop. All of it is plain data. -/

namespace Sys2Proof.Machine

open Sys2Proof

/-! ### The array -/

/-- The cell array (00_scope): the programmed cells by number, `2048 * segment + cell`, strictly rising; an unlisted
cell is erased. -/
abbrev CellArray := List (Nat × CellData)

/-! ### The Index Unit (chapter 1) -/

/-- A location: segment, first cell and cell count (R7). -/
structure Location where
  seg : Nat
  cell : Nat
  count : Nat
  deriving DecidableEq, Repr, Inhabited

/-- The loss form of a LOST entry (R7). -/
inductive LossForm where
  | marker
  | damaged
  deriving DecidableEq, Repr, Inhabited

/-- An entry's kind with the fields its kind gives it (R7). -/
inductive EntryBody where
  | nascent
  | value (loc : Location) (rseq len : Nat)
  | deleted (loc : Location) (rseq : Nat)
  | lost (loc : Location) (rseq : Nat) (form : LossForm)
  deriving DecidableEq, Repr, Inhabited

/-- The entry kinds as done records report them (R29, R192); `absent` is NONE. -/
inductive KeyKind where
  | absent
  | nascent
  | value
  | deleted
  | lost
  deriving DecidableEq, Repr, Inhabited

/-- The two kinds of write (R7). -/
inductive WriteKind where
  | put
  | delete
  deriving DecidableEq, Repr, Inhabited

/-- The progress of a pending write (R7). -/
inductive Progress where
  | inFlight
  | durable
  | failed
  deriving DecidableEq, Repr, Inhabited

/-- The pending write of an entry (R7). -/
structure PendingWrite where
  ctx : Nat
  write : WriteKind
  rseq : Nat
  progress : Progress
  deriving DecidableEq, Repr, Inhabited

/-- An index entry (R7). DESIGN CHOICE, unsafe (assumption 51): R7 gives the stale count the range 0 to 1,047,040, and no rule
says what a rise at its top does; the model counts on without a limit. -/
structure Entry where
  key : Nat
  body : EntryBody
  stale : Nat := 0
  pending : Option PendingWrite := none
  waiters : List Nat := []
  deriving DecidableEq, Repr, Inhabited

/-- The Index Unit: the entries in ascending key order (R6) and the write sequence counter (R4). -/
structure IndexUnit where
  entries : List Entry := []
  writeSeq : Nat := 0
  deriving DecidableEq, Repr, Inhabited

/-! ### The Space Manager (chapter 3) -/

/-- The states of a segment (R56); `unclassified` while a mount has not classified it (R185, R186). -/
inductive SegState where
  | free
  | head
  | full
  | failedClosed
  | reclaiming
  | erasing
  | dirty
  | retired
  | unclassified
  deriving DecidableEq, Repr, Inhabited

/-- The role of a head (R55). -/
inductive HeadRole where
  | host
  | reclaim
  deriving DecidableEq, Repr, Inhabited

/-- A record of the segment table (R55). -/
structure SegRecord where
  state : SegState := .unclassified
  eraseCount : Nat := 0
  estimated : Bool := false
  sseq : Option Nat := none
  role : Option HeadRole := none
  writePtr : Nat := 2
  progPtr : Nat := 2
  live : Nat := 0
  pins : Nat := 0
  weak : Bool := false
  progFailed : Bool := false
  deriving DecidableEq, Repr, Inhabited

/-- A place of the space-wait queue: the job context and its deadline, in µs (R70). -/
structure SpaceWaiter where
  ctx : Nat
  deadline : Nat
  deriving DecidableEq, Repr, Inhabited

/-- The Space Manager. `released` is the victim handed back and not yet erasing or retired (R67); `pinWait` are the
segments a FORMAT made ERASING whose erase waits for their pins (R73). -/
structure SpaceManager where
  segs : List SegRecord := List.replicate segmentCount {}
  segSeq : Nat := 1
  rotation : Nat := 3
  waitQueue : List SpaceWaiter := []
  low : Bool := false
  released : Option Nat := none
  pinWait : List Nat := []
  deriving DecidableEq, Repr, Inhabited

/-! ### The Bank Controllers (chapter 4) -/

/-- The requester a request answers to (R76). -/
inductive Requester where
  | ctx (c : Nat)
  | reclaim
  | mount
  | space
  deriving DecidableEq, Repr, Inhabited

/-- The kinds of request (R76). -/
inductive RequestKind where
  | read
  | hostRecord
  | hostOpen
  | reclaimRecord
  | reclaimOpen
  | formatCell
  | retireCell
  | erase
  | blankCheck
  deriving DecidableEq, Repr, Inhabited

/-- A media request (R76): `count` cells of `seg` from `cell`; for a program the cell contents taken from its contents
source, and for a record its failure count. -/
structure Request where
  kind : RequestKind
  seg : Nat
  cell : Nat := 0
  count : Nat := 1
  requester : Requester
  failures : Nat := 0
  contents : List CellData := []
  deriving DecidableEq, Repr, Inhabited

/-- A started operation with its suspend count and run time in µs (R75). -/
structure Operation where
  request : Request
  suspends : Nat := 0
  runTime : Nat := 0
  deriving DecidableEq, Repr, Inhabited

/-- The bank states (R75). -/
inductive BankState where
  | idle
  | active
  | suspending
  deriving DecidableEq, Repr, Inhabited

/-- A Bank Controller (R75); the suspend stack has its top first. -/
structure Bank where
  state : BankState := .idle
  active : Option Operation := none
  quantumEnd : Option Nat := none
  stack : List Operation := []
  readQ : List Request := []
  hostQ : List Request := []
  reclaimQ : List Request := []
  eraseQ : List Request := []
  streak : Nat := 0
  deriving DecidableEq, Repr, Inhabited

/-! ### The Job Unit (chapter 2) -/

/-- The jobs (R193). -/
inductive Job where
  | put
  | get
  | probe
  | delete
  | matchValue
  | scan
  | openRing
  | closeRing
  | setNotice
  | setLimits
  | queryEngine
  | querySegment
  | reclaim
  | scrub
  | format
  deriving DecidableEq, Repr, Inhabited

/-- The status codes (R194). -/
inductive Status where
  | ok
  | skipped
  | notFound
  | exists
  | conflict
  | damaged
  | mediaError
  | shortBuffer
  | indexFull
  | noSpace
  | readOnly
  | badDescriptor
  | badKey
  | badLength
  | badChain
  | wrongRing
  | hostError
  | notMounted
  | busy
  | badParam
  deriving DecidableEq, Repr, Inhabited

/-- The outcome flags (R30, R45). -/
structure OutcomeFlags where
  succeeded : Bool := false
  found : Bool := false
  matched : Bool := false
  deriving DecidableEq, Repr, Inhabited

/-- The limits SET_LIMITS changes (R170, R183). -/
structure Limits where
  lowWater : Nat := defaultLowWater
  spaceWait : Nat := defaultSpaceWait
  eraseQuantum : Nat := defaultEraseQuantum
  threshold : Nat := defaultThreshold
  deriving DecidableEq, Repr, Inhabited

/-- The causes of READ_ONLY (R170). -/
structure ReadOnlyCauses where
  retiredLimit : Bool := false
  indexOverflow : Bool := false
  writeSequence : Bool := false
  segmentSequence : Bool := false
  deriving DecidableEq, Repr, Inhabited

/-- The tallies of a reclaim (R111). -/
structure Tallies where
  copied : Nat := 0
  markers : Nat := 0
  dropped : Nat := 0
  stalePassed : Nat := 0
  resync : Nat := 0
  deriving DecidableEq, Repr, Inhabited

/-- The end state a RECLAIM reports (R194). -/
inductive ReclaimEnd where
  | none
  | free
  | retired
  | held
  deriving DecidableEq, Repr, Inhabited

/-- The end cause a SCRUB reports (R132). -/
inductive ScrubEnd where
  | blank
  | limit
  | state
  deriving DecidableEq, Repr, Inhabited

/-- The result fields of a done record (R29, R182, R194). -/
inductive Results where
  | none
  | record (rseq len : Nat)
  | scan (next count : Nat)
  | close (unfetched : Nat)
  | limits (l : Limits)
  | segment (seg : Nat)
  | reclaim (victim : Option Nat) (ended : ReclaimEnd) (cursor : Nat) (tallies : Tallies)
  | scrub (seg : Nat) (ended : ScrubEnd) (maxBits walked records corrected uncorrectable : Nat)
  | format (erased retired freeCount retiredCount : Nat) (causes : ReadOnlyCauses)
  deriving DecidableEq, Repr, Inhabited

/-- The outcome of a job, as its done record reports it (R29). -/
structure JobOutcome where
  status : Status := .ok
  flags : OutcomeFlags := {}
  kind : KeyKind := .absent
  results : Results := .none
  deriving DecidableEq, Repr, Inhabited

/-- The states of a job context (R25). -/
inductive CtxState where
  | free
  | taken
  | linkWait
  | loading
  | keyWait
  | spaceWait
  | media
  | returning
  | posting
  deriving DecidableEq, Repr, Inhabited

/-- A transfer of the DMA mover for a job (R31, R36, R41, R182). -/
inductive Transfer where
  | load (address length : Nat)
  | store (address : Nat) (bytes : List Byte)
  deriving DecidableEq, Repr, Inhabited

/-- What admission hands back to a write (R12). -/
structure Grant where
  kind : KeyKind
  rseq : Nat
  matched : Bool
  deriving DecidableEq, Repr, Inhabited

/-- The walk of a SCAN (R18, R41): the lowest key not yet passed, the entries it may still report, the entries reported,
the bytes written to the host, and the continuation key once the walk has ended. -/
structure ScanWork where
  next : Nat := 0
  left : Nat := 0
  count : Nat := 0
  written : Nat := 0
  ended : Option Nat := none
  deriving DecidableEq, Repr, Inhabited

/-- The walk of a SCRUB (R132, R106). -/
structure ScrubWork where
  seg : Nat := 0
  cursor : Nat := 0
  limit : Nat := 0
  header : Option RecordHeader := none
  records : Nat := 0
  corrected : Nat := 0
  maxBits : Nat := 0
  uncorrectable : Nat := 0
  deriving DecidableEq, Repr, Inhabited

/-- A job context (R24 to R27). `held` while a fetch holds it; `position` and `predecessor` are its chain place (R46);
`verdict` the status of a failed check (R28); `ready` from the end of its checks and chain wait to its job step;
`failures` the failure count of its record while the record waits for space (R91). -/
structure JobContext where
  state : CtxState := .free
  held : Bool := false
  ring : Nat := 0
  slot : Nat := 0
  descriptor : List Byte := []
  position : Nat := 0
  predecessor : Option Nat := none
  verdict : Option Status := none
  ready : Bool := false
  staging : List Byte := []
  transfer : Option Transfer := none
  found : Option EntryBody := none
  grant : Option Grant := none
  failures : Nat := 0
  scan : ScanWork := {}
  scrub : ScrubWork := {}
  outcome : JobOutcome := {}
  deriving DecidableEq, Repr, Inhabited

/-! ### The Ring Unit (chapter 8) -/

/-- The chain state of a ring (R45). -/
structure ChainState where
  linked : Bool := false
  position : Nat := 0
  predecessor : Option Nat := none
  flags : OutcomeFlags := {}
  deriving DecidableEq, Repr, Inhabited

/-- The ring states (R150). -/
inductive RingState where
  | closed
  | opened
  | draining
  | faulted
  deriving DecidableEq, Repr, Inhabited

/-- A job ring's context (R150), its list of records to write, oldest first, whether the first of them is being written
(R158), the CLOSE_RING context that waits on it (R162), and its chain state (R45). -/
structure RingContext where
  state : RingState := .closed
  jobBase : Nat := 0
  doneBase : Nat := 0
  size : Nat := 0
  priority : Nat := 0
  vector : Nat := 0
  armed : Bool := false
  tail : Nat := 0
  fetch : Nat := 0
  inFlight : Nat := 0
  doneIndex : Nat := 0
  donePhase : Bool := true
  head : Nat := 0
  posting : List Nat := []
  writing : Bool := false
  closer : Option Nat := none
  chain : ChainState := {}
  deriving DecidableEq, Repr, Inhabited

/-- The fetch arbiter: the ring and context of the fetch in flight (R156), and the ring served last at each priority
level 0 to 3 (R150). -/
structure Arbiter where
  fetching : Option (Nat × Nat) := none
  served : List (Option Nat) := [none, none, none, none]
  deriving DecidableEq, Repr, Inhabited

/-- The causes of a retirement (R167). -/
inductive RetireCause where
  | programFailed
  | eraseFailed
  | formatFailed
  deriving DecidableEq, Repr, Inhabited

/-- The causes of a ring fault (R163). -/
inductive FaultCause where
  | fetchError
  | doneWriteError
  deriving DecidableEq, Repr, Inhabited

/-- The causes of a change of write mode (R177, R178, R195). -/
inductive ModeCause where
  | retiredLimit
  | writeSequence
  | segmentSequence
  | format
  deriving DecidableEq, Repr, Inhabited

/-- The halt cause (R170). -/
inductive HaltCause where
  | none
  | indexParity
  | tableParity
  deriving DecidableEq, Repr, Inhabited

/-- The contents of a notice (R167, R195). -/
inductive NoticeBody where
  | spaceLow (freeCount lowWater : Nat)
  | spaceRestored (freeCount lowWater : Nat)
  | writeMode (causes : ReadOnlyCauses) (cause : ModeCause)
  | segmentRetired (seg : Nat) (cause : RetireCause) (eraseCount retiredCount : Nat)
  | dataLost (key rseq : Nat) (before : KeyKind) (lostSeg lostCell markerSeg markerCell : Nat)
  | ringFaulted (ring : Nat) (cause : FaultCause) (slot : Nat)
  | formatDone (erased retired freeCount retiredCount : Nat) (causes : ReadOnlyCauses) (ms : Nat)
  | halted (cause : HaltCause)
  | mountDone1 (causes : ReadOnlyCauses) (writeSeq segSeq values deleted lost estimated ms : Nat)
  | mountDone2 (free full dirty retired scanned torn resync damaged overflow : Nat)
  deriving DecidableEq, Repr, Inhabited

/-- A queued notice: its number, its contents, and the OVERRUN mark it carries once its write has been issued (R165). -/
structure Notice where
  number : Nat
  body : NoticeBody
  overrun : Bool := false
  deriving DecidableEq, Repr, Inhabited

/-- The notice ring, when one is set (R164). -/
structure NoticeRing where
  base : Nat := 0
  size : Nat := 0
  vector : Nat := 0
  armed : Bool := false
  writeIndex : Nat := 0
  phase : Bool := true
  head : Nat := 0
  deriving DecidableEq, Repr, Inhabited

/-- The notice side of the Ring Unit (R164), with the SET_NOTICE contexts that wait for a notice write in flight
(R166). -/
structure NoticeUnit where
  queue : List Notice := []
  number : Nat := 0
  overrun : Bool := false
  ring : Option NoticeRing := none
  writing : Bool := false
  setters : List Nat := []
  deriving DecidableEq, Repr, Inhabited

/-! ### The Reclaim Unit (chapter 6) -/

/-- The reclaim states (R111). -/
inductive ReclaimState where
  | idle
  | grantWait
  | stepping
  | paused
  | released
  deriving DecidableEq, Repr, Inhabited

/-- The pause causes (R111). -/
structure PauseCauses where
  stop : Bool := false
  readOnly : Bool := false
  space : Bool := false
  deriving DecidableEq, Repr, Inhabited

/-- What a step writes to the reclaim head (R118 to R121). -/
inductive Written where
  | valueCopy
  | lossCopy
  | tombstone
  | lossMarker
  deriving DecidableEq, Repr, Inhabited

/-- The step under way in STEPPING: none, its header read, its value read, or its program and the claim that follows
(R116 to R120). -/
inductive ReclaimStep where
  | none
  | header
  | values (h : RecordHeader)
  | program (what : Written) (key : Nat) (original : Location)
  deriving DecidableEq, Repr, Inhabited

/-- The Reclaim Unit (R111, R108). `sweep` is the lowest key an orphan sweep has yet to settle (R121); `buffer` the
contents of the record of the step under way; `choiceDue` marks that an event of R112 has been taken in the step under
way, and is clear between steps. -/
structure ReclaimUnit where
  state : ReclaimState := .idle
  victim : Option Nat := none
  cursor : Option Nat := none
  causes : PauseCauses := {}
  continuous : Bool := false
  requester : Option Nat := none
  tallies : Tallies := {}
  buffer : List CellData := []
  refresh : List Nat := []
  step : ReclaimStep := .none
  sweep : Option Nat := none
  choiceDue : Bool := false
  deriving DecidableEq, Repr, Inhabited

/-! ### The Mount Unit (chapter 7) -/

/-- The mount phases (R134). -/
inductive MountPhase where
  | none
  | survey
  | passA
  | passB
  | finish
  deriving DecidableEq, Repr, Inhabited

/-- The verdicts on a control cell (R54). -/
inductive ControlVerdict where
  | valid
  | blank
  | invalid
  deriving DecidableEq, Repr, Inhabited

/-- The scan statistics (R146); the mount time is in ms. -/
structure MountStats where
  records : Nat := 0
  torn : Nat := 0
  resync : Nat := 0
  damaged : Nat := 0
  dirty : Nat := 0
  estimated : Nat := 0
  overflow : Nat := 0
  ms : Nat := 0
  deriving DecidableEq, Repr, Inhabited

/-- The Mount Unit (R134): phase, statistics, and the working state of the phase under way. `format` and `opened` hold
the survey's verdicts on cells 0 and 1 of the segment being surveyed, `heldWeak` its weak mark, `unformatted` the
segments whose format cell is not VALID, `blankChecks` the segments whose blank check, or the programs after it, have not
ended, `others` whether pass A is at the DIRTY and RETIRED segments, and `started` the moment of the reset. -/
structure MountUnit where
  phase : MountPhase := .none
  stats : MountStats := {}
  started : Nat := 0
  seg : Nat := 0
  cursor : Nat := 0
  header : Option RecordHeader := none
  others : Bool := false
  format : ControlVerdict := .blank
  opened : ControlVerdict := .blank
  heldWeak : Bool := false
  unformatted : List Nat := []
  eraseSum : Nat := 0
  formatCells : Nat := 0
  mean : Nat := 0
  maxRseq : Nat := 0
  maxSseq : Nat := 0
  blankChecks : Nat := 0
  deriving DecidableEq, Repr, Inhabited

/-! ### FORMAT (chapter 10) -/

/-- The stages of an accepted FORMAT (R189, R190): waiting for the reclaim to end, waiting for the erases, and waiting
for its done record. -/
inductive FormatStage where
  | ending
  | erasing
  | posting
  deriving DecidableEq, Repr, Inhabited

/-- The FORMAT that is running (R188): its context, stage, moment of acceptance, the segments of stage 3, and how many
of them have become FREE and been retired. -/
structure FormatRun where
  ctx : Nat
  stage : FormatStage := .ending
  started : Nat := 0
  segs : List Nat := []
  erased : Nat := 0
  retired : Nat := 0
  deriving DecidableEq, Repr, Inhabited

/-! ### Engine Control and the Host Port (chapter 9) -/

/-- The engine states (R170). -/
inductive EngineState where
  | mounting
  | running
  | stopping
  | stopped
  | halted
  deriving DecidableEq, Repr, Inhabited

/-- The sticky flags of STATE (R170). -/
structure StickyFlags where
  postError : Bool := false
  adminSetupError : Bool := false
  noticeFault : Bool := false
  deriving DecidableEq, Repr, Inhabited

/-- Engine Control (R170). The write mode is READ_ONLY exactly when a cause holds; `readOnly` in Machine/Ops.lean
reads it. -/
structure EngineControl where
  engine : EngineState := .mounting
  causes : ReadOnlyCauses := {}
  halt : HaltCause := .none
  limits : Limits := {}
  sticky : StickyFlags := {}
  deriving DecidableEq, Repr, Inhabited

/-- The registers of the window that hold a value (R179). -/
structure Registers where
  adminBaseLo : BitVec 32 := 0
  adminBaseHi : BitVec 32 := 0
  adminSize : BitVec 32 := 0
  deriving DecidableEq, Repr, Inhabited

/-- What the part sends to the host: the answer to a register read, the request of a descriptor's 64 bytes from a host
address (R151, R157), an interrupt message, bytes written to host memory, and bytes of which any part may have been
written by a transfer that failed or was abandoned. -/
inductive HostOutput where
  | readData (width value : Nat)
  | fetch (address : Nat)
  | interrupt (vector : Nat)
  | memory (address : Nat) (bytes : List Byte)
  | maybeMemory (address : Nat) (bytes : List Byte)
  deriving DecidableEq, Repr, Inhabited

/-- The engine: its ten blocks. The model's own fields: `now`, the clock in µs (assumption 9); `draws`, how many free
values have been drawn (assumption 5); `output`, what has been sent to the host, newest first (assumption 20). -/
structure Engine where
  registers : Registers := {}
  rings : List RingContext := List.replicate 8 {}
  arbiter : Arbiter := {}
  notices : NoticeUnit := {}
  ctxs : List JobContext := List.replicate contextCount {}
  index : IndexUnit := {}
  space : SpaceManager := {}
  banks : List Bank := List.replicate bankCount {}
  reclaim : ReclaimUnit := {}
  mount : MountUnit := {}
  format : Option FormatRun := none
  control : EngineControl := {}
  now : Nat := 0
  draws : Nat := 0
  output : List HostOutput := []
  deriving DecidableEq, Repr, Inhabited

/-- The module's supply and reset input (R175): powered and running, held in reset by the input, or without supply. -/
inductive Supply where
  | on
  | held
  | off
  deriving DecidableEq, Repr, Inhabited

/-- The part: the cell array, the supply, the engine, and the queue of commands that wait, oldest first. -/
structure State where
  array : CellArray := []
  supply : Supply := .on
  engine : Engine := {}
  pending : List Instr := []
  deriving DecidableEq, Repr, Inhabited

/-- The first request of every mount: the READ of cells 0 and 1 of segment 0 (R134, R136). -/
def firstSurveyRead : Request := { kind := .read, seg := 0, cell := 0, count := 2, requester := .mount }

/-- The part right after a power-on reset, on an array with nothing programmed: MOUNTING, phase SURVEY, the first
survey read started at bank 0, and everything else as R23, R53, R74, R75, R111, R164, R169 and R170 say. -/
def State.reset : State :=
  { engine :=
      { mount := { phase := .survey }
        banks :=
          [{ state := .active, active := some { request := firstSurveyRead } }, {}, {}, {}] } }

/-- The reasons a step can stop with a fault. There are none: every command and event of the guide has an effect, or
finds nothing to act on and changes nothing (assumption 1). -/
inductive Fault where
  deriving DecidableEq, Repr

/-- The reasons a step can be refused. -/
inductive Refusal where
  /-- Raised by exec for a row that has no meaning yet; safe: nothing is claimed of it. No arm of this model raises
  it. -/
  | notModelled (mnemonic : String)
  deriving DecidableEq, Repr

end Sys2Proof.Machine
end

