-- ==== Sys2Proof/Machine/Ops.lean ====
section
/-! DEFINITION. The named operations every block uses: reading and updating one context, ring, bank or segment record,
counting segments, raising notices, sending to the host, and deciding a job's outcome. -/

namespace Sys2Proof.Machine

open Sys2Proof

/-! ### Lists -/

/-- The list with item `i` changed by `f`; unchanged where there is no item `i`. -/
def updAt {α : Type} : List α → Nat → (α → α) → List α
  | [], _, _ => []
  | a :: l, 0, f => f a :: l
  | a :: l, i + 1, f => a :: updAt l i f

/-- The first item that no later item is better than. -/
def bestOf {α : Type} (better : α → α → Bool) (l : List α) : Option α :=
  l.foldl (fun best a => match best with
    | none => some a
    | some b => if better a b then some a else some b) none

/-! ### One context, ring, bank, segment record -/

def Engine.ctx (e : Engine) (c : Nat) : JobContext := e.ctxs.getD c {}
def Engine.ring (e : Engine) (r : Nat) : RingContext := e.rings.getD r {}
def Engine.bank (e : Engine) (b : Nat) : Bank := e.banks.getD b {}
def Engine.seg (e : Engine) (n : Nat) : SegRecord := e.space.segs.getD n {}

def Engine.modCtx (e : Engine) (c : Nat) (f : JobContext → JobContext) : Engine :=
  { e with ctxs := updAt e.ctxs c f }
def Engine.modRing (e : Engine) (r : Nat) (f : RingContext → RingContext) : Engine :=
  { e with rings := updAt e.rings r f }
def Engine.modBank (e : Engine) (b : Nat) (f : Bank → Bank) : Engine :=
  { e with banks := updAt e.banks b f }
def Engine.modSeg (e : Engine) (n : Nat) (f : SegRecord → SegRecord) : Engine :=
  { e with space := { e.space with segs := updAt e.space.segs n f } }

/-- The segment table with each record's segment number. -/
def Engine.segTable (e : Engine) : List (SegRecord × Nat) := e.space.segs.zipIdx

/-- The number of segments in a state (R57, R185). -/
def Engine.countSegs (e : Engine) (st : SegState) : Nat := e.space.segs.countP (·.state = st)

/-- The FREE count (R57). -/
def Engine.freeCount (e : Engine) : Nat := e.countSegs .free

/-- The retired count: the segments in state RETIRED (R69). -/
def Engine.retiredCount (e : Engine) : Nat := e.countSegs .retired

/-- The states an index entry may point into, but for RECLAIMING: the states that are eligible for the refresh list and
as a victim (R65, R108). -/
def SegState.eligible : SegState → Bool
  | .head | .full | .failedClosed => true
  | _ => false

/-- The states of an in-use segment (R132, R102). -/
def SegState.inUse (s : SegState) : Bool := s.eligible || s == .reclaiming

/-- The dead cells of a segment (R55). -/
def SegRecord.dead (g : SegRecord) : Nat := g.writePtr - 2 - g.live

/-- The record cells a segment has left (R59, R114). -/
def SegRecord.cellsLeft (g : SegRecord) : Nat := retireCell - g.writePtr

/-- Whether any cause of READ_ONLY holds. -/
def ReadOnlyCauses.any (c : ReadOnlyCauses) : Bool :=
  c.retiredLimit || c.indexOverflow || c.writeSequence || c.segmentSequence

/-- The write mode: READ_ONLY exactly when the cause set is not empty (R170). -/
def Engine.readOnly (e : Engine) : Bool := e.control.causes.any

/-- The engine state (R170). -/
def Engine.state (e : Engine) : EngineState := e.control.engine

/-- The engine state changes (R170). -/
def Engine.setState (e : Engine) (st : EngineState) : Engine := { e with control := { e.control with engine := st } }

/-- Whether a FORMAT is running: from its acceptance until its done record is written or discarded (R188). -/
def Engine.formatting (e : Engine) : Bool := e.format.isSome

/-- Whether a FORMAT is waiting for the Reclaim Unit to end its reclaim (R127, R189). -/
def Engine.formatEnding (e : Engine) : Bool :=
  match e.format with
  | some f => f.stage == .ending
  | none => false

/-! ### Sending to the host -/

/-- Send something to the host. -/
def Engine.emit (e : Engine) (o : HostOutput) : Engine := { e with output := o :: e.output }

/-- An interrupt message on a vector (R160). -/
def Engine.sendMessage (e : Engine) (vector : Nat) : Engine := e.emit (.interrupt vector)

/-- The notice side after a notice is raised: it takes the notice number, and joins the queue or is discarded with the
overrun flag set (R164). -/
def NoticeUnit.raise (n : NoticeUnit) (body : NoticeBody) : NoticeUnit :=
  if n.queue.length < noticeQueueSize then
    { n with
      number := (n.number + 1) % noticeNumbers
      queue := n.queue ++ [{ number := n.number, body := body }] }
  else { n with number := (n.number + 1) % noticeNumbers, overrun := true }

/-- Raise a notice (R164). -/
def Engine.raiseNotice (e : Engine) (body : NoticeBody) : Engine := { e with notices := e.notices.raise body }

/-! ### Jobs -/

/-- A job's outcome is decided: its context enters POSTING and its done record joins its ring's list (R29, R158). -/
def Engine.complete (e : Engine) (c : Nat) (o : JobOutcome) : Engine :=
  (e.modCtx c fun x => { x with state := .posting, ready := false, transfer := none, outcome := o }).modRing
    (e.ctx c).ring fun g => { g with posting := g.posting ++ [c] }

/-- An admin job's outcome: SUCCEEDED exactly when the status is OK (R182). -/
def adminOutcome (st : Status) (results : Results := .none) : JobOutcome :=
  { status := st, flags := { succeeded := st == .ok }, results := results }

/-! ### The Reclaim Unit's marks -/

/-- An event of R112 has been taken: the unit makes its choice at the end of the step (assumption 12). -/
def Engine.wantChoice (e : Engine) : Engine := { e with reclaim := { e.reclaim with choiceDue := true } }

/-- Whether any pause cause holds (R111). -/
def PauseCauses.any (c : PauseCauses) : Bool := c.stop || c.readOnly || c.space

/-! ### Write mode (R177) -/

/-- Add a cause to the set. -/
def ReadOnlyCauses.add (c : ReadOnlyCauses) : ModeCause → ReadOnlyCauses
  | .retiredLimit => { c with retiredLimit := true }
  | .writeSequence => { c with writeSequence := true }
  | .segmentSequence => { c with segmentSequence := true }
  | .format => c

/-- A READ_ONLY cause is reported to Engine Control: if the set was empty the write mode becomes READ_ONLY, WRITE_MODE is
raised and the Reclaim Unit adds its cause; otherwise the cause is added alone. No report is made during MOUNTING
(R177). -/
def Engine.addCause (e : Engine) (cause : ModeCause) : Engine :=
  if e.state = .mounting then e
  else
    let causes := e.control.causes.add cause
    let e' := { e with control := { e.control with causes := causes } }
    if e.readOnly then e'
    else
      { e'.raiseNotice (.writeMode causes cause) with
        reclaim := { e.reclaim with causes := { e.reclaim.causes with readOnly := true } } }

/-! ### Time -/

/-- Run time accrues while the operation is active and its bank ACTIVE (R82, R88). -/
def Bank.tick (k : Bank) : Bank :=
  match k.state with
  | .active => { k with active := k.active.map fun o => { o with runTime := o.runTime + 1 } }
  | _ => k

/-- One µs passes with no command: the clock advances and active operations accrue run time. Nothing passes for the
engine while the reset input is held or the supply is gone (assumption 9). -/
def State.tick (s : State) : State :=
  match s.supply with
  | .on => { s with engine := { s.engine with now := s.engine.now + 1, banks := s.engine.banks.map Bank.tick } }
  | _ => s

/-- A command's effect, which there is none of without supply or with the reset input held (R175, assumption 17). -/
def State.whenOn (s : State) (f : State → State) : State :=
  match s.supply with
  | .on => f s
  | _ => s

/-- A command's effect on the engine alone. -/
def State.withEngine (s : State) (f : Engine → Engine) : State := s.whenOn fun t => { t with engine := f t.engine }

end Sys2Proof.Machine
end

