-- ==== Sys2Proof/Machine/Array.lean ====
section
/-! DEFINITION. The cell array: reading a cell, programming and erasing, and what an operation that failed or was cut
short leaves behind (R54, R78, R88, R96). The list keeps one canonical form: cell numbers strictly rising, only
programmed cells listed. -/

namespace Sys2Proof.Machine

open Sys2Proof

/-- The number of a cell of a segment. -/
def cellNumber (seg cell : Nat) : Nat := cellsPerSegment * seg + cell

/-- The contents of a cell, `none` when it is erased. -/
def CellArray.get : CellArray → Nat → Option CellData
  | [], _ => none
  | (k, d) :: l, n => if k = n then some d else CellArray.get l n

/-- The array with cell `n` holding `d`, or erased. -/
def CellArray.set : CellArray → Nat → Option CellData → CellArray
  | [], n, some d => [(n, d)]
  | [], _, none => []
  | (k, d) :: l, n, v =>
    if n < k then
      match v with
      | some x => (n, x) :: (k, d) :: l
      | none => (k, d) :: l
    else if n = k then
      match v with
      | some x => (k, x) :: l
      | none => l
    else (k, d) :: CellArray.set l n v

/-- The canonical form: cell numbers strictly rising. -/
abbrev CellArray.wf (a : CellArray) : Prop := (a.map (·.1)).Pairwise (· < ·)

/-- Whether a cell number lies in a segment. -/
def inSegment (seg n : Nat) : Bool := cellsPerSegment * seg ≤ n && n < cellsPerSegment * (seg + 1)

/-- Program consecutive cells from cell `n` on. -/
def CellArray.program : CellArray → Nat → List CellData → CellArray
  | a, _, [] => a
  | a, n, d :: ds => CellArray.program (a.set n (some d)) (n + 1) ds

/-- An erase that passed: every cell of the segment is erased (R78). -/
def CellArray.erase (a : CellArray) (seg : Nat) : CellArray := a.filter fun p => !inSegment seg p.1

/-- Whether every cell of a segment is erased (R78). -/
def CellArray.blank (a : CellArray) (seg : Nat) : Bool := a.all fun p => !inSegment seg p.1

/-- What a torn cell holds, when `d` was to be programmed. -/
def TornCell.contents (d : CellData) : TornCell → Option CellData
  | .blank => none
  | .whole => some d
  | .stray t => some (.stray t)

/-- The cells of a program that failed: each holds whatever the media left of it, and all of them may be whole (R88,
R147). -/
def CellArray.failProgram : CellArray → Nat → Nat → List CellData → CellArray
  | a, _, _, [] => a
  | a, draw, n, d :: ds =>
    CellArray.failProgram (a.set n ((Config.tornCell draw n).contents d)) draw (n + 1) ds

/-- What a program cut short holds in a cell in which `d` was to be programmed; unless `mayBeWhole`, `d` itself is not
among it (R96). -/
def TornCell.cutContents (d : CellData) (draw : Nat) (mayBeWhole : Bool) : TornCell → Option CellData
  | .blank => none
  | .whole => some (if mayBeWhole then d else .torn draw)
  | .stray t => some (.torn t)

/-- The cells of a program cut short, each left blank, torn, or, where it may be, whole (R96). -/
def CellArray.cutCells : CellArray → Nat → Bool → Nat → List CellData → CellArray
  | a, _, _, _, [] => a
  | a, draw, mayBeWhole, n, d :: ds =>
    CellArray.cutCells (a.set n ((Config.tornCell draw n).cutContents d draw mayBeWhole)) draw mayBeWhole (n + 1) ds

/-- A program cut short leaves a torn record or a torn control cell, of which mount takes nothing (R23, R96): either its
first cell is not whole, and then none of its cells is; or its header is whole and one of its value cells, of the draw's
choice or else the last, is blank, which makes it TORN (R100). That it takes one of these two forms is inferred
(assumption 50). -/
def CellArray.cutProgram (a : CellArray) (draw n : Nat) (ds : List CellData) : CellArray :=
  let headerWhole := Config.tornCell draw n == .whole && 2 ≤ ds.length
  let b := a.cutCells draw headerWhole n ds
  if headerWhole && (List.range (ds.length - 1)).all fun i => Config.tornCell draw (n + 1 + i) != .blank then
    b.set (n + ds.length - 1) none
  else b

/-- A program that ended with fail: its cells hold any contents (R88), but for the first failure of a host record. The write
may then end NO_SPACE, which wrote no record (R147), so a mount takes nothing of its cells: they are left as by a program
cut short. DEDUCED, unsafe (assumption 54). -/
def CellArray.failRequest (a : CellArray) (draw : Nat) (q : Request) : CellArray :=
  let n := cellNumber q.seg q.cell
  if q.kind = .hostRecord ∧ q.failures = 0 then a.cutProgram draw n q.contents else a.failProgram draw n q.contents

/-- What a failed or cut erase has left of a cell that held `v`, a cell in the erased state among them: it may hold any
contents (R88). -/
def EraseRemnant.contents (v : Option CellData) : EraseRemnant → Option CellData
  | .kept => v
  | .erased => none
  | .stray t => some (.stray t)

/-- Cells 1 to `n` of a segment, each left as the media left it (R88). -/
def CellArray.eraseCells (a : CellArray) (draw seg : Nat) : Nat → CellArray
  | 0 => a
  | n + 1 =>
    let m := cellNumber seg (n + 1)
    CellArray.eraseCells (a.set m ((Config.eraseRemnant draw m).contents (a.get m))) draw seg n

/-- An erase that failed or was cut short. The format cell is brought wholly to the erased state before any other cell
changes (R78): either it is as the media left it, and no other cell has changed, or it is erased and each other cell is
as the media left it (R88). -/
def CellArray.partialErase (a : CellArray) (draw seg : Nat) : CellArray :=
  let m := cellNumber seg 0
  if Config.formatCellErased draw then (a.set m none).eraseCells draw seg (cellsPerSegment - 1)
  else a.set m ((Config.formatRemnant draw).contents (a.get m))

/-- An operation cut short by a reset (R96): a program leaves a torn record or control cell, and a retire cell INVALID
(R136, R149); an erase leaves its segment partly erased; a read or blank check changes nothing. -/
def CellArray.cutShort (a : CellArray) (draw : Nat) (q : Request) : CellArray :=
  match q.kind with
  | .read => a
  | .blankCheck => a
  | .erase => a.partialErase draw q.seg
  | .retireCell => a.set (cellNumber q.seg q.cell) (some (.torn draw))
  | _ => a.cutProgram draw (cellNumber q.seg q.cell) q.contents

/-- The started operations of a bank: the active one and those on the stack. -/
def Bank.started (k : Bank) : List Operation := k.active.toList ++ k.stack

/-- Cut every listed operation short, each with a draw of its own. -/
def CellArray.cutAll : CellArray → Nat → List Operation → CellArray
  | a, _, [] => a
  | a, draw, o :: os => CellArray.cutAll (a.cutShort draw o.request) (draw + 1) os

/-- Every started operation of the four banks. -/
def Engine.startedOps (e : Engine) : List Operation := e.banks.flatMap Bank.started

end Sys2Proof.Machine
end

