-- ==== Sys2Proof/Machine/Integrity.lean ====
section
/-! DEFINITION. The Cell Integrity Unit (chapter 5): the outcome of each cell read, the header, value, location and
control verdicts, and the summary of a read. The unit holds no state (R97). -/

namespace Sys2Proof.Machine

open Sys2Proof

/-- The outcome of one cell (R98): BLANK; CLEAN or CORRECTED with the number of bits corrected, 0 when CLEAN; or
UNCORRECTABLE. -/
inductive CellOutcome where
  | blank
  | good (d : CellData) (corrected : Nat)
  | uncorrectable
  deriving DecidableEq, Repr, Inhabited

/-- Classify a cell that holds `v`, in which the code finds `flips` flipped bits (R98). The test for BLANK comes first,
and an erased cell with a bit out of the erased state is decoded like a programmed one, of contents nothing gave it
(assumption 4). -/
def classify (v : Option CellData) (flips : Nat) : CellOutcome :=
  match v with
  | none => if flips = 0 then .blank else if flips ≤ correctable then .good (.stray 0) flips else .uncorrectable
  | some d => if flips ≤ correctable then .good d flips else .uncorrectable

/-- The outcomes of a READ of `count` cells from cell number `n` (R89, R98). -/
def readCells (a : CellArray) : Nat → Nat → List Nat → List CellOutcome
  | _, 0, _ => []
  | n, count + 1, flips => classify (a.get n) (flips.headD 0) :: readCells a (n + 1) count flips.tail

/-- The cell count of a record of a given value length (R2). -/
def recordSize (len : Nat) : Nat := 1 + (len + 63) / 64

/-- The cell count of a header's record (R2). -/
def RecordHeader.cells (h : RecordHeader) : Nat := recordSize h.len

/-- Whether a header's value check holds over some bytes: the CRCs agree (R2). Equal bytes have equal CRCs. -/
def RecordHeader.checks (h : RecordHeader) (bytes : List Byte) : Bool :=
  h.checked == bytes || Config.crc h.checked == Config.crc bytes

/-- Whether a header's contents are in range at a cell of a segment (R99). -/
def RecordHeader.inRange (h : RecordHeader) (cell : Nat) : Bool :=
  1 ≤ h.key && h.key < keyLimit && 1 ≤ h.rseq && h.rseq < writeSeqExhausted && h.len ≤ maxValue
    && (h.kind == .value || h.len == 0) && (h.len != 0 || h.checks []) && cell + h.cells ≤ retireCell

/-- The header that a cell's contents spell, if its marker and header check hold (assumption 7); those of a torn cell never
do (R23, assumption 50). -/
def CellData.asHeader : CellData → Option RecordHeader
  | .header h => some h
  | .value bytes => Config.headerOfBytes bytes
  | .stray t => Config.headerOfBytes (Config.layoutBytes (.stray t))
  | _ => none

/-- The header verdicts (R99). -/
inductive HeaderVerdict where
  | blank
  | valid (h : RecordHeader)
  | invalid
  deriving DecidableEq, Repr, Inhabited

/-- The header verdict of a cell outcome at a cell of a segment (R99). -/
def headerVerdict (cell : Nat) : CellOutcome → HeaderVerdict
  | .blank => .blank
  | .uncorrectable => .invalid
  | .good d _ =>
    match d.asHeader with
    | some h => if h.inRange cell then .valid h else .invalid
    | none => .invalid

/-- The value verdicts (R100). -/
inductive ValueVerdict where
  | intact
  | damaged
  | torn
  deriving DecidableEq, Repr, Inhabited

def CellOutcome.isBlank : CellOutcome → Bool
  | .blank => true
  | _ => false

def CellOutcome.isUncorrectable : CellOutcome → Bool
  | .uncorrectable => true
  | _ => false

/-- The bits corrected in a cell. -/
def CellOutcome.correctedBits : CellOutcome → Nat
  | .good _ k => k
  | _ => 0

/-- The bytes a cell holds. -/
def CellData.bytes : CellData → List Byte
  | .value bytes => bytes
  | d => Config.layoutBytes d

/-- The bytes a cell outcome hands on. -/
def CellOutcome.bytes : CellOutcome → List Byte
  | .good d _ => d.bytes
  | _ => []

/-- The value bytes of a record from its value cells. -/
def valueBytes (len : Nat) (cells : List CellOutcome) : List Byte := (cells.flatMap CellOutcome.bytes).take len

/-- The value verdict of a record with header `h` from its value cells (R100). A record of length 0 is INTACT. -/
def valueVerdict (h : RecordHeader) (cells : List CellOutcome) : ValueVerdict :=
  if h.len = 0 then .intact
  else if cells.any CellOutcome.isBlank then .torn
  else if cells.any CellOutcome.isUncorrectable then .damaged
  else if h.checks (valueBytes h.len cells) then .intact
  else .torn

/-- Whether a record read at the location of an index entry is READABLE (R101). -/
def locationReadable (loc : Location) (key rseq len : Nat) (cells : List CellOutcome) : Bool :=
  match headerVerdict loc.cell (cells.headD .uncorrectable) with
  | .valid h =>
    h.kind == .value && h.key == key && h.rseq == rseq && h.len == len && h.cells == loc.count
      && valueVerdict h cells.tail == .intact
  | _ => false

/-- Whether a read marks its segment weak by its cells: one CORRECTED at or above the threshold, or UNCORRECTABLE
(R102). -/
def weakRead (threshold : Nat) (cells : List CellOutcome) : Bool :=
  cells.any fun x => x.isUncorrectable || (1 ≤ x.correctedBits && threshold ≤ x.correctedBits)

/-- The number of cells CORRECTED (R103). -/
def correctedCells (cells : List CellOutcome) : Nat := cells.countP fun x => 1 ≤ x.correctedBits

/-- The largest corrected count (R103). -/
def largestCorrected (cells : List CellOutcome) : Nat := cells.foldl (fun m x => max m x.correctedBits) 0

/-- The verdict on a control cell: BLANK, VALID when its contents are those of its place, INVALID otherwise (R54,
R107). -/
def controlVerdict (mine : CellData → Bool) : CellOutcome → ControlVerdict
  | .blank => .blank
  | .uncorrectable => .invalid
  | .good d _ => if mine d then .valid else .invalid

def CellData.isFormat : CellData → Bool | .format .. => true | _ => false
def CellData.isOpened : CellData → Bool | .opened .. => true | _ => false
def CellData.isRetire : CellData → Bool | .retire => true | _ => false

/-! ### Building records (R97) -/

/-- Bytes in cells of 64, for at most `n` cells. -/
def valueCells : Nat → List Byte → List CellData
  | 0, _ => []
  | n + 1, bytes => .value (bytes.take 64) :: valueCells n (bytes.drop 64)

/-- A VALUE record (R2, R97). -/
def buildValue (key rseq : Nat) (bytes : List Byte) : List CellData :=
  .header { kind := .value, key := key, rseq := rseq, len := bytes.length, checked := bytes }
    :: valueCells ((bytes.length + 63) / 64) bytes

/-- A one-cell record: TOMBSTONE or LOSS (R2, R97). -/
def buildMark (kind : RecordKind) (key rseq : Nat) : List CellData :=
  [.header { kind := kind, key := key, rseq := rseq, len := 0, checked := [] }]

/-- A copy made by reclamation: the record as read and corrected, its checks carried over (R3, R97). -/
def buildCopy (h : RecordHeader) (cells : List CellOutcome) : List CellData :=
  .header h :: valueCells (h.cells - 1) (valueBytes h.len cells)

end Sys2Proof.Machine
end

