-- ==== Sys2Proof/Machine/Banks.lean ====
section
/-! DEFINITION. The Bank Controllers (chapter 4): the queues, the arbiter, starting, suspending and resuming. What the
end of an operation means to the other blocks stands with those blocks. -/

namespace Sys2Proof.Machine

open Sys2Proof

/-- The media operations (R78). -/
inductive MediaOp where
  | read
  | program
  | erase
  | blankCheck
  deriving DecidableEq, Repr, Inhabited

/-- The operation of a request kind (R76). -/
def RequestKind.op : RequestKind → MediaOp
  | .read => .read
  | .erase => .erase
  | .blankCheck => .blankCheck
  | _ => .program

/-- The host program requests (R76, R84). -/
def RequestKind.isHost : RequestKind → Bool
  | .hostRecord | .hostOpen => true
  | _ => false

def Operation.op (o : Operation) : MediaOp := o.request.kind.op

/-- The operation active at a bank. -/
def Bank.activeOp (k : Bank) : Option MediaOp := k.active.map Operation.op

/-- A request joins the tail of its queue (R76, R77). -/
def Bank.join (k : Bank) (q : Request) : Bank :=
  match q.kind with
  | .read => { k with readQ := k.readQ ++ [q] }
  | .hostRecord => { k with hostQ := k.hostQ ++ [q] }
  | .hostOpen => { k with hostQ := k.hostQ ++ [q] }
  | .reclaimRecord => { k with reclaimQ := k.reclaimQ ++ [q] }
  | .reclaimOpen => { k with reclaimQ := k.reclaimQ ++ [q] }
  | .formatCell => { k with reclaimQ := k.reclaimQ ++ [q] }
  | .retireCell => { k with reclaimQ := k.reclaimQ ++ [q] }
  | .erase => { k with eraseQ := k.eraseQ ++ [q] }
  | .blankCheck => { k with eraseQ := k.eraseQ ++ [q] }

/-- The moment a quantum that begins now ends: 30 µs on for a program, an erase quantum on for an erase, none for a read
or a blank check (R82). -/
def quantumEndFor (now quantum : Nat) : MediaOp → Option Nat
  | .program => some (now + programQuantum)
  | .erase => some (now + quantum)
  | _ => none

/-- The bank runs an operation from now on (R82). -/
def Bank.run (k : Bank) (now quantum : Nat) (o : Operation) : Bank :=
  { k with state := .active, active := some o, quantumEnd := quantumEndFor now quantum o.op }

/-- Start a request, with suspend count and run time 0 (R82). -/
def Bank.start (k : Bank) (now quantum : Nat) (q : Request) : Bank := k.run now quantum { request := q }

/-- Start the oldest RECLAIM PROGRAM request; the host streak becomes 0 (R80). -/
def Bank.startReclaim (k : Bank) (now quantum : Nat) (q : Request) (rest : List Request) : Bank :=
  { k with reclaimQ := rest, streak := 0 }.start now quantum q

/-- Start the oldest HOST PROGRAM request; the host streak rises by 1, up to 8, when a reclaim program waits (R80). -/
def Bank.startHost (k : Bank) (now quantum : Nat) (q : Request) (rest : List Request) : Bank :=
  { k with
    hostQ := rest
    streak := if k.reclaimQ.isEmpty then k.streak else min maxStreak (k.streak + 1) }.start now quantum q

/-- Steps 5 to 7 of the selection: a suspended erase is resumed, then the oldest reclaim program, then the oldest erase
or blank check; the bank becomes IDLE when none applies (R79). -/
def Bank.selectBackground (k : Bank) (now quantum : Nat) : Bank :=
  match k.stack, k.reclaimQ, k.eraseQ with
  | o :: rest, _, _ => { k with stack := rest }.run now quantum o
  | [], q :: rest, _ => k.startReclaim now quantum q rest
  | [], [], q :: rest => { k with eraseQ := rest }.start now quantum q
  | [], [], [] => { k with state := .idle, active := none, quantumEnd := none }

/-- Steps 2 to 4: the oldest read, then a suspended program, then the oldest host program (R79). -/
def Bank.selectForeground (k : Bank) (now quantum : Nat) : Bank :=
  match k.readQ with
  | q :: rest => { k with readQ := rest }.start now quantum q
  | [] =>
    match k.stack with
    | o :: rest =>
      if o.op = .program then { k with stack := rest }.run now quantum o
      else
        match k.hostQ with
        | q :: more => k.startHost now quantum q more
        | [] => k.selectBackground now quantum
    | [] =>
      match k.hostQ with
      | q :: more => k.startHost now quantum q more
      | [] => k.selectBackground now quantum

/-- The arbiter's selection (R79); step 1 starts a reclaim program ahead of every queue when the stack is empty and the
host streak is 8. -/
def Bank.select (k : Bank) (now quantum : Nat) : Bank :=
  match k.stack, k.reclaimQ with
  | [], q :: rest => if k.streak = maxStreak then k.startReclaim now quantum q rest else k.selectForeground now quantum
  | _, _ => k.selectForeground now quantum

/-- Whether the active operation is suspendable: its quantum has expired, and its suspend count is below its limit
(R83). -/
def Bank.suspendable (k : Bank) : Bool :=
  match k.active with
  | none => false
  | some o =>
    match o.op with
    | .program => k.quantumEnd.isNone && o.suspends < programSuspends
    | .erase => k.quantumEnd.isNone && o.suspends < eraseSuspends
    | _ => false

/-- Whether an arriving request may suspend the active operation: a read a program or an erase, a host program an erase
(R84). -/
def Bank.urgent (k : Bank) (q : Request) : Bool :=
  match k.activeOp with
  | some .program => q.kind == .read
  | some .erase => q.kind == .read || q.kind.isHost
  | _ => false

/-- The controller asks the media to suspend the active operation (R84, R85). -/
def Bank.askSuspend (k : Bank) : Bank := { k with state := .suspending, quantumEnd := none }

/-- A request arrives: it joins its queue; an IDLE bank selects; an ACTIVE bank suspends its operation for it when R83
and R84 allow (R77, R79, R84). -/
def Bank.arrive (k : Bank) (now quantum : Nat) (q : Request) : Bank :=
  let j := k.join q
  match k.state with
  | .idle => j.select now quantum
  | .active => if k.urgent q && k.suspendable then j.askSuspend else j
  | .suspending => j

/-- Whether a request waits that the active operation is suspended for when its quantum expires: a read for a program, a
read or a host program for an erase (R85). -/
def Bank.hasWaiter (k : Bank) : Bool :=
  match k.activeOp with
  | some .program => !k.readQ.isEmpty
  | some .erase => !k.readQ.isEmpty || !k.hostQ.isEmpty
  | _ => false

/-- The quantum of the active operation expires: the operation is suspended for a waiting request, if its count allows
(R85). -/
def Bank.quantumExpired (k : Bank) : Bank :=
  let q := { k with quantumEnd := none }
  if q.hasWaiter && q.suspendable then q.askSuspend else q

/-- The active operation has ended: nothing is active until the selection that follows (R79). -/
def Bank.ended (k : Bank) : Bank := { k with active := none, quantumEnd := none, state := .active }

/-- The suspension took effect: the suspend count rises by 1 and the operation is pushed (R86). -/
def Bank.pushActive (k : Bank) : Bank :=
  match k.active with
  | some o => { k.ended with stack := { o with suspends := o.suspends + 1 } :: k.stack }
  | none => k

/-- In HALTED the bank stays IDLE with its stack held (R95). -/
def Bank.haltedIdle (k : Bank) : Bank := { k with active := none, quantumEnd := none, state := .idle }

/-- A halt drops the four queues (R95). -/
def Bank.dropQueues (k : Bank) : Bank := { k with readQ := [], hostQ := [], reclaimQ := [], eraseQ := [] }

/-- Quiescent: IDLE with an empty stack and four empty queues (R94). -/
def Bank.quiescent (k : Bank) : Bool :=
  k.state == .idle && k.stack.isEmpty && k.readQ.isEmpty && k.hostQ.isEmpty && k.reclaimQ.isEmpty && k.eraseQ.isEmpty

/-- Whether a queued request is a record or open-cell program of a segment. -/
def Request.recordOf (seg : Nat) (q : Request) : Bool :=
  q.seg == seg &&
    (match q.kind with
     | .hostRecord | .hostOpen | .reclaimRecord | .reclaimOpen => true
     | _ => false)

/-- Withdraw every queued program into a segment; the streak becomes 0 when the removal empties the RECLAIM PROGRAM queue
(R91, R80). -/
def Bank.withdraw (k : Bank) (seg : Nat) : Bank :=
  let left := k.reclaimQ.filter fun q => !q.recordOf seg
  { k with
    hostQ := k.hostQ.filter fun q => !q.recordOf seg
    reclaimQ := left
    streak := if left.isEmpty && !k.reclaimQ.isEmpty then 0 else k.streak }

/-- The programs that a withdrawal removes, in queue order (R91). -/
def Bank.withdrawn (k : Bank) (seg : Nat) : List Request :=
  (k.hostQ.filter (Request.recordOf seg)) ++ (k.reclaimQ.filter (Request.recordOf seg))

/-- Send a request to the controller of its segment's bank (chapter 4, opening). -/
def Engine.enqueue (e : Engine) (q : Request) : Engine :=
  e.modBank (bankOf q.seg) fun k => k.arrive e.now e.control.limits.eraseQuantum q

/-- The bank selects (R79). -/
def Engine.selectBank (e : Engine) (b : Nat) : Engine :=
  e.modBank b fun k => k.select e.now e.control.limits.eraseQuantum

end Sys2Proof.Machine
end

