-- ==== Sys2Proof/Machine/Formats.lean ====
section
/-! DEFINITION. The byte layouts of chapter 11: done records, notice records, scan entries, the two reports, and the
registers. Every byte a layout gives to no field is 0 (R194 to R196). -/

namespace Sys2Proof.Machine

open Sys2Proof

/-- A number as `k` bytes, least significant first (R192). -/
def le : Nat → Nat → List Byte
  | 0, _ => []
  | k + 1, n => BitVec.ofNat 8 n :: le k (n / 256)

/-- The number that bytes spell, least significant first (R192). -/
def ofLe : List Byte → Nat
  | [] => 0
  | b :: bs => b.toNat + 256 * ofLe bs

/-- `k` zero bytes. -/
def zeros (k : Nat) : List Byte := List.replicate k 0

/-- A bit at place `i`. -/
def bitAt (i : Nat) (b : Bool) : Nat := if b then 2 ^ i else 0

/-! ### Codes -/

/-- The job codes (R193). -/
def Job.code : Job → Nat
  | .put => 0x01
  | .get => 0x02
  | .probe => 0x03
  | .delete => 0x04
  | .matchValue => 0x05
  | .scan => 0x06
  | .openRing => 0x10
  | .closeRing => 0x11
  | .setNotice => 0x12
  | .setLimits => 0x13
  | .queryEngine => 0x14
  | .querySegment => 0x15
  | .reclaim => 0x16
  | .scrub => 0x17
  | .format => 0x18

/-- The status codes (R194). -/
def Status.code : Status → Nat
  | .ok => 0x00
  | .skipped => 0x01
  | .notFound => 0x02
  | .exists => 0x03
  | .conflict => 0x04
  | .damaged => 0x05
  | .mediaError => 0x06
  | .shortBuffer => 0x07
  | .indexFull => 0x08
  | .noSpace => 0x09
  | .readOnly => 0x0A
  | .badDescriptor => 0x0B
  | .badKey => 0x0C
  | .badLength => 0x0D
  | .badChain => 0x0E
  | .wrongRing => 0x0F
  | .hostError => 0x10
  | .notMounted => 0x11
  | .busy => 0x12
  | .badParam => 0x13

/-- The entry kind codes (R192). -/
def KeyKind.code : KeyKind → Nat
  | .absent => 0
  | .nascent => 1
  | .value => 2
  | .deleted => 3
  | .lost => 4

/-- The engine state codes (R180). -/
def EngineState.code : EngineState → Nat
  | .mounting => 0
  | .running => 1
  | .stopping => 2
  | .stopped => 3
  | .halted => 4

/-- The mount phase codes (R180). -/
def MountPhase.code : MountPhase → Nat
  | .none => 0
  | .survey => 1
  | .passA => 2
  | .passB => 3
  | .finish => 4

/-- The halt cause codes (R180, R195). -/
def HaltCause.code : HaltCause → Nat
  | .none => 0
  | .indexParity => 1
  | .tableParity => 2

/-- The segment state codes (R196); a report never holds `unclassified`. -/
def SegState.code : SegState → Nat
  | .free => 0
  | .head => 1
  | .full => 2
  | .failedClosed => 3
  | .reclaiming => 4
  | .erasing => 5
  | .dirty => 6
  | .retired => 7
  | .unclassified => 8

/-- The reclaim state codes (R196). -/
def ReclaimState.code : ReclaimState → Nat
  | .idle => 0
  | .grantWait => 1
  | .stepping => 2
  | .paused => 3
  | .released => 4

/-- The pause cause bits (R196). -/
def PauseCauses.byte (c : PauseCauses) : Nat := bitAt 0 c.stop + bitAt 1 c.readOnly + bitAt 2 c.space

/-- The role codes (R196). -/
def roleCode : Option HeadRole → Nat
  | none => 0
  | some .host => 1
  | some .reclaim => 2

/-- The end state codes (R194). -/
def ReclaimEnd.code : ReclaimEnd → Nat
  | .none => 0
  | .free => 1
  | .retired => 2
  | .held => 3

/-- The end cause codes (R194). -/
def ScrubEnd.code : ScrubEnd → Nat
  | .blank => 1
  | .limit => 2
  | .state => 3

/-- The retirement cause codes (R195). -/
def RetireCause.code : RetireCause → Nat
  | .programFailed => 1
  | .eraseFailed => 2
  | .formatFailed => 3

/-- The ring fault cause codes (R195). -/
def FaultCause.code : FaultCause → Nat
  | .fetchError => 1
  | .doneWriteError => 2

/-- The codes of a WRITE_MODE notice's cause (R195). -/
def ModeCause.code : ModeCause → Nat
  | .retiredLimit => 1
  | .writeSequence => 3
  | .segmentSequence => 4
  | .format => 5

/-- The READ_ONLY causes as four bits, RETIRED_LIMIT lowest (R180, R192). -/
def ReadOnlyCauses.bits (c : ReadOnlyCauses) : Nat :=
  bitAt 0 c.retiredLimit + bitAt 1 c.indexOverflow + bitAt 2 c.writeSequence + bitAt 3 c.segmentSequence

/-- The write-mode byte (R192). -/
def ReadOnlyCauses.modeByte (c : ReadOnlyCauses) : Nat := bitAt 0 c.any + 2 * c.bits

/-! ### Done records -/

/-- The results field of a done record, 16 bytes (R194). -/
def Results.bytes : Results → List Byte
  | .none => zeros 16
  | .record rseq len => le 6 rseq ++ zeros 2 ++ le 4 len ++ zeros 4
  | .scan next count => le 8 next ++ le 4 count ++ zeros 4
  | .close unfetched => le 4 unfetched ++ zeros 12
  | .limits l => le 2 l.lowWater ++ le 2 l.threshold ++ le 4 l.spaceWait ++ le 4 l.eraseQuantum ++ zeros 4
  | .segment seg => le 2 seg ++ zeros 14
  | .reclaim victim ended cursor t =>
    le 2 (victim.getD 0xFFFF) ++ le 1 ended.code ++ zeros 1 ++ le 2 cursor ++ le 2 t.copied ++ le 2 t.markers
      ++ le 2 t.dropped ++ le 2 t.stalePassed ++ le 2 t.resync
  | .scrub seg ended maxBits walked records corrected uncorrectable =>
    le 2 seg ++ le 1 ended.code ++ le 1 maxBits ++ le 2 walked ++ le 2 records ++ le 2 corrected
      ++ le 2 uncorrectable ++ zeros 4
  | .format erased retired freeCount retiredCount causes =>
    le 2 erased ++ le 2 retired ++ le 2 freeCount ++ le 2 retiredCount ++ le 1 causes.modeByte ++ zeros 7

/-- The flags byte of a done record: the outcome flags and, in bit 7, the phase (R194). -/
def doneFlags (f : OutcomeFlags) (phase : Bool) : Nat :=
  bitAt 0 f.succeeded + bitAt 1 f.found + bitAt 2 f.matched + bitAt 7 phase

/-- The 32 bytes of a context's done record, with the phase mark it is written with (R194). The tag and the job code are
the descriptor's own bytes. -/
def JobContext.doneRecord (x : JobContext) (phase : Bool) : List Byte :=
  le 8 (ofLe ((x.descriptor.drop 8).take 8)) ++ le 2 x.slot ++ le 1 (ofLe (x.descriptor.take 1))
    ++ le 1 x.outcome.status.code ++ le 1 (doneFlags x.outcome.flags phase) ++ le 1 x.outcome.kind.code ++ zeros 2
    ++ x.outcome.results.bytes

/-! ### Notice records -/

/-- The kind code of a notice (R195). -/
def NoticeBody.code : NoticeBody → Nat
  | .mountDone1 .. => 1
  | .mountDone2 .. => 1
  | .spaceLow .. => 2
  | .spaceRestored .. => 3
  | .writeMode .. => 4
  | .segmentRetired .. => 5
  | .dataLost .. => 6
  | .ringFaulted .. => 7
  | .formatDone .. => 8
  | .halted .. => 9

/-- A sequence as MOUNT_DONE part 1 shows it: 0 when exhausted (R195). -/
def shownSequence (exhausted n : Nat) : Nat := if n = exhausted then 0 else n

/-- Bytes 4 to 31 of a notice record (R195). -/
def NoticeBody.bytes : NoticeBody → List Byte
  | .spaceLow freeCount lowWater => le 2 freeCount ++ le 2 lowWater ++ zeros 24
  | .spaceRestored freeCount lowWater => le 2 freeCount ++ le 2 lowWater ++ zeros 24
  | .writeMode causes cause => le 1 causes.modeByte ++ le 1 cause.code ++ zeros 26
  | .segmentRetired seg cause eraseCount retiredCount =>
    le 2 seg ++ le 1 cause.code ++ zeros 1 ++ le 4 eraseCount ++ le 2 retiredCount ++ zeros 18
  | .dataLost key rseq before lostSeg lostCell markerSeg markerCell =>
    le 8 key ++ le 6 rseq ++ le 1 before.code ++ zeros 1 ++ le 2 lostSeg ++ le 2 lostCell ++ le 2 markerSeg
      ++ le 2 markerCell ++ zeros 4
  | .ringFaulted ring cause slot => le 1 ring ++ le 1 cause.code ++ le 2 slot ++ zeros 24
  | .formatDone erased retired freeCount retiredCount causes ms =>
    le 2 erased ++ le 2 retired ++ le 2 freeCount ++ le 2 retiredCount ++ le 1 causes.modeByte ++ zeros 3 ++ le 4 ms
      ++ zeros 12
  | .halted cause => le 1 cause.code ++ zeros 27
  | .mountDone1 causes writeSeq segSeq values deleted lost estimated ms =>
    le 1 1 ++ le 1 causes.modeByte ++ le 6 (shownSequence writeSeqExhausted writeSeq)
      ++ le 4 (shownSequence segSeqExhausted segSeq) ++ le 3 values ++ le 3 deleted ++ le 3 lost ++ le 2 estimated
      ++ le 4 ms ++ zeros 1
  | .mountDone2 free full dirty retired scanned torn resync damaged overflow =>
    le 1 2 ++ zeros 1 ++ le 2 free ++ le 2 full ++ le 2 dirty ++ le 2 retired ++ le 3 scanned ++ le 3 torn
      ++ le 3 resync ++ le 3 damaged ++ le 3 overflow ++ zeros 3

/-- The 32 bytes of a notice record, with the phase mark it is written with (R195). -/
def Notice.record (n : Notice) (phase : Bool) : List Byte :=
  le 1 n.body.code ++ le 1 (bitAt 0 n.overrun + bitAt 7 phase) ++ le 2 n.number ++ n.body.bytes

/-! ### Scan entries and reports -/

/-- The scan entry of a VALUE or LOST entry (R196); other kinds are not reported (R18). -/
def scanEntry (key : Nat) : EntryBody → List Byte
  | .value _ rseq len => le 8 key ++ le 6 rseq ++ le 2 (len % 8192)
  | .lost _ rseq _ => le 8 key ++ le 6 rseq ++ le 2 0x8000
  | _ => []

/-- Entries of each kind (R185). -/
def countBodies (p : EntryBody → Bool) (l : List Entry) : Nat := l.countP fun t => p t.body

def EntryBody.isNascent : EntryBody → Bool | .nascent => true | _ => false
def EntryBody.isValue : EntryBody → Bool | .value .. => true | _ => false
def EntryBody.isDeleted : EntryBody → Bool | .deleted .. => true | _ => false
def EntryBody.isLost : EntryBody → Bool | .lost .. => true | _ => false

/-- The segments whose erase counts the engine report covers: those not RETIRED, and during a mount those classified
(R185, R186). -/
def Engine.countedSegs (e : Engine) : List SegRecord :=
  e.space.segs.filter fun g => g.state != .retired && g.state != .unclassified

/-- Lowest, highest and mean erase count, 0 when no segment is counted (R185). -/
def eraseSpread (l : List SegRecord) : Nat × Nat × Nat :=
  match l with
  | [] => (0, 0, 0)
  | g :: _ =>
    (l.foldl (fun m x => min m x.eraseCount) g.eraseCount, l.foldl (fun m x => max m x.eraseCount) 0,
      l.foldl (fun m x => m + x.eraseCount) 0 / l.length)

/-- The mount time in ms: while a mount is under way, the time since its reset (R186), its remainder dropped (assumption
49). -/
def Engine.mountMs (e : Engine) : Nat :=
  if e.mount.phase = .none then e.mount.stats.ms else (e.now - e.mount.started) / 1000

/-- The engine report, 128 bytes (R185, R186, R196). -/
def Engine.report (e : Engine) : List Byte :=
  let ents := e.index.entries
  let spread := eraseSpread e.countedSegs
  let mounting := e.state == .mounting
  le 1 e.state.code ++ le 1 e.control.causes.modeByte ++ le 1 e.mount.phase.code ++ le 1 (bitAt 0 e.space.low)
    ++ le 4 (countBodies EntryBody.isNascent ents) ++ le 4 (countBodies EntryBody.isValue ents)
    ++ le 4 (countBodies EntryBody.isDeleted ents) ++ le 4 (countBodies EntryBody.isLost ents) ++ le 4 ents.length
    ++ le 8 (if mounting then 0 else e.index.writeSeq) ++ le 8 (if mounting then 0 else e.space.segSeq)
    ++ le 2 (e.countSegs .free) ++ le 2 (e.countSegs .head) ++ le 2 (e.countSegs .full)
    ++ le 2 (e.countSegs .failedClosed) ++ le 2 (e.countSegs .reclaiming) ++ le 2 (e.countSegs .erasing)
    ++ le 2 (e.countSegs .dirty) ++ le 2 (e.countSegs .retired) ++ le 2 (e.countSegs .unclassified)
    ++ le 2 e.retiredCount
    ++ le 4 spread.1 ++ le 4 spread.2.1 ++ le 4 spread.2.2
    ++ le 2 (e.countedSegs.countP (·.estimated))
    ++ le 1 e.reclaim.state.code ++ le 1 e.reclaim.causes.byte
    ++ le 2 (e.reclaim.victim.getD 0) ++ le 2 (e.reclaim.cursor.getD 0)
    ++ le 1 e.reclaim.refresh.length ++ le 1 e.notices.queue.length ++ le 2 e.notices.number
    ++ le 4 e.mount.stats.records ++ le 4 e.mount.stats.torn ++ le 4 e.mount.stats.resync
    ++ le 4 e.mount.stats.damaged ++ le 2 e.mount.stats.dirty ++ le 2 e.mount.stats.estimated
    ++ le 4 e.mount.stats.overflow ++ le 4 e.mountMs
    ++ le 2 e.control.limits.lowWater ++ le 2 e.control.limits.spaceWait ++ le 2 e.control.limits.eraseQuantum
    ++ le 1 e.control.limits.threshold ++ zeros 9

/-- A segment's place on the refresh list, 1 to 8, or 0 (R187). -/
def Engine.refreshPlace (e : Engine) (n : Nat) : Nat :=
  match e.reclaim.refresh.idxOf? n with
  | some i => i + 1
  | none => 0

/-- The segment report, 64 bytes (R187, R196). -/
def Engine.segReport (e : Engine) (n : Nat) : List Byte :=
  let g := e.seg n
  le 2 n ++ le 1 (bankOf n) ++ le 1 g.state.code ++ le 1 (roleCode g.role)
    ++ le 1 (bitAt 0 g.estimated + bitAt 1 g.sseq.isSome + bitAt 2 g.weak + bitAt 3 g.progFailed)
    ++ le 1 (e.refreshPlace n) ++ le 1 g.pins ++ le 4 g.eraseCount ++ le 4 (g.sseq.getD 0)
    ++ le 2 g.writePtr ++ le 2 g.progPtr ++ le 2 g.live ++ le 2 g.dead
    ++ le 2 (if e.reclaim.victim = some n then e.reclaim.cursor.getD 0 else 0) ++ zeros 38

/-! ### Registers -/

/-- The value of STATE (R180). -/
def Engine.stateRegister (e : Engine) : Nat :=
  e.state.code + 8 * bitAt 0 e.readOnly + 16 * e.control.causes.bits
    + 256 * (if e.state = .mounting then e.mount.phase.code else 0)
    + 4096 * e.control.halt.code + bitAt 16 e.control.sticky.postError + bitAt 17 e.control.sticky.adminSetupError
    + bitAt 18 e.control.sticky.noticeFault

/-- What a 32-bit read of a register returns; CONTROL, POST, ACK and every offset from 0x020 on read 0 (R179). -/
def Engine.readRegister (e : Engine) (offset : Nat) : Nat :=
  if offset = 0x000 then identValue
  else if offset = 0x004 then e.stateRegister
  else if offset = 0x00C then e.registers.adminBaseLo.toNat
  else if offset = 0x010 then e.registers.adminBaseHi.toNat
  else if offset = 0x014 then e.registers.adminSize.toNat
  else 0

end Sys2Proof.Machine
end

