-- ==== Sys2Proof/Machine/Index.lean ====
section
/-! DEFINITION. The Index Unit's map (R6): finding, adding, changing and removing entries, the scan walk (R18), and the
changes a write's completion and a reclaim claim make to an entry (R13, R19, R20). -/

namespace Sys2Proof.Machine

open Sys2Proof

/-! ### Entries -/

/-- The location of an entry (R7); a NASCENT entry has none. -/
def EntryBody.loc? : EntryBody → Option Location
  | .nascent => none
  | .value l _ _ => some l
  | .deleted l _ => some l
  | .lost l _ _ => some l

/-- The record sequence of an entry's current record; 0 for NASCENT (R7, R37). -/
def EntryBody.rseq : EntryBody → Nat
  | .nascent => 0
  | .value _ r _ => r
  | .deleted _ r => r
  | .lost _ r _ => r

/-- The value length, 0 but for VALUE (R7, R29). -/
def EntryBody.len : EntryBody → Nat
  | .value _ _ n => n
  | _ => 0

/-- The entry kind (R7). -/
def EntryBody.kind : EntryBody → KeyKind
  | .nascent => .nascent
  | .value .. => .value
  | .deleted .. => .deleted
  | .lost .. => .lost

/-- The kind a lookup returns: NONE for a key with no entry (R17, R29). -/
def bodyKind : Option EntryBody → KeyKind
  | none => .absent
  | some b => b.kind

/-- Whether the record being superseded is a VALUE record with a readable header (R13): a VALUE, or a LOST entry of loss
form DAMAGED. -/
def EntryBody.supersedesValue : EntryBody → Bool
  | .value .. => true
  | .lost _ _ .damaged => true
  | _ => false

/-- Kinds a SCAN reports (R18). -/
def EntryBody.reportable : EntryBody → Bool
  | .value .. => true
  | .lost .. => true
  | _ => false

/-- The entry at another location (R20). -/
def EntryBody.moved (l : Location) : EntryBody → EntryBody
  | .nascent => .nascent
  | .value _ r n => .value l r n
  | .deleted _ r => .deleted l r
  | .lost _ r f => .lost l r f

/-! ### The map -/

/-- The entry of a key (R6). -/
def findEntry (l : List Entry) (key : Nat) : Option Entry := l.find? fun t => t.key == key

/-- The map with a new entry at its place in key order (R6). -/
def insertEntry : List Entry → Entry → List Entry
  | [], t => [t]
  | u :: l, t => if t.key < u.key then t :: u :: l else u :: insertEntry l t

/-- The map with the entry of a key changed; its key stays. -/
def changeEntry (l : List Entry) (key : Nat) (f : Entry → Entry) : List Entry :=
  l.map fun t => if t.key = key then { f t with key := t.key } else t

/-- The map without the entry of a key. -/
def removeEntry (l : List Entry) (key : Nat) : List Entry := l.filter fun t => t.key != key

/-- The law of R6: keys strictly ascending, so none twice, and at most 65,536 entries. -/
def indexLaw (l : List Entry) : Prop := (l.map (·.key)).Pairwise (· < ·) ∧ l.length ≤ indexCapacity

def Engine.entry (e : Engine) (key : Nat) : Option Entry := findEntry e.index.entries key

def Engine.setEntries (e : Engine) (l : List Entry) : Engine := { e with index := { e.index with entries := l } }

def Engine.changeEntry (e : Engine) (key : Nat) (f : Entry → Entry) : Engine :=
  e.setEntries (Machine.changeEntry e.index.entries key f)

/-- The body a lookup sees: a pending write is not visible (R17). -/
def Engine.lookup (e : Engine) (key : Nat) : Option EntryBody := (e.entry key).map (·.body)

/-! ### Scan (R18) -/

/-- What a walk hands back: the scan entries as bytes, how many, the lowest key not yet passed, and the continuation key
if the walk has ended. -/
structure WalkResult where
  bytes : List Byte := []
  count : Nat := 0
  next : Nat := 0
  ended : Option Nat := none
  deriving DecidableEq, Repr, Inhabited

/-- The first reportable key of a list of entries, or 0 (R18). -/
def firstReportable : List Entry → Nat
  | [] => 0
  | t :: l => if t.body.reportable then t.key else firstReportable l

/-- Walk the entries from key `next` on, with `left` entries still to report and room for `room` of them in staging. The
walk ends when it has reported its limit or no key is left, and pauses when staging is full with a key left (R18,
R41). -/
def scanWalk : List Entry → Nat → Nat → Nat → WalkResult
  | [], next, _, _ => { next := next, ended := some 0 }
  | t :: l, next, left, room =>
    if t.key < next then scanWalk l next left room
    else if left = 0 then { next := next, ended := some (firstReportable (t :: l)) }
    else if room = 0 then { next := next }
    else if t.body.reportable then
      let w := scanWalk l (t.key + 1) (left - 1) (room - 1)
      { w with bytes := scanEntry t.key t.body ++ w.bytes, count := w.count + 1 }
    else scanWalk l (t.key + 1) left room

end Sys2Proof.Machine
end

