-- ==== Sys2Proof/Machine/Space.lean ====
section
/-! DEFINITION. The Space Manager (chapter 3): the free pool, opening and closing heads, placement, live cells, pins, the
space level, weak marks, retirement and the failure of a program. -/

namespace Sys2Proof.Machine

open Sys2Proof

/-! ### Space level (R72) -/

/-- The space event test, made each time the FREE count or the low watermark changes (R72); none is made during MOUNTING
(R184). -/
def Engine.spaceTest (e : Engine) : Engine :=
  let low := e.control.limits.lowWater
  if e.state = .mounting then e
  else if e.space.low then
    if e.freeCount > low + watermarkGap then
      let e1 := { e with
        space := { e.space with low := false }
        reclaim := { e.reclaim with continuous := false } }
      e1.raiseNotice (.spaceRestored e.freeCount low)
    else e
  else if e.freeCount ≤ low then
    let e1 := { e with
      space := { e.space with low := true }
      reclaim := { e.reclaim with continuous := true } }
    (e1.raiseNotice (.spaceLow e.freeCount low)).wantChoice
  else e

/-! ### The free pool (R57) -/

/-- The pool's order: erase count, then segment number. -/
def poolBefore (a b : SegRecord × Nat) : Bool :=
  a.1.eraseCount < b.1.eraseCount || (a.1.eraseCount == b.1.eraseCount && a.2 < b.2)

/-- The first segment of the pool, among those of a bank when one is given (R57). -/
def Engine.poolFirst (e : Engine) (bank : Option Nat) : Option Nat :=
  (bestOf poolBefore (e.segTable.filter fun p =>
    p.1.state == .free && (match bank with
      | some b => bankOf p.2 == b
      | none => true))).map (·.2)

/-! ### Heads (R58, R62) -/

/-- The head of a role, in a bank when one is given. -/
def Engine.headOf (e : Engine) (role : HeadRole) (bank : Option Nat) : Option Nat :=
  (e.segTable.find? fun p => p.1.state == .head && p.1.role == some role && (match bank with
    | some b => bankOf p.2 == b
    | none => true)).map (·.2)

/-- Close a head to FULL: the state changes and the role goes; the rest stays (R62). Entering FULL is an event of
R112. -/
def Engine.closeHead (e : Engine) (n : Nat) : Engine :=
  (e.modSeg n fun g => { g with state := .full, role := none }).wantChoice

/-- The request kind of an open cell of a role (R58, R76). -/
def HeadRole.openKind : HeadRole → RequestKind
  | .host => .hostOpen
  | .reclaim => .reclaimOpen

/-- The request kind of a record of a role (R76). -/
def HeadRole.recordKind : HeadRole → RequestKind
  | .host => .hostRecord
  | .reclaim => .reclaimRecord

/-- Open a segment as a head in one step: it leaves the pool, takes the segment sequence, and has its open cell queued;
the space event test is made, and an exhausted counter is reported (R5, R57, R58). The guide gives no order between SPACE_LOW
and the WRITE_MODE of the exhaustion: the model makes the test first (assumption 48). -/
def Engine.openHead (e : Engine) (n : Nat) (role : HeadRole) : Engine :=
  let sseq := e.space.segSeq
  let e1 := e.modSeg n fun g => { g with state := .head, role := some role, sseq := some sseq }
  let e2 := { e1 with space := { e1.space with segSeq := sseq + 1 } }
  let e3 := e2.enqueue
    { kind := role.openKind, seg := n, cell := 1, count := 1, requester := .space, contents := [.opened sseq] }
  let e4 := e3.spaceTest
  if sseq + 1 = segSeqExhausted then e4.addCause .segmentSequence else e4

/-- The segment a host head of a bank would be opened in: none while the counter is exhausted, with fewer than 3 segments
FREE, or with none FREE in the bank (R58). -/
def Engine.hostHeadCandidate (e : Engine) (b : Nat) : Option Nat :=
  if e.space.segSeq = segSeqExhausted || e.freeCount < hostHeadFree then none else e.poolFirst (some b)

/-- The segment a reclaim head would be opened in (R58, R60). -/
def Engine.reclaimHeadCandidate (e : Engine) : Option Nat :=
  if e.space.segSeq = segSeqExhausted then none else e.poolFirst none

/-! ### Placement (R59, R60) -/

/-- Reserve `k` cells of a head from its write pointer (R59). -/
def Engine.reserve (e : Engine) (n k : Nat) : Engine × Location :=
  (e.modSeg n fun g => { g with writePtr := g.writePtr + k }, { seg := n, cell := (e.seg n).writePtr, count := k })

/-- Open a host head in a bank if one may be opened, and reserve `k` cells in it (R59, step 2). -/
def Engine.placeInNewHead (e : Engine) (b k : Nat) : Engine × Option Location :=
  match e.hostHeadCandidate b with
  | some n =>
    let p := (e.openHead n .host).reserve n k
    (p.1, some p.2)
  | none => (e, none)

/-- Try one bank (R59, steps 1 to 3). -/
def Engine.placeInBank (e : Engine) (b k : Nat) : Engine × Option Location :=
  match e.headOf .host (some b) with
  | some n =>
    if k ≤ (e.seg n).cellsLeft then
      let p := e.reserve n k
      (p.1, some p.2)
    else (e.closeHead n).placeInNewHead b k
  | none => e.placeInNewHead b k

/-- Try banks one after another; the rotation point becomes the bank that took the record (R59). -/
def Engine.placeInBanks (e : Engine) (k : Nat) : List Nat → Engine × Option Location
  | [] => (e, none)
  | b :: bs =>
    match e.placeInBank b k with
    | (e1, some l) => ({ e1 with space := { e1.space with rotation := b } }, some l)
    | (e1, none) => e1.placeInBanks k bs

/-- The banks in the order a host placement tries them, from the bank after the rotation point (R59). -/
def Engine.bankOrder (e : Engine) : List Nat := [1, 2, 3, 4].map fun i => (e.space.rotation + i) % bankCount

/-- Place a host record of `k` cells (R59). -/
def Engine.placeHost (e : Engine) (k : Nat) : Engine × Option Location := e.placeInBanks k e.bankOrder

/-- Open a reclaim head if one can be opened, and reserve `k` cells in it (R60). -/
def Engine.placeInNewReclaimHead (e : Engine) (k : Nat) : Engine × Option Location :=
  match e.reclaimHeadCandidate with
  | some n =>
    let p := (e.openHead n .reclaim).reserve n k
    (p.1, some p.2)
  | none => (e, none)

/-- Place a reclaim record of `k` cells (R60). -/
def Engine.placeReclaim (e : Engine) (k : Nat) : Engine × Option Location :=
  match e.headOf .reclaim none with
  | some n =>
    if k ≤ (e.seg n).cellsLeft then
      let p := e.reserve n k
      (p.1, some p.2)
    else (e.closeHead n).placeInNewReclaimHead k
  | none => e.placeInNewReclaimHead k

/-! ### Live cells (R63) -/

/-- A segment loses live cells; a fall in FULL or FAILED_CLOSED is an event of R112. -/
def Engine.lowerLive (e : Engine) (l : Location) : Engine :=
  let e1 := e.modSeg l.seg fun g => { g with live := g.live - l.count }
  match (e.seg l.seg).state with
  | .full => e1.wantChoice
  | .failedClosed => e1.wantChoice
  | _ => e1

/-- A segment gains live cells. -/
def Engine.raiseLive (e : Engine) (l : Location) : Engine := e.modSeg l.seg fun g => { g with live := g.live + l.count }

/-- A record's cells move from the old location's segment, if any, to the new one's (R63). -/
def Engine.moveLive (e : Engine) (old : Option Location) (new : Location) : Engine :=
  match old with
  | some l => (e.lowerLive l).raiseLive new
  | none => e.raiseLive new

/-- An entry is removed: its record's cells, if it has a location, are no longer live (R15, R63). -/
def Engine.dropEntry (e : Engine) (key : Nat) : Engine :=
  match e.entry key with
  | none => e
  | some t =>
    let e1 := e.setEntries (removeEntry e.index.entries key)
    match t.body.loc? with
    | some l => e1.lowerLive l
    | none => e1

/-- The removal test (R15): a DELETED entry with stale count 0 and no pending write is removed. -/
def Engine.removalTest (e : Engine) (key : Nat) : Engine :=
  match e.entry key with
  | some t => if t.body.isDeleted && t.stale == 0 && t.pending.isNone then e.dropEntry key else e
  | none => e

/-- A decrement claim (R19). -/
def Engine.decrementClaim (e : Engine) (key : Nat) : Engine :=
  (e.changeEntry key fun t => { t with stale := t.stale - 1 }).removalTest key

/-- A pin is taken on a segment (R64). -/
def Engine.pin (e : Engine) (n : Nat) : Engine := e.modSeg n fun g => { g with pins := g.pins + 1 }

/-! ### Weak marks and the refresh list (R102, R109, R110) -/

/-- A weak mark: the flag is set on an in-use segment, and outside MOUNTING an eligible segment not on the list is
appended while the list has room (R102, R109). -/
def Engine.weakMark (e : Engine) (n : Nat) : Engine :=
  let st := (e.seg n).state
  let e1 := if st.inUse then e.modSeg n fun g => { g with weak := true } else e
  if e.state != .mounting && st.eligible && !e.reclaim.refresh.contains n && e.reclaim.refresh.length < refreshPlaces then
    { e1 with reclaim := { e1.reclaim with refresh := e1.reclaim.refresh ++ [n] } }.wantChoice
  else e1

/-- The lowest-numbered weak segment in an eligible state that is not on the list (R110). -/
def Engine.refillCandidate (e : Engine) : Option Nat :=
  (e.segTable.find? fun p => p.1.weak && p.1.state.eligible && !e.reclaim.refresh.contains p.2).map (·.2)

/-- One refill of the refresh list (R110). -/
def Engine.refill (e : Engine) : Engine :=
  match e.refillCandidate with
  | some n =>
    if e.reclaim.refresh.length < refreshPlaces then
      { e with reclaim := { e.reclaim with refresh := e.reclaim.refresh ++ [n] } }.wantChoice
    else e
  | none => e

/-- A segment leaves the list, and the list is refilled (R110). -/
def Engine.unlist (e : Engine) (n : Nat) : Engine :=
  if e.reclaim.refresh.contains n then
    { e with reclaim := { e.reclaim with refresh := e.reclaim.refresh.filter (· != n) } }.refill
  else e

/-! ### The end of a victim's reclaim (R122, R130) -/

/-- The requester of the current reclaim, if any, completes, and is no longer the requester (R130). -/
def Engine.answerRequester (e : Engine) (st : Status) (ended : ReclaimEnd) : Engine :=
  match e.reclaim.requester with
  | none => e
  | some c =>
    let e1 := e.complete c (adminOutcome st (.reclaim e.reclaim.victim ended
      (if st = .busy then e.reclaim.cursor.getD 0 else 0) e.reclaim.tallies))
    { e1 with reclaim := { e1.reclaim with requester := none } }

/-- The Space Manager reports a segment FREE or RETIRED: when it is the released victim, its reclaim ends and the unit
enters IDLE (R122). -/
def Engine.victimEnded (e : Engine) (n : Nat) (ended : ReclaimEnd) : Engine :=
  if e.reclaim.state = .released && e.reclaim.victim = some n then
    let e1 := e.answerRequester .ok ended
    { e1 with reclaim := { e1.reclaim with state := .idle, victim := none, cursor := none, tallies := {} } }.wantChoice
  else e

/-! ### Retirement (R69) -/

/-- A segment of a FORMAT's stage 3 has ended FREE or RETIRED (R190). -/
def Engine.formatCounts (e : Engine) (n : Nat) (retired : Bool) : Engine :=
  match e.format with
  | some f =>
    if f.segs.contains n then
      let g := if retired then { f with retired := f.retired + 1 } else { f with erased := f.erased + 1 }
      { e with format := some g }
    else e
  | none => e

/-- Retire a segment: it enters RETIRED, its retire cell is queued, SEGMENT_RETIRED is raised, and the 48th retirement
adds RETIRED_LIMIT (R69), in this order (assumption 48). Its other fields stay as they
were: DESIGN CHOICE, unsafe (assumption 52). `by_` is the requester of the retire-cell program. -/
def Engine.retireSegment (e : Engine) (n : Nat) (cause : RetireCause) (by_ : Requester) : Engine :=
  let e1 := e.modSeg n fun g => { g with state := .retired, role := none }
  let e2 := e1.enqueue
    { kind := .retireCell, seg := n, cell := retireCell, count := 1, requester := by_, contents := [.retire] }
  let e3 := e2.raiseNotice (.segmentRetired n cause (e.seg n).eraseCount e1.retiredCount)
  let e4 := if e1.retiredCount = retiredLimit && e.retiredCount < retiredLimit then e3.addCause .retiredLimit else e3
  (e4.formatCounts n true).victimEnded n .retired

/-! ### Release and erase (R67, R73) -/

/-- Queue the erase of a segment (R67, R73, R146). -/
def Engine.queueErase (e : Engine) (n : Nat) : Engine :=
  e.enqueue { kind := .erase, seg := n, cell := 0, count := cellsPerSegment, requester := .space }

/-- Whether an index entry points into a segment (R8, R67). -/
def Engine.pointedInto (e : Engine) (n : Nat) : Bool :=
  e.index.entries.any fun t => (t.body.loc?.map (·.seg)) == some n

/-- The test a released victim waits on: its pin count is 0 and no index entry points into it (R67). It is RECLAIMING until
its step is taken. -/
def Engine.mayLeave (e : Engine) (n : Nat) : Bool :=
  (e.seg n).state == .reclaiming && (e.seg n).pins == 0 && !e.pointedInto n

/-- The released victim's step once it may be taken: ERASING with its erase queued, or retirement when its program failed
mark is set (R67). -/
def Engine.settleReleased (e : Engine) : Engine :=
  match e.space.released with
  | none => e
  | some n =>
    if e.mayLeave n then
      let e1 := { e with space := { e.space with released := none } }
      if (e.seg n).progFailed then e1.retireSegment n .programFailed .space
      else (e1.modSeg n fun g => { g with state := .erasing }).queueErase n
    else e

/-- Queue the erases a FORMAT holds for pins, for those whose pin count is 0 (R73), in the order in which they came to be held
(assumption 47). -/
def Engine.settlePinWait (e : Engine) : Engine :=
  let ready := e.space.pinWait.filter fun n => (e.seg n).pins = 0
  let e1 := { e with space := { e.space with pinWait := e.space.pinWait.filter fun n => (e.seg n).pins != 0 } }
  ready.foldl Engine.queueErase e1

/-- A pin is dropped. When the segment's count falls to 0, the tests that wait on it are made again: the released
victim's step, and the erases a FORMAT holds (R64, R67, R73). -/
def Engine.unpin (e : Engine) (n : Nat) : Engine :=
  let e1 := e.modSeg n fun g => { g with pins := g.pins - 1 }
  if (e1.seg n).pins = 0 then e1.settleReleased.settlePinWait else e1

/-- The erase of a segment, or the format cell after it, has failed: an ERASING segment is retired, keeping the erase
count it had before (R68). -/
def Engine.eraseLost (e : Engine) (n : Nat) (cause : RetireCause) : Engine :=
  if (e.seg n).state = .erasing then e.retireSegment n cause .space else e

/-- An ERASE that passed: its open cell is blank, so the segment's sequence is absent (R55), and the format cell with the
erase count plus 1 is queued, the segment staying ERASING (R68, R93). -/
def Engine.erasePassed (e : Engine) (n : Nat) : Engine :=
  let g := e.seg n
  (e.modSeg n fun g => { g with sseq := none }).enqueue
    { kind := .formatCell, seg := n, cell := 0, count := 1, requester := .space
      contents := [.format (min maxEraseCount (g.eraseCount + 1)) g.estimated] }

/-- The record of a segment that has become FREE with a given erase count (R57, R68). -/
def SegRecord.freed (g : SegRecord) (erases : Nat) : SegRecord :=
  { state := .free, eraseCount := erases, estimated := g.estimated }

/-! ### The failure of a program (R66) -/

/-- A program into a segment has failed: the segment is closed to FAILED_CLOSED, its program failed mark set, its
reservations withdrawn. A segment that has left the states of a head keeps its state and takes the mark (assumption
14). -/
def Engine.closeFailed (e : Engine) (n : Nat) : Engine :=
  if (e.seg n).state.eligible then
    (e.modSeg n fun g => { g with state := .failedClosed, role := none, progFailed := true, progPtr := g.writePtr }).wantChoice
  else e.modSeg n fun g => { g with progFailed := true, progPtr := g.writePtr }

end Sys2Proof.Machine
end

