-- ==== Sys2Proof/Machine/Reclaim.lean ====
section
/-! DEFINITION. The Reclaim Unit (chapter 6): the choice of a victim, the grant, the cursor and its steps, the claims
they make, the orphan sweep, pauses and the end of a reclaim. -/

namespace Sys2Proof.Machine

open Sys2Proof

def Engine.setReclaim (e : Engine) (f : ReclaimUnit → ReclaimUnit) : Engine := { e with reclaim := f e.reclaim }

/-! ### Choosing a victim (R112 to R115) -/

/-- Rule 3's order: more dead cells, then the lower erase count; the lower number wins a tie (R113). -/
def deadBefore (a b : SegRecord × Nat) : Bool :=
  b.1.dead < a.1.dead || (a.1.dead == b.1.dead && a.1.eraseCount < b.1.eraseCount)

/-- The FULL segment with the most dead cells, if it has at least 1 (R113, rule 3). -/
def Engine.mostDead (e : Engine) : Option Nat :=
  (bestOf deadBefore (e.segTable.filter fun p => p.1.state == .full && 1 ≤ p.1.dead)).map (·.2)

/-- The choice of R113, rule 3 applied when `deadSpace` is set. -/
def Engine.chooseVictim (e : Engine) (deadSpace : Bool) : Option Nat :=
  match e.reclaim.refresh with
  | n :: _ => some n
  | [] =>
    match e.segTable.find? fun p => p.1.state == .failedClosed with
    | some p => some p.2
    | none => if deadSpace then e.mostDead else none

/-- The cells the start test counts in the reclaim head: none when there is no head, or when the victim is it (R114). -/
def Engine.headRoom (e : Engine) (victim : Nat) : Nat :=
  match e.headOf .reclaim none with
  | some n => if n = victim then 0 else (e.seg n).cellsLeft
  | none => 0

/-- The start test (R114). -/
def Engine.startTest (e : Engine) (victim : Nat) : Bool :=
  (e.seg victim).live + startWaste ≤ e.headRoom victim + recordCells * e.freeCount

/-- Whether reclamation is wanted (R112). -/
def Engine.reclaimWanted (e : Engine) : Bool :=
  !e.reclaim.refresh.isEmpty || 1 ≤ e.countSegs .failedClosed || e.reclaim.continuous

/-- The conditions under which the unit chooses (R112). -/
def Engine.mayChoose (e : Engine) : Bool :=
  e.reclaim.state == .idle && e.state == .running && !e.readOnly && !e.formatting && e.reclaimWanted

/-- The Reclaim Unit's answer to whether anything can be reclaimed: true for CAN (R115). -/
def Engine.canReclaim (e : Engine) : Bool :=
  let u := e.reclaim
  1 ≤ e.countSegs .erasing ||
    (match u.state with
     | .released => true
     | .grantWait => !u.causes.readOnly
     | .stepping => !u.causes.readOnly
     | .paused => u.causes.stop && !u.causes.readOnly && !u.causes.space
     | .idle =>
       !u.causes.readOnly && (match e.chooseVictim u.continuous with
         | some n => e.startTest n
         | none => false))

/-! ### The walk -/

/-- The unit enters PAUSED; the requester completes BUSY (R125, R130). -/
def Engine.pauseReclaim (e : Engine) : Engine :=
  (e.setReclaim fun u => { u with state := .paused, step := .none }).answerRequester .busy .held

/-- Whether the unit is to stop at a record boundary: for a pause cause, or because a FORMAT has asked it to end its
reclaim (R125 to R127). -/
def Engine.mustPause (e : Engine) : Bool := e.reclaim.causes.any || e.formatEnding

/-- The victim is released: the unit enters RELEASED and the Space Manager takes it (R122). -/
def Engine.releaseVictim (e : Engine) (victim : Nat) : Engine :=
  { e.setReclaim fun u => { u with state := .released, step := .none, sweep := none } with
    space := { e.space with released := some victim } }

/-- A reclaim placement cannot be made: cause SPACE, and PAUSED with the cursor where it is (R124). -/
def Engine.pauseForSpace (e : Engine) : Engine :=
  (e.setReclaim fun u => { u with causes := { u.causes with space := true } }).pauseReclaim

/-- Queue the program of a reclaim record at its reserved cells (R60, R118). -/
def Engine.queueReclaimRecord (e : Engine) (l : Location) (contents : List CellData) (failures : Nat) : Engine :=
  e.enqueue
    { kind := .reclaimRecord, seg := l.seg, cell := l.cell, count := l.count, requester := .reclaim
      failures := failures, contents := contents }

/-- Place a step's record in the reclaim head and queue its program from the reclaim buffer, or pause for space (R60,
R118, R124). -/
def Engine.placeStep (e : Engine) (what : Written) (key : Nat) (original : Location) (contents : List CellData) :
    Engine :=
  match e.placeReclaim contents.length with
  | (e1, some l) =>
    (e1.setReclaim fun u => { u with step := .program what key original, buffer := contents }).queueReclaimRecord l
      contents 0
  | (e1, none) => e1.pauseForSpace

/-- The entry an orphan sweep settles next: the first, from a key on, whose location lies in the victim (R121). -/
def sweepNext (l : List Entry) (from_ victim : Nat) : Option Entry :=
  l.find? fun t => from_ ≤ t.key && (match t.body.loc? with
    | some p => p.seg == victim
    | none => false)

/-- A record of the orphan sweep: it is built in the reclaim buffer and placed (R121). -/
def Engine.sweepWrite (e : Engine) (what : Written) (key : Nat) (original : Location) (contents : List CellData) : Engine :=
  (e.setReclaim fun u => { u with sweep := some key, buffer := contents }).placeStep what key original contents

/-- One entry of the orphan sweep: the record built from the entry alone (R121). -/
def Engine.sweepEntry (e : Engine) (t : Entry) : Engine :=
  match t.body with
  | .nascent => e.setReclaim fun u => { u with sweep := some t.key }
  | .value l r _ => e.sweepWrite .lossMarker t.key l (buildMark .loss t.key r)
  | .lost l r .damaged => e.sweepWrite .lossMarker t.key l (buildMark .loss t.key r)
  | .lost l r .marker => e.sweepWrite .lossCopy t.key l (buildMark .loss t.key r)
  | .deleted l r => e.sweepWrite .tombstone t.key l (buildMark .tombstone t.key r)

/-- The orphan sweep from a key on; past the last entry the victim is released (R121, R122). -/
def Engine.sweepFrom (e : Engine) (victim key : Nat) : Engine :=
  match sweepNext e.index.entries key victim with
  | some t => e.sweepEntry t
  | none => e.releaseVictim victim

/-- The walk has reached the end of the victim's records: release it when its live cells are 0, else sweep, unless the
unit is to pause first (R121). A pause cause does not hold up the release of a walk that has met a BLANK header: the
step under way runs to its end (R125), and that the release is part of it is the model's choice (assumption 43). -/
def Engine.walkEnd (e : Engine) (victim : Nat) : Engine :=
  if (e.seg victim).live = 0 then e.releaseVictim victim
  else
    let e1 := e.setReclaim fun u => { u with sweep := some 0 }
    if e1.mustPause then e1.pauseReclaim else e1.sweepFrom victim 0

/-- Read `count` cells of the victim from `cell`, under a fresh pin (R116). -/
def Engine.reclaimRead (e : Engine) (victim cell count : Nat) (step : ReclaimStep) : Engine :=
  ((e.setReclaim fun u => { u with step := step }).pin victim).enqueue
    { kind := .read, seg := victim, cell := cell, count := count, requester := .reclaim }

/-- Begin the step at the cursor, or take the sweep up where it is (R116, R121). -/
def Engine.beginStep (e : Engine) : Engine :=
  match e.reclaim.victim, e.reclaim.cursor, e.reclaim.sweep with
  | some n, _, some k => e.sweepFrom n k
  | some n, some c, none => if retireCell ≤ c then e.walkEnd n else e.reclaimRead n c 1 .header
  | _, _, _ => e

/-- A record boundary: pause when a cause holds or a FORMAT asks, else begin the next step (R125). A cursor that has come to
2047 pauses here too, before its walk is ended: the model's choice (assumption 43). -/
def Engine.recordBoundary (e : Engine) : Engine := if e.mustPause then e.pauseReclaim else e.beginStep

/-- The cursor passes `count` cells (R116). -/
def Engine.passCells (e : Engine) (count : Nat) : Engine :=
  (e.setReclaim fun u => { u with cursor := u.cursor.map (· + count), step := .none }).recordBoundary

/-- The step's record is passed: the cursor by its cells, or the sweep to the next key (R118, R121). A pause cause that is
pending when the last entry of a sweep has been settled pauses the unit before the victim is released: the model's choice
(assumption 43). -/
def Engine.passRecord (e : Engine) (key count : Nat) : Engine :=
  match e.reclaim.sweep with
  | some _ => (e.setReclaim fun u => { u with sweep := some (key + 1), step := .none }).recordBoundary
  | none => e.passCells count

def Engine.tally (e : Engine) (f : Tallies → Tallies) : Engine := e.setReclaim fun u => { u with tallies := f u.tallies }

/-! ### Settling a record (R117 to R120) -/

/-- Whether an entry points at a location: whether the record there is current (R117). -/
def Engine.isCurrent (e : Engine) (key : Nat) (l : Location) : Bool :=
  match e.lookup key with
  | some b => b.loc? == some l
  | none => false

/-- Whether a key's entry is LOST with loss form DAMAGED (R120). -/
def Engine.isDamaged (e : Engine) (key : Nat) : Bool :=
  match e.lookup key with
  | some (.lost _ _ .damaged) => true
  | _ => false

/-- A record that is not current is settled by its kind (R117). -/
def Engine.settleStale (e : Engine) (victim : Nat) (h : RecordHeader) (v : ValueVerdict) : Engine :=
  if h.kind = .value && v != .torn && !(e.seg victim).progFailed then
    ((e.decrementClaim h.key).tally fun t => { t with stalePassed := t.stalePassed + 1 }).passCells h.cells
  else (e.tally fun t => { t with dropped := t.dropped + 1 }).passCells h.cells

/-- Settle the record with header `h` at a location, from its value cells (R117 to R120). -/
def Engine.settleRecord (e : Engine) (l : Location) (h : RecordHeader) (cells : List CellOutcome) : Engine :=
  let v := valueVerdict h cells
  match h.kind with
  | .tombstone =>
    if e.isCurrent h.key l then e.placeStep .tombstone h.key l (buildCopy h [])
    else (e.tally fun t => { t with dropped := t.dropped + 1 }).passCells h.cells
  | .loss => if e.isCurrent h.key l then e.placeStep .lossCopy h.key l (buildCopy h []) else e.settleStale l.seg h v
  | .value =>
    if e.isCurrent h.key l then
      if v = .intact && !e.isDamaged h.key then e.placeStep .valueCopy h.key l (buildCopy h cells)
      else e.placeStep .lossMarker h.key l (buildMark .loss h.key h.rseq)
    else e.settleStale l.seg h v

/-- The reclaim buffer takes the header of the step's record and its value cells, corrected (R116). -/
def Engine.fillBuffer (e : Engine) (h : RecordHeader) (cells : List CellOutcome) : Engine :=
  e.setReclaim fun u => { u with buffer := buildCopy h cells }

/-- The result of a read at the reclaim cursor (R105, R116). The pin has been dropped. What was read stays in the reclaim
buffer for the step, also where its placement fails (R124). -/
def Engine.reclaimReadDone (e : Engine) (q : Request) (cells : List CellOutcome) : Engine :=
  match e.reclaim.step with
  | .header =>
    match headerVerdict q.cell (cells.headD .uncorrectable) with
    | .blank => (e.setReclaim fun u => { u with step := .none }).walkEnd q.seg
    | .invalid => (e.tally fun t => { t with resync := t.resync + 1 }).passCells 1
    | .valid h =>
      let e1 := e.setReclaim fun u => { u with buffer := [.header h] }
      if h.cells = 1 then e1.settleRecord { seg := q.seg, cell := q.cell, count := 1 } h []
      else e1.reclaimRead q.seg (q.cell + 1) (h.cells - 1) (.values h)
  | .values h =>
    (e.fillBuffer h cells).settleRecord { seg := q.seg, cell := q.cell - 1, count := h.cells } h cells
  | _ => e

/-! ### The claim after a step's program (R118 to R120, R20) -/

/-- What a conditional repoint makes of an entry's body: a marker makes it LOST with loss form MARKER, a copy moves it
(R20). -/
def repointedBody (what : Written) (new : Location) (b : EntryBody) : EntryBody :=
  match what with
  | .lossMarker => .lost new b.rseq .marker
  | _ => b.moved new

/-- The conditional repoint answers DONE: the entry and the live cells move, and a marker raises DATA_LOST (R20, R120). -/
def Engine.repointDone (e : Engine) (what : Written) (key : Nat) (b : EntryBody) (original new : Location) : Engine :=
  let e1 := (e.changeEntry key fun t => { t with body := repointedBody what new t.body }).moveLive (some original) new
  match what with
  | .lossMarker =>
    (e1.tally fun t => { t with markers := t.markers + 1 }).raiseNotice
      (.dataLost key b.rseq b.kind original.seg original.cell new.seg new.cell)
  | _ => e1

/-- The conditional repoint answers CHANGED: a VALUE copy raises the stale count (R20); a VALUE original is then
decremented and tallied as stale (R118, R120). The rise has no upper limit: DESIGN CHOICE (assumption 51). -/
def Engine.repointChanged (e : Engine) (what : Written) (key : Nat) : Engine :=
  match what with
  | .valueCopy =>
    ((e.changeEntry key fun t => { t with stale := t.stale + 1 }).decrementClaim key).tally fun t =>
      { t with stalePassed := t.stalePassed + 1 }
  | .lossMarker => (e.decrementClaim key).tally fun t => { t with stalePassed := t.stalePassed + 1 }
  | _ => e

/-- The copy tally rises for every copy, not for a marker (R118, R119). -/
def Engine.tallyCopy (e : Engine) (what : Written) : Engine :=
  match what with
  | .lossMarker => e
  | _ => e.tally fun t => { t with copied := t.copied + 1 }

/-- The program of a step's record ended with pass: the conditional repoint claim, and the record is passed (R118 to
R121). -/
def Engine.reclaimProgramPassed (e : Engine) (new : Location) : Engine :=
  match e.reclaim.step with
  | .program what key original =>
    let e1 := e.tallyCopy what
    let e2 :=
      match e.lookup key with
      | some b => if b.loc? = some original then e1.repointDone what key b original new else e1.repointChanged what key
      | none => e1.repointChanged what key
    e2.passRecord key original.count
  | _ => e

/-! ### Starting, granting, resuming -/

/-- Start a victim: GRANT_WAIT, and a HEAD is closed to FULL (R114, R65). -/
def Engine.startVictim (e : Engine) (n : Nat) (requester : Option Nat) : Engine :=
  let e1 := e.setReclaim fun u =>
    { u with state := .grantWait, victim := some n, cursor := none, requester := requester, step := .none, sweep := none }
  if (e.seg n).state = .head then e1.closeHead n else e1

/-- The grant, made once the victim's pointers are equal: the victim enters RECLAIMING and leaves the refresh list, the
tallies become 0, the cursor is set to 2, and the unit enters STEPPING, or PAUSED when it is to stop (R65, R114,
R125). -/
def Engine.grantVictim (e : Engine) : Engine :=
  match e.reclaim.state, e.reclaim.victim with
  | .grantWait, some n =>
    if (e.seg n).progPtr = (e.seg n).writePtr then
      let e1 := (e.modSeg n fun g => { g with state := .reclaiming, role := none }).unlist n
      (e1.setReclaim fun u =>
        { u with state := .stepping, cursor := some firstRecordCell, tallies := {}, step := .none, sweep := none }).recordBoundary
    else e
  | _, _ => e

/-- A PAUSED unit with no cause left enters STEPPING and goes on at its cursor (R124, R125). -/
def Engine.resumeReclaim (e : Engine) : Engine :=
  if e.reclaim.state = .paused && !e.mustPause then (e.setReclaim fun u => { u with state := .stepping }).beginStep else e

/-- The unit makes its own choice, when an event of R112 has been taken in this step and the conditions hold (R112 to
R114). -/
def Engine.makeChoice (e : Engine) : Engine :=
  let e1 :=
    if e.reclaim.choiceDue && e.mayChoose then
      match e.chooseVictim e.reclaim.continuous with
      | some n => if e.startTest n then (e.startVictim n none).grantVictim else e
      | none => e
    else e
  e1.setReclaim fun u => { u with choiceDue := false }

end Sys2Proof.Machine
end

