-- ==== Sys2Proof/Machine/Operands.lean ====
section
/-! DEFINITION. The operands of a job: the fields of its 64-byte descriptor (R27, R193) and the descriptor checks (R28,
R181). -/

namespace Sys2Proof.Machine

open Sys2Proof

/-- The bytes of a descriptor; missing bytes read as 0. -/
abbrev Descriptor := List Byte

/-- The number in `size` bytes of a descriptor from `offset` on. -/
def field (d : Descriptor) (offset size : Nat) : Nat := ofLe ((d.drop offset).take size)

/-- The job a code names (R193). -/
def jobOfCode (n : Nat) : Option Job :=
  if n = 0x01 then some .put
  else if n = 0x02 then some .get
  else if n = 0x03 then some .probe
  else if n = 0x04 then some .delete
  else if n = 0x05 then some .matchValue
  else if n = 0x06 then some .scan
  else if n = 0x10 then some .openRing
  else if n = 0x11 then some .closeRing
  else if n = 0x12 then some .setNotice
  else if n = 0x13 then some .setLimits
  else if n = 0x14 then some .queryEngine
  else if n = 0x15 then some .querySegment
  else if n = 0x16 then some .reclaim
  else if n = 0x17 then some .scrub
  else if n = 0x18 then some .format
  else none

/-- Whether a job is a data job (R27). -/
def Job.isData : Job → Bool
  | .put | .get | .probe | .delete | .matchValue | .scan => true
  | _ => false

def Descriptor.job (d : Descriptor) : Option Job := jobOfCode (field d 0 1)
def Descriptor.linkByte (d : Descriptor) : Nat := field d 1 1
/-- LINK, bit 0 of the link byte (R193), read whatever the rest of the descriptor holds (R28). -/
def Descriptor.link (d : Descriptor) : Bool := d.linkByte % 2 = 1
def Descriptor.condition (d : Descriptor) : Nat := field d 2 1
def Descriptor.options (d : Descriptor) : Nat := field d 3 1
def Descriptor.createOnly (d : Descriptor) : Bool := d.options % 2 = 1
def Descriptor.replaceOnly (d : Descriptor) : Bool := d.options / 2 % 2 = 1
def Descriptor.ifRseq (d : Descriptor) : Bool := d.options / 4 % 2 = 1
def Descriptor.key (d : Descriptor) : Nat := field d 16 8
def Descriptor.buffer (d : Descriptor) : Nat := field d 24 8
def Descriptor.length (d : Descriptor) : Nat := field d 32 4
def Descriptor.expected (d : Descriptor) : Nat := field d 40 6

/-- OPEN_RING, CLOSE_RING and SET_NOTICE fields (R193). -/
def Descriptor.ringNumber (d : Descriptor) : Nat := field d 16 1
def Descriptor.priority (d : Descriptor) : Nat := field d 17 1
def Descriptor.vector (d : Descriptor) : Nat := field d 18 1
def Descriptor.armByte (d : Descriptor) : Nat := field d 19 1
def Descriptor.armed (d : Descriptor) : Bool := d.armByte % 2 = 1
def Descriptor.ringSize (d : Descriptor) : Nat := field d 20 4
def Descriptor.ringBase (d : Descriptor) : Nat := field d 24 8
def Descriptor.doneBase (d : Descriptor) : Nat := field d 32 8

/-- SET_LIMITS fields (R193). -/
def Descriptor.lowWater (d : Descriptor) : Nat := field d 16 2
def Descriptor.threshold (d : Descriptor) : Nat := field d 18 2
def Descriptor.spaceWait (d : Descriptor) : Nat := field d 20 4
def Descriptor.eraseQuantum (d : Descriptor) : Nat := field d 24 4

/-- QUERY_SEGMENT, RECLAIM and SCRUB segment, and the report address of a query (R193). -/
def Descriptor.segment (d : Descriptor) : Nat := field d 20 2
def Descriptor.reportAddress (d : Descriptor) : Nat := field d 24 8

/-- The bytes 16 to 63 that a job's layout gives a field, as offset and size (R193). -/
def Job.layout : Job → List (Nat × Nat)
  | .put => [(16, 8), (24, 8), (32, 4), (40, 6)]
  | .get => [(16, 8), (24, 8), (32, 4)]
  | .probe => [(16, 8)]
  | .delete => [(16, 8)]
  | .matchValue => [(16, 8), (24, 8), (32, 4)]
  | .scan => [(16, 8), (24, 8), (32, 4)]
  | .openRing => [(16, 1), (17, 1), (18, 1), (19, 1), (20, 4), (24, 8), (32, 8)]
  | .closeRing => [(16, 1)]
  | .setNotice => [(18, 1), (19, 1), (20, 4), (24, 8)]
  | .setLimits => [(16, 2), (18, 2), (20, 4), (24, 4)]
  | .queryEngine => [(24, 8)]
  | .querySegment => [(20, 2), (24, 8)]
  | .reclaim => [(20, 2)]
  | .scrub => [(20, 2)]
  | .format => []

/-- Whether a byte place is given to a field of a layout. -/
def covered (layout : List (Nat × Nat)) (i : Nat) : Bool := layout.any fun p => p.1 ≤ i && i < p.1 + p.2

/-- Whether every byte 16 to 63 that a job's layout leaves out is 0 (R193). -/
def tailReserved (layout : List (Nat × Nat)) (d : Descriptor) : Bool :=
  (List.range 48).all fun i => covered layout (16 + i) || field d (16 + i) 1 == 0

/-- Whether the reserved bits of the common bytes and of the flag bytes are 0, and the condition code and options name
something (R28 check 4, R181, R193). -/
def commonReserved (j : Job) (d : Descriptor) : Bool :=
  field d 4 4 == 0 &&
    (if j.isData then d.linkByte ≤ 1 && d.condition ≤ 6 else d.linkByte == 0 && d.condition == 0) &&
    (if j = .put then d.options ≤ 7 else d.options == 0) &&
    (if j = .openRing || j = .setNotice then d.armByte ≤ 1 else true) &&
    (if j = .put && !d.ifRseq then d.expected == 0 else true)

/-- Check 4 of R28: reserved fields, CREATE_ONLY with REPLACE_ONLY, and a condition on a job that is no follower. -/
def fieldsHold (j : Job) (d : Descriptor) (follower : Bool) : Bool :=
  commonReserved j d && tailReserved j.layout d && !(j == .put && d.createOnly && d.replaceOnly)
    && (follower || d.condition == 0)

/-- Check 5 of R28: a data job's key, or start key, is not 0. -/
def keyHolds (j : Job) (d : Descriptor) : Bool := !j.isData || d.key != 0

/-- Check 6 of R28: the length. -/
def lengthHolds (j : Job) (d : Descriptor) : Bool :=
  match j with
  | .put => d.length ≤ maxValue
  | .matchValue => d.length ≤ maxValue
  | .scan => d.length % 16 == 0 && d.length ≤ maxScanCapacity
  | _ => true

/-- The descriptor checks in order: the status of the first that fails (R28, R181). -/
def checkDescriptor (ring position : Nat) (follower : Bool) (d : Descriptor) : Option Status :=
  if chainLength < position then some .badChain
  else
    match d.job with
    | none => some .badDescriptor
    | some j =>
      if j.isData != (ring != 0) then some .wrongRing
      else if !fieldsHold j d follower then some .badDescriptor
      else if !keyHolds j d then some .badKey
      else if !lengthHolds j d then some .badLength
      else none

/-- A power of two from 16 to a limit: a ring size (R150). -/
def ringSizeHolds (limit n : Nat) : Bool :=
  n ≤ limit && (n == 16 || n == 32 || n == 64 || n == 128 || n == 256 || n == 512 || n == 1024)

/-- A value of a limit: 0 keeps it, any other must lie in the range (R183). -/
def limitHolds (lo hi n : Nat) : Bool := n == 0 || (lo ≤ n && n ≤ hi)

end Sys2Proof.Machine
end

