-- ==== Sys2Proof/Machine/Flags.lean ====
section
/-! DEFINITION. The outcome flags (R30, R182), the chain flags and conditions (R47, R48), and the outcomes that jobs
decide with them. -/

namespace Sys2Proof.Machine

open Sys2Proof

/-- Kinds that count as FOUND for a PUT or PROBE: VALUE or LOST (R30). -/
def KeyKind.holds : KeyKind → Bool
  | .value => true
  | .lost => true
  | _ => false

/-- The outcome flags of a PUT: from its status, the kind at admission, and whether IF_RSEQ was tested and equal (R30). -/
def putFlags (st : Status) (kind : KeyKind) (matched : Bool) : OutcomeFlags :=
  match st with
  | .ok => { succeeded := true, found := kind.holds, matched := matched }
  | .exists => { found := true }
  | .notFound => { found := kind.holds }
  | .conflict => { found := kind.holds }
  | .noSpace => { found := kind.holds, matched := matched }
  | .mediaError => { found := kind.holds, matched := matched }
  | _ => {}

/-- The outcome flags of a GET (R30). -/
def getFlags : Status → OutcomeFlags
  | .ok => { succeeded := true, found := true }
  | .damaged => { found := true }
  | .shortBuffer => { found := true }
  | .mediaError => { found := true }
  | .hostError => { found := true }
  | _ => {}

/-- The outcome flags of a PROBE (R30). -/
def probeFlags (kind : KeyKind) : OutcomeFlags := { succeeded := true, found := kind.holds }

/-- The outcome flags of a DELETE (R30). -/
def deleteFlags : Status → OutcomeFlags
  | .ok => { succeeded := true, found := true }
  | .noSpace => { found := true }
  | .mediaError => { found := true }
  | _ => {}

/-- The outcome flags of a MATCH; `equal` when the values are equal (R30). -/
def matchFlags (st : Status) (equal : Bool) : OutcomeFlags :=
  match st with
  | .ok => { succeeded := true, found := true, matched := equal }
  | .mediaError => { found := true }
  | _ => {}

/-- The outcome flags of a SCAN (R30). -/
def scanFlags (st : Status) (count : Nat) : OutcomeFlags :=
  match st with
  | .ok => { succeeded := true, found := 1 ≤ count }
  | _ => {}

/-- The outcome flags of a write of either kind (R30). -/
def writeFlags (w : WriteKind) (st : Status) (kind : KeyKind) (matched : Bool) : OutcomeFlags :=
  match w with
  | .put => putFlags st kind matched
  | .delete => deleteFlags st

/-- The result fields of a lookup: the entry's record sequence, and the stored length for VALUE (R29). -/
def lookupResults (b : Option EntryBody) : Results :=
  match b with
  | some x => .record x.rseq x.len
  | none => .record 0 0

/-- The outcome of a GET from its status and its lookup (R29, R30, R35). -/
def getOutcome (st : Status) (b : Option EntryBody) : JobOutcome :=
  { status := st, flags := getFlags st, kind := bodyKind b, results := lookupResults b }

/-- The outcome of a MATCH from its status, its lookup and its comparison (R29, R30, R39). -/
def matchOutcome (st : Status) (b : Option EntryBody) (equal : Bool) : JobOutcome :=
  { status := st, flags := matchFlags st equal, kind := bodyKind b, results := lookupResults b }

/-- Whether a condition passes against the chain flags; NONE always does (R48, R193). -/
def conditionPasses (condition : Nat) (f : OutcomeFlags) : Bool :=
  if condition = 1 then f.succeeded
  else if condition = 2 then !f.succeeded
  else if condition = 3 then f.found
  else if condition = 4 then !f.found
  else if condition = 5 then f.matched
  else if condition = 6 then !f.matched
  else true

/-- The chain flags after the done record of a job in the chain: a job that executed puts its own, a SKIPPED one leaves
them (R47). -/
def chainFlagsAfter (o : JobOutcome) (f : OutcomeFlags) : OutcomeFlags := if o.status = .skipped then f else o.flags

end Sys2Proof.Machine
end

