-- ==== Sys2Proof/Machine/Jobs.lean ====
section
/-! DEFINITION. The Job Unit (chapter 2): lookups and reads, admission and the write lock, the writing of a record, the
space wait, chains, and the end of a context. -/

namespace Sys2Proof.Machine

open Sys2Proof

/-! ### Contexts -/

/-- The job of a context. -/
def JobContext.job (x : JobContext) : Option Job := Descriptor.job x.descriptor

/-- The key of a context's job (R27). -/
def JobContext.key (x : JobContext) : Nat := Descriptor.key x.descriptor

/-- The kind of write a context's job makes. -/
def JobContext.writeKind (x : JobContext) : WriteKind := if x.job = some .delete then .delete else .put

/-- Whether a context's job step may be taken: TAKEN, with its checks and chain wait behind it, and the engine not HALTED
(R25, R50). -/
def Engine.jobReady (e : Engine) (c : Nat) (j : Job) : Bool :=
  let x := e.ctx c
  e.state != .halted && x.state == .taken && x.ready && x.job == some j

/-- Begin a transfer for a job (R31, R36). -/
def Engine.beginTransfer (e : Engine) (c : Nat) (st : CtxState) (t : Transfer) : Engine :=
  e.modCtx c fun x => { x with state := st, ready := false, transfer := some t }

/-- Bytes brought to exactly `n`: the transfer moves that many (R31). -/
def fitBytes (n : Nat) (bytes : List Byte) : List Byte := (bytes ++ zeros (n - bytes.length)).take n

/-! ### Writing a record (R32, R38, R70) -/

/-- The record of an admitted write (R2, R97). -/
def JobContext.record (x : JobContext) : List CellData :=
  let rseq := (x.grant.map (·.rseq)).getD 0
  match x.writeKind with
  | .put => buildValue x.key rseq (fitBytes (Descriptor.length x.descriptor) x.staging)
  | .delete => buildMark .tombstone x.key rseq

/-- The cells an admitted write needs (R32, R38). -/
def JobContext.recordCells (x : JobContext) : Nat :=
  match x.writeKind with
  | .put => recordSize (Descriptor.length x.descriptor)
  | .delete => 1

/-- Queue the program of a context's record at its reserved cells; the context is in MEDIA (R59). -/
def Engine.queueHostRecord (e : Engine) (c : Nat) (l : Location) : Engine :=
  let x := e.ctx c
  (e.modCtx c fun y => { y with state := .media, ready := false }).enqueue
    { kind := .hostRecord, seg := l.seg, cell := l.cell, count := l.count, requester := .ctx c
      failures := x.failures, contents := x.record }

/-- The done record of a write that was admitted (R29, R34, R38). -/
def writeOutcome (w : WriteKind) (g : Grant) (st : Status) (len : Nat) : JobOutcome :=
  { status := st
    flags := writeFlags w st g.kind g.matched
    kind := g.kind
    results :=
      match w, st with
      | .put, .ok => .record g.rseq len
      | .delete, .ok => .record g.rseq 0
      | .put, _ => .record g.rseq 0
      | .delete, _ => .record 0 0 }

/-- Change the pending write that a context holds on its key. -/
def Engine.changePending (e : Engine) (c : Nat) (f : PendingWrite → PendingWrite) : Engine :=
  e.changeEntry (e.ctx c).key fun t =>
    { t with pending := t.pending.map fun p => if p.ctx = c then f p else p }

/-- An admitted write fails: its pending write becomes FAILED, the entry stays as at admission, and the job completes
(R14, R32). -/
def Engine.failWrite (e : Engine) (c : Nat) (st : Status) : Engine :=
  match (e.ctx c).grant with
  | some g =>
    (e.changePending c fun p => { p with progress := .failed }).complete c (writeOutcome (e.ctx c).writeKind g st 0)
  | none => e

/-- A context begins to wait for space: it joins the tail of the queue with its deadline (R70). -/
def Engine.beginSpaceWait (e : Engine) (c : Nat) : Engine :=
  let e1 := e.modCtx c fun x => { x with state := .spaceWait, ready := false }
  { e1 with
    space := { e1.space with
      waitQueue := e1.space.waitQueue ++ [{ ctx := c, deadline := e.now + 1000 * e.control.limits.spaceWait }] } }

/-- Place an admitted write's record, or begin waiting, or complete NO_SPACE at once when nothing can be reclaimed (R32,
R59, R70). -/
def Engine.placeWrite (e : Engine) (c : Nat) : Engine :=
  match e.placeHost (e.ctx c).recordCells with
  | (e1, some l) => e1.queueHostRecord c l
  | (e1, none) => if e1.canReclaim then e1.beginSpaceWait c else e1.failWrite c .noSpace

/-- One waiting job tries its placement again; it leaves the queue when it is placed (R71). -/
def Engine.retryPlacement (e : Engine) (w : SpaceWaiter) : Engine :=
  match e.placeHost (e.ctx w.ctx).recordCells with
  | (e1, some l) =>
    { e1 with space := { e1.space with waitQueue := e1.space.waitQueue.filter (·.ctx != w.ctx) } }.queueHostRecord
      w.ctx l
  | (e1, none) => e1

/-- The wait queue is served, oldest first (R71). -/
def Engine.serveWaitQueue (e : Engine) : Engine := e.space.waitQueue.foldl Engine.retryPlacement e

/-- The FREE count has risen: the space event test, the wait queue, the cause SPACE, and the choice (R57, R71, R112,
R124). The guide does not say whether the waiting jobs or a reclaim paused for SPACE take the segment first: the model
serves the wait queue first (assumption 41). -/
def Engine.freeRose (e : Engine) : Engine :=
  let e1 := e.spaceTest.serveWaitQueue
  (e1.setReclaim fun u => { u with causes := { u.causes with space := false } }).resumeReclaim.wantChoice

/-! ### Admission and the write lock (R10 to R12, R16) -/

/-- The kind an admission checks: a NASCENT entry counts as a missing key (R16). -/
def admissionKind : Option EntryBody → KeyKind
  | none => .absent
  | some .nascent => .absent
  | some b => b.kind

/-- Whether a PUT's IF_RSEQ is satisfied: VALUE or LOST with the expected sequence (R11). -/
def rseqMatches (d : Descriptor) (b : Option EntryBody) : Bool :=
  match b with
  | some x => (admissionKind b).holds && x.rseq == d.expected
  | none => false

/-- The checks of an admission but for the capacity test: the status of the first that fails (R11). -/
def refusal (w : WriteKind) (d : Descriptor) (barred : Bool) (b : Option EntryBody) : Option Status :=
  let k := admissionKind b
  if barred then some .readOnly
  else
    match w with
    | .delete => if k.holds then none else some .notFound
    | .put =>
      if d.createOnly && k.holds then some .exists
      else if d.replaceOnly && k != .value then some .notFound
      else if d.ifRseq && !rseqMatches d b then some .conflict
      else none

/-- Whether writes are barred at admission: READ_ONLY, or the counter exhausted (R11 check 1). -/
def Engine.writesBarred (e : Engine) : Bool := e.readOnly || e.index.writeSeq == writeSeqExhausted

/-- The done record of a write refused at admission (R29, R34, R38). -/
def refusedOutcome (w : WriteKind) (st : Status) (b : Option EntryBody) : JobOutcome :=
  { status := st
    flags := writeFlags w st (admissionKind b) false
    kind := admissionKind b
    results :=
      match w, st, b with
      | .put, .exists, some x => .record x.rseq 0
      | .put, .conflict, some x => .record x.rseq 0
      | _, _, _ => .record 0 0 }

/-- The write sequence counter is taken: it increases by 1, and its exhaustion is reported (R4, R12). -/
def Engine.takeSequence (e : Engine) : Engine :=
  let e1 := { e with index := { e.index with writeSeq := e.index.writeSeq + 1 } }
  if e.index.writeSeq + 1 = writeSeqExhausted then e1.addCause .writeSequence else e1

/-- Admit a write that passed its checks: it takes its sequence, its pending write is set, and it asks for its placement
(R12). -/
def Engine.admitWrite (e : Engine) (c : Nat) : Engine :=
  let x := e.ctx c
  let b := e.lookup x.key
  let rseq := e.index.writeSeq
  let e1 :=
    if b.isNone then e.setEntries (insertEntry e.index.entries { key := x.key, body := .nascent }) else e
  let e2 := e1.changeEntry x.key fun t =>
    { t with pending := some { ctx := c, write := x.writeKind, rseq := rseq, progress := .inFlight } }
  let matched := x.writeKind == .put && Descriptor.ifRseq x.descriptor
  (e2.takeSequence.modCtx c fun y =>
    { y with grant := some { kind := admissionKind b, rseq := rseq, matched := matched } }).placeWrite c

/-- Check a write afresh and let it in, or complete it with its refusal (R11). The key of a job that is handed a lock has an
entry, so the capacity test refuses none of those (R16). The answer is whether it was admitted. -/
def Engine.checkWrite (e : Engine) (c : Nat) : Engine × Bool :=
  let x := e.ctx c
  let b := e.lookup x.key
  match refusal x.writeKind x.descriptor e.writesBarred b with
  | some st => (e.complete c (refusedOutcome x.writeKind st b), false)
  | none =>
    if b.isNone && indexCapacity ≤ e.index.entries.length then
      (e.complete c (refusedOutcome x.writeKind .indexFull b), false)
    else (e.admitWrite c, true)

/-- A PUT or DELETE asks for admission: it joins the wait list of a key with a pending write, or is checked at once
(R10, R11). -/
def Engine.askAdmission (e : Engine) (c : Nat) : Engine :=
  let key := (e.ctx c).key
  match (e.entry key).bind (·.pending) with
  | some _ =>
    (e.changeEntry key fun t => { t with waiters := t.waiters ++ [c] }).modCtx c fun x =>
      { x with state := .keyWait, ready := false }
  | none => (e.checkWrite c).1

/-- Hand a released lock on: the waiters are checked afresh, oldest first, until one is admitted; if none is, a NASCENT
entry is removed and a DELETED one tested for removal (R16). -/
def Engine.handOn (e : Engine) (key : Nat) : List Nat → Engine
  | [] =>
    match e.lookup key with
    | some .nascent => e.dropEntry key
    | _ => e.removalTest key
  | w :: ws =>
    match (e.changeEntry key fun t => { t with waiters := ws }).checkWrite w with
    | (e1, true) => e1
    | (e1, false) => e1.handOn key ws

/-- The write lock a context holds is released (R16). -/
def Engine.releaseLock (e : Engine) (c : Nat) : Engine :=
  let key := (e.ctx c).key
  match e.entry key with
  | some t =>
    if (t.pending.map (·.ctx)) = some c then
      (e.changeEntry key fun u => { u with pending := none }).handOn key t.waiters
    else e
  | none => e

/-! ### The end of a host write's program (R13, R90) -/

/-- The body of an entry after the completion of a write (R13). -/
def durableBody (w : WriteKind) (l : Location) (rseq len : Nat) : EntryBody :=
  match w with
  | .put => .value l rseq len
  | .delete => .deleted l rseq

/-- A host record's program ended with pass: the entry is repointed, the stale count and the live cells change, the
pending write becomes DURABLE, and the job's outcome is OK (R13, R32, R38, R63). A stale count at the top of R7's range
counts on: DESIGN CHOICE (assumption 51). -/
def Engine.hostProgramPassed (e : Engine) (c : Nat) (l : Location) : Engine :=
  let x := e.ctx c
  match x.grant, e.lookup x.key with
  | some g, some b =>
    let len := match x.writeKind with
      | .put => Descriptor.length x.descriptor
      | .delete => 0
    let e1 := e.changeEntry x.key fun t =>
      { t with
        body := durableBody x.writeKind l g.rseq len
        stale := if t.body.supersedesValue then t.stale + 1 else t.stale }
    let e2 := (e1.moveLive b.loc? l).changePending c fun p => { p with progress := .durable }
    (e2.removalTest x.key).complete c (writeOutcome x.writeKind g .ok len)
  | _, _ => e

/-! ### Lookups and reads (R17, R35, R39) -/

/-- Pin a location's segment and queue a READ of its cells for a context, which enters MEDIA (R35, R39, R64). -/
def Engine.readLocation (e : Engine) (c : Nat) (l : Location) : Engine :=
  ((e.modCtx c fun x => { x with state := .media, ready := false }).pin l.seg).enqueue
    { kind := .read, seg := l.seg, cell := l.cell, count := l.count, requester := .ctx c }

/-- Record what a lookup returned. -/
def Engine.noteLookup (e : Engine) (c : Nat) (b : Option EntryBody) : Engine := e.modCtx c fun x => { x with found := b }

/-- A GET's lookup, acted on by the kind returned (R35). -/
def Engine.getLookup (e : Engine) (c : Nat) : Engine :=
  let x := e.ctx c
  let b := e.lookup x.key
  let e1 := e.noteLookup c b
  match b with
  | some (.value l _ len) =>
    if Descriptor.length x.descriptor < len then e1.complete c (getOutcome .shortBuffer b)
    else if len = 0 then e1.complete c (getOutcome .ok b)
    else e1.readLocation c l
  | some (.lost _ _ _) => e1.complete c (getOutcome .damaged b)
  | _ => e1.complete c (getOutcome .notFound b)

/-- A MATCH's lookup, acted on by the kind returned (R39). -/
def Engine.matchLookup (e : Engine) (c : Nat) : Engine :=
  let x := e.ctx c
  let b := e.lookup x.key
  let e1 := e.noteLookup c b
  match b with
  | some (.value l _ len) =>
    if len != Descriptor.length x.descriptor then e1.complete c (matchOutcome .ok b false)
    else if len = 0 then e1.complete c (matchOutcome .ok b true)
    else e1.readLocation c l
  | some (.lost _ _ _) => e1.complete c (matchOutcome .damaged b false)
  | _ => e1.complete c (matchOutcome .notFound b false)

/-- Whether a location read of a context is READABLE, for the entry its lookup returned (R101). -/
def JobContext.readable (x : JobContext) (cells : List CellOutcome) : Bool :=
  match x.found with
  | some (.value l r n) => locationReadable l x.key r n cells
  | _ => false

/-- The value length a context's lookup returned. -/
def JobContext.foundLen (x : JobContext) : Nat := (x.found.map EntryBody.len).getD 0

/-- A GET's READ has been classified: its value goes to the host, or it completes MEDIA_ERROR (R36, R104). -/
def Engine.getReadDone (e : Engine) (c : Nat) (cells : List CellOutcome) : Engine :=
  let x := e.ctx c
  if x.readable cells then
    let bytes := valueBytes x.foundLen cells.tail
    (e.modCtx c fun y => { y with staging := bytes }).beginTransfer c .returning
      (.store (Descriptor.buffer x.descriptor) bytes)
  else e.complete c (getOutcome .mediaError x.found)

/-- A MATCH's READ has been classified: its value is compared, or it completes MEDIA_ERROR (R40, R104). -/
def Engine.matchReadDone (e : Engine) (c : Nat) (cells : List CellOutcome) : Engine :=
  let x := e.ctx c
  if x.readable cells then
    e.complete c (matchOutcome .ok x.found (valueBytes x.foundLen cells.tail == x.staging))
  else e.complete c (matchOutcome .mediaError x.found false)

/-! ### SCAN (R41, R42) -/

/-- The walk goes on from where it stands until staging is full or it ends; the entries go to the host, or with none the
job completes (R41, R42). -/
def Engine.scanStep (e : Engine) (c : Nat) : Engine :=
  let x := e.ctx c
  let w := scanWalk e.index.entries x.scan.next x.scan.left scanBatch
  let work := { x.scan with next := w.next, left := x.scan.left - w.count, count := x.scan.count + w.count, ended := w.ended }
  let e1 := e.modCtx c fun y => { y with staging := w.bytes, scan := work }
  match w.count, w.ended with
  | 0, some k =>
    e1.complete c
      { status := .ok, flags := scanFlags .ok work.count, results := .scan k work.count }
  | _, _ => e1.beginTransfer c .returning (.store (Descriptor.buffer x.descriptor + x.scan.written) w.bytes)

/-! ### Chains (R46 to R49) -/

/-- A job whose wait is over, or that has none: it completes with its failed check, or SKIPPED when its condition fails,
or its job step may be taken (R48, R49). -/
def Engine.proceed (e : Engine) (c : Nat) : Engine :=
  let x := e.ctx c
  match x.verdict with
  | some st => e.complete c { status := st }
  | none =>
    if 2 ≤ x.position && !conditionPasses (Descriptor.condition x.descriptor) (e.ring x.ring).chain.flags then
      e.complete c { status := .skipped }
    else e.modCtx c fun y => { y with state := .taken, ready := true, predecessor := none }

/-- The context that waits for the done record of context `c` (R48). -/
def Engine.waiterOn (e : Engine) (c : Nat) : Option Nat :=
  (e.ctxs.zipIdx.find? fun p => p.1.state == .linkWait && p.1.predecessor == some c).map (·.2)

/-- The done record of a job has been written: the ring's chain flags and predecessor change, and a waiting job is
released (R47, R48). A FAULTED ring's chain state stays the initial one (R52). -/
def Engine.chainWritten (e : Engine) (c : Nat) : Engine :=
  let x := e.ctx c
  if x.position = 0 || (e.ring x.ring).state == .faulted then e
  else
    let e1 := e.modRing x.ring fun g =>
      { g with chain := { g.chain with
          flags := chainFlagsAfter x.outcome g.chain.flags
          predecessor := if g.chain.predecessor = some c then none else g.chain.predecessor } }
    match e1.waiterOn c with
    | some w => e1.proceed w
    | none => e1

/-! ### The end of a context (R25, R29, R52) -/

/-- A context becomes FREE; its staging is not cleared (R26). A FORMAT's context that ends ends the FORMAT (R188). -/
def Engine.freeCtx (e : Engine) (c : Nat) : Engine :=
  let e1 := e.modCtx c fun x => { staging := x.staging }
  match e.format with
  | some f => if f.ctx = c then { e1 with format := none }.wantChoice else e1
  | none => e1

/-- A done record is discarded: its context is freed as if the record had been written, its lock released, and the
in-flight count falls by 1 (R52, R155, R163). -/
def Engine.discard (e : Engine) (r c : Nat) : Engine :=
  let e1 := e.modRing r fun g => { g with posting := g.posting.filter (· != c), inFlight := g.inFlight - 1 }
  (e1.releaseLock c).freeCtx c

/-- The context whose done record a ring discards next: of a FAULTED ring, the oldest that is not being written (R163). -/
def RingContext.discardNext (g : RingContext) : Option Nat :=
  match g.state with
  | .faulted => if g.writing then g.posting.tail.head? else g.posting.head?
  | _ => none

/-- The first ring with a record to discard, and its context. -/
def Engine.discardNext (e : Engine) : Option (Nat × Nat) :=
  e.rings.zipIdx.findSome? fun p => p.1.discardNext.map fun c => (p.2, c)

/-- Discard records until none is left; each discard frees one context, so there are at most as many as contexts. -/
def Engine.discardAll (e : Engine) : Nat → Engine
  | 0 => e
  | n + 1 =>
    match e.discardNext with
    | some (r, c) => (e.discard r c).discardAll n
    | none => e

end Sys2Proof.Machine
end

