-- ==== Sys2Proof/Machine/Mount.lean ====
section
/-! DEFINITION. The Mount Unit (chapter 7): the survey, the blank checks, pass A over values and loss markers, pass B over
tombstones, the finish and MOUNT_DONE. -/

namespace Sys2Proof.Machine

open Sys2Proof

def Engine.setMount (e : Engine) (f : MountUnit → MountUnit) : Engine := { e with mount := f e.mount }

def Engine.countMount (e : Engine) (f : MountStats → MountStats) : Engine :=
  e.setMount fun m => { m with stats := f m.stats }

/-- A read of the Mount Unit (R135). -/
def Engine.mountRead (e : Engine) (seg cell count : Nat) : Engine :=
  e.enqueue { kind := .read, seg := seg, cell := cell, count := count, requester := .mount }

/-- The first segment, from a number on, in a state that satisfies `p`. -/
def Engine.segFrom (e : Engine) (from_ : Nat) (p : SegState → Bool) : Option Nat :=
  (e.segTable.find? fun q => from_ ≤ q.2 && p q.1.state).map (·.2)

/-! ### Finish (R144 to R146) -/

/-- The live cells of a segment, from the entries (R144 step 2). -/
def liveFrom (l : List Entry) (seg : Nat) : Nat :=
  l.foldl (fun n t => match t.body.loc? with
    | some p => if p.seg = seg then n + p.count else n
    | none => n) 0

/-- R144 step 1: the DELETED entries with stale count 0 are removed. -/
def finishEntries (l : List Entry) : List Entry := l.filter fun t => !(t.body.isDeleted && t.stale == 0)

/-- A segment record at the finish: its live cells (R144 step 2), and of an in-use segment, which is held as FULL, the pins
0 and the program failed mark clear (R144 step 3). -/
def SegRecord.finished (g : SegRecord) (live : Nat) : SegRecord :=
  if g.state = .full then { g with live := live, pins := 0, progFailed := false } else { g with live := live }

/-- R144 steps 2 and 3: the segment records, with the live cells from the entries that remain. -/
def finishSegs (l : List Entry) (segs : List SegRecord) : List SegRecord :=
  segs.zipIdx.map fun p => p.1.finished (liveFrom l p.2)

/-- The causes of READ_ONLY at the finish (R145). -/
def Engine.mountCauses (e : Engine) : ReadOnlyCauses :=
  { retiredLimit := retiredLimit ≤ e.retiredCount
    indexOverflow := 0 < e.mount.stats.overflow
    writeSequence := e.index.writeSeq == writeSeqExhausted
    segmentSequence := e.space.segSeq == segSeqExhausted }

/-- The refresh list built from empty: weak segments in ascending number, up to 8 (R110, R145). -/
def Engine.builtRefresh (e : Engine) : List Nat :=
  ((e.segTable.filter fun p => p.1.weak && p.1.state.eligible).map (·.2)).take refreshPlaces

/-- R144: the index, the segment records and the counters are completed, and the rotation point is 3. -/
def Engine.finishTables (e : Engine) : Engine :=
  let ents := finishEntries e.index.entries
  { e with
    index := { entries := ents, writeSeq := e.mount.maxRseq + 1 }
    space := { e.space with
      segs := finishSegs ents e.space.segs
      segSeq := e.mount.maxSseq + 1
      rotation := 3 } }

/-- The DIRTY segments enter ERASING and their erases are queued, in ascending number (R146). -/
def Engine.eraseDirty (e : Engine) : Engine :=
  let dirty := (e.segTable.filter fun p => p.1.state == .dirty).map (·.2)
  dirty.foldl (fun e1 n => (e1.modSeg n fun g => { g with state := .erasing }).queueErase n) e

/-- MOUNT_DONE, in its two parts (R146, R195). -/
def Engine.raiseMountDone (e : Engine) : Engine :=
  let st := e.mount.stats
  let ents := e.index.entries
  (e.raiseNotice (.mountDone1 e.control.causes e.index.writeSeq e.space.segSeq
      (countBodies EntryBody.isValue ents) (countBodies EntryBody.isDeleted ents) (countBodies EntryBody.isLost ents)
      st.estimated st.ms)).raiseNotice
    (.mountDone2 (e.countSegs .free) (e.countSegs .full) (e.countSegs .dirty) (e.countSegs .retired)
      st.records st.torn st.resync st.damaged st.overflow)

/-- The work of phase FINISH up to the moment the engine becomes RUNNING: the tables, the write mode and its causes, the
refresh list and MOUNT_DONE (R144 to R146), its mount time in whole ms, the remainder dropped (assumption 49). The Reclaim
Unit adds its cause READ_ONLY when the mode becomes READ_ONLY (R126; assumption 23). -/
def Engine.finishWork (e : Engine) : Engine :=
  let e1 := (e.setMount fun m => { m with phase := .finish, stats := { m.stats with ms := (e.now - m.started) / 1000 } }).finishTables
  let causes := e1.mountCauses
  let e2 := { e1 with
    control := { e1.control with causes := causes }
    reclaim := { e1.reclaim with
      refresh := e1.builtRefresh
      causes := { e1.reclaim.causes with readOnly := causes.any } } }
  e2.raiseMountDone.setMount fun m => { m with phase := .none }

/-- Phase FINISH and the end of the mount, in MOUNTING (R144 to R146): the tables and MOUNT_DONE, RUNNING, the erases of
the DIRTY segments, the first space event test and the first choice. -/
def Engine.finishMount (e : Engine) : Engine :=
  if e.state = .mounting then ((e.finishWork.setState .running).eraseDirty.spaceTest).wantChoice else e

/-! ### Pass B (R143) -/

/-- Read the header at the cursor. -/
def Engine.mountHeader (e : Engine) : Engine := e.mountRead e.mount.seg e.mount.cursor 1

/-- Pass B takes the next in-use segment with cells to walk, or the mount finishes (R143, R144). -/
def Engine.passBFrom (e : Engine) (from_ : Nat) : Engine :=
  match e.segFrom from_ (· == .full) with
  | some n => (e.setMount fun m => { m with seg := n, cursor := firstRecordCell }).mountHeader
  | none => e.finishMount

/-- Phase PASS_B begins (R143). -/
def Engine.startPassB (e : Engine) : Engine := (e.setMount fun m => { m with phase := .passB }).passBFrom 0

/-- The cursor of pass B passes `count` cells; the walk of a segment ends where pass A's ended (R143). -/
def Engine.passBMove (e : Engine) (count : Nat) : Engine :=
  let c := e.mount.cursor + count
  if (e.seg e.mount.seg).writePtr ≤ c then e.passBFrom (e.mount.seg + 1)
  else (e.setMount fun m => { m with cursor := c }).mountHeader

/-- Whether a location lies later than another: by the segment sequences, and in one segment by the cell (R140, R143). -/
def Engine.laterPlace (e : Engine) (a b : Location) : Bool :=
  let sa := ((e.seg a.seg).sseq).getD 0
  let sb := ((e.seg b.seg).sseq).getD 0
  if a.seg = b.seg then b.cell < a.cell else sb < sa

/-- A VALID tombstone is judged against its key's entry (R143). A rise of the stale count has no upper limit: DESIGN CHOICE
(assumption 51). -/
def Engine.judgeTombstone (e : Engine) (l : Location) (h : RecordHeader) : Engine :=
  match e.lookup h.key with
  | none => e
  | some b =>
    if b.rseq < h.rseq then
      e.changeEntry h.key fun t =>
        { t with body := .deleted l h.rseq, stale := if t.body.supersedesValue then t.stale + 1 else t.stale }
    else
      match b with
      | .deleted old r =>
        if r = h.rseq && e.laterPlace l old then e.changeEntry h.key fun t => { t with body := .deleted l h.rseq } else e
      | _ => e

/-- The result of a pass B read, of the header at the cursor (R143). -/
def Engine.passBRead (e : Engine) (cells : List CellOutcome) : Engine :=
  match headerVerdict e.mount.cursor (cells.headD .uncorrectable) with
  | .blank => e.passBFrom (e.mount.seg + 1)
  | .invalid => e.passBMove 1
  | .valid h =>
    let e1 :=
      if h.kind = .tombstone then e.judgeTombstone { seg := e.mount.seg, cell := e.mount.cursor, count := 1 } h else e
    e1.passBMove h.cells

/-! ### Pass A (R138 to R142) -/

/-- Pass A's walk of the DIRTY and RETIRED segments, from a number on; then pass B (R142). -/
def Engine.passAOthersFrom (e : Engine) (from_ : Nat) : Engine :=
  match e.segFrom from_ (fun s => s == .dirty || s == .retired) with
  | some n => (e.setMount fun m => { m with others := true, seg := n, cursor := firstRecordCell, header := none }).mountHeader
  | none => e.startPassB

/-- Pass A's walk of the in-use segments, from a number on; then the others (R138, R142). -/
def Engine.passAFrom (e : Engine) (from_ : Nat) : Engine :=
  match e.segFrom from_ (· == .full) with
  | some n => (e.setMount fun m => { m with seg := n, cursor := firstRecordCell, header := none }).mountHeader
  | none => e.passAOthersFrom 0

/-- Phase PASS_A begins (R138). -/
def Engine.startPassA (e : Engine) : Engine := (e.setMount fun m => { m with phase := .passA, others := false }).passAFrom 0

/-- The walk of a segment ends in pass A: its pointers are set to the cell, and an in-use segment that holds no record
becomes DIRTY, any weak mark dropped (R138). The guide gives a DIRTY or RETIRED segment no pointers from this walk
(R142): they stay 2 (assumption 45). -/
def Engine.passASegEnd (e : Engine) : Engine :=
  let n := e.mount.seg
  let c := e.mount.cursor
  if e.mount.others then e.passAOthersFrom (n + 1)
  else if c = firstRecordCell then
    ((e.modSeg n fun g => { g with state := .dirty, weak := false, writePtr := c, progPtr := c }).countMount
      fun s => { s with dirty := s.dirty + 1 }).passAFrom (n + 1)
  else (e.modSeg n fun g => { g with writePtr := c, progPtr := c }).passAFrom (n + 1)

/-- The cursor of pass A passes `count` cells (R138). -/
def Engine.passAMove (e : Engine) (count : Nat) : Engine :=
  let e1 := e.setMount fun m => { m with cursor := m.cursor + count, header := none }
  if retireCell ≤ e1.mount.cursor then e1.passASegEnd else e1.mountHeader

/-- What pass A takes a record as, and so its class at equal sequence: a readable VALUE above a LOSS marker above a
damaged VALUE (R139, R140). -/
def EntryBody.rank : EntryBody → Nat
  | .value .. => 2
  | .lost _ _ .marker => 1
  | .lost _ _ .damaged => 0
  | .deleted .. => 0
  | .nascent => 0

/-- Whether a record ranks above an entry's current record (R140). -/
def Engine.outranks (e : Engine) (new old : EntryBody) : Bool :=
  old.rseq < new.rseq || (new.rseq == old.rseq && (old.rank < new.rank || (old.rank == new.rank &&
    (match new.loc?, old.loc? with
     | some a, some b => e.laterPlace a b
     | _, _ => false))))

/-- A readable VALUE, damaged VALUE or LOSS marker is ranked against its key's entry; the record that is superseded raises
the stale count if it is a VALUE, and a new entry beyond the capacity is refused (R140, R141). The rise has no upper limit: DESIGN CHOICE (assumption 51). -/
def Engine.rankRecord (e : Engine) (key : Nat) (new : EntryBody) : Engine :=
  match e.lookup key with
  | none =>
    if e.index.entries.length < indexCapacity then
      e.setEntries (insertEntry e.index.entries { key := key, body := new })
    else e.countMount fun s => { s with overflow := s.overflow + 1 }
  | some old =>
    if e.outranks new old then
      e.changeEntry key fun t =>
        { t with body := new, stale := if t.body.supersedesValue then t.stale + 1 else t.stale }
    else
      e.changeEntry key fun t => { t with stale := if new.supersedesValue then t.stale + 1 else t.stale }

/-- The highest record sequence found (R139, R142). -/
def Engine.noteRseq (e : Engine) (h : RecordHeader) : Engine := e.setMount fun m => { m with maxRseq := max m.maxRseq h.rseq }

/-- A record with a VALID header is taken by its kind and value verdict (R139). -/
def Engine.takeRecord (e : Engine) (l : Location) (h : RecordHeader) (v : ValueVerdict) : Engine :=
  match h.kind, v with
  | .value, .intact => e.rankRecord h.key (.value l h.rseq h.len)
  | .value, .damaged => (e.countMount fun s => { s with damaged := s.damaged + 1 }).rankRecord h.key (.lost l h.rseq .damaged)
  | .value, .torn => e.countMount fun s => { s with torn := s.torn + 1 }
  | .loss, _ => e.rankRecord h.key (.lost l h.rseq .marker)
  | .tombstone, _ => e

/-- Pass A has a whole record: from an in-use segment it is counted and taken, from any segment it raises the highest
record sequence, and the cursor passes it (R138, R139, R142). For a record of more than one cell all of this comes after the
read of its value cells, not at its header verdict: DESIGN CHOICE, unsafe (assumption 53). -/
def Engine.passARecord (e : Engine) (l : Location) (h : RecordHeader) (cells : List CellOutcome) : Engine :=
  let e1 := e.noteRseq h
  let e2 :=
    if e.mount.others then e1
    else (e1.countMount fun s => { s with records := s.records + 1 }).takeRecord l h (valueVerdict h cells)
  e2.passAMove h.cells

/-- The result of a pass A read: the header at the cursor, or the value cells of the header read before (R138). -/
def Engine.passARead (e : Engine) (cells : List CellOutcome) : Engine :=
  let n := e.mount.seg
  let c := e.mount.cursor
  match e.mount.header with
  | some h => e.passARecord { seg := n, cell := c, count := h.cells } h cells
  | none =>
    match headerVerdict c (cells.headD .uncorrectable) with
    | .blank => e.passASegEnd
    | .invalid =>
      (if e.mount.others then e else e.countMount fun s => { s with resync := s.resync + 1 }).passAMove 1
    | .valid h =>
      if h.cells = 1 then e.passARecord { seg := n, cell := c, count := 1 } h []
      else (e.setMount fun m => { m with header := some h }).mountRead n (c + 1) (h.cells - 1)

/-! ### The survey and the blank checks (R136, R137) -/

/-- The class of a segment from the verdicts on its retire, format and open cells; `unclassified` is "to be
blank-checked" (R136). In use is FULL, which it becomes at the finish. -/
def surveyClass : ControlVerdict → ControlVerdict → ControlVerdict → SegState
  | .valid, _, _ => .retired
  | .invalid, _, _ => .dirty
  | .blank, .valid, .valid => .full
  | .blank, .valid, .blank => .free
  | .blank, .valid, .invalid => .dirty
  | .blank, .blank, _ => .unclassified
  | .blank, .invalid, _ => .dirty

/-- The segments whose format cell is not VALID take the mean with the estimated mark (R136, R137). Until this moment they
show erase count 0 without the mark (assumption 44). -/
def Engine.giveMean (e : Engine) (mean : Nat) : Engine :=
  e.mount.unformatted.foldl (fun e1 n => e1.modSeg n fun g => { g with eraseCount := mean, estimated := true }) e

/-- The survey reads are complete: the mean is computed and every segment to be blank-checked is queued, or with none
pass A begins (R137). The guide gives no order for the blank checks of a bank: they are queued in ascending segment number
(assumption 47). -/
def Engine.surveyEnd (e : Engine) : Engine :=
  let mean := e.mount.eraseSum / e.mount.formatCells
  let blanks := (e.segTable.filter fun p => p.1.state == .unclassified).map (·.2)
  let e1 := (e.giveMean mean).setMount fun m => { m with mean := mean, blankChecks := blanks.length }
  if blanks.isEmpty then e1.startPassA
  else
    blanks.foldl (fun e2 n => e2.enqueue
      { kind := .blankCheck, seg := n, cell := 0, count := cellsPerSegment, requester := .mount }) e1

/-- What the survey takes from a segment's format cell: a VALID one's count and mark, and its share of the mean (R136,
R137). -/
def Engine.noteFormat (e : Engine) (n : Nat) (x : CellOutcome) : Engine :=
  match x with
  | .good (.format count est) _ =>
    (e.modSeg n fun g => { g with eraseCount := count, estimated := est }).setMount fun m =>
      { m with eraseSum := m.eraseSum + count, formatCells := m.formatCells + 1 }
  | _ => e.setMount fun m => { m with unformatted := m.unformatted ++ [n] }

/-- What the survey takes from a segment's open cell: a VALID one's sequence, and the highest found (R136). -/
def Engine.noteOpen (e : Engine) (n : Nat) (x : CellOutcome) : Engine :=
  match x with
  | .good (.opened sseq) _ =>
    (e.modSeg n fun g => { g with sseq := some sseq }).setMount fun m => { m with maxSseq := max m.maxSseq sseq }
  | _ => e

/-- The first survey read of a segment, of cells 0 and 1: its verdicts and weak mark are held (R135, R136). -/
def Engine.surveyFirst (e : Engine) (n : Nat) (cells : List CellOutcome) (weak : Bool) : Engine :=
  let x0 := cells.headD .uncorrectable
  let x1 := cells.tail.headD .uncorrectable
  let e1 := ((e.noteFormat n x0).noteOpen n x1).setMount fun m =>
    { m with
      format := controlVerdict CellData.isFormat x0
      opened := controlVerdict CellData.isOpened x1
      heldWeak := weak }
  e1.mountRead n retireCell 1

/-- The second survey read, of cell 2047: the segment is classified, its weak mark kept when it is in use, and the next
segment is read (R135, R136). One classified without a VALID format cell counts with erase count 0, not estimated, until
the mean is computed (assumption 44). -/
def Engine.surveySecond (e : Engine) (n : Nat) (cells : List CellOutcome) (weak : Bool) : Engine :=
  let st := surveyClass (controlVerdict CellData.isRetire (cells.headD .uncorrectable)) e.mount.format e.mount.opened
  let e1 := e.modSeg n fun g => { g with state := st, weak := st == .full && (e.mount.heldWeak || weak) }
  let e2 := if st = .dirty then e1.countMount fun s => { s with dirty := s.dirty + 1 } else e1
  if n + 1 < segmentCount then (e2.setMount fun m => { m with seg := n + 1 }).mountRead (n + 1) 0 2
  else e2.surveyEnd

/-- One blank check, with the programs after it, has ended; with none left pass A begins (R136, R137). -/
def Engine.blankCheckEnded (e : Engine) : Engine :=
  let e1 := e.setMount fun m => { m with blankChecks := m.blankChecks - 1 }
  if e1.mount.blankChecks = 0 then e1.startPassA else e1

/-- Whether the Mount Unit is at the survey and its blank checks: MOUNTING, phase SURVEY (R134, R137). -/
def Engine.surveying (e : Engine) : Bool := e.state == .mounting && e.mount.phase == .survey

/-- The answer of a blank check (R137). The Mount Unit takes it in phase SURVEY; otherwise there is nothing to act on
(assumption 1). -/
def Engine.blankAnswer (e : Engine) (n : Nat) (blank : Bool) : Engine :=
  if !e.surveying then e
  else if blank then
    e.enqueue
      { kind := .formatCell, seg := n, cell := 0, count := 1, requester := .mount
        contents := [.format e.mount.mean true] }
  else
    ((e.modSeg n fun g => { g with state := .dirty }).countMount fun s => { s with dirty := s.dirty + 1 }).blankCheckEnded

/-- An estimated format cell makes its segment FREE with the mean, or retires it when it fails (R137). -/
def Engine.formatEstimated (e : Engine) (n : Nat) (pass : Bool) : Engine :=
  if pass then
    ((e.modSeg n fun g => { g.freed e.mount.mean with estimated := true }).countMount fun s =>
      { s with estimated := s.estimated + 1 }).blankCheckEnded
  else e.retireSegment n .formatFailed .mount

/-- The end of a program of the Mount Unit, in phase SURVEY: an estimated format cell, or a retire cell, which ends the
matter either way (R137). -/
def Engine.mountProgramDone (e : Engine) (q : Request) (pass : Bool) : Engine :=
  match e.surveying, q.kind with
  | true, .formatCell => e.formatEstimated q.seg pass
  | true, .retireCell => e.blankCheckEnded
  | _, _ => e

/-- A weak read of a segment the survey has found in use sets the segment's flag (R107, R135). -/
def Engine.markMounted (e : Engine) (n : Nat) (weak : Bool) : Engine :=
  if weak && (e.seg n).state == .full then e.modSeg n fun g => { g with weak := true } else e

/-- The result of a read of the Mount Unit, by phase, in MOUNTING (R135). -/
def Engine.mountReadDone (e : Engine) (q : Request) (cells : List CellOutcome) : Engine :=
  let weak := weakRead e.control.limits.threshold cells
  let e1 := e.markMounted q.seg weak
  match e.state, e.mount.phase with
  | .mounting, .survey => if q.cell = retireCell then e.surveySecond q.seg cells weak else e.surveyFirst q.seg cells weak
  | .mounting, .passA => e1.passARead cells
  | .mounting, .passB => e1.passBRead cells
  | _, _ => e

end Sys2Proof.Machine
end

