-- ==== Sys2Proof/Machine/Rings.lean ====
section
/-! DEFINITION. The Ring Unit (chapter 8): counts and credit, the fetch arbiter, the taking of a descriptor, done records,
POST and ACK, opening and closing, ring faults, and notices. -/

namespace Sys2Proof.Machine

open Sys2Proof

/-! ### Counts (R150, R155) -/

/-- The unfetched slots (R150). -/
def RingContext.unfetched (g : RingContext) : Nat := (g.tail + g.size - g.fetch) % g.size

/-- The unacknowledged done records (R150). -/
def RingContext.unacked (g : RingContext) : Nat := (g.doneIndex + g.size - g.head) % g.size

/-- The unacknowledged notice records (R165). -/
def NoticeRing.unacked (g : NoticeRing) : Nat := (g.writeIndex + g.size - g.head) % g.size

/-- Credit: in flight plus unacknowledged is less than the size minus 1 (R155). -/
def RingContext.hasCredit (g : RingContext) : Bool := g.inFlight + g.unacked < g.size - 1

/-- The slot after a slot, wrapping at the size. -/
def nextSlot (size i : Nat) : Nat := if i + 1 = size then 0 else i + 1

/-- The phase after the slot `i` has been written: it changes on the wrap (R158). -/
def nextPhase (size i : Nat) (phase : Bool) : Bool := if i + 1 = size then !phase else phase

/-! ### The fetch arbiter (R24, R156) -/

/-- Whether a context may be given to a fetch: FREE, and not held for one (R24). -/
def Engine.ctxFree (e : Engine) (c : Nat) : Bool := (e.ctx c).state == .free && !(e.ctx c).held

/-- The contexts a ring holds (R24). -/
def Engine.heldBy (e : Engine) (r : Nat) : Nat := e.ctxs.countP fun x => x.state != .free && x.ring == r

/-- The context a descriptor of a ring would be given (R24). -/
def Engine.contextFor (e : Engine) (r : Nat) : Option Nat :=
  if contextsPerRing ≤ e.heldBy r then none
  else if r = 0 && e.ctxFree 0 then some 0
  else (List.range contextCount).find? fun c => 1 ≤ c && e.ctxFree c

/-- Whether the engine state lets a ring be fetched (R156). -/
def Engine.stateAllows (e : Engine) (r : Nat) : Bool :=
  match e.state with
  | .running => true
  | .mounting => r == 0
  | _ => false

/-- Whether a ring is eligible (R156). -/
def Engine.eligible (e : Engine) (r : Nat) : Bool :=
  let g := e.ring r
  g.state == .opened && 1 ≤ g.unfetched && g.hasCredit && (e.contextFor r).isSome && e.stateAllows r

/-- The data rings in the order a level tries them, after the ring served last, going round from 7 to 1 (R156). -/
def ringOrder (last : Option Nat) : List Nat := [0, 1, 2, 3, 4, 5, 6].map fun i => (last.getD 0 + i) % 7 + 1

/-- The ring a priority level yields (R156). -/
def Engine.chooseAtLevel (e : Engine) (level : Nat) : Option Nat :=
  (ringOrder (e.arbiter.served.getD level none)).find? fun r => e.eligible r && (e.ring r).priority == level

/-- The ring the arbiter chooses (R156). -/
def Engine.chooseRing (e : Engine) : Option Nat :=
  if e.eligible 0 then some 0 else [0, 1, 2, 3].findSome? e.chooseAtLevel

/-- The ring served last changes at the level of a data ring (R156). -/
def Engine.noteServed (e : Engine) (r : Nat) : Engine :=
  if r = 0 then e
  else { e with arbiter := { e.arbiter with served := updAt e.arbiter.served (e.ring r).priority fun _ => some r } }

/-- The host address of the job slot a ring fetches next (R151). -/
def RingContext.jobSlot (g : RingContext) : Nat := g.jobBase + 64 * g.fetch

/-- The arbiter, when it is free, chooses a ring and issues a fetch of the descriptor at its fetch index: the in-flight
count rises, the context is held, and the Host Port reads the 64 bytes of the job slot (R151, R156, R157). -/
def Engine.issueFetch (e : Engine) : Engine :=
  match e.arbiter.fetching, e.chooseRing with
  | none, some r =>
    match e.contextFor r with
    | some c =>
      let e1 := ((e.noteServed r).modRing r fun g => { g with inFlight := g.inFlight + 1 }).modCtx c fun x =>
        { x with held := true }
      { e1 with arbiter := { e1.arbiter with fetching := some (r, c) } }.emit (.fetch (e.ring r).jobSlot)
    | none => e
  | _, _ => e

/-! ### Taking a descriptor (R46, R157) -/

/-- The chain position of a job taken with a LINK bit in a chain state (R46). -/
def ChainState.positionFor (h : ChainState) (link : Bool) : Nat :=
  if h.linked then h.position + 1 else if link then 1 else 0

/-- The chain state after a job is taken into a context (R46). The predecessor is left as it is by a job that is not in a
chain. -/
def ChainState.taken (h : ChainState) (link : Bool) (c : Nat) : ChainState :=
  let p := h.positionFor link
  { h with
    linked := link && p ≤ chainLength
    position := if p ≤ chainLength then p else 0
    predecessor := if p = 0 then h.predecessor else some c }

/-- The predecessor recorded for a job (R46). -/
def ChainState.predecessorFor (h : ChainState) (link : Bool) : Option Nat :=
  if h.positionFor link = 0 then none else h.predecessor

/-- The context that takes a descriptor, with the verdict of its checks (R24, R28, R46). -/
def JobContext.take (x : JobContext) (r slot : Nat) (h : ChainState) (d : Descriptor) : JobContext :=
  { state := .taken, ring := r, slot := slot, descriptor := d, staging := x.staging
    position := if r = 0 then 0 else h.positionFor d.link
    predecessor := if r = 0 then none else h.predecessorFor d.link
    verdict := checkDescriptor r (if r = 0 then 0 else h.positionFor d.link) (r != 0 && h.linked) d }

/-- A job that has made its checks: it waits for the predecessor it was given, or goes on (R48). -/
def Engine.checked (e : Engine) (c : Nat) : Engine :=
  match (e.ctx c).predecessor with
  | some _ => e.modCtx c fun x => { x with state := .linkWait }
  | none => e.proceed c

/-- The fetched descriptor is taken: the fetch index advances, a data ring's chain state changes, and the context enters
TAKEN and makes its checks (R46, R157). -/
def Engine.takeDescriptor (e : Engine) (r c : Nat) (d : Descriptor) : Engine :=
  let g := e.ring r
  let e1 := e.modRing r fun k =>
    { k with
      fetch := nextSlot k.size k.fetch
      chain := if r = 0 then k.chain else k.chain.taken d.link c }
  (e1.modCtx c fun x => x.take r g.fetch g.chain d).checked c

/-! ### Ring faults (R52, R163) -/

/-- The contexts of a ring in LINK_WAIT. -/
def Engine.linkWaiters (e : Engine) (r : Nat) : List Nat :=
  (e.ctxs.zipIdx.filter fun p => p.1.state == .linkWait && p.1.ring == r).map (·.2)

/-- A ring faults, unless it is FAULTED already: its chain state returns to the initial one, its jobs in LINK_WAIT
complete SKIPPED, and RING_FAULTED is raised (R52, R163). -/
def Engine.ringFault (e : Engine) (r : Nat) (cause : FaultCause) (slot : Nat) : Engine :=
  if (e.ring r).state = .faulted then e
  else
    let e1 := e.modRing r fun g => { g with state := .faulted, chain := {} }
    ((e.linkWaiters r).foldl (fun k c => k.complete c { status := .skipped }) e1).raiseNotice
      (.ringFaulted r cause slot)

/-- The descriptor fetch in flight has ended: its context is no longer held (R157). -/
def Engine.fetchEnded (e : Engine) (c : Nat) : Engine :=
  { e.modCtx c fun x => { x with held := false } with arbiter := { e.arbiter with fetching := none } }

/-- A fetch whose descriptor is not taken: the in-flight count falls by 1 (R157). -/
def Engine.dropFetch (e : Engine) (r : Nat) : Engine := e.modRing r fun g => { g with inFlight := g.inFlight - 1 }

/-- The read of a fetch completes, or fails with a host-memory access error, by the ring's state (R157). -/
def Engine.fetchDone (e : Engine) (r c : Nat) (d : Option Descriptor) : Engine :=
  let e1 := e.fetchEnded c
  match d, (e.ring r).state with
  | some bytes, .opened => e1.takeDescriptor r c (fitBytes 64 bytes)
  | some bytes, .draining => e1.takeDescriptor r c (fitBytes 64 bytes)
  | some _, _ => e1.dropFetch r
  | none, _ => (e1.dropFetch r).ringFault r .fetchError (e.ring r).fetch

/-! ### Done records (R158, R160) -/

/-- Whether a ring writes its done records: OPEN or DRAINING (R152). -/
def RingState.writes : RingState → Bool
  | .opened => true
  | .draining => true
  | _ => false

/-- A ring with a record to write and none being written has its write issued (R158). -/
def RingContext.issueRecord (g : RingContext) : RingContext :=
  if g.state.writes && !g.writing && !g.posting.isEmpty then { g with writing := true } else g

/-- Every ring issues its next done-record write (R158). -/
def Engine.issueRecords (e : Engine) : Engine := { e with rings := e.rings.map RingContext.issueRecord }

/-- The host address of the done slot a ring writes next (R151). -/
def RingContext.doneSlot (g : RingContext) : Nat := g.doneBase + 32 * g.doneIndex

/-- The ring's counts after one of its records has been written (R158). -/
def RingContext.recordWritten (g : RingContext) : RingContext :=
  { g with
    posting := g.posting.tail
    writing := false
    doneIndex := nextSlot g.size g.doneIndex
    donePhase := nextPhase g.size g.doneIndex g.donePhase
    inFlight := g.inFlight - 1 }

/-- An armed ring sends its message and is disarmed (R160). A FAULTED ring sends none for a record (R163, assumption
13). -/
def Engine.signalRing (e : Engine) (r : Nat) : Engine :=
  if (e.ring r).armed && (e.ring r).state != .faulted then
    (e.sendMessage (e.ring r).vector).modRing r fun g => { g with armed := false }
  else e

/-- The record of a context has been written: indexes and counts, then the steps of R29, then the message (R158). -/
def Engine.recordWritten (e : Engine) (r c : Nat) : Engine :=
  let g := e.ring r
  let e1 := (e.emit (.memory g.doneSlot ((e.ctx c).doneRecord g.donePhase))).modRing r RingContext.recordWritten
  (((e1.releaseLock c).chainWritten c).freeCtx c).signalRing r

/-- The write of a record has failed: the slot may hold part of it, the record counts as discarded, and the ring faults
(R158, R163). -/
def Engine.recordFailed (e : Engine) (r c : Nat) : Engine :=
  let g := e.ring r
  let e1 := (e.emit (.maybeMemory g.doneSlot ((e.ctx c).doneRecord g.donePhase))).modRing r fun k =>
    { k with writing := false }
  (e1.ringFault r .doneWriteError g.doneIndex).discard r c

/-- The end of a done-record write in HALTED: what it wrote is in host memory, and nothing else follows (R168). -/
def Engine.recordHalted (e : Engine) (r c : Nat) (ok : Bool) : Engine :=
  let g := e.ring r
  let bytes := (e.ctx c).doneRecord g.donePhase
  (e.emit (if ok then .memory g.doneSlot bytes else .maybeMemory g.doneSlot bytes)).modRing r fun k =>
    { k with writing := false }

/-! ### POST and ACK (R154, R159) -/

/-- POST_ERROR is set in STATE. -/
def Engine.postError (e : Engine) : Engine :=
  { e with control := { e.control with sticky := { e.control.sticky with postError := true } } }

/-- A write of POST (R154). -/
def Engine.post (e : Engine) (r t : Nat) : Engine :=
  if (e.ring r).state = .opened && t < (e.ring r).size then e.modRing r fun g => { g with tail := t } else e.postError

/-- Whether an ACK with head `h` is legal for a ring of this size, head and count (R159). -/
def ackHolds (size head unacked h : Nat) : Bool := h < size && (h + size - head) % size ≤ unacked

/-- A job ring's ACK is applied (R159, R160). -/
def Engine.ackRing (e : Engine) (r : Nat) (arm : Bool) (h : Nat) : Engine :=
  let g := { e.ring r with head := h }
  let e1 := e.modRing r fun _ => { g with armed := if arm then g.unacked = 0 else g.armed }
  if arm && 0 < g.unacked then e1.sendMessage g.vector else e1

/-- The notice ring's ACK is applied (R159, R160). -/
def Engine.ackNotice (e : Engine) (old : NoticeRing) (arm : Bool) (h : Nat) : Engine :=
  let g := { old with head := h }
  let e1 := { e with
    notices := { e.notices with ring := some { g with armed := if arm then g.unacked = 0 else g.armed } } }
  if arm && 0 < g.unacked then e1.sendMessage g.vector else e1

/-- A write of ACK (R159). -/
def Engine.ack (e : Engine) (r : Nat) (arm : Bool) (h : Nat) : Engine :=
  if r = 8 then
    match e.notices.ring with
    | some g => if ackHolds g.size g.head g.unacked h then e.ackNotice g arm h else e.postError
    | none => e.postError
  else
    let g := e.ring r
    if g.state != .closed && ackHolds g.size g.head g.unacked h then e.ackRing r arm h else e.postError

/-! ### The admin ring (R153, R169) -/

/-- The admin ring re-initialised from a base and a size (R151, R153). -/
def adminRing (base size : Nat) : RingContext :=
  if ringSizeHolds 256 size && base % 64 = 0 then
    { state := .opened, jobBase := base, doneBase := base + 64 * size, size := size }
  else {}

/-- The admin job base the two base registers hold (R179). -/
def Registers.adminBase (g : Registers) : Nat := g.adminBaseLo.toNat + 2 ^ 32 * g.adminBaseHi.toNat

/-- The admin ring is re-initialised from the registers (R153, R169). -/
def Engine.initAdminRing (e : Engine) : Engine :=
  e.modRing 0 fun _ => adminRing e.registers.adminBase e.registers.adminSize.toNat

/-- A write of ADMIN_SIZE: ignored with ADMIN_SETUP_ERROR while an admin job is in flight, else applied (R153). -/
def Engine.writeAdminSize (e : Engine) (value : BitVec 32) : Engine :=
  if 0 < (e.ring 0).inFlight then
    { e with control := { e.control with sticky := { e.control.sticky with adminSetupError := true } } }
  else { e with registers := { e.registers with adminSize := value } }.initAdminRing

/-! ### Closing data rings (R162) -/

/-- The context whose CLOSE_RING a ring's state lets complete: a DRAINING or FAULTED ring with nothing in flight
(R162). -/
def RingContext.closing (g : RingContext) : Option Nat :=
  if (g.state == .draining || g.state == .faulted) && g.inFlight == 0 then g.closer else none

/-- A ring becomes CLOSED when its CLOSE_RING completes, with everything in it forgotten, and the count of unfetched
slots is reported (R51, R162). -/
def Engine.closeRing (e : Engine) (r : Nat) : Engine :=
  match (e.ring r).closing with
  | some c => (e.modRing r fun _ => {}).complete c (adminOutcome .ok (.close (e.ring r).unfetched))
  | none => e

/-- Every data ring whose CLOSE_RING can complete is closed (R162). -/
def Engine.closeRings (e : Engine) : Engine := [1, 2, 3, 4, 5, 6, 7].foldl Engine.closeRing e

/-! ### Notices (R165, R166) -/

/-- The oldest notice has its write issued when a ring is set with credit and no write is in flight; it carries the
OVERRUN mark, and the flag is cleared (R165). -/
def Engine.issueNotice (e : Engine) : Engine :=
  match e.notices.ring, e.notices.queue with
  | some g, n :: rest =>
    if !e.notices.writing && g.unacked < g.size - 1 then
      { e with
        notices := { e.notices with
          queue := { n with overrun := n.overrun || e.notices.overrun } :: rest
          overrun := false
          writing := true } }
    else e
  | _, _ => e

/-- The host address of the notice slot that is written next (R165). -/
def NoticeRing.slot (g : NoticeRing) : Nat := g.base + 32 * g.writeIndex

/-- The write of the oldest notice has completed (R165). -/
def Engine.noticeWritten (e : Engine) (g : NoticeRing) (n : Notice) (rest : List Notice) : Engine :=
  let e1 := (e.emit (.memory g.slot (n.record g.phase)))
  let g1 := { g with
    writeIndex := nextSlot g.size g.writeIndex
    phase := nextPhase g.size g.writeIndex g.phase
    armed := false }
  let e2 := { e1 with notices := { e1.notices with queue := rest, writing := false, ring := some g1 } }
  if g.armed then e2.sendMessage g.vector else e2

/-- The write of the oldest notice has failed: the ring is disabled and NOTICE_FAULT set; the notice stays (R166). -/
def Engine.noticeFailed (e : Engine) (g : NoticeRing) (n : Notice) : Engine :=
  let e1 := e.emit (.maybeMemory g.slot (n.record g.phase))
  { e1 with
    notices := { e1.notices with writing := false, ring := none }
    control := { e1.control with sticky := { e1.control.sticky with noticeFault := true } } }

/-- The end of the notice write in flight (R165, R166). -/
def Engine.noticeDone (e : Engine) (ok : Bool) : Engine :=
  match e.notices.ring, e.notices.queue with
  | some g, n :: rest => if ok then e.noticeWritten g n rest else e.noticeFailed g n
  | _, _ => e

/-- The notice ring a SET_NOTICE sets; none for a size of 0 (R166). -/
def noticeRingOf (d : Descriptor) : Option NoticeRing :=
  if d.ringSize = 0 then none
  else some { base := d.ringBase, size := d.ringSize, vector := d.vector, armed := d.armed }

/-- A SET_NOTICE takes effect: the ring is set or unset, NOTICE_FAULT is cleared, and the job completes OK (R166). -/
def Engine.applySetter (e : Engine) (c : Nat) : Engine :=
  { e with
    notices := { e.notices with ring := noticeRingOf (e.ctx c).descriptor, setters := e.notices.setters.filter (· != c) }
    control := { e.control with sticky := { e.control.sticky with noticeFault := false } } }.complete c
    (adminOutcome .ok)

/-- The SET_NOTICE jobs that waited for a notice write take effect once none is in flight (R166). -/
def Engine.applySetters (e : Engine) : Engine :=
  if e.notices.writing then e else e.notices.setters.foldl Engine.applySetter e

end Sys2Proof.Machine
end

