-- ==== Sys2Proof/Machine/Format.lean ====
section
/-! DEFINITION. The stages of an accepted FORMAT (R127, R189, R190, R73). -/

namespace Sys2Proof.Machine

open Sys2Proof

/-- The Reclaim Unit ends its reclaim for a FORMAT: a requester completes BUSY, and the unit enters IDLE with victim,
cursor, pause causes and tallies cleared (R127, R130). -/
def Engine.endReclaim (e : Engine) : Engine :=
  (e.answerRequester .busy .held).setReclaim fun u =>
    { u with
      state := .idle, victim := none, cursor := none, causes := {}, tallies := {}, step := .none, sweep := none }

/-- Whether stage 3 of a FORMAT moves a segment to ERASING (R73). -/
def formatTakes (released : Option Nat) (g : SegRecord) (n : Nat) : Bool :=
  match g.state with
  | .head => true
  | .full => true
  | .failedClosed => true
  | .reclaiming => released != some n
  | .dirty => true
  | _ => false

/-- A segment record after stages 2 and 3 (R63, R73). -/
def SegRecord.formatted (released : Option Nat) (g : SegRecord) (n : Nat) : SegRecord :=
  if formatTakes released g n then { g with state := .erasing, role := none, progFailed := false, live := 0 }
  else { g with live := 0 }

/-- The segments stage 3 moves to ERASING (R73), in ascending number, which is the order the model queues their erases in
(assumption 47). -/
def Engine.formatSegs (e : Engine) : List Nat :=
  (e.segTable.filter fun p => formatTakes e.space.released p.1 p.2).map (·.2)

/-- Stages 2 and 3: the index is emptied, the segments enter ERASING and leave the refresh list, the rotation point
becomes 3, and the erases whose segments are not pinned are queued (R22, R73, R110, R189). The guide gives no order for the
erases of a bank: they are queued in ascending segment number (assumption 47). -/
def Engine.formatRelease (e : Engine) (f : FormatRun) : Engine :=
  let segs := e.formatSegs
  let free := segs.filter fun n => (e.seg n).pins = 0
  let held := segs.filter fun n => (e.seg n).pins != 0
  let e1 := { e with
    index := { e.index with entries := [] }
    space := { e.space with
      segs := e.segTable.map fun p => p.1.formatted e.space.released p.2
      rotation := 3
      pinWait := e.space.pinWait ++ held }
    reclaim := { e.reclaim with refresh := [] }
    format := some { f with stage := .erasing, segs := segs } }
  free.foldl Engine.queueErase e1

/-- Stage 1 ends once the Reclaim Unit has stopped; stages 2 and 3 follow (R127, R189). -/
def Engine.formatBegin (e : Engine) : Engine :=
  match e.format with
  | some f =>
    if f.stage = .ending && (e.reclaim.state == .idle || e.reclaim.state == .paused || e.reclaim.state == .released) then
      e.endReclaim.formatRelease f
    else e
  | none => e

/-- The recomputation of the write mode (R178). -/
def Engine.recomputeMode (e : Engine) : Engine :=
  let causes : ReadOnlyCauses := { retiredLimit := retiredLimit ≤ e.retiredCount }
  let e1 := { e with control := { e.control with causes := causes } }
  if e.readOnly && !causes.any then (e1.raiseNotice (.writeMode causes .format)).wantChoice else e1

/-- The completion of a FORMAT: both counters, the write mode, FORMAT_DONE, and its outcome (R190). The guide does not say how
its time in ms is rounded: the remainder is dropped (assumption 49). -/
def Engine.formatFinish (e : Engine) (f : FormatRun) : Engine :=
  let e1 := { e with
    index := { e.index with writeSeq := 1 }
    space := { e.space with segSeq := 1 }
    format := some { f with stage := .posting } }.recomputeMode
  let causes := e1.control.causes
  (e1.raiseNotice
      (.formatDone f.erased f.retired e1.freeCount e1.retiredCount causes ((e1.now - f.started) / 1000))).complete f.ctx
    (adminOutcome .ok (.format f.erased f.retired e1.freeCount e1.retiredCount causes))

/-- Stage 4 ends when no segment is ERASING and no released victim is left (R73, R189). -/
def Engine.formatEnd (e : Engine) : Engine :=
  match e.format with
  | some f => if f.stage = .erasing && e.countSegs .erasing = 0 && e.space.released.isNone then e.formatFinish f else e
  | none => e

end Sys2Proof.Machine
end

