-- ==== Sys2Proof/Machine/Settle.lean ====
section
/-! DEFINITION. What follows of itself at the end of every step: discarded done records, a pending grant, the stages of a
FORMAT, the steps that wait for a pin, waiting SET_NOTICE and CLOSE_RING jobs, the Reclaim Unit's choice, and the writes
and the fetch that the Ring Unit issues. -/

namespace Sys2Proof.Machine

open Sys2Proof

/-- Whether nothing is in flight (R172). -/
def Engine.quiescent (e : Engine) : Bool :=
  (e.ctxs.all fun x => x.state == .free) && e.arbiter.fetching.isNone
    && (e.reclaim.state == .idle || e.reclaim.state == .paused) && e.banks.all Bank.quiescent

/-- The quiescence test, made while STOPPING (R172). -/
def Engine.testQuiescence (e : Engine) : Engine :=
  if e.state = .stopping && e.quiescent then e.setState .stopped else e

/-- The work of the blocks other than the Ring Unit's writes and fetch (assumption 11). -/
def Engine.settleBlocks (e : Engine) : Engine :=
  ((((((((e.discardAll contextCount).grantVictim).formatBegin).settleReleased).settlePinWait).formatEnd).applySetters).closeRings).discardAll
    contextCount

/-- The end of a step (assumption 11). In HALTED only a notice write is issued (R168, R176). -/
def Engine.settle (e : Engine) : Engine :=
  match e.state with
  | .halted => e.issueNotice
  | _ => (((e.settleBlocks.makeChoice).issueRecords).issueFetch).issueNotice.testQuiescence

end Sys2Proof.Machine
end

