-- ==== Sys2Proof/Machine/Scrub.lean ====
section
/-! DEFINITION. The walk of a SCRUB (R106, R132, R133). -/

namespace Sys2Proof.Machine

open Sys2Proof

def Engine.setScrub (e : Engine) (c : Nat) (f : ScrubWork → ScrubWork) : Engine :=
  e.modCtx c fun x => { x with scrub := f x.scrub }

/-- The walk ends and the job completes OK with its counts (R133). -/
def Engine.scrubEnd (e : Engine) (c : Nat) (ended : ScrubEnd) : Engine :=
  let w := (e.ctx c).scrub
  e.complete c (adminOutcome .ok
    (.scrub w.seg ended w.maxBits (w.cursor - firstRecordCell) w.records w.corrected w.uncorrectable))

/-- A read of the walk, under a pin that is refused when the segment is no longer in use (R132). -/
def Engine.scrubRead (e : Engine) (c cell count : Nat) : Engine :=
  let n := (e.ctx c).scrub.seg
  if (e.seg n).state.inUse then
    (e.pin n).enqueue { kind := .read, seg := n, cell := cell, count := count, requester := .ctx c }
  else e.scrubEnd c .state

/-- The walk goes on at its cursor, or ends at its limit (R132). -/
def Engine.scrubNext (e : Engine) (c : Nat) : Engine :=
  let w := (e.ctx c).scrub
  if w.limit ≤ w.cursor || retireCell ≤ w.cursor then e.scrubEnd c .limit else e.scrubRead c w.cursor 1

/-- The cursor of the walk passes `count` cells. -/
def Engine.scrubPass (e : Engine) (c count : Nat) : Engine :=
  (e.setScrub c fun w => { w with cursor := w.cursor + count, header := none }).scrubNext c

/-- What every read of the walk adds to its counts: the cells CORRECTED and the largest count (R106). -/
def ScrubWork.noteRead (w : ScrubWork) (cells : List CellOutcome) : ScrubWork :=
  { w with corrected := w.corrected + correctedCells cells, maxBits := max w.maxBits (largestCorrected cells) }

/-- One more uncorrectable record when `b` holds (R106). -/
def ScrubWork.noteLost (w : ScrubWork) (b : Bool) : ScrubWork :=
  if b then { w with uncorrectable := w.uncorrectable + 1 } else w

/-- A VALID header is counted; its value cells are read next, or the cursor passes it (R106, R116, R132). -/
def Engine.scrubHeader (e : Engine) (c cell : Nat) (h : RecordHeader) : Engine :=
  let e1 := e.setScrub c fun w => { w with records := w.records + 1, header := some h }
  if h.cells = 1 then e1.scrubPass c 1 else e1.scrubRead c (cell + 1) (h.cells - 1)

/-- A read of the walk has been classified; its pin has been dropped (R106, R132). -/
def Engine.scrubReadDone (e : Engine) (c : Nat) (q : Request) (cells : List CellOutcome) : Engine :=
  let e1 := e.setScrub c fun w => w.noteRead cells
  match (e.ctx c).scrub.header with
  | some h => (e1.setScrub c fun w => w.noteLost (valueVerdict h cells == .damaged)).scrubPass c h.cells
  | none =>
    let x := cells.headD .uncorrectable
    match headerVerdict q.cell x with
    | .blank => e1.scrubEnd c .blank
    | .invalid => (e1.setScrub c fun w => w.noteLost x.isUncorrectable).scrubPass c 1
    | .valid h => e1.scrubHeader c q.cell h

end Sys2Proof.Machine
end

