-- ==== Sys2Proof/Machine/Media.lean ====
section
/-! DEFINITION. What the media reports: the ends of READs, BLANK_CHECKs, PROGRAMs and ERASEs, with pass and with fail, and
the effect of each on the array (R88 to R95). -/

namespace Sys2Proof.Machine

open Sys2Proof

/-! ### The ends of programs (R90 to R92) -/

def Request.location (q : Request) : Location := { seg := q.seg, cell := q.cell, count := q.count }

/-- The programmed pointer passes a record (R61). -/
def Engine.advanceProgrammed (e : Engine) (q : Request) : Engine :=
  e.modSeg q.seg fun g => { g with progPtr := g.progPtr + q.count }

/-- The erase count a format cell carries. -/
def Request.eraseCount (q : Request) : Nat :=
  match q.contents with
  | .format n _ :: _ => n
  | _ => 0

/-- A format-cell program of the Space Manager passed: its ERASING segment becomes FREE (R57, R68). -/
def Engine.formatCellPassed (e : Engine) (q : Request) : Engine :=
  if (e.seg q.seg).state = .erasing then
    (((e.modSeg q.seg fun g => g.freed q.eraseCount).formatCounts q.seg false).freeRose).victimEnded q.seg .free
  else e

/-- A record's program ended with pass: the programmed pointer passes it, and its requester takes its location (R61, R90).
A record is programmed after the mount, in a segment in use; elsewhere there is nothing to take (assumption 1). -/
def Engine.recordPassed (e : Engine) (q : Request) (take : Engine → Location → Engine) : Engine :=
  if e.state != .mounting && (e.seg q.seg).state.inUse then take (e.advanceProgrammed q) q.location else e

/-- A PROGRAM ended with pass (R90). -/
def Engine.programPassed (e : Engine) (q : Request) : Engine :=
  match q.kind, q.requester with
  | .hostRecord, .ctx c => e.recordPassed q fun k l => k.hostProgramPassed c l
  | .reclaimRecord, _ => e.recordPassed q Engine.reclaimProgramPassed
  | .formatCell, .mount => e.mountProgramDone q true
  | .retireCell, .mount => e.mountProgramDone q true
  | .formatCell, _ => e.formatCellPassed q
  | _, _ => e

/-- A host record of a failed segment is dealt with: given up after a second failure, else placed afresh with its
failure count (R66, R91). -/
def Engine.replaceHost (e : Engine) (c : Nat) (q : Request) : Engine :=
  if 2 ≤ q.failures then e.failWrite c .mediaError
  else (e.modCtx c fun x => { x with failures := q.failures }).placeWrite c

/-- A reclaim record of a failed segment is dealt with: after a second failure its step is retried from the cursor, else
it is placed afresh with its failure count, or the cursor pauses for space (R91, R123, R124). -/
def Engine.replaceReclaim (e : Engine) (q : Request) : Engine :=
  if 2 ≤ q.failures then e.beginStep
  else
    match e.placeReclaim q.count with
    | (e1, some l) => e1.queueReclaimRecord l q.contents q.failures
    | (e1, none) => e1.pauseForSpace

/-- A withdrawn record is dealt with (R91). -/
def Engine.replaceRecord (e : Engine) (q : Request) : Engine :=
  match q.kind, q.requester with
  | .hostRecord, .ctx c => e.replaceHost c q
  | .reclaimRecord, _ => e.replaceReclaim q
  | _, _ => e

/-- A program into a segment failed: the segment is closed, its queued programs are withdrawn, and the records are dealt
with in reservation order, the failed one, if a record, first (R66, R91, R92). -/
def Engine.segmentFailed (e : Engine) (b seg : Nat) (failed : List Request) : Engine :=
  let moved := failed ++ (e.bank b).withdrawn seg
  moved.foldl Engine.replaceRecord ((e.closeFailed seg).modBank b fun k => k.withdraw seg)

/-- A PROGRAM ended with fail (R91, R92). -/
def Engine.programFailed (e : Engine) (b : Nat) (q : Request) : Engine :=
  match q.kind, q.requester with
  | .hostRecord, _ => e.segmentFailed b q.seg [{ q with failures := q.failures + 1 }]
  | .reclaimRecord, _ => e.segmentFailed b q.seg [{ q with failures := q.failures + 1 }]
  | .hostOpen, _ => e.segmentFailed b q.seg []
  | .reclaimOpen, _ => e.segmentFailed b q.seg []
  | .formatCell, .mount => e.mountProgramDone q false
  | .retireCell, .mount => e.mountProgramDone q false
  | .formatCell, _ => e.eraseLost q.seg .formatFailed
  | _, _ => e

/-- What the blocks take from the end of a PROGRAM. -/
def Engine.programEnded (e : Engine) (b : Nat) (q : Request) (pass : Bool) : Engine :=
  if pass then e.programPassed q else e.programFailed b q

/-- What the Space Manager takes from the end of an ERASE (R68, R93). -/
def Engine.eraseEnded (e : Engine) (q : Request) (pass : Bool) : Engine :=
  if pass then e.erasePassed q.seg else e.eraseLost q.seg .eraseFailed

/-! ### The end of a READ (R89, R102 to R105) -/

/-- Whether a context's read is a location read, and UNREADABLE (R101). -/
def JobContext.unreadable (x : JobContext) (cells : List CellOutcome) : Bool :=
  (x.job == some .get || x.job == some .matchValue) && !x.readable cells

/-- The weak mark of a read, if there is one (R102). -/
def Engine.markWeak (e : Engine) (n : Nat) (weak : Bool) : Engine := if weak then e.weakMark n else e

/-- A job context takes the result of its read (R36, R40, R132). -/
def Engine.ctxReadDone (e : Engine) (c : Nat) (q : Request) (cells : List CellOutcome) : Engine :=
  match (e.ctx c).job with
  | some .get => e.getReadDone c cells
  | some .matchValue => e.matchReadDone c cells
  | some .scrub => e.scrubReadDone c q cells
  | _ => e

/-- A READ's cells, classified, go to the weak mark and to its requester, and its pin is dropped (R64, R89, R102). The
weak mark and the unpin are not ordered against each other (R103): the model takes the mark first, then the unpin with its
tests, then what the requester does next (assumption 42). -/
def Engine.readReported (e : Engine) (q : Request) (cells : List CellOutcome) : Engine :=
  let weak := weakRead e.control.limits.threshold cells
  match q.requester with
  | .ctx c => ((e.markWeak q.seg (weak || (e.ctx c).unreadable cells)).unpin q.seg).ctxReadDone c q cells
  | .reclaim => ((e.markWeak q.seg weak).unpin q.seg).reclaimReadDone q cells
  | .mount => e.mountReadDone q cells
  | .space => e

/-! ### A bank's operation ends -/

/-- The operation a bank is ACTIVE with, if it is of a kind. -/
def Engine.activeOp (e : Engine) (b : Nat) (op : MediaOp) : Option Operation :=
  match (e.bank b).state, (e.bank b).active with
  | .active, some o => if o.op = op then some o else none
  | _, _ => none

/-- The operation a bank is SUSPENDING. -/
def Engine.suspendingOp (e : Engine) (b : Nat) : Option Operation :=
  match (e.bank b).state with
  | .suspending => (e.bank b).active
  | _ => none

/-- A bank's operation has ended: its end is reported and the bank selects again, or in HALTED nothing is reported and
the bank stays IDLE with its stack held (R79, R95). -/
def Engine.opEnded (e : Engine) (b : Nat) (report : Engine → Engine) : Engine :=
  match e.state with
  | .halted => (e.modBank b Bank.haltedIdle).settle
  | _ => ((report (e.modBank b Bank.ended)).selectBank b).settle

/-- The suspension of a bank's operation took effect: it is pushed, and the bank selects, or in HALTED stays IDLE (R86,
R95). -/
def Engine.suspended (e : Engine) (b : Nat) : Engine :=
  match e.state with
  | .halted => (e.modBank b fun k => k.pushActive.haltedIdle).settle
  | _ => ((e.modBank b Bank.pushActive).selectBank b).settle

/-- The next free value is drawn. -/
def Engine.draw (e : Engine) : Engine := { e with draws := e.draws + 1 }

/-- A program ends on the media: the array holds its cells, or whatever a failure left of them (R88, R90 to R92). -/
def State.endProgram (s : State) (b : Nat) (o : Operation) (pass : Bool) : State :=
  let q := o.request
  if pass then
    { s with
      array := s.array.program (cellNumber q.seg q.cell) q.contents
      engine := s.engine.opEnded b fun e => e.programEnded b q true }
  else
    { s with
      array := s.array.failRequest s.engine.draws q
      engine := s.engine.draw.opEnded b fun e => e.programEnded b q false }

/-- An erase ends on the media: the segment is erased, or whatever a failure left of it (R78, R93). -/
def State.endErase (s : State) (b : Nat) (o : Operation) (pass : Bool) : State :=
  let q := o.request
  if pass then
    { s with
      array := s.array.erase q.seg
      engine := s.engine.opEnded b fun e => e.eraseEnded q true }
  else
    { s with
      array := s.array.partialErase s.engine.draws q.seg
      engine := s.engine.draw.opEnded b fun e => e.eraseEnded q false }

/-- A PROGRAM or an ERASE ends on the media. -/
def State.endOp (s : State) (b : Nat) (o : Operation) (pass : Bool) : State :=
  match o.op with
  | .erase => s.endErase b o pass
  | _ => s.endProgram b o pass

/-- A READ ends on the media, and its cells are classified (R89, R98). -/
def State.endRead (s : State) (b : Nat) (o : Operation) (flips : List Nat) : State :=
  let q := o.request
  let cells := readCells s.array (cellNumber q.seg q.cell) q.count flips
  { s with engine := s.engine.opEnded b fun e => e.readReported q cells }

/-- A BLANK_CHECK ends on the media with BLANK when every cell of the segment is in the erased state (R78, R89). -/
def State.endBlankCheck (s : State) (b : Nat) (o : Operation) (disturbed : Bool) : State :=
  let q := o.request
  { s with engine := s.engine.opEnded b fun e => e.blankAnswer q.seg (s.array.blank q.seg && !disturbed) }

end Sys2Proof.Machine
end

