-- ==== Sys2Proof/Machine/Control.lean ====
section
/-! DEFINITION. Engine Control and the register window (chapter 9): START and STOP, the resets, the halt, and register
accesses. -/

namespace Sys2Proof.Machine

open Sys2Proof

/-! ### START and STOP (R171, R173, R125) -/

/-- START: in STOPPED the engine becomes RUNNING, and the Reclaim Unit clears its cause STOP and continues its victim or
makes a choice (R173, R125). -/
def Engine.start (e : Engine) : Engine :=
  if e.state = .stopped then
    let e1 := (e.setState .running).setReclaim fun u => { u with causes := { u.causes with stop := false } }
    e1.resumeReclaim.wantChoice.settle
  else e

/-- STOP: in RUNNING the engine becomes STOPPING, and the Reclaim Unit adds the cause STOP (R171, R125). -/
def Engine.stop (e : Engine) : Engine :=
  if e.state = .running then
    ((e.setState .stopping).setReclaim fun u => { u with causes := { u.causes with stop := true } }).settle
  else e

/-! ### The halt (R176, R95) -/

/-- The halt cause of a parity error (R176). -/
def haltCauseOf : ParityMemory → HaltCause
  | .index => .indexParity
  | .segmentTable => .tableParity

/-- A parity error: the engine becomes HALTED, the HALTED notice is raised, and the Bank Controllers drop their queues;
in HALTED nothing changes (R95, R176). -/
def Engine.halt (e : Engine) (m : ParityMemory) : Engine :=
  if e.state = .halted then e
  else
    let e1 := { e with
      control := { e.control with engine := .halted, halt := haltCauseOf m }
      banks := e.banks.map Bank.dropQueues }
    (e1.raiseNotice (.halted (haltCauseOf m))).settle

/-! ### Resets (R174, R175) -/

/-- What a transfer to host memory that is abandoned may have written (R53). -/
def JobContext.abandoned (x : JobContext) : List HostOutput :=
  match x.transfer with
  | some (.store address bytes) => [.maybeMemory address bytes]
  | _ => []

/-- What a done-record write that is abandoned may have written (R169). -/
def Engine.abandonedRecord (e : Engine) (g : RingContext) : List HostOutput :=
  match g.writing, g.posting with
  | true, c :: _ => [.maybeMemory g.doneSlot ((e.ctx c).doneRecord g.donePhase)]
  | _, _ => []

/-- What a notice write that is abandoned may have written (R169). -/
def NoticeUnit.abandoned (n : NoticeUnit) : List HostOutput :=
  match n.writing, n.ring, n.queue with
  | true, some g, x :: _ => [.maybeMemory g.slot (x.record g.phase)]
  | _, _, _ => []

/-- All that transfers abandoned by a reset may have written. -/
def Engine.abandoned (e : Engine) : List HostOutput :=
  e.ctxs.flatMap JobContext.abandoned ++ e.rings.flatMap e.abandonedRecord ++ e.notices.abandoned

/-- The engine after a reset, before its mount starts: every block as its own chapter has it after a reset, with the
window's registers given; the write sequence counter has no defined value (R23, R53, R74, R75, R111, R128, R134, R149,
R164, R169, R170). -/
def Engine.fresh (e : Engine) (registers : Registers) : Engine :=
  { registers := registers
    index := { writeSeq := Config.undefinedSequence (e.draws + e.startedOps.length) }
    now := e.now
    draws := e.draws + e.startedOps.length + 1
    output := e.abandoned ++ e.output }

/-- A mount starts: phase SURVEY, and the first survey read is queued (R134). -/
def Engine.startMount (e : Engine) : Engine :=
  (e.setMount fun _ => { phase := .survey, started := e.now }).enqueue firstSurveyRead

/-- A reset of every block: the operations on the array are cut short, and the engine is fresh (R96, R174, R175). -/
def State.resetEngine (s : State) (registers : Registers) : State :=
  { s with
    array := s.array.cutAll s.engine.draws s.engine.startedOps
    engine := s.engine.fresh registers }

/-- A mount starts at the end of a reset. -/
def State.mount (s : State) : State := { s with engine := s.engine.startMount.settle }

/-- ENGINE RESET: the registers are kept and the admin ring is re-initialised from them (R174). -/
def State.engineReset (s : State) : State :=
  let t := s.resetEngine s.engine.registers
  { t with engine := t.engine.initAdminRing }.mount

/-- A link or cold reset: the registers are cleared, which leaves the admin ring CLOSED, and a mount starts (R175). -/
def State.coldReset (s : State) : State := { s.resetEngine {} with supply := .on }.mount

/-- A link reset leaves the supply as it is (R175). -/
def State.linkReset (s : State) : State := (s.resetEngine {}).mount

/-- The reset input is asserted: a cold reset whose mount waits for the release (R175). -/
def State.holdReset (s : State) : State := { s.resetEngine {} with supply := .held }

/-- A loss of supply: all on-module state is lost, and the array stays as the loss left it (R175). -/
def State.losePower (s : State) : State := { s.resetEngine {} with supply := .off }

/-! ### Register reads (R179, R180) -/

/-- One byte of the register region: a byte of the register it lies in, lowest byte first (R179). -/
def Engine.windowByte (e : Engine) (offset : Nat) : Nat :=
  e.readRegister (offset - offset % 4) / 256 ^ (offset % 4) % 256

/-- `width` bytes of the register region from an offset on, as a number, the lowest byte first (R179, assumption 28). -/
def Engine.windowBytes (e : Engine) (offset : Nat) : Nat → Nat
  | 0 => 0
  | width + 1 => e.windowByte offset + 256 * e.windowBytes (offset + 1) width

/-- The byte of the window that holds POST_ERROR and ADMIN_SETUP_ERROR, bits 16 and 17 of STATE (R179, R180). -/
def flagByte : Nat := 6

/-- The flags a read clears: POST_ERROR and ADMIN_SETUP_ERROR, when the bytes returned include theirs (R180). -/
def StickyFlags.afterRead (f : StickyFlags) (offset width : Nat) : StickyFlags :=
  if offset ≤ flagByte && flagByte < offset + width then { f with postError := false, adminSetupError := false } else f

/-- A read of `width` bytes of the register region: it returns the addressed bytes, and one that returns the flags of STATE
clears them (R179, R180). -/
def Engine.readWindow (e : Engine) (offset width : Nat) : Engine :=
  let e1 := e.emit (.readData width (e.windowBytes offset width))
  { e1 with control := { e1.control with sticky := e1.control.sticky.afterRead offset width } }

/-! ### Register writes (R179) -/

/-- A bit of a value written. -/
def bitOf (value : BitVec 32) (i : Nat) : Bool := value.getLsbD i

/-- A write of ADMIN_BASE_LO or ADMIN_BASE_HI stores the value and does nothing else (R153). -/
def Engine.writeBase (e : Engine) (offset : Nat) (value : BitVec 32) : Engine :=
  if offset = 0x00C then { e with registers := { e.registers with adminBaseLo := value } }
  else if offset = 0x010 then { e with registers := { e.registers with adminBaseHi := value } }
  else e

/-- A write of CONTROL: ENGINE_RESET whatever the other bits, else START alone or STOP alone (R179). -/
def State.writeControl (s : State) (value : BitVec 32) : State :=
  if bitOf value 2 then s.engineReset
  else
    match bitOf value 0, bitOf value 1 with
    | true, false => { s with engine := s.engine.start }
    | false, true => { s with engine := s.engine.stop }
    | _, _ => s

/-- A write of a register. One of another width than 32 bits, or to an offset that takes no writes, is ignored; so is one
that is not aligned (R179, assumption 28). -/
def State.writeRegister (s : State) (offset width : Nat) (value : BitVec 32) : State :=
  if width ≠ 4 then s
  else if offset = 0x008 then s.writeControl value
  else if offset = 0x014 then { s with engine := (s.engine.writeAdminSize value).settle }
  else if offset = 0x018 then
    { s with engine := (s.engine.post (value.extractLsb 3 0).toNat (value.extractLsb 25 16).toNat).settle }
  else if offset = 0x01C then
    { s with engine :=
        (s.engine.ack (value.extractLsb 3 0).toNat (bitOf value 8) (value.extractLsb 25 16).toNat).settle }
  else { s with engine := s.engine.writeBase offset value }

end Sys2Proof.Machine
end

