-- ==== Sys2Proof/Machine/DataJobs.lean ====
section
/-! DEFINITION. The meanings of the data jobs' steps and of the ends of their transfers (chapter 2). A step is taken when
its context is TAKEN with its checks and chain wait behind it; where it is not, nothing changes (assumption 1). -/

namespace Sys2Proof.Machine

open Sys2Proof

/-- A job step, taken when the context is ready for it. -/
def Engine.jobStep (e : Engine) (c : Nat) (j : Job) (f : Engine → Engine) : Engine :=
  if e.jobReady c j then (f e).settle else e

/-! ### The steps -/

/-- A context enters LOADING with nothing to load (R31, R39). -/
def Engine.loadNothing (e : Engine) (c : Nat) : Engine :=
  e.modCtx c fun x => { x with state := .loading, ready := false, staging := [] }

/-- A PUT: READ_ONLY, or LOADING, or with a length of 0 straight to admission (R31). -/
def Engine.putStep (e : Engine) (c : Nat) : Engine :=
  let d := (e.ctx c).descriptor
  if e.readOnly then e.complete c { status := .readOnly }
  else if Descriptor.length d = 0 then (e.loadNothing c).askAdmission c
  else e.beginTransfer c .loading (.load (Descriptor.buffer d) (Descriptor.length d))

/-- A PROBE completes OK with what its lookup returned (R37). -/
def Engine.probeStep (e : Engine) (c : Nat) : Engine :=
  let b := e.lookup (e.ctx c).key
  e.complete c { status := .ok, flags := probeFlags (bodyKind b), kind := bodyKind b, results := lookupResults b }

/-- A DELETE: READ_ONLY, or it asks for admission (R38). -/
def Engine.deleteStep (e : Engine) (c : Nat) : Engine :=
  if e.readOnly then e.complete c { status := .readOnly } else e.askAdmission c

/-- A MATCH: LOADING, or with a length of 0 straight to its lookup (R39). -/
def Engine.matchStep (e : Engine) (c : Nat) : Engine :=
  let d := (e.ctx c).descriptor
  if Descriptor.length d = 0 then (e.loadNothing c).matchLookup c
  else e.beginTransfer c .loading (.load (Descriptor.buffer d) (Descriptor.length d))

/-- The walk a SCAN begins: from its start key, with a limit of its capacity / 16 (R41). -/
def scanStart (d : Descriptor) : ScanWork := { next := d.key, left := d.length / 16 }

/-- A SCAN begins its walk (R41). -/
def Engine.scanBegin (e : Engine) (c : Nat) : Engine :=
  (e.modCtx c fun x => { x with ready := false, scan := scanStart x.descriptor }).scanStep c

/-! ### The ends of transfers -/

/-- A transfer of a context has ended; in HALTED the context is held where it is (R50). -/
def Engine.transferEnded (e : Engine) (c : Nat) : Engine := e.modCtx c fun x => { x with transfer := none }

/-- What follows the end of a transfer, which in HALTED is nothing (R50, assumption 25). -/
def Engine.afterTransfer (e : Engine) (f : Engine → Engine) : Engine :=
  match e.state with
  | .halted => e
  | _ => (f e).settle

/-- The value has been read into staging: a PUT asks for admission, a MATCH looks its key up; a failed read ends the job
HOST_ERROR (R31, R39, R43). -/
def Engine.loaded (e : Engine) (c n : Nat) (data : Option (List Byte)) : Engine :=
  match data with
  | none => e.complete c { status := .hostError }
  | some bytes =>
    let e1 := e.modCtx c fun x => { x with staging := fitBytes n bytes }
    if (e.ctx c).job = some .matchValue then e1.matchLookup c else e1.askAdmission c

/-- The end of a host read into staging. -/
def Engine.loadEvent (e : Engine) (c : Nat) (data : Option (List Byte)) : Engine :=
  match (e.ctx c).state, (e.ctx c).transfer with
  | .loading, some (.load _ n) => (e.transferEnded c).afterTransfer fun k => k.loaded c n data
  | _, _ => e

/-- A transfer to host memory has ended: what it wrote is sent, or any part of it may have been. -/
def Engine.sent (e : Engine) (c address : Nat) (bytes : List Byte) (ok : Bool) : Engine :=
  (e.transferEnded c).emit (if ok then .memory address bytes else .maybeMemory address bytes)

/-- The end of a transfer to host memory of a context in RETURNING whose job is one of those given. -/
def Engine.returnEvent (e : Engine) (c : Nat) (mine : Job → Bool) (ok : Bool) (f : Nat → Engine → Engine) : Engine :=
  match (e.ctx c).state, (e.ctx c).transfer, (e.ctx c).job with
  | .returning, some (.store address bytes), some j =>
    if mine j then (e.sent c address bytes ok).afterTransfer (f bytes.length) else e
  | _, _, _ => e

/-- A GET's value has been transferred, or the transfer failed (R36). -/
def Engine.getReturned (e : Engine) (c : Nat) (ok : Bool) : Engine :=
  e.complete c (getOutcome (if ok then .ok else .hostError) (e.ctx c).found)

/-- A SCAN's batch has been written: the walk resumes, or the job completes; a failed write ends it HOST_ERROR (R41,
R42). -/
def Engine.scanReturned (e : Engine) (c : Nat) (ok : Bool) (written : Nat) : Engine :=
  if ok then
    let e1 := e.modCtx c fun x => { x with scan := { x.scan with written := x.scan.written + written } }
    match (e.ctx c).scan.ended with
    | some k =>
      let n := (e.ctx c).scan.count
      e1.complete c { status := .ok, flags := scanFlags .ok n, results := .scan k n }
    | none => (e1.modCtx c fun x => { x with state := .taken }).scanStep c
  else e.complete c { status := .hostError }

/-! ### The meanings -/

/-- PUT (R31). -/
def execPut (ctx : Nat) (s : State) : Host.Outcome State Fault Refusal :=
  .next (s.withEngine fun e => e.jobStep ctx .put fun k => k.putStep ctx)

/-- GET (R35). -/
def execGet (ctx : Nat) (s : State) : Host.Outcome State Fault Refusal :=
  .next (s.withEngine fun e => e.jobStep ctx .get fun k => k.getLookup ctx)

/-- PROBE (R37). -/
def execProbe (ctx : Nat) (s : State) : Host.Outcome State Fault Refusal :=
  .next (s.withEngine fun e => e.jobStep ctx .probe fun k => k.probeStep ctx)

/-- DELETE (R38). -/
def execDelete (ctx : Nat) (s : State) : Host.Outcome State Fault Refusal :=
  .next (s.withEngine fun e => e.jobStep ctx .delete fun k => k.deleteStep ctx)

/-- MATCH (R39). -/
def execMatch (ctx : Nat) (s : State) : Host.Outcome State Fault Refusal :=
  .next (s.withEngine fun e => e.jobStep ctx .matchValue fun k => k.matchStep ctx)

/-- SCAN (R41). -/
def execScan (ctx : Nat) (s : State) : Host.Outcome State Fault Refusal :=
  .next (s.withEngine fun e => e.jobStep ctx .scan fun k => k.scanBegin ctx)

/-- LOADING_DONE (R31, R39). -/
def execLoadingDone (ctx : Nat) (data : Option (List Byte)) (s : State) : Host.Outcome State Fault Refusal :=
  .next (s.withEngine fun e => e.loadEvent ctx data)

/-- RETURNING_DONE (R36). -/
def execReturningDone (ctx : Nat) (ok : Bool) (s : State) : Host.Outcome State Fault Refusal :=
  .next (s.withEngine fun e => e.returnEvent ctx (· == .get) ok fun _ k => k.getReturned ctx ok)

/-- SCAN_BATCH_DONE (R41). -/
def execScanBatchDone (ctx : Nat) (ok : Bool) (s : State) : Host.Outcome State Fault Refusal :=
  .next (s.withEngine fun e => e.returnEvent ctx (· == .scan) ok fun n k => k.scanReturned ctx ok n)

/-- SPACE_WAIT_EXPIRY: the job leaves the wait queue and completes NO_SPACE; no deadline expires in HALTED (R71, R74). -/
def Engine.expireWait (e : Engine) (c : Nat) : Engine :=
  if e.state != .halted && (e.ctx c).state == .spaceWait then
    ({ e with space := { e.space with waitQueue := e.space.waitQueue.filter (·.ctx != c) } }.failWrite c .noSpace).settle
  else e

/-- SPACE_WAIT_EXPIRY (R71). -/
def execSpaceWaitExpiry (ctx : Nat) (s : State) : Host.Outcome State Fault Refusal :=
  .next (s.withEngine fun e => e.expireWait ctx)

end Sys2Proof.Machine
end

