-- ==== Sys2Proof/Machine/AdminJobs.lean ====
section
/-! DEFINITION. The meanings of the admin jobs (chapters 6, 8 and 10), and of the end of a report's write. -/

namespace Sys2Proof.Machine

open Sys2Proof

/-- A job that waits in MEDIA. -/
def Engine.waitInMedia (e : Engine) (c : Nat) : Engine := e.modCtx c fun x => { x with state := .media, ready := false }

/-- An admin job completes with a status and its result fields. -/
def Engine.answer (e : Engine) (c : Nat) (st : Status) (results : Results := .none) : Engine :=
  e.complete c (adminOutcome st results)

/-! ### OPEN_RING, CLOSE_RING, SET_NOTICE (R161, R162, R166) -/

/-- The status an OPEN_RING is refused with, in the order of R161. -/
def Engine.openRefusal (e : Engine) (d : Descriptor) : Option Status :=
  if d.ringNumber = 0 || 7 < d.ringNumber then some .badParam
  else if (e.ring d.ringNumber).state != .closed || e.formatting then some .busy
  else if !ringSizeHolds 1024 d.ringSize || 3 < d.priority || 8 < d.vector || d.ringBase % 64 != 0 || d.doneBase % 64 != 0
  then some .badParam
  else none

/-- The ring an OPEN_RING opens (R161). -/
def openedRing (d : Descriptor) : RingContext :=
  { state := .opened, jobBase := d.ringBase, doneBase := d.doneBase, size := d.ringSize, priority := d.priority
    vector := d.vector, armed := d.armed }

/-- An OPEN_RING (R161). -/
def Engine.openRingStep (e : Engine) (c : Nat) : Engine :=
  let d : Descriptor := (e.ctx c).descriptor
  match e.openRefusal d with
  | some st => e.answer c st
  | none => (e.modRing d.ringNumber fun _ => openedRing d).answer c .ok

/-- A CLOSE_RING of a data ring, by the ring's state (R162). -/
def Engine.closeRingStep (e : Engine) (c : Nat) : Engine :=
  let d : Descriptor := (e.ctx c).descriptor
  let r := d.ringNumber
  if r = 0 || 7 < r then e.answer c .badParam
  else
    match (e.ring r).state with
    | .closed => e.answer c .ok (.close 0)
    | .draining => e.answer c .busy
    | .opened => (e.waitInMedia c).modRing r fun g => { g with state := .draining, closer := some c }
    | .faulted =>
      if (e.ring r).closer.isSome then e.answer c .busy
      else (e.waitInMedia c).modRing r fun g => { g with closer := some c }

/-- Whether the parameters of a SET_NOTICE are accepted (R166). -/
def noticeHolds (d : Descriptor) : Bool :=
  (d.ringSize == 0 || ringSizeHolds 1024 d.ringSize) && d.vector ≤ 8 && d.ringBase % 64 == 0

/-- A SET_NOTICE: it takes effect at once, or when the notice write in flight has ended (R166). -/
def Engine.setNoticeStep (e : Engine) (c : Nat) : Engine :=
  if !noticeHolds (e.ctx c).descriptor then e.answer c .badParam
  else if e.notices.writing then
    let e1 := e.waitInMedia c
    { e1 with notices := { e1.notices with setters := e1.notices.setters ++ [c] } }
  else e.applySetter c

/-! ### SET_LIMITS and the queries (R183 to R187) -/

/-- Whether every nonzero value of a SET_LIMITS lies in its range (R183). -/
def limitsHold (d : Descriptor) : Bool :=
  limitHolds 8 64 d.lowWater && limitHolds 10 2000 d.spaceWait && limitHolds 200 5000 d.eraseQuantum
    && limitHolds 1 4 d.threshold

/-- A new limit: a value of 0 keeps the one in force (R183). -/
def newLimit (old n : Nat) : Nat := if n = 0 then old else n

/-- The limits after a SET_LIMITS (R183). -/
def Limits.changed (l : Limits) (d : Descriptor) : Limits :=
  { lowWater := newLimit l.lowWater d.lowWater
    spaceWait := newLimit l.spaceWait d.spaceWait
    eraseQuantum := newLimit l.eraseQuantum d.eraseQuantum
    threshold := newLimit l.threshold d.threshold }

/-- A SET_LIMITS; a new low watermark makes the space event test (R72, R183, R184). -/
def Engine.setLimitsStep (e : Engine) (c : Nat) : Engine :=
  let d : Descriptor := (e.ctx c).descriptor
  if !limitsHold d then e.answer c .badParam (.limits e.control.limits)
  else
    let l := e.control.limits.changed d
    let e1 := { e with control := { e.control with limits := l } }
    (if d.lowWater = 0 then e1 else e1.spaceTest).answer c .ok (.limits l)

/-- A query's report goes to host memory (R182). -/
def Engine.sendReport (e : Engine) (c : Nat) (bytes : List Byte) : Engine :=
  e.beginTransfer c .returning (.store (Descriptor.reportAddress (e.ctx c).descriptor) bytes)

/-- A QUERY_ENGINE (R185). -/
def Engine.queryEngineStep (e : Engine) (c : Nat) : Engine := e.sendReport c e.report

/-- A QUERY_SEGMENT (R187). -/
def Engine.querySegmentStep (e : Engine) (c : Nat) : Engine :=
  let n := Descriptor.segment (e.ctx c).descriptor
  if e.state = .mounting then e.answer c .notMounted
  else if segmentCount ≤ n then e.answer c .badParam
  else e.sendReport c (e.segReport n)

/-- The result fields of a query (R182, assumption 32). -/
def queryResults (x : JobContext) : Results :=
  if x.job = some .querySegment then .segment (Descriptor.segment x.descriptor) else .none

/-- A query's report has been written, or its write failed (R182). -/
def Engine.reportWritten (e : Engine) (c : Nat) (ok : Bool) : Engine :=
  e.answer c (if ok then .ok else .hostError) (queryResults (e.ctx c))

/-! ### RECLAIM, SCRUB, FORMAT (R129, R132, R188) -/

/-- The segment field that names ANY (R193). -/
def anySegment : Nat := 0xFFFF

/-- The first three refusals of a RECLAIM, and BUSY (R129). -/
def Engine.reclaimRefusal (e : Engine) (n : Nat) : Option Status :=
  if e.state = .mounting then some .notMounted
  else if n != anySegment && (segmentCount ≤ n || !(e.seg n).state.eligible) then some .badParam
  else if e.readOnly then some .readOnly
  else if e.reclaim.state != .idle || e.formatting then some .busy
  else none

/-- The segment a RECLAIM is to take: the one named, or the one chosen for ANY (R129). -/
def Engine.reclaimChoice (e : Engine) (n : Nat) : Option Nat := if n = anySegment then e.chooseVictim true else some n

/-- A RECLAIM (R129). One refused BUSY has taken no victim: its victim, end state, cursor and tallies are fields its outcome
did not reach, and are 0 (R194, assumption 46). -/
def Engine.reclaimStep (e : Engine) (c : Nat) : Engine :=
  let n := Descriptor.segment (e.ctx c).descriptor
  match e.reclaimRefusal n with
  | some st => e.answer c st
  | none =>
    match e.reclaimChoice n with
    | none => e.answer c .ok (.reclaim none .none 0 {})
    | some v => if e.startTest v then (e.waitInMedia c).startVictim v (some c) else e.answer c .noSpace

/-- The walk a SCRUB begins (R132). -/
def scrubStart (n limit : Nat) : ScrubWork := { seg := n, cursor := firstRecordCell, limit := limit }

/-- A SCRUB (R132). -/
def Engine.scrubStep (e : Engine) (c : Nat) : Engine :=
  let n := Descriptor.segment (e.ctx c).descriptor
  if e.state = .mounting then e.answer c .notMounted
  else if segmentCount ≤ n || !(e.seg n).state.inUse then e.answer c .badParam
  else
    ((e.waitInMedia c).modCtx c fun x => { x with scrub := scrubStart n (e.seg n).progPtr }).scrubNext c

/-- Whether any data ring is not CLOSED (R188). -/
def Engine.dataRingOpen (e : Engine) : Bool := [1, 2, 3, 4, 5, 6, 7].any fun r => (e.ring r).state != .closed

/-- A FORMAT is refused, or accepted (R188). -/
def Engine.formatStep (e : Engine) (c : Nat) : Engine :=
  if e.state = .mounting then e.answer c .notMounted
  else if e.formatting then e.answer c .busy
  else if e.dataRingOpen then e.answer c .busy
  else { e.waitInMedia c with format := some { ctx := c, started := e.now } }

/-! ### The meanings -/

/-- OPEN_RING (R161). -/
def execOpenRing (ctx : Nat) (s : State) : Host.Outcome State Fault Refusal :=
  .next (s.withEngine fun e => e.jobStep ctx .openRing fun k => k.openRingStep ctx)

/-- CLOSE_RING (R162). -/
def execCloseRing (ctx : Nat) (s : State) : Host.Outcome State Fault Refusal :=
  .next (s.withEngine fun e => e.jobStep ctx .closeRing fun k => k.closeRingStep ctx)

/-- SET_NOTICE (R166). -/
def execSetNotice (ctx : Nat) (s : State) : Host.Outcome State Fault Refusal :=
  .next (s.withEngine fun e => e.jobStep ctx .setNotice fun k => k.setNoticeStep ctx)

/-- SET_LIMITS (R183). -/
def execSetLimits (ctx : Nat) (s : State) : Host.Outcome State Fault Refusal :=
  .next (s.withEngine fun e => e.jobStep ctx .setLimits fun k => k.setLimitsStep ctx)

/-- QUERY_ENGINE (R185). -/
def execQueryEngine (ctx : Nat) (s : State) : Host.Outcome State Fault Refusal :=
  .next (s.withEngine fun e => e.jobStep ctx .queryEngine fun k => k.queryEngineStep ctx)

/-- QUERY_SEGMENT (R187). -/
def execQuerySegment (ctx : Nat) (s : State) : Host.Outcome State Fault Refusal :=
  .next (s.withEngine fun e => e.jobStep ctx .querySegment fun k => k.querySegmentStep ctx)

/-- RECLAIM (R129). -/
def execReclaim (ctx : Nat) (s : State) : Host.Outcome State Fault Refusal :=
  .next (s.withEngine fun e => e.jobStep ctx .reclaim fun k => k.reclaimStep ctx)

/-- SCRUB (R132). -/
def execScrub (ctx : Nat) (s : State) : Host.Outcome State Fault Refusal :=
  .next (s.withEngine fun e => e.jobStep ctx .scrub fun k => k.scrubStep ctx)

/-- FORMAT (R188). -/
def execFormat (ctx : Nat) (s : State) : Host.Outcome State Fault Refusal :=
  .next (s.withEngine fun e => e.jobStep ctx .format fun k => k.formatStep ctx)

/-- REPORT_WRITE_DONE (R182). -/
def execReportWriteDone (ctx : Nat) (ok : Bool) (s : State) : Host.Outcome State Fault Refusal :=
  .next (s.withEngine fun e =>
    e.returnEvent ctx (fun j => j == .queryEngine || j == .querySegment) ok fun _ k => k.reportWritten ctx ok)

end Sys2Proof.Machine
end

