-- ==== Sys2Proof/Machine/HostCommands.lean ====
section
/-! DEFINITION. The meanings of the register accesses, the resets and the supply events (chapters 8 and 9). Each but the
cold reset and the loss of supply does nothing without supply or with the reset input held (assumption 17). -/

namespace Sys2Proof.Machine

open Sys2Proof

/-- START (R173). -/
def execStart (s : State) : Host.Outcome State Fault Refusal := .next (s.withEngine Engine.start)

/-- STOP (R171). -/
def execStop (s : State) : Host.Outcome State Fault Refusal := .next (s.withEngine Engine.stop)

/-- ENGINE_RESET (R174). -/
def execEngineReset (s : State) : Host.Outcome State Fault Refusal := .next (s.whenOn State.engineReset)

/-- ADMIN_SIZE_WRITE (R153). -/
def execAdminSizeWrite (value : BitVec 32) (s : State) : Host.Outcome State Fault Refusal :=
  .next (s.withEngine fun e => (e.writeAdminSize value).settle)

/-- POST (R154). -/
def execPost (ring : BitVec 4) (tail : BitVec 10) (s : State) : Host.Outcome State Fault Refusal :=
  .next (s.withEngine fun e => (e.post ring.toNat tail.toNat).settle)

/-- ACK (R159). -/
def execAck (ring : BitVec 4) (arm : Bool) (head : BitVec 10) (s : State) : Host.Outcome State Fault Refusal :=
  .next (s.withEngine fun e => (e.ack ring.toNat arm head.toNat).settle)

/-- STATE_READ, and the reads of the other registers (R179, R180). -/
def execStateRead (offset width : Nat) (s : State) : Host.Outcome State Fault Refusal :=
  .next (s.withEngine fun e => e.readWindow offset width)

/-- REGISTER_WRITE (R179). -/
def execRegisterWrite (offset width : Nat) (value : BitVec 32) (s : State) : Host.Outcome State Fault Refusal :=
  .next (s.whenOn fun t => t.writeRegister offset width value)

/-- LINK_RESET (R175). -/
def execLinkReset (s : State) : Host.Outcome State Fault Refusal := .next (s.whenOn State.linkReset)

/-- COLD_RESET: power-on, or the release of the reset input (R175). -/
def execColdReset (s : State) : Host.Outcome State Fault Refusal := .next s.coldReset

/-- PARITY_ERROR (R176). -/
def execParityError (memory : ParityMemory) (s : State) : Host.Outcome State Fault Refusal :=
  .next (s.withEngine fun e => e.halt memory)

/-- RESET_INPUT_ASSERTED (R175); without supply there is nothing to reset (assumption 17). -/
def execResetInputAsserted (s : State) : Host.Outcome State Fault Refusal :=
  .next (match s.supply with
    | .off => s
    | _ => s.holdReset)

/-- POWER_LOSS (R175). -/
def execPowerLoss (s : State) : Host.Outcome State Fault Refusal := .next s.losePower

end Sys2Proof.Machine
end

