-- ==== Sys2Proof/Machine/MediaEvents.lean ====
section
/-! DEFINITION. The meanings of the media's reports and of the timers of the banks (chapter 4). Where the bank has no such
operation active, nothing changes (assumption 1). -/

namespace Sys2Proof.Machine

open Sys2Proof

/-- An end that a bank's active operation of a kind takes. -/
def State.onActive (s : State) (b : Nat) (op : MediaOp) (f : Operation → State) : State :=
  match s.engine.activeOp b op with
  | some o => f o
  | none => s

/-- The media's report on a suspension (R86). -/
def State.suspendReported (s : State) (b : Nat) (outcome : SuspendOutcome) : State :=
  match s.engine.suspendingOp b with
  | none => s
  | some o =>
    match outcome with
    | .tookEffect => { s with engine := s.engine.suspended b }
    | .endedWithPass => s.endOp b o true
    | .endedWithFail => s.endOp b o false

/-- The quantum of a bank's active operation expires (R85). -/
def Engine.quantumEvent (e : Engine) (b : Nat) : Engine :=
  match (e.bank b).state, (e.bank b).quantumEnd with
  | .active, some _ => e.modBank b Bank.quantumExpired
  | _, _ => e

/-- QUANTUM_EXPIRY (R85). -/
def execQuantumExpiry (bank : Nat) (s : State) : Host.Outcome State Fault Refusal :=
  .next (s.withEngine fun e => e.quantumEvent bank)

/-- SUSPEND_REPORT (R86). -/
def execSuspendReport (bank : Nat) (outcome : SuspendOutcome) (s : State) : Host.Outcome State Fault Refusal :=
  .next (s.whenOn fun t => t.suspendReported bank outcome)

/-- READ_DONE (R89). -/
def execReadDone (bank : Nat) (flips : List Nat) (s : State) : Host.Outcome State Fault Refusal :=
  .next (s.whenOn fun t => t.onActive bank .read fun o => t.endRead bank o flips)

/-- BLANK_CHECK_DONE (R89, R137). -/
def execBlankCheckDone (bank : Nat) (disturbed : Bool) (s : State) : Host.Outcome State Fault Refusal :=
  .next (s.whenOn fun t => t.onActive bank .blankCheck fun o => t.endBlankCheck bank o disturbed)

/-- PROGRAM_DONE (R90 to R92). -/
def execProgramDone (bank : Nat) (pass : Bool) (s : State) : Host.Outcome State Fault Refusal :=
  .next (s.whenOn fun t => t.onActive bank .program fun o => t.endProgram bank o pass)

/-- ERASE_DONE (R93). -/
def execEraseDone (bank : Nat) (pass : Bool) (s : State) : Host.Outcome State Fault Refusal :=
  .next (s.whenOn fun t => t.onActive bank .erase fun o => t.endErase bank o pass)

/-- PROGRAM_TIMEOUT: the program is ended and has failed (R88). -/
def execProgramTimeout (bank : Nat) (s : State) : Host.Outcome State Fault Refusal :=
  .next (s.whenOn fun t => t.onActive bank .program fun o => t.endProgram bank o false)

/-- ERASE_TIMEOUT: the erase is ended and has failed (R88). -/
def execEraseTimeout (bank : Nat) (s : State) : Host.Outcome State Fault Refusal :=
  .next (s.whenOn fun t => t.onActive bank .erase fun o => t.endErase bank o false)

end Sys2Proof.Machine
end

