-- ==== Sys2Proof/Machine/RingEvents.lean ====
section
/-! DEFINITION. The meanings of the ends of the Ring Unit's own transfers: a descriptor fetch, a done-record write, a
notice write (chapter 8). Where none is in flight, nothing changes (assumption 1). -/

namespace Sys2Proof.Machine

open Sys2Proof

/-- The end of the fetch in flight; in HALTED the descriptor is not taken (R157, R168). -/
def Engine.fetchEvent (e : Engine) (d : Option (List Byte)) : Engine :=
  match e.arbiter.fetching, e.state with
  | none, _ => e
  | some _, .halted => { e with arbiter := { e.arbiter with fetching := none } }
  | some (r, c), _ => (e.fetchDone r c d).settle

/-- The end of a ring's done-record write: the record of a job in flight, the first of the ring's list (R155, R158, R163,
R168). -/
def Engine.recordEvent (e : Engine) (r : Nat) (ok : Bool) : Engine :=
  match (e.ring r).writing, (e.ring r).posting, (e.ring r).inFlight with
  | true, c :: _, _ + 1 =>
    match e.state with
    | .halted => e.recordHalted r c ok
    | _ => (if ok then e.recordWritten r c else e.recordFailed r c).settle
  | _, _, _ => e

/-- The end of the notice write in flight, in every engine state (R165, R166). -/
def Engine.noticeEvent (e : Engine) (ok : Bool) : Engine :=
  if e.notices.writing then (e.noticeDone ok).settle else e

/-- DESCRIPTOR_FETCH_DONE (R157). -/
def execDescriptorFetchDone (descriptor : Option (List Byte)) (s : State) : Host.Outcome State Fault Refusal :=
  .next (s.withEngine fun e => e.fetchEvent descriptor)

/-- DONE_RECORD_WRITTEN (R158). -/
def execDoneRecordWritten (ring : Nat) (ok : Bool) (s : State) : Host.Outcome State Fault Refusal :=
  .next (s.withEngine fun e => e.recordEvent ring ok)

/-- NOTICE_WRITE_DONE (R165). -/
def execNoticeWriteDone (ok : Bool) (s : State) : Host.Outcome State Fault Refusal :=
  .next (s.withEngine fun e => e.noticeEvent ok)

end Sys2Proof.Machine
end

