-- ==== Sys2Proof/Machine/Dispatch.lean ====
section
/-! DEFINITION. The dispatch of a command to its meaning. -/

namespace Sys2Proof.Machine

open Sys2Proof

def exec (i : Instr) (s : State) : Host.Outcome State Fault Refusal :=
  match i with
  | .start => Sys2Proof.Machine.execStart s
  | .stop => Sys2Proof.Machine.execStop s
  | .engineReset => Sys2Proof.Machine.execEngineReset s
  | .adminSizeWrite value => Sys2Proof.Machine.execAdminSizeWrite value s
  | .post ring tail => Sys2Proof.Machine.execPost ring tail s
  | .ack ring arm head => Sys2Proof.Machine.execAck ring arm head s
  | .stateRead offset width => Sys2Proof.Machine.execStateRead offset width s
  | .registerWrite offset width value => Sys2Proof.Machine.execRegisterWrite offset width value s
  | .linkReset => Sys2Proof.Machine.execLinkReset s
  | .coldReset => Sys2Proof.Machine.execColdReset s
  | .parityError memory => Sys2Proof.Machine.execParityError memory s
  | .descriptorFetchDone descriptor => Sys2Proof.Machine.execDescriptorFetchDone descriptor s
  | .doneRecordWritten ring ok => Sys2Proof.Machine.execDoneRecordWritten ring ok s
  | .noticeWriteDone ok => Sys2Proof.Machine.execNoticeWriteDone ok s
  | .put ctx => Sys2Proof.Machine.execPut ctx s
  | .get ctx => Sys2Proof.Machine.execGet ctx s
  | .probe ctx => Sys2Proof.Machine.execProbe ctx s
  | .delete ctx => Sys2Proof.Machine.execDelete ctx s
  | .matchValue ctx => Sys2Proof.Machine.execMatch ctx s
  | .scan ctx => Sys2Proof.Machine.execScan ctx s
  | .openRing ctx => Sys2Proof.Machine.execOpenRing ctx s
  | .closeRing ctx => Sys2Proof.Machine.execCloseRing ctx s
  | .setNotice ctx => Sys2Proof.Machine.execSetNotice ctx s
  | .setLimits ctx => Sys2Proof.Machine.execSetLimits ctx s
  | .queryEngine ctx => Sys2Proof.Machine.execQueryEngine ctx s
  | .querySegment ctx => Sys2Proof.Machine.execQuerySegment ctx s
  | .reclaim ctx => Sys2Proof.Machine.execReclaim ctx s
  | .scrub ctx => Sys2Proof.Machine.execScrub ctx s
  | .format ctx => Sys2Proof.Machine.execFormat ctx s
  | .loadingDone ctx data => Sys2Proof.Machine.execLoadingDone ctx data s
  | .returningDone ctx ok => Sys2Proof.Machine.execReturningDone ctx ok s
  | .scanBatchDone ctx ok => Sys2Proof.Machine.execScanBatchDone ctx ok s
  | .reportWriteDone ctx ok => Sys2Proof.Machine.execReportWriteDone ctx ok s
  | .spaceWaitExpiry ctx => Sys2Proof.Machine.execSpaceWaitExpiry ctx s
  | .quantumExpiry bank => Sys2Proof.Machine.execQuantumExpiry bank s
  | .suspendReport bank outcome => Sys2Proof.Machine.execSuspendReport bank outcome s
  | .readDone bank flips => Sys2Proof.Machine.execReadDone bank flips s
  | .blankCheckDone bank disturbed => Sys2Proof.Machine.execBlankCheckDone bank disturbed s
  | .programDone bank pass => Sys2Proof.Machine.execProgramDone bank pass s
  | .eraseDone bank pass => Sys2Proof.Machine.execEraseDone bank pass s
  | .programTimeout bank => Sys2Proof.Machine.execProgramTimeout bank s
  | .eraseTimeout bank => Sys2Proof.Machine.execEraseTimeout bank s
  | .resetInputAsserted => Sys2Proof.Machine.execResetInputAsserted s
  | .powerLoss => Sys2Proof.Machine.execPowerLoss s

end Sys2Proof.Machine
end

