-- ==== Sys2Proof/Safety.lean ====
section
/-! DEFINITION. What a safe state is, in the terms the statements use: the array in its canonical form, the index under
its law, every bank under the suspension rules, and every table with as many places as the part has. -/

namespace Sys2Proof

/-- Commands that write CONTROL with a value. -/
def Instr.writesControl (c : Instr) (p : BitVec 32 → Bool) : Prop :=
  match c with
  | .registerWrite offset width value => offset = 0x008 ∧ width = 4 ∧ p value = true
  | _ => False

/-- The commands that are a STOP (R179). -/
def Instr.isStop (c : Instr) : Prop :=
  c = .stop ∨ c.writesControl fun v => !v.getLsbD 2 && !v.getLsbD 0 && v.getLsbD 1

/-- The commands that are a START (R179). -/
def Instr.isStart (c : Instr) : Prop :=
  c = .start ∨ c.writesControl fun v => !v.getLsbD 2 && v.getLsbD 0 && !v.getLsbD 1

/-- The commands that reset the engine: the three resets, the reset input and the loss of supply (R174, R175). -/
def Instr.isReset (c : Instr) : Prop :=
  c = .engineReset ∨ c = .linkReset ∨ c = .coldReset ∨ c = .resetInputAsserted ∨ c = .powerLoss
    ∨ c.writesControl fun v => v.getLsbD 2

/-- The commands that are the end of a PROGRAM or an ERASE, or can be (R86, R88, R90, R93). -/
def Instr.endsWork : Instr → Bool
  | .programDone .. => true
  | .eraseDone .. => true
  | .programTimeout .. => true
  | .eraseTimeout .. => true
  | .suspendReport _ .endedWithPass => true
  | .suspendReport _ .endedWithFail => true
  | _ => false

end Sys2Proof

namespace Sys2Proof.Machine

open Sys2Proof

/-- The tables have the sizes the guide gives them: 8 job rings, 32 contexts, 512 segments, 4 banks and 4 priority levels
(R24, R55, R75, R150). -/
def Engine.shape (e : Engine) : Prop :=
  e.rings.length = 8 ∧ e.ctxs.length = contextCount ∧ e.space.segs.length = segmentCount ∧ e.banks.length = bankCount
    ∧ e.arbiter.served.length = 4

/-- The shapes a suspend stack can have, its top first (R87). -/
def stackShape (l : List MediaOp) : Prop := l = [] ∨ l = [.erase] ∨ l = [.program] ∨ l = [.program, .erase]

/-- What is on a bank's suspend stack, and what may be active above it: a program above nothing or one erase, an erase
above nothing (R87). -/
def Bank.stackHolds (k : Bank) : Prop :=
  stackShape (k.stack.map Operation.op)
    ∧ (k.activeOp = some .program → k.stack.map Operation.op = [] ∨ k.stack.map Operation.op = [.erase])
    ∧ (k.activeOp = some .erase → k.stack = [])

/-- Every queue of a bank holds requests of its own operations (R76). -/
def Bank.queuesHold (k : Bank) : Prop :=
  (∀ q ∈ k.readQ, q.kind.op = .read) ∧ (∀ q ∈ k.hostQ, q.kind.op = .program) ∧ (∀ q ∈ k.reclaimQ, q.kind.op = .program)
    ∧ (∀ q ∈ k.eraseQ, q.kind.op = .erase ∨ q.kind.op = .blankCheck)

/-- Only a program or an erase is being suspended (R83, R84). -/
def Bank.suspendHolds (k : Bank) : Prop :=
  k.state = .suspending → k.activeOp = some .program ∨ k.activeOp = some .erase

/-- A bank under the rules of queues, suspension and the host streak (R76, R80, R83, R87). -/
def Bank.lawful (k : Bank) : Prop := k.queuesHold ∧ k.stackHolds ∧ k.suspendHolds ∧ k.streak ≤ maxStreak

/-- Every bank is lawful. -/
def Engine.banksLawful (e : Engine) : Prop := ∀ k ∈ e.banks, k.lawful

/-- The notice side under R164: at most 16 notices queued, and numbers of 16 bits. -/
def NoticeUnit.holds (n : NoticeUnit) : Prop :=
  n.queue.length ≤ noticeQueueSize ∧ n.number < noticeNumbers ∧ ∀ x ∈ n.queue, x.number < noticeNumbers

/-- A list of at most 8 segments, none twice (R108). -/
def refreshHolds (l : List Nat) : Prop := l.length ≤ refreshPlaces ∧ l.Nodup

/-- The refresh list under R108: at most 8 segments, none twice, each in state HEAD, FULL or FAILED_CLOSED, and none while a
mount is under way. -/
def Engine.refreshLaw (e : Engine) : Prop :=
  refreshHolds e.reclaim.refresh
    ∧ (∀ n ∈ e.reclaim.refresh, (e.seg n).state.eligible = true) ∧ (e.state = .mounting → e.reclaim.refresh = [])

/-- The law of a ring's credit (R155): in flight plus unacknowledged never exceed the size minus 1. A ring of size 0 is a
CLOSED one, which has no slots. -/
def RingContext.creditHolds (g : RingContext) : Prop :=
  g.size = 0 ∨ (g.inFlight + g.unacked ≤ g.size - 1 ∧ g.doneIndex < g.size ∧ g.head < g.size)

/-- Every ring keeps the law of its credit (R155). -/
def Engine.creditLaw (e : Engine) : Prop := ∀ g ∈ e.rings, g.creditHolds

/-- The states of a segment that no index entry may point into (R8). -/
def SegState.vacant : SegState → Bool
  | .free | .erasing | .dirty | .retired => true
  | _ => false

/-- The locations of the index entries. -/
def Engine.locations (e : Engine) : List Location := e.index.entries.filterMap fun t => t.body.loc?

/-- Where a mount stands, as far as the entries go (R23, R111, R134 to R143): nothing is being reclaimed, released or
formatted; the survey has made no entry; pass A is at a segment that may hold records, with entries in the segments before
it and, once its cursor has passed a record, in it; pass B is at a segment that may hold records. -/
def Engine.mountLaw (e : Engine) : Prop :=
  e.reclaim.victim = none ∧ e.reclaim.step = .none ∧ e.space.released = none ∧ e.format = none
    ∧ (e.mount.phase = .survey → e.locations = [])
    ∧ (e.mount.phase = .passA → e.mount.others = false → (e.seg e.mount.seg).state.vacant = false ∧ 2 ≤ e.mount.cursor
      ∧ ∀ l ∈ e.locations, l.seg < e.mount.seg ∨ (l.seg = e.mount.seg ∧ 2 < e.mount.cursor))
    ∧ (e.mount.phase = .passB → (e.seg e.mount.seg).state.vacant = false)

/-- The law of R8: no entry's location lies in a segment that is FREE, ERASING, DIRTY or RETIRED. During MOUNTING it is kept by
where the mount stands. -/
def Engine.locationLaw (e : Engine) : Prop :=
  (∀ l ∈ e.locations, (e.seg l.seg).state.vacant = false) ∧ (e.state = .mounting → e.mountLaw)

/-- The limits in their ranges (R183). -/
def Limits.holds (l : Limits) : Prop :=
  (8 ≤ l.lowWater ∧ l.lowWater ≤ 64) ∧ (10 ≤ l.spaceWait ∧ l.spaceWait ≤ 2000)
    ∧ (200 ≤ l.eraseQuantum ∧ l.eraseQuantum ≤ 5000) ∧ (1 ≤ l.threshold ∧ l.threshold ≤ 4)

/-- The changes of engine state that happen of themselves: a mount that finishes, and a STOP whose work has ended (R146,
R172). -/
def EngineState.settlesTo (a b : EngineState) : Prop := (a = .mounting ∧ b = .running) ∨ (a = .stopping ∧ b = .stopped)

/-- The array in its canonical form, the index under R6, the banks lawful, and the tables of their sizes. -/
def State.sound (s : State) : Prop :=
  s.array.wf ∧ indexLaw s.engine.index.entries ∧ s.engine.banksLawful ∧ s.engine.shape

/-! ### Words of the statements -/

/-- The engine with a segment record, or a context, in its place. -/
def Engine.withSeg (e : Engine) (n : Nat) (g : SegRecord) : Engine :=
  { e with space := { e.space with segs := e.space.segs.set n g } }
def Engine.withCtx (e : Engine) (c : Nat) (x : JobContext) : Engine := { e with ctxs := e.ctxs.set c x }

/-- The entries of an engine differ at most at one key. -/
def Engine.sameEntriesBut (k e : Engine) (key : Nat) : Prop := ∀ other, other ≠ key → k.entry other = e.entry other

/-- The engine with a change to its mount's statistics, or to its reclaim's tallies. -/
def Engine.counted (e : Engine) (f : MountStats → MountStats) : Engine :=
  { e with mount := { e.mount with stats := f e.mount.stats } }
def Engine.tallied (e : Engine) (f : Tallies → Tallies) : Engine :=
  { e with reclaim := { e.reclaim with tallies := f e.reclaim.tallies } }

/-- A job of a kind stands ready for its step in context `c`, which holds `x`: the part is powered, the engine not HALTED,
and the context TAKEN with its checks and chain wait behind it (R25, R50). -/
def State.jobAt (s : State) (c : Nat) (j : Job) (x : JobContext) : Prop :=
  s.supply = .on ∧ s.engine.state ≠ .halted ∧ s.engine.ctxs[c]? = some x ∧ x.state = .taken ∧ x.ready = true
    ∧ x.job = some j

/-- A bank is ACTIVE with an operation of a kind. -/
def State.activeAt (s : State) (b : Nat) (op : MediaOp) (o : Operation) : Prop :=
  s.supply = .on ∧ b < s.engine.banks.length ∧ (s.engine.bank b).state = .active ∧ (s.engine.bank b).active = some o
    ∧ o.op = op

/-- A context is RETURNING a job's bytes to host memory. -/
def State.returningAt (s : State) (c : Nat) (j : Job) (x : JobContext) (address : Nat) (bytes : List Byte) : Prop :=
  s.supply = .on ∧ s.engine.state ≠ .halted ∧ s.engine.ctxs[c]? = some x ∧ x.state = .returning ∧ x.job = some j
    ∧ x.transfer = some (.store address bytes)

/-- The engine state after a step may be `b` when it was `a` and the command taken was `c` (R171). -/
def mayFollow (c : Option Instr) (a b : EngineState) : Prop :=
  b = a ∨ a.settlesTo b
    ∨ (a = .running ∧ (b = .stopping ∨ b = .stopped) ∧ ∃ i, c = some i ∧ i.isStop)
    ∨ (a = .stopped ∧ b = .running ∧ ∃ i, c = some i ∧ i.isStart)
    ∨ (a ≠ .halted ∧ b = .halted ∧ ∃ m, c = some (.parityError m))
    ∨ (b = .mounting ∧ ∃ i, c = some i ∧ i.isReset)

/-- What a reset leaves of every block but the window, the job rings and the index's counter: FREE contexts, an empty
index, empty queues, MOUNTING in phase SURVEY with the first survey read started (R23, R53, R74, R75, R96, R111, R134,
R149, R164, R169, R170). -/
def State.freshFrom (t s : State) : Prop :=
  t.supply = .on ∧ t.pending = s.pending ∧ t.array = s.array.cutAll s.engine.draws s.engine.startedOps
    ∧ t.engine.ctxs = List.replicate 32 {} ∧ t.engine.index.entries = [] ∧ t.engine.space = {}
    ∧ t.engine.banks = [{ state := .active, active := some { request := firstSurveyRead } }, {}, {}, {}]
    ∧ t.engine.reclaim = {} ∧ t.engine.notices = {} ∧ t.engine.arbiter = {} ∧ t.engine.format = none
    ∧ t.engine.control = {} ∧ t.engine.mount = { phase := .survey, started := s.engine.now }
    ∧ t.engine.now = s.engine.now ∧ t.engine.output = s.engine.abandoned ++ s.engine.output

/-- An engine in which nothing waits that the end of a step would take up. -/
def Engine.calm (e : Engine) : Prop :=
  (e.state = .running ∨ e.state = .mounting ∨ e.state = .stopped)
    ∧ (∀ g ∈ e.rings, g.state ≠ .faulted ∧ g.closing = none ∧ (g.posting = [] ∨ g.writing = true ∨ g.state.writes = false))
    ∧ e.reclaim.state ≠ .grantWait ∧ e.reclaim.choiceDue = false ∧ e.format = none ∧ e.space.released = none
    ∧ e.space.pinWait = [] ∧ e.notices.setters = [] ∧ (e.arbiter.fetching ≠ none ∨ ∀ r, e.eligible r = false)
    ∧ (e.notices.queue = [] ∨ e.notices.ring = none ∨ e.notices.writing = true)

end Sys2Proof.Machine
end

