-- ==== Sys2Proof/Certificates/Slice0/Obligations.lean ====
section
/-! DEFINITION. The statements for the provers. Results of commands are whole next states: what is not named as changed is
unchanged; `settle` is the end of every step (Machine/Settle.lean), which does nothing in a calm engine
(`Obligations.ACalmEngineSettlesUnchanged`). -/

open Sys2Proof Sys2Proof.Machine

/-! ### The machine -/

/-- A step takes the command at the front of the queue and runs it with the queue's rest. With no command waiting 1 µs
passes for a powered engine: the clock advances, and every ACTIVE bank's operation accrues run time (R82, R88); that an
idle step is 1 µs is the model's choice (assumption 9). -/
def Obligations.StepRunsTheFrontCommand : Prop :=
  (∀ (c : Instr) (rest : List Instr) (s : State), s.pending = c :: rest → step s = exec c { s with pending := rest })
  ∧ ∀ s : State, s.pending = [] →
    (s.supply ≠ .on → step s = .next s)
    ∧ (s.supply = .on → ∃ banks : List Bank,
      step s = .next { s with engine := { s.engine with now := s.engine.now + 1, banks := banks } }
      ∧ banks.length = s.engine.banks.length
      ∧ ∀ (b : Nat) (k : Bank), s.engine.banks[b]? = some k →
        banks[b]? = some (if k.state = .active then
          { k with active := k.active.map fun o => { o with runTime := o.runTime + 1 } } else k))

/-! ### Resets -/

/-- The state after reset: MOUNTING in phase SURVEY, WRITABLE, the limits at their defaults, an empty index, 32 FREE
contexts, 8 CLOSED rings, no notice, the first survey read under way; and it meets every law that the steps keep. -/
def Obligations.TheResetStateIsLawful : Prop :=
  State.reset.engine.state = .mounting ∧ State.reset.engine.mount.phase = .survey
    ∧ State.reset.engine.control.causes = {} ∧ State.reset.engine.control.halt = .none
    ∧ State.reset.engine.control.limits = { lowWater := 24, spaceWait := 200, eraseQuantum := 500, threshold := 3 }
    ∧ State.reset.engine.index.entries = [] ∧ (∀ x ∈ State.reset.engine.ctxs, x.state = .free)
    ∧ (∀ g ∈ State.reset.engine.rings, g.state = .closed) ∧ State.reset.engine.notices.queue = []
    ∧ State.reset.engine.reclaim.state = .idle ∧ State.reset.engine.space.rotation = 3
    ∧ (State.reset.engine.bank 0).active =
      some { request := { kind := .read, seg := 0, cell := 0, count := 2, requester := .mount } } ∧ State.reset.pending = []
    ∧ State.reset.sound ∧ State.reset.engine.notices.holds ∧ State.reset.engine.refreshLaw
    ∧ State.reset.engine.control.limits.holds ∧ State.reset.engine.creditLaw ∧ State.reset.engine.locationLaw

/-- An engine, link or cold reset abandons all work, empties every block and starts a mount; the engine reset keeps the
window's registers and re-initialises the admin ring from them, OPEN when its size and base are legal and CLOSED else
(R153), the others clear them and leave it CLOSED. The values the guide gives no field after a reset (a segment sequence
counter of 1 before the mount sets it, a forgotten ring's fields 0, empty contexts) are the model's (assumption 30), and
so is what the cut leaves in the array, drawn through the counter draws (assumption 5). R96: every active and suspended
operation is cut short. A READ or BLANK_CHECK changes nothing; an ERASE changes no cell outside its segment, and none
but the format cell unless that is erased (R74, R78); a retire cell is left neither blank nor whole (R136, R149); any
other program changes only its cells, each left blank, whole or torn, and mount takes nothing of it (R23), which is
inferred to mean one of two forms (assumption 50): none of its cells is whole, and a torn cell is no header, or its
header is whole and one of its value cells is blank (R100). A transfer to host memory that is abandoned may have written
its bytes (R53, R169). -/
def Obligations.AResetStartsAFreshMount : Prop :=
  (∀ s : State,
    (s.supply = .on → ∃ t, exec .engineReset s = .next t ∧ t.freshFrom s ∧ t.engine.registers = s.engine.registers
      ∧ t.engine.rings =
        adminRing (s.engine.registers.adminBaseLo.toNat + 2 ^ 32 * s.engine.registers.adminBaseHi.toNat)
          s.engine.registers.adminSize.toNat :: List.replicate 7 {})
    ∧ (s.supply = .on → ∃ t, exec .linkReset s = .next t ∧ t.freshFrom s ∧ t.engine.registers = {}
      ∧ t.engine.rings = List.replicate 8 {})
    ∧ ∃ t, exec .coldReset s = .next t ∧ t.freshFrom s ∧ t.engine.registers = {} ∧ t.engine.rings = List.replicate 8 {})
  ∧ (∀ (e : Engine) (h : HostOutput), e.startedOps = e.banks.flatMap (fun k => k.active.toList ++ k.stack)
    ∧ (h ∈ e.abandoned ↔ (∃ x ∈ e.ctxs, ∃ address bytes, x.transfer = some (.store address bytes)
        ∧ h = .maybeMemory address bytes)
      ∨ (∃ g ∈ e.rings, ∃ c rest, g.writing = true ∧ g.posting = c :: rest
        ∧ h = .maybeMemory (g.doneBase + 32 * g.doneIndex) ((e.ctx c).doneRecord g.donePhase))
      ∨ ∃ g n rest, e.notices.writing = true ∧ e.notices.ring = some g ∧ e.notices.queue = n :: rest
        ∧ h = .maybeMemory (g.base + 32 * g.writeIndex) (n.record g.phase)))
  ∧ (∀ (a : CellArray) (draw : Nat) (o : Operation) (os : List Operation), a.cutAll draw [] = a
    ∧ a.cutAll draw (o :: os) = (a.cutShort draw o.request).cutAll (draw + 1) os)
  ∧ (∀ tag, (CellData.torn tag).asHeader = none)
  ∧ (∀ (a b : CellArray) (draw first : Nat) (q : Request), a.wf → b = a.cutShort draw q → first = 2048 * q.seg + q.cell →
    (q.kind = .read ∨ q.kind = .blankCheck → b = a)
    ∧ (q.kind = .erase → (∀ n, (n < 2048 * q.seg ∨ 2048 * (q.seg + 1) ≤ n) → b.get n = a.get n)
      ∧ (b.get (2048 * q.seg) = none ∨ ∀ n, n ≠ 2048 * q.seg → b.get n = a.get n))
    ∧ (q.kind = .retireCell → (∃ tag, b.get first = some (.torn tag)) ∧ ∀ n, n ≠ first → b.get n = a.get n)
    ∧ (q.kind ∈ [RequestKind.hostRecord, .reclaimRecord, .hostOpen, .reclaimOpen, .formatCell] →
      (∀ n, (n < first ∨ first + q.contents.length ≤ n) → b.get n = a.get n)
      ∧ (∀ i d, q.contents[i]? = some d →
        b.get (first + i) = none ∨ b.get (first + i) = some d ∨ ∃ tag, b.get (first + i) = some (.torn tag))
      ∧ ((∀ i, i < q.contents.length → b.get (first + i) = none ∨ ∃ tag, b.get (first + i) = some (.torn tag))
        ∨ (2 ≤ q.contents.length ∧ b.get first = q.contents[0]?
          ∧ ∃ i, 1 ≤ i ∧ i < q.contents.length ∧ b.get (first + i) = none))))
  ∧ ∀ base size : Nat,
    (size ∈ [16, 32, 64, 128, 256] → base % 64 = 0 →
      adminRing base size = { state := .opened, jobBase := base, doneBase := base + 64 * size, size := size })
    ∧ (¬ (size ∈ [16, 32, 64, 128, 256] ∧ base % 64 = 0) → adminRing base size = {})

/-- Without supply, or with the reset input held, no command but a cold reset, the reset input and a loss of supply does
anything (assumption 17). The assertion of the reset input holds the engine in reset with no mount started; a loss of
supply takes it down. Both cut the operations on the array short, with what that leaves drawn through the counter draws
(assumption 5; `Obligations.AResetStartsAFreshMount` says what a cut leaves), empty every block and clear the window:
every context is FREE, every ring CLOSED, and the index, the queues, the notices, the heads, the reclaim and the FORMAT are
none; the clock and the draws are the model's own fields, and the write sequence counter has no defined value (R4, R23,
assumption 8). -/
def Obligations.SupplyEventsStopTheEngine : Prop :=
  ∀ (s : State) (fresh : Engine → Prop),
    (∀ e, fresh e ↔ e = s.engine.fresh {} ∧ e = {
      registers := {}, rings := List.replicate 8 {}, arbiter := {}, notices := {}, ctxs := List.replicate 32 {}
      index := { entries := [], writeSeq := e.index.writeSeq }, space := {}, banks := [{}, {}, {}, {}], reclaim := {}
      mount := { phase := .none }, format := none, control := {}, now := s.engine.now, draws := e.draws
      output := s.engine.abandoned ++ s.engine.output }) →
    (s.supply ≠ .off → ∃ t, exec .resetInputAsserted s = .next t ∧ t.supply = .held ∧ t.pending = s.pending
      ∧ t.array = s.array.cutAll s.engine.draws s.engine.startedOps
      ∧ fresh t.engine)
    ∧ (∃ t, exec .powerLoss s = .next t ∧ t.supply = .off ∧ t.pending = s.pending
      ∧ t.array = s.array.cutAll s.engine.draws s.engine.startedOps
      ∧ fresh t.engine)
    ∧ ∀ c : Instr, s.supply ≠ .on → c ≠ .coldReset → c ≠ .resetInputAsserted → c ≠ .powerLoss → exec c s = .next s

/-! ### Invariants of every step -/

/-- Every step keeps the array in its canonical form (the model's own, assumption 3), and it changes only at the end of
a PROGRAM or an ERASE, and at a reset. -/
def Obligations.EveryStepKeepsTheArrayForm : Prop :=
  (∀ s t : State, step s = .next t → s.array.wf → t.array.wf)
  ∧ ∀ (c : Instr) (s t : State), exec c s = .next t → c.endsWork = false → ¬ c.isReset → t.array = s.array

/-- Every step keeps the law of the index: keys ascending, none twice, and never more than 65,536 entries. -/
def Obligations.EveryStepKeepsTheIndexLaw : Prop :=
  ∀ s t : State, step s = .next t → indexLaw s.engine.index.entries → indexLaw t.engine.index.entries

/-- Every step keeps every bank under the rules of its queues, its suspend stack and its host streak. -/
def Obligations.EveryStepKeepsTheBankRules : Prop :=
  ∀ s t : State, step s = .next t → s.engine.banksLawful → t.engine.banksLawful

/-- Every step keeps at most 16 notices queued and notice numbers of 16 bits, the sizes of the tables, and the limits in
their ranges. -/
def Obligations.EveryStepKeepsQueuesSizesAndLimits : Prop :=
  (∀ s t : State, step s = .next t → s.engine.notices.holds → t.engine.notices.holds)
  ∧ ∀ s t : State, step s = .next t →
      (s.engine.shape → t.engine.shape) ∧ (s.engine.control.limits.holds → t.engine.control.limits.holds)

/-- The law of R108 to R110: every step keeps at most 8 segments on the refresh list, none twice, each in state HEAD,
FULL or FAILED_CLOSED, and none during a mount. -/
def Obligations.EveryStepKeepsTheRefreshList : Prop :=
  ∀ s t : State, step s = .next t → s.engine.refreshLaw → t.engine.refreshLaw

/-- The law of R155: every step keeps each ring's jobs in flight plus its unacknowledged done records at most at its
size minus 1, with the done index and the head below the size. -/
def Obligations.EveryStepKeepsTheCreditLaw : Prop :=
  ∀ s t : State, step s = .next t → s.engine.creditLaw → t.engine.creditLaw

/-- The law of R8: every step keeps each entry's location out of the segments that are FREE, ERASING, DIRTY or RETIRED.
The invariant carries, for MOUNTING, where the mount stands (`Engine.mountLaw`). That a segment leaves the states of use
only when no entry points into it is a test of R67; the guards of assumption 1 are part of it. -/
def Obligations.EveryStepKeepsTheLocationLaw : Prop :=
  ∀ s t : State, step s = .next t → s.engine.locationLaw → t.engine.locationLaw

/-- R171 and R172: the engine state changes only on its events. MOUNTING becomes RUNNING in the step that ends a mount
under way, which leaves the phase NONE; another state becomes STOPPED only with the engine quiescent, which is: every
context FREE, no fetch in flight, the Reclaim Unit IDLE or PAUSED, and every bank IDLE with its stack and its four queues
empty. The halt cause is NONE exactly outside HALTED. -/
def Obligations.TheEngineStateFollowsItsEvents : Prop :=
  (∀ s t : State, step s = .next t →
    mayFollow s.pending.head? s.engine.state t.engine.state
    ∧ (s.engine.state = .mounting → t.engine.state = .running →
      s.engine.mount.phase ≠ .none ∧ t.engine.mount.phase = .none)
    ∧ (s.engine.state ≠ .stopped → t.engine.state = .stopped → t.engine.quiescent = true)
    ∧ ((s.engine.state = .halted ↔ s.engine.control.halt ≠ .none) →
      (t.engine.state = .halted ↔ t.engine.control.halt ≠ .none)))
  ∧ ∀ e : Engine, e.quiescent = true ↔ (∀ x ∈ e.ctxs, x.state = .free) ∧ e.arbiter.fetching = none
    ∧ (e.reclaim.state = .idle ∨ e.reclaim.state = .paused)
    ∧ ∀ k ∈ e.banks, k.state = .idle ∧ k.stack = [] ∧ k.readQ = [] ∧ k.hostQ = [] ∧ k.reclaimQ = [] ∧ k.eraseQ = []

/-- In HALTED no command but a reset changes the index, the segments, reclamation, the mount, a FORMAT, the write mode
or the limits, and every job context is held as it stands, but for the note of its transfer under way, which the
transfer's end clears (assumption 25). -/
def Obligations.HaltedHoldsUntilAReset : Prop :=
  ∀ (c : Instr) (s t : State), s.engine.state = .halted → ¬ c.isReset → exec c s = .next t →
    t.engine.state = .halted ∧ t.engine.index = s.engine.index ∧ t.engine.space = s.engine.space
    ∧ t.engine.reclaim = s.engine.reclaim ∧ t.engine.mount = s.engine.mount ∧ t.engine.format = s.engine.format
    ∧ t.engine.control.causes = s.engine.control.causes ∧ t.engine.control.limits = s.engine.control.limits
    ∧ t.engine.control.halt = s.engine.control.halt
    ∧ (∀ x : Nat, { t.engine.ctx x with transfer := none } = { s.engine.ctx x with transfer := none })

/-- What `settle` is. A calm engine, in which nothing waits that the end of a step would take up, settles unchanged. In
HALTED a notice write alone is issued. In any other state the blocks take up what waits on them, in an order that is the
model's choice (assumption 11), the Reclaim Unit makes its choice, each ring that writes has the write of its oldest
record issued (R158), a fetch and the write of the oldest notice are issued (R165), and a STOPPING engine that is
quiescent becomes STOPPED (R172). -/
def Obligations.ACalmEngineSettlesUnchanged : Prop :=
  (∀ e : Engine, e.calm → e.settle = e)
  ∧ (∀ e : Engine, e.state = .halted → e.settle = e.issueNotice)
  ∧ (∀ e k : Engine, e.state ≠ .halted →
    k = (e.discardAll 32).grantVictim.formatBegin.settleReleased.settlePinWait.formatEnd.applySetters.closeRings.discardAll 32 →
    e.settle = k.makeChoice.issueRecords.issueFetch.issueNotice.testQuiescence)
  ∧ ∀ (e : Engine) (n : NoticeUnit), n = e.notices →
    (∃ rings, e.issueRecords = { e with rings := rings } ∧ rings.length = e.rings.length
      ∧ ∀ (r : Nat) (g : RingContext), e.rings[r]? = some g → rings[r]? = some (
        if (g.state = .opened ∨ g.state = .draining) ∧ g.writing = false ∧ g.posting ≠ [] then { g with writing := true }
        else g))
    ∧ (∀ g x rest, n.ring = some g → n.queue = x :: rest → n.writing = false →
      (g.writeIndex + g.size - g.head) % g.size < g.size - 1 → e.issueNotice = { e with notices := { n with
        queue := { x with overrun := x.overrun || n.overrun } :: rest, overrun := false, writing := true } })
    ∧ ((n.queue = [] ∨ n.writing = true ∨ ∀ g, n.ring = some g → g.size - 1 ≤ (g.writeIndex + g.size - g.head) % g.size) →
      e.issueNotice = e)
    ∧ (e.state = .stopping → e.quiescent = true →
      e.testQuiescence = { e with control := { e.control with engine := .stopped } })
    ∧ (e.state ≠ .stopping ∨ e.quiescent = false → e.testQuiescence = e)

/-! ### The media -/

/-- A PROGRAM that ends with pass: its cells hold its contents, and the blocks take its end. One that ends with fail, or
is ended by its timeout whenever that is reported (assumption 10): each of its cells is erased, whole or neither (the
model's reading of R88's "any contents", drawn through the counter draws, assumption 5), and the blocks take its
failure. The first failure of a host record leaves nothing that a mount takes, for the write may yet end NO_SPACE, which
wrote no record (R147): that it leaves the forms of a cut program is inferred (assumption 54). Every other cell reads as
before. What the blocks take of a pass (R61, R90): a record's moves the programmed pointer of its segment by the
record's cells, then makes the host's or the Reclaim Unit's claim; an open cell's changes nothing; a format cell's goes
to the Mount Unit or makes its segment FREE; a retire cell's changes nothing outside a mount. A record of a segment that
is not in use, or during MOUNTING, is taken by no block (assumption 1). -/
def Obligations.AProgramEndReachesOnlyItsCells : Prop :=
  (∀ (s : State) (b : Nat) (o : Operation), s.array.wf → s.activeAt b .program o →
      ∃ t, exec (.programDone b true) s = .next t ∧ t.supply = s.supply ∧ t.pending = s.pending
        ∧ t.engine = s.engine.opEnded b (fun e => e.programPassed o.request)
        ∧ (∀ i, i < o.request.contents.length →
          t.array.get (cellNumber o.request.seg o.request.cell + i) = o.request.contents[i]?)
        ∧ ∀ n, (n < cellNumber o.request.seg o.request.cell
            ∨ cellNumber o.request.seg o.request.cell + o.request.contents.length ≤ n) →
          t.array.get n = s.array.get n)
  ∧ (∀ (s : State) (b : Nat) (o : Operation), s.array.wf → s.activeAt b .program o →
      exec (.programTimeout b) s = exec (.programDone b false) s
      ∧ ∃ t, exec (.programDone b false) s = .next t ∧ t.supply = s.supply ∧ t.pending = s.pending
        ∧ t.engine = { s.engine with draws := s.engine.draws + 1 }.opEnded b (fun e => e.programFailed b o.request)
        ∧ (∀ (first : Bool) (m : Nat), (first = true ↔ o.request.kind = .hostRecord ∧ o.request.failures = 0) →
          m = cellNumber o.request.seg o.request.cell →
          (∀ i d, o.request.contents[i]? = some d → t.array.get (m + i) = none ∨ t.array.get (m + i) = some d
            ∨ ∃ tag, t.array.get (m + i) = some (if first then .torn tag else .stray tag))
          ∧ (first = true →
            (∀ i, i < o.request.contents.length → t.array.get (m + i) = none ∨ ∃ tag, t.array.get (m + i) = some (.torn tag))
            ∨ (2 ≤ o.request.contents.length ∧ t.array.get m = o.request.contents[0]?
              ∧ ∃ i, 1 ≤ i ∧ i < o.request.contents.length ∧ t.array.get (m + i) = none)))
        ∧ ∀ n, (n < cellNumber o.request.seg o.request.cell
            ∨ cellNumber o.request.seg o.request.cell + o.request.contents.length ≤ n) →
          t.array.get n = s.array.get n)
  ∧ ∀ (e k : Engine) (q : Request) (g : SegRecord) (l : Location), e.space.segs[q.seg]? = some g →
    l = { seg := q.seg, cell := q.cell, count := q.count } →
    k = e.withSeg q.seg { g with progPtr := g.progPtr + q.count } →
    (e.state ≠ .mounting → (g.state = .head ∨ g.state = .full ∨ g.state = .failedClosed ∨ g.state = .reclaiming) →
      (∀ c, q.kind = .hostRecord → q.requester = .ctx c → e.programPassed q = k.hostProgramPassed c l)
      ∧ (q.kind = .reclaimRecord → e.programPassed q = k.reclaimProgramPassed l))
    ∧ (q.kind = .hostRecord ∨ q.kind = .reclaimRecord →
      (e.state = .mounting ∨ (g.state ≠ .head ∧ g.state ≠ .full ∧ g.state ≠ .failedClosed ∧ g.state ≠ .reclaiming)) →
      e.programPassed q = e)
    ∧ (q.kind = .hostOpen ∨ q.kind = .reclaimOpen → e.programPassed q = e)
    ∧ (q.kind = .formatCell →
      e.programPassed q = if q.requester = .mount then e.mountProgramDone q true else e.formatCellPassed q)
    ∧ (q.kind = .retireCell → e.programPassed q = if q.requester = .mount then e.mountProgramDone q true else e)

/-- An ERASE that ends with pass: every cell of its segment is erased, the segment's sequence is absent, its open cell
being blank (R55), and its format cell is queued with its erase count plus 1. One that ends with fail, or is ended by
its timeout whenever that is reported (assumption 10): no other cell of the segment has changed unless its format cell
is erased, what is left is drawn through the counter draws (assumption 5), and the ERASING segment is retired with cause
ERASE_FAILED. Every cell outside the segment reads as before. -/
def Obligations.AnEraseEndReachesOnlyItsSegment : Prop :=
  (∀ (s : State) (b : Nat) (o : Operation), s.activeAt b .erase o →
      ∃ t, exec (.eraseDone b true) s = .next t ∧ t.supply = s.supply ∧ t.pending = s.pending
        ∧ t.engine = s.engine.opEnded b (fun e => Engine.enqueue { e with space := { e.space with
            segs := updAt e.space.segs o.request.seg fun g => { g with sseq := none } } }
          { kind := .formatCell, seg := o.request.seg, cell := 0, count := 1, requester := .space
            contents := [.format (min 16777215 ((e.seg o.request.seg).eraseCount + 1)) (e.seg o.request.seg).estimated] })
        ∧ (∀ n, 2048 * o.request.seg ≤ n → n < 2048 * (o.request.seg + 1) → t.array.get n = none)
        ∧ ∀ n, (n < 2048 * o.request.seg ∨ 2048 * (o.request.seg + 1) ≤ n) → t.array.get n = s.array.get n)
  ∧ ∀ (s : State) (b : Nat) (o : Operation), s.array.wf → s.activeAt b .erase o →
      exec (.eraseTimeout b) s = exec (.eraseDone b false) s
      ∧ ∃ t, exec (.eraseDone b false) s = .next t ∧ t.supply = s.supply ∧ t.pending = s.pending
        ∧ t.engine = { s.engine with draws := s.engine.draws + 1 }.opEnded b
          (fun e : Engine => if (e.seg o.request.seg).state = SegState.erasing then e.retireSegment o.request.seg .eraseFailed .space else e)
        ∧ (∀ n, (n < 2048 * o.request.seg ∨ 2048 * (o.request.seg + 1) ≤ n) → t.array.get n = s.array.get n)
        ∧ (t.array.get (2048 * o.request.seg) = none ∨
          ∀ n, n ≠ 2048 * o.request.seg → t.array.get n = s.array.get n)

/-- A READ that ends: each cell is BLANK when erased with no bit out of the erased state, else good with the bits
corrected when they are at most 4, else UNCORRECTABLE; the result goes to the requester, and the array is as it was. The
number of flipped bits comes with the command, and an erased cell with 1 to 4 of them is taken as corrected with
contents nothing gave it, with more as UNCORRECTABLE: R98 leaves to the code what it makes of it, and this is the
model's choice (assumption 4). The verdicts on what was read: R99's on a header, which a cell programmed as a header
always spells and a control cell never (assumption 7), R100's on the value cells, and R102's weak mark. Where a check
holds, the CRC the header carries is that of the bytes (assumption 6). The bytes of a value are those of its value cells
in order, cut to its length, and the value cells made of a value hold 64 bytes each and read back as it, whatever bits
were corrected in them (R36, R40, R97, R118). -/
def Obligations.AReadClassifiesItsCells : Prop :=
  (∀ (s : State) (b : Nat) (flips : List Nat) (o : Operation), s.activeAt b .read o →
    ∃ cells : List CellOutcome, cells.length = o.request.count
      ∧ exec (.readDone b flips) s =
        .next { s with engine := s.engine.opEnded b fun e => e.readReported o.request cells }
      ∧ ∀ i, i < o.request.count →
        ∃ k, k = flips.getD i 0 ∧
          (s.array.get (cellNumber o.request.seg o.request.cell + i) = none → k = 0 → cells[i]? = some .blank)
          ∧ (s.array.get (cellNumber o.request.seg o.request.cell + i) = none → 1 ≤ k → k ≤ 4 →
            cells[i]? = some (.good (.stray 0) k))
          ∧ (∀ d, s.array.get (cellNumber o.request.seg o.request.cell + i) = some d → k ≤ 4 →
            cells[i]? = some (.good d k))
          ∧ (4 < k → cells[i]? = some .uncorrectable))
  ∧ (∀ (cell : Nat) (x : CellOutcome) (h : RecordHeader), (headerVerdict cell x = .blank ↔ x = .blank)
    ∧ (headerVerdict cell x = .valid h ↔ ∃ d m, x = .good d m ∧ d.asHeader = some h ∧ 1 ≤ h.key ∧ h.key < 2 ^ 64
      ∧ 1 ≤ h.rseq ∧ h.rseq < 2 ^ 48 ∧ h.len ≤ 4032 ∧ (h.kind = .value ∨ h.len = 0)
      ∧ (h.len = 0 → Config.crc h.checked = Config.crc []) ∧ cell + h.cells ≤ 2047)
    ∧ h.cells = 1 + (h.len + 63) / 64 ∧ (CellData.header h).asHeader = some h
    ∧ (h.inRange cell = true ↔ headerVerdict cell (CellOutcome.good (.header h) 0) = .valid h)
    ∧ (∀ bytes, h.checks bytes = true ↔ Config.crc h.checked = Config.crc bytes)
    ∧ ∀ seg, cellNumber seg cell = 2048 * seg + cell)
  ∧ (∀ (count sseq : Nat) (est : Bool), (CellData.format count est).asHeader = none ∧ (CellData.opened sseq).asHeader = none
    ∧ CellData.retire.asHeader = none)
  ∧ (∀ (h : RecordHeader) (cells : List CellOutcome) (sound : Prop),
    (sound ↔ Config.crc h.checked = Config.crc ((cells.flatMap CellOutcome.bytes).take h.len)) →
    (valueVerdict h cells = .intact ↔ h.len = 0 ∨ (.blank ∉ cells ∧ .uncorrectable ∉ cells ∧ sound))
    ∧ (valueVerdict h cells = .damaged ↔ 1 ≤ h.len ∧ .blank ∉ cells ∧ .uncorrectable ∈ cells)
    ∧ (valueVerdict h cells = .torn ↔ 1 ≤ h.len ∧ (.blank ∈ cells ∨ (.uncorrectable ∉ cells ∧ ¬ sound))))
  ∧ (∀ (threshold : Nat) (cells : List CellOutcome), weakRead threshold cells = true ↔
    .uncorrectable ∈ cells ∨ ∃ d m, .good d m ∈ cells ∧ 1 ≤ m ∧ threshold ≤ m)
  ∧ (∀ (len : Nat) (cells : List CellOutcome), valueBytes len cells = (cells.flatMap CellOutcome.bytes).take len)
  ∧ (∀ (bytes : List Byte) (k : Nat), CellOutcome.bytes (CellOutcome.good (.value bytes) k) = bytes)
  ∧ ∀ (n : Nat) (bytes : List Byte), (valueCells n bytes).length = n
    ∧ (∀ i, i < n → (valueCells n bytes)[i]? = some (.value ((bytes.drop (64 * i)).take 64)))
    ∧ ∀ cells : List CellOutcome, cells.length = n → bytes.length ≤ 64 * n →
      (∀ (i : Nat) (d : CellData), (valueCells n bytes)[i]? = some d →
        ∃ k : Nat, cells[i]? = some (CellOutcome.good d k)) → valueBytes bytes.length cells = bytes

/-- A BLANK_CHECK that ends answers BLANK exactly when every cell of its segment is erased with no bit out of the erased
state; the array is as it was. -/
def Obligations.ABlankCheckTestsEveryCell : Prop :=
  ∀ (s : State) (b : Nat) (disturbed : Bool) (o : Operation), s.activeAt b .blankCheck o →
    ∃ blank : Bool,
      exec (.blankCheckDone b disturbed) s =
        .next { s with engine := s.engine.opEnded b fun e => e.blankAnswer o.request.seg blank }
      ∧ (blank = true ↔
        disturbed = false ∧ ∀ n, 2048 * o.request.seg ≤ n → n < 2048 * (o.request.seg + 1) → s.array.get n = none)

/-- A suspension that takes effect pushes the operation with its count raised, and the bank selects; one that ends first
is the end of the operation, as it would be at a bank that is ACTIVE with it. -/
def Obligations.ASuspensionPushesItsOperation : Prop :=
  ∀ (s : State) (b : Nat) (o : Operation), s.supply = .on → s.engine.state ≠ .halted →
    (s.engine.bank b).state = .suspending → (s.engine.bank b).active = some o →
    exec (.suspendReport b .tookEffect) s =
      .next { s with engine := ((s.engine.modBank b fun k =>
        { k with
          state := .active, active := none, quantumEnd := none
          stack := { o with suspends := o.suspends + 1 } :: k.stack }).selectBank b).settle }
    ∧ exec (.suspendReport b .endedWithPass) s = .next (s.endOp b o true)
    ∧ exec (.suspendReport b .endedWithFail) s = .next (s.endOp b o false)
    ∧ ∀ t : State, t = { s with engine := s.engine.modBank b fun k => { k with state := .active } } →
      (o.op = .program → ∀ pass, exec (.programDone b pass) t = .next (s.endOp b o pass))
      ∧ (o.op = .erase → ∀ pass, exec (.eraseDone b pass) t = .next (s.endOp b o pass))

/-- R85: at the expiry of its quantum a PROGRAM is suspended for a waiting read when its count is below 4, an ERASE for
a waiting read or host program when its count is below 32; else it goes on. Either way the quantum end becomes none.
That the expiry acts whenever it is reported, whatever quantum end and clock say, is the model's choice (assumption 10).
R84: a request that arrives past the quantum suspends the operation at its arrival under the same counts. The kind of an
operation is that of its request (R76). -/
def Obligations.AnExpiredQuantumSuspendsForWaiters : Prop :=
  (∀ (s : State) (b : Nat) (o : Operation) (m : Nat), s.supply = .on → (s.engine.bank b).state = .active →
    (s.engine.bank b).active = some o → (s.engine.bank b).quantumEnd = some m → (o.op = .program ∨ o.op = .erase) →
    (∃ st : BankState,
      exec (.quantumExpiry b) s =
        .next { s with engine := s.engine.modBank b fun k => { k with quantumEnd := none, state := st } }
      ∧ (st = .suspending ∨ st = .active)
      ∧ (o.op = .program → (st = .suspending ↔ (s.engine.bank b).readQ ≠ [] ∧ o.suspends < 4))
      ∧ (o.op = .erase →
        (st = .suspending ↔
          ((s.engine.bank b).readQ ≠ [] ∨ (s.engine.bank b).hostQ ≠ []) ∧ o.suspends < 32)))
    ∧ ∀ (k : Bank) (now quantum : Nat) (q : Request), k.state = .active → k.active = some o → k.quantumEnd = none →
      (o.op = .program → ((k.arrive now quantum q).state = .suspending ↔ q.kind = .read ∧ o.suspends < 4))
      ∧ (o.op = .erase → ((k.arrive now quantum q).state = .suspending ↔
        (q.kind = .read ∨ q.kind = .hostRecord ∨ q.kind = .hostOpen) ∧ o.suspends < 32)))
  ∧ ∀ o : Operation, (o.op = .read ↔ o.request.kind = .read) ∧ (o.op = .erase ↔ o.request.kind = .erase)
    ∧ (o.op = .blankCheck ↔ o.request.kind = .blankCheck)
    ∧ (o.op = .program ↔ o.request.kind ∈
      [RequestKind.hostRecord, .hostOpen, .reclaimRecord, .reclaimOpen, .formatCell, .retireCell])

/-- R79: the arbiter's selection takes the first of its seven steps that applies, and the bank becomes IDLE when none
does. R82: an operation is started with counts of 0 and resumed with those it has; its quantum ends 30 µs on for a
PROGRAM and an erase quantum on for an ERASE, and a READ or BLANK_CHECK has none. R76, R77 and R84: a request joins the
tail of its queue; an IDLE bank then selects, and an ACTIVE one suspends its operation when that is suspendable and the
request may suspend it. R79 and R95: when an operation ends its end is reported and the bank selects; in HALTED nothing is
reported and the bank is IDLE. -/
def Obligations.TheBankSelectsInOrder : Prop :=
  (∀ (k : Bank) (now quantum : Nat), k.active = none → k.quantumEnd = none →
    (∀ q rest, k.stack = [] → k.streak = 8 → k.reclaimQ = q :: rest →
      k.select now quantum = { k with reclaimQ := rest, streak := 0 }.start now quantum q)
    ∧ ((k.stack = [] → k.streak = 8 → k.reclaimQ = []) →
      (∀ q rest, k.readQ = q :: rest → k.select now quantum = { k with readQ := rest }.start now quantum q)
      ∧ (∀ o rest, k.readQ = [] → k.stack = o :: rest → o.op = .program →
        k.select now quantum = { k with stack := rest }.run now quantum o)
      ∧ (∀ q rest, k.readQ = [] → (∀ o ∈ k.stack, o.op = .erase) → k.hostQ = q :: rest →
        k.select now quantum =
          { k with hostQ := rest, streak := if k.reclaimQ = [] then k.streak else min 8 (k.streak + 1) }.start now quantum q)
      ∧ (∀ o rest, k.readQ = [] → k.hostQ = [] → k.stack = o :: rest → o.op = .erase →
        k.select now quantum = { k with stack := rest }.run now quantum o)
      ∧ (∀ q rest, k.readQ = [] → k.hostQ = [] → k.stack = [] → k.reclaimQ = q :: rest →
        k.select now quantum = { k with reclaimQ := rest, streak := 0 }.start now quantum q)
      ∧ (∀ q rest, k.readQ = [] → k.hostQ = [] → k.stack = [] → k.reclaimQ = [] → k.eraseQ = q :: rest →
        k.select now quantum = { k with eraseQ := rest }.start now quantum q)
      ∧ (k.readQ = [] → k.hostQ = [] → k.stack = [] → k.reclaimQ = [] → k.eraseQ = [] →
        k.select now quantum = { k with state := .idle })))
  ∧ (∀ (k : Bank) (now quantum : Nat) (o : Operation) (q : Request),
    k.start now quantum q = k.run now quantum { request := q, suspends := 0, runTime := 0 }
    ∧ (o.op = .program →
      k.run now quantum o = { k with state := .active, active := some o, quantumEnd := some (now + 30) })
    ∧ (o.op = .erase →
      k.run now quantum o = { k with state := .active, active := some o, quantumEnd := some (now + quantum) })
    ∧ (o.op = .read ∨ o.op = .blankCheck →
      k.run now quantum o = { k with state := .active, active := some o, quantumEnd := none })
    ∧ (o.op = .read ↔ o.request.kind = .read) ∧ (o.op = .erase ↔ o.request.kind = .erase)
    ∧ (o.op = .blankCheck ↔ o.request.kind = .blankCheck))
  ∧ (∀ (k j : Bank) (now quantum : Nat) (q : Request) (suspends : Bool),
    j = (match q.kind with
      | .read => { k with readQ := k.readQ ++ [q] }
      | .hostRecord | .hostOpen => { k with hostQ := k.hostQ ++ [q] }
      | .reclaimRecord | .reclaimOpen | .formatCell | .retireCell => { k with reclaimQ := k.reclaimQ ++ [q] }
      | .erase | .blankCheck => { k with eraseQ := k.eraseQ ++ [q] }) →
    (suspends = true ↔ k.quantumEnd = none ∧ ∃ o, k.active = some o
      ∧ ((o.op = .program ∧ q.kind = .read ∧ o.suspends < 4)
        ∨ (o.op = .erase ∧ (q.kind = .read ∨ q.kind = .hostRecord ∨ q.kind = .hostOpen) ∧ o.suspends < 32))) →
    (k.state = .idle → k.arrive now quantum q = j.select now quantum)
    ∧ (k.state = .suspending → k.arrive now quantum q = j)
    ∧ (k.state = .active → suspends = false → k.arrive now quantum q = j)
    ∧ (k.state = .active → suspends = true → k.arrive now quantum q = { j with state := .suspending, quantumEnd := none }))
  ∧ ∀ (e : Engine) (b : Nat) (q : Request) (report : Engine → Engine),
    e.enqueue q = { e with
      banks := updAt e.banks (q.seg / 128) fun k => k.arrive e.now e.control.limits.eraseQuantum q }
    ∧ e.selectBank b = { e with banks := updAt e.banks b fun k => k.select e.now e.control.limits.eraseQuantum }
    ∧ (e.state ≠ .halted → e.opEnded b report = ((report { e with
      banks := updAt e.banks b fun k => { k with state := .active, active := none, quantumEnd := none } }).selectBank b).settle)
    ∧ (e.state = .halted → e.opEnded b report = Engine.settle { e with
      banks := updAt e.banks b fun k => { k with state := .idle, active := none, quantumEnd := none } })

/-! ### The register window and Engine Control -/

/-- START in STOPPED makes the engine RUNNING and clears the Reclaim Unit's cause STOP. STOP in RUNNING adds that cause
and makes the engine STOPPING, and STOPPED at once when it is quiescent. In any other state they change nothing. -/
def Obligations.StartAndStopActInOneStateEach : Prop :=
  ∀ s : State, s.supply = .on →
    (s.engine.state ≠ .stopped → exec .start s = .next s)
    ∧ (s.engine.state = .stopped → ∃ t, exec .start s = .next t ∧ t.engine.state = .running
      ∧ t = { s with engine := ({ s.engine with
          control := { s.engine.control with engine := .running }
          reclaim := { s.engine.reclaim with
            causes := { s.engine.reclaim.causes with stop := false } } }.resumeReclaim.wantChoice).settle })
    ∧ (s.engine.state ≠ .running → exec .stop s = .next s)
    ∧ (s.engine.state = .running → ∃ t, exec .stop s = .next t
      ∧ (t.engine.state = .stopping ∨ (t.engine.state = .stopped ∧ t.engine.quiescent = true))
      ∧ t = { s with engine := { s.engine with
          control := { s.engine.control with engine := .stopping }
          reclaim := { s.engine.reclaim with
            causes := { s.engine.reclaim.causes with stop := true } } }.settle })

/-- R153: a write of ADMIN_SIZE is ignored, with ADMIN_SETUP_ERROR set, while ring 0 holds a job in flight; else ring 0
is re-initialised, OPEN for a power of two from 16 to 256 and a base that is a multiple of 64, and CLOSED otherwise. In
HALTED it is applied too (assumption 15). -/
def Obligations.AdminSizeReinitialisesTheAdminRing : Prop :=
  ∀ (v : BitVec 32) (s : State) (g : RingContext) (rest : List RingContext), s.supply = .on →
    s.engine.rings = g :: rest →
    (0 < g.inFlight → exec (.adminSizeWrite v) s = .next { s with engine := { s.engine with
      control := { s.engine.control with
        sticky := { s.engine.control.sticky with adminSetupError := true } } }.settle })
    ∧ (g.inFlight = 0 → ∃ base, base = s.engine.registers.adminBaseLo.toNat + 4294967296 * s.engine.registers.adminBaseHi.toNat
      ∧ ((v = 16 ∨ v = 32 ∨ v = 64 ∨ v = 128 ∨ v = 256) → base % 64 = 0 →
        exec (.adminSizeWrite v) s = .next { s with engine := { s.engine with
          registers := { s.engine.registers with adminSize := v }
          rings := { state := .opened, jobBase := base, doneBase := base + 64 * v.toNat, size := v.toNat } :: rest }.settle })
      ∧ (¬ ((v = 16 ∨ v = 32 ∨ v = 64 ∨ v = 128 ∨ v = 256) ∧ base % 64 = 0) →
        exec (.adminSizeWrite v) s = .next { s with engine := { s.engine with
          registers := { s.engine.registers with adminSize := v }, rings := {} :: rest }.settle }))

/-- R154, R159 and R160. A POST to an OPEN ring with a tail below its size sets the ring's tail; every other POST leaves
the ring as it was and sets POST_ERROR. An ACK of records that have been written, on a job ring that is not CLOSED or on
ring 8, the notice ring, moves the head; with the arm bit it arms the ring, or sends the message at once when records
lie beyond the new head. Every other ACK, and one of a ring number above 8, sets POST_ERROR alone. -/
def Obligations.APostOrAckIsAppliedOrFlagged : Prop :=
  (∀ (r : BitVec 4) (t : BitVec 10) (s : State), s.supply = .on →
      (∀ g, s.engine.rings[r.toNat]? = some g → g.state = .opened → t.toNat < g.size →
        exec (.post r t) s = .next { s with engine := { s.engine with
          rings := s.engine.rings.set r.toNat { g with tail := t.toNat } }.settle })
      ∧ ((∀ g, s.engine.rings[r.toNat]? = some g → g.state ≠ .opened ∨ g.size ≤ t.toNat) →
        exec (.post r t) s = .next { s with engine := { s.engine with
          control := { s.engine.control with sticky := { s.engine.control.sticky with postError := true } } }.settle }))
  ∧ (∀ (r : BitVec 4) (arm : Bool) (h : BitVec 10) (s : State), s.supply = .on → r.toNat < 8 →
      (∀ g, s.engine.rings[r.toNat]? = some g → g.state ≠ .closed → h.toNat < g.size →
        (h.toNat + g.size - g.head) % g.size ≤ (g.doneIndex + g.size - g.head) % g.size →
        ∃ left, left = (g.doneIndex + g.size - h.toNat) % g.size
          ∧ exec (.ack r arm h) s = .next { s with engine := { s.engine with
            rings := s.engine.rings.set r.toNat
              { g with head := h.toNat, armed := if arm then left == 0 else g.armed }
            output := if arm = true ∧ 0 < left then .interrupt g.vector :: s.engine.output else s.engine.output }.settle })
      ∧ ((∀ g, s.engine.rings[r.toNat]? = some g → g.state = .closed ∨ g.size ≤ h.toNat ∨
          (g.doneIndex + g.size - g.head) % g.size < (h.toNat + g.size - g.head) % g.size) →
        exec (.ack r arm h) s = .next { s with engine := { s.engine with
          control := { s.engine.control with sticky := { s.engine.control.sticky with postError := true } } }.settle }))
  ∧ ∀ (r : BitVec 4) (arm : Bool) (h : BitVec 10) (s : State), s.supply = .on →
      (∀ g, r.toNat = 8 → s.engine.notices.ring = some g → h.toNat < g.size →
        (h.toNat + g.size - g.head) % g.size ≤ (g.writeIndex + g.size - g.head) % g.size →
        ∃ left, left = (g.writeIndex + g.size - h.toNat) % g.size
          ∧ exec (.ack r arm h) s = .next { s with engine := { s.engine with
            notices := { s.engine.notices with
              ring := some { g with head := h.toNat, armed := if arm then left == 0 else g.armed } }
            output := if arm = true ∧ 0 < left then .interrupt g.vector :: s.engine.output else s.engine.output }.settle })
      ∧ ((8 < r.toNat ∧ s.engine.rings.length = 8) ∨ (r.toNat = 8 ∧ ∀ g, s.engine.notices.ring = some g → g.size ≤ h.toNat ∨
          (g.writeIndex + g.size - g.head) % g.size < (h.toNat + g.size - g.head) % g.size) →
        exec (.ack r arm h) s = .next { s with engine := { s.engine with
          control := { s.engine.control with sticky := { s.engine.control.sticky with postError := true } } }.settle })

/-- R179 and R180: a read of the register region returns the addressed bytes, the lowest first: those of IDENT, STATE,
the admin base and size, and 0 from every other offset. STATE holds the engine state, the write mode and its causes, the
mount phase during MOUNTING, the halt cause and the three flags, each at its place. POST_ERROR and ADMIN_SETUP_ERROR are
cleared by a read that returns their byte, and by no other; nothing else changes. A read of any first byte and width is
one command (assumption 28). The codes of the states, phases and causes are those of R180, and the mode is READ_ONLY
exactly when a cause holds (R170). -/
def Obligations.ARegisterReadReturnsItsBytes : Prop :=
  (∀ (s : State) (offset width : Nat), s.supply = .on → ∃ v w : Nat,
    exec (.stateRead offset width) s = .next { s with engine := { s.engine with
      control := if offset ≤ 6 ∧ 6 < offset + width then { s.engine.control with
        sticky := { s.engine.control.sticky with postError := false, adminSetupError := false } } else s.engine.control
      output := .readData width v :: s.engine.output } }
    ∧ v < 256 ^ width
    ∧ (∀ i, i < width → ∃ reg, v / 256 ^ i % 256 = reg / 256 ^ ((offset + i) % 4) % 256
      ∧ reg = match (offset + i) / 4 with
        | 0 => 0x06400002
        | 1 => w
        | 3 => s.engine.registers.adminBaseLo.toNat
        | 4 => s.engine.registers.adminBaseHi.toNat
        | 5 => s.engine.registers.adminSize.toNat
        | _ => 0)
    ∧ w % 8 = s.engine.state.code ∧ (w.testBit 3 = s.engine.control.causes.any)
    ∧ w.testBit 4 = s.engine.control.causes.retiredLimit ∧ w.testBit 5 = s.engine.control.causes.indexOverflow
    ∧ w.testBit 6 = s.engine.control.causes.writeSequence ∧ w.testBit 7 = s.engine.control.causes.segmentSequence
    ∧ w / 256 % 16 = (if s.engine.state = .mounting then s.engine.mount.phase.code else 0)
    ∧ w / 4096 % 16 = s.engine.control.halt.code ∧ w.testBit 16 = s.engine.control.sticky.postError
    ∧ w.testBit 17 = s.engine.control.sticky.adminSetupError ∧ w.testBit 18 = s.engine.control.sticky.noticeFault
    ∧ w < 2 ^ 19)
  ∧ (∀ p ∈ [(EngineState.mounting, 0), (.running, 1), (.stopping, 2), (.stopped, 3), (.halted, 4)], p.1.code = p.2)
  ∧ (∀ p ∈ [(MountPhase.none, 0), (.survey, 1), (.passA, 2), (.passB, 3), (.finish, 4)], p.1.code = p.2)
  ∧ (∀ p ∈ [(HaltCause.none, 0), (.indexParity, 1), (.tableParity, 2)], p.1.code = p.2)
  ∧ ∀ e : Engine, e.readOnly = e.control.causes.any

/-- R179: a 32-bit write of a register is the command of that register; ENGINE_RESET acts whatever the other bits of
CONTROL, START and STOP act alone; a base register is stored and nothing else happens; every other write is ignored, one
that is not aligned among them (assumption 28). -/
def Obligations.ARegisterWriteIsItsCommand : Prop :=
  ∀ (offset width : Nat) (v : BitVec 32) (s : State), s.supply = .on →
    (width ≠ 4 → exec (.registerWrite offset width v) s = .next s)
    ∧ (v.getLsbD 2 = true → exec (.registerWrite 0x008 4 v) s = exec .engineReset s)
    ∧ (v.getLsbD 2 = false → v.getLsbD 0 = true → v.getLsbD 1 = false → exec (.registerWrite 0x008 4 v) s = exec .start s)
    ∧ (v.getLsbD 2 = false → v.getLsbD 0 = false → v.getLsbD 1 = true → exec (.registerWrite 0x008 4 v) s = exec .stop s)
    ∧ (v.getLsbD 2 = false → v.getLsbD 0 = v.getLsbD 1 → exec (.registerWrite 0x008 4 v) s = .next s)
    ∧ exec (.registerWrite 0x00C 4 v) s =
      .next { s with engine := { s.engine with registers := { s.engine.registers with adminBaseLo := v } } }
    ∧ exec (.registerWrite 0x010 4 v) s =
      .next { s with engine := { s.engine with registers := { s.engine.registers with adminBaseHi := v } } }
    ∧ exec (.registerWrite 0x014 4 v) s = exec (.adminSizeWrite v) s
    ∧ exec (.registerWrite 0x018 4 v) s = exec (.post (v.extractLsb 3 0) (v.extractLsb 25 16)) s
    ∧ exec (.registerWrite 0x01C 4 v) s = exec (.ack (v.extractLsb 3 0) (v.getLsbD 8) (v.extractLsb 25 16)) s
    ∧ (offset ∉ [0x008, 0x00C, 0x010, 0x014, 0x018, 0x01C] → exec (.registerWrite offset width v) s = .next s)

/-- R176, R95, R164 and R165: a parity error outside HALTED makes the engine HALTED with its cause, raises the HALTED
notice, and drops the queues of every bank, while the operations on the array, the index, the segments and the contexts
stay; in HALTED it changes nothing. The notice joins the queue behind those already there, or with 16 of them sets the
overrun flag; then the oldest has its write issued when the notice ring lets it. -/
def Obligations.AParityErrorHaltsTheEngine : Prop :=
  ∀ (m : ParityMemory) (s : State) (old : NoticeUnit), s.supply = .on → old = s.engine.notices →
    (s.engine.state = .halted → exec (.parityError m) s = .next s)
    ∧ (s.engine.state ≠ .halted → ∃ (cause : HaltCause) (raised n : NoticeUnit), cause = (match m with
        | .index => HaltCause.indexParity
        | .segmentTable => .tableParity)
      ∧ raised = (if old.queue.length < 16 then { old with
          number := (old.number + 1) % 65536, queue := old.queue ++ [{ number := old.number, body := .halted cause }] }
        else { old with number := (old.number + 1) % 65536, overrun := true })
      ∧ exec (.parityError m) s = .next { s with engine := { s.engine with
        control := { s.engine.control with engine := .halted, halt := cause }
        banks := s.engine.banks.map fun k => { k with readQ := [], hostQ := [], reclaimQ := [], eraseQ := [] }
        notices := n } }
      ∧ (∀ g x rest, raised.ring = some g → raised.queue = x :: rest → raised.writing = false →
        (g.writeIndex + g.size - g.head) % g.size < g.size - 1 → n = { raised with
          queue := { x with overrun := x.overrun || raised.overrun } :: rest, overrun := false, writing := true })
      ∧ ((raised.queue = [] ∨ raised.writing = true
          ∨ ∀ g, raised.ring = some g → g.size - 1 ≤ (g.writeIndex + g.size - g.head) % g.size) → n = raised))

/-! ### The Ring Unit -/

/-- R151, R155 and R156: a ring is eligible when it is OPEN with an unfetched slot, credit and a context, and the engine
state allows it. With no fetch in flight, the arbiter takes ring 0 when it is eligible, else an eligible data ring of
the lowest priority level, the first after the ring served last at that level; the ring's in-flight count rises by 1,
its context is held, it becomes the last served, and the 64 bytes of its job slot are read at the job base plus 64 times
the fetch index. With none eligible nothing changes. R24: while the ring holds fewer than 16 contexts, ring 0 is given
context 0 if it is FREE, and otherwise, as a data ring always, the lowest-numbered FREE context of 1 to 31; a context held
for a fetch is given to no other. -/
def Obligations.TheFetchArbiterChoosesInOrder : Prop :=
  ∀ e : Engine, e.shape → e.arbiter.fetching = none → (∀ g ∈ e.rings, g.priority ≤ 3) →
    (∀ l ∈ e.arbiter.served, ∀ r, l = some r → 1 ≤ r ∧ r ≤ 7) →
    (∀ r, e.eligible r = true ↔ (e.ring r).state = .opened
      ∧ 1 ≤ ((e.ring r).tail + (e.ring r).size - (e.ring r).fetch) % (e.ring r).size
      ∧ (e.ring r).inFlight + ((e.ring r).doneIndex + (e.ring r).size - (e.ring r).head) % (e.ring r).size
        < (e.ring r).size - 1
      ∧ (e.contextFor r).isSome = true ∧ (e.state = .running ∨ (e.state = .mounting ∧ r = 0)))
    ∧ (∀ (free : Nat → Prop) (r c : Nat), (∀ d, free d ↔ d < 32 ∧ (e.ctx d).state = .free ∧ (e.ctx d).held = false) →
      (e.contextFor r = some c ↔ e.ctxs.countP (fun x => x.state != .free && x.ring == r) < 16 ∧ free c
        ∧ ((r = 0 ∧ c = 0) ∨ (¬ (r = 0 ∧ free 0) ∧ 1 ≤ c ∧ ∀ d, 1 ≤ d → d < c → ¬ free d))))
    ∧ ((∀ r, e.eligible r = false) → e.issueFetch = e)
    ∧ ((∃ r, e.eligible r = true) → ∃ r c, e.eligible r = true ∧ e.contextFor r = some c
      ∧ (e.ctx c).state = .free ∧ (e.ctx c).held = false ∧ (r ≠ 0 → 1 ≤ c) ∧ e.heldBy r < 16
      ∧ (e.eligible 0 = true → r = 0)
      ∧ (e.eligible 0 = false → ∀ q, e.eligible q = true →
        (e.ring r).priority ≤ (e.ring q).priority
        ∧ ((e.ring q).priority = (e.ring r).priority → ∀ last, last = (e.arbiter.served.getD (e.ring r).priority none).getD 0 →
          (r + 6 - last) % 7 ≤ (q + 6 - last) % 7))
      ∧ e.issueFetch = { e with
          rings := updAt e.rings r fun g => { g with inFlight := g.inFlight + 1 }
          ctxs := updAt e.ctxs c fun x => { x with held := true }
          arbiter := { fetching := some (r, c)
                       served := if r = 0 then e.arbiter.served else e.arbiter.served.set (e.ring r).priority (some r) }
          output := .fetch ((e.ring r).jobBase + 64 * (e.ring r).fetch) :: e.output })

/-- R157, R163, R46, R28 and R168: the end of the fetch in flight. A descriptor read for an OPEN or DRAINING ring is
taken: the fetch index advances, the chain state changes by R46, and the context enters TAKEN with its checks made and
every field that the guide does not set at its first value (assumption 30); for a FAULTED ring it is dropped; a failed
read faults the ring; in HALTED it is not taken, and only the note of the fetch is cleared (R168, assumption 25). The
fields of a descriptor stand at their places (R193), the least significant byte of each first (R192), and the six checks
of R28, with R181 and R193, decide the first that fails. A context whose checks are made waits for the predecessor it
was given; else it completes with the check it failed, or runs, or completes SKIPPED when its condition fails (R48,
R49). A ring that faults, unless it is FAULTED, becomes so with its chain state initial and its jobs in LINK_WAIT
completed SKIPPED, and RING_FAULTED raised (R52, R163); that those jobs enter POSTING in ascending context is the
model's choice (assumption 31). -/
def Obligations.AFetchedDescriptorIsTaken : Prop :=
  (∀ (d : List Byte) (o k : Nat), field d o 0 = 0 ∧ field d o (k + 1) = (d.getD o 0).toNat + 256 * field d (o + 1) k)
  ∧ (∀ (s : State) (r c : Nat) (g : RingContext) (x : JobContext) (d : List Byte), s.supply = .on →
    s.engine.arbiter.fetching = some (r, c) → s.engine.rings[r]? = some g → s.engine.ctxs[c]? = some x → d.length = 64 →
    (s.engine.state = .halted → ∀ o, exec (.descriptorFetchDone o) s =
      .next { s with engine := { s.engine with arbiter := { s.engine.arbiter with fetching := none } } })
    ∧ (s.engine.state ≠ .halted → (g.state = .opened ∨ g.state = .draining) →
      ∃ p q follower chain,
        p = (if r = 0 then 0 else if g.chain.linked then g.chain.position + 1 else if Descriptor.link d then 1 else 0)
        ∧ q = (if p = 0 then none else g.chain.predecessor) ∧ follower = (r != 0 && g.chain.linked)
        ∧ chain = (if r = 0 then g.chain else { g.chain with
            linked := Descriptor.link d && p ≤ 16
            position := if p ≤ 16 then p else 0
            predecessor := if p = 0 then g.chain.predecessor else some c })
        ∧ exec (.descriptorFetchDone (some d)) s = .next { s with engine := (Engine.checked { s.engine with
          arbiter := { s.engine.arbiter with fetching := none }
          rings := s.engine.rings.set r { g with
            fetch := if g.fetch + 1 = g.size then 0 else g.fetch + 1, chain := chain }
          ctxs := s.engine.ctxs.set c
            { state := .taken, ring := r, slot := g.fetch, descriptor := d, staging := x.staging, position := p
              predecessor := q, verdict := checkDescriptor r p follower d } } c).settle })
    ∧ (s.engine.state ≠ .halted → g.state = .faulted →
      exec (.descriptorFetchDone (some d)) s = .next { s with engine := { s.engine with
        arbiter := { s.engine.arbiter with fetching := none }
        rings := s.engine.rings.set r { g with inFlight := g.inFlight - 1 }
        ctxs := s.engine.ctxs.set c { x with held := false } }.settle })
    ∧ (s.engine.state ≠ .halted →
      exec (.descriptorFetchDone none) s = .next { s with engine := (Engine.ringFault { s.engine with
        arbiter := { s.engine.arbiter with fetching := none }
        rings := s.engine.rings.set r { g with inFlight := g.inFlight - 1 }
        ctxs := s.engine.ctxs.set c { x with held := false } } r .fetchError g.fetch).settle }))
  ∧ (∀ d : Descriptor, d.linkByte = field d 1 1 ∧ d.link = decide (d.linkByte % 2 = 1) ∧ d.condition = field d 2 1
    ∧ d.options = field d 3 1 ∧ d.createOnly = decide (d.options % 2 = 1) ∧ d.replaceOnly = decide (d.options / 2 % 2 = 1)
    ∧ d.ifRseq = decide (d.options / 4 % 2 = 1) ∧ d.key = field d 16 8 ∧ d.buffer = field d 24 8 ∧ d.length = field d 32 4
    ∧ d.expected = field d 40 6 ∧ d.ringNumber = field d 16 1 ∧ d.priority = field d 17 1 ∧ d.vector = field d 18 1
    ∧ d.armByte = field d 19 1 ∧ d.ringSize = field d 20 4 ∧ d.ringBase = field d 24 8 ∧ d.doneBase = field d 32 8
    ∧ d.lowWater = field d 16 2 ∧ d.threshold = field d 18 2 ∧ d.spaceWait = field d 20 4 ∧ d.eraseQuantum = field d 24 4
    ∧ d.segment = field d 20 2 ∧ d.reportAddress = field d 24 8
    ∧ ∀ j : Job, d.job = some j ↔ (field d 0 1, j) ∈ [(0x01, Job.put), (0x02, .get), (0x03, .probe), (0x04, .delete),
      (0x05, .matchValue), (0x06, .scan), (0x10, .openRing), (0x11, .closeRing), (0x12, .setNotice), (0x13, .setLimits),
      (0x14, .queryEngine), (0x15, .querySegment), (0x16, .reclaim), (0x17, .scrub), (0x18, .format)])
  ∧ (∀ (r p : Nat) (follower : Bool) (d : Descriptor),
    (16 < p → checkDescriptor r p follower d = some .badChain)
    ∧ (p ≤ 16 → d.job = none → checkDescriptor r p follower d = some .badDescriptor)
    ∧ ∀ (j : Job) (data fields length : Bool), p ≤ 16 → d.job = some j →
      (data = true ↔ j ∈ [.put, .get, .probe, .delete, .matchValue, .scan]) →
      (fields = true ↔ field d 4 4 = 0 ∧ (data = true → d.linkByte ≤ 1 ∧ d.condition ≤ 6)
        ∧ (data = false → d.linkByte = 0 ∧ d.condition = 0) ∧ (j = .put → d.options ≤ 7) ∧ (j ≠ .put → d.options = 0)
        ∧ (j = .openRing ∨ j = .setNotice → d.armByte ≤ 1) ∧ (j = .put → d.ifRseq = false → d.expected = 0)
        ∧ ¬ (j = .put ∧ d.createOnly = true ∧ d.replaceOnly = true) ∧ (follower = true ∨ d.condition = 0)
        ∧ ∀ i, 16 ≤ i → i < 64 → (∀ u ∈ (match j with
            | .put => [(16, 36), (40, 46)]
            | .get | .matchValue | .scan => [(16, 36)]
            | .probe | .delete => [(16, 24)]
            | .openRing => [(16, 40)]
            | .closeRing => [(16, 17)]
            | .setNotice => [(18, 32)]
            | .setLimits => [(16, 28)]
            | .queryEngine => [(24, 32)]
            | .querySegment => [(20, 22), (24, 32)]
            | .reclaim | .scrub => [(20, 22)]
            | .format => [] : List (Nat × Nat)), i < u.1 ∨ u.2 ≤ i) → field d i 1 = 0) →
      (length = true ↔ (j = .put ∨ j = .matchValue → d.length ≤ 4032) ∧ (j = .scan → d.length % 16 = 0 ∧ d.length ≤ 65520)) →
      checkDescriptor r p follower d = if data ≠ decide (r ≠ 0) then some .wrongRing
        else if fields = false then some .badDescriptor
        else if data = true ∧ d.key = 0 then some .badKey
        else if length = false then some .badLength else none)
  ∧ (∀ (e : Engine) (c : Nat) (x : JobContext), e.ctxs[c]? = some x →
    (∀ w, x.predecessor = some w → e.checked c = e.withCtx c { x with state := .linkWait })
    ∧ (x.predecessor = none → (∀ st, x.verdict = some st → e.checked c = e.complete c { status := st })
      ∧ (x.verdict = none → ∀ (passes : Bool) (flags : OutcomeFlags), flags = (e.ring x.ring).chain.flags →
        passes = (x.position < 2 || match Descriptor.condition x.descriptor with
          | 1 => flags.succeeded
          | 2 => !flags.succeeded
          | 3 => flags.found
          | 4 => !flags.found
          | 5 => flags.matched
          | 6 => !flags.matched
          | _ => true) →
        (passes = true → e.checked c = e.withCtx c { x with state := .taken, ready := true, predecessor := none })
        ∧ (passes = false → e.checked c = e.complete c { status := .skipped }))))
  ∧ ∀ (e : Engine) (r slot : Nat) (g : RingContext) (cause : FaultCause), e.rings[r]? = some g →
    (g.state = .faulted → e.ringFault r cause slot = e)
    ∧ (g.state ≠ .faulted → e.ringFault r cause slot = { e with
      rings := e.rings.set r { g with
        state := .faulted, chain := {}
        posting := g.posting ++ (List.range e.ctxs.length).filter fun c => (e.ctx c).state == .linkWait && (e.ctx c).ring == r }
      ctxs := e.ctxs.map fun x => if x.state = .linkWait ∧ x.ring = r then
        { x with state := .posting, ready := false, transfer := none, outcome := { status := .skipped } } else x
      notices := e.notices.raise (.ringFaulted r cause slot) })

/-- The end of the done-record write of a job in flight, whatever its ring's state, a FAULTED one's too (assumption 13).
Written: the record lies in the done slot, the done index and phase advance, the in-flight count falls by 1, then the
lock is released, the chain updated, the context freed (in this order, assumption 37) and an armed ring signalled.
Failed: the ring faults and the record counts as discarded. In HALTED the context is not freed and nothing is sent
(assumption 25). A freed context keeps its staging alone, and the end of a FORMAT's context ends the FORMAT (R25, R26,
R188); an armed ring that is not FAULTED sends its message and is disarmed (R160); a discarded record frees its context
as if it had been written, its lock released and the in-flight count lower by 1 (R52, R163). The records of the FAULTED
rings are discarded one after another, of the lowest such ring the oldest that is not being written (the order is
assumption 11). Every field of the record stands at its place, and every other byte is 0 (R194). -/
def Obligations.AWrittenRecordFreesItsContext : Prop :=
  (∀ (s : State) (r c : Nat) (g : RingContext) (x : JobContext) (rest : List Nat), s.supply = .on →
    s.engine.rings[r]? = some g → g.writing = true → g.posting = c :: rest → 0 < g.inFlight →
    s.engine.ctxs[c]? = some x →
    (s.engine.state ≠ .halted →
      exec (.doneRecordWritten r true) s = .next { s with engine :=
        (((({ s.engine with
          rings := s.engine.rings.set r { g with
            posting := rest, writing := false, inFlight := g.inFlight - 1
            doneIndex := if g.doneIndex + 1 = g.size then 0 else g.doneIndex + 1
            donePhase := if g.doneIndex + 1 = g.size then !g.donePhase else g.donePhase }
          output := .memory (g.doneBase + 32 * g.doneIndex) (x.doneRecord g.donePhase) :: s.engine.output
          : Engine }.releaseLock c).chainWritten c).freeCtx c).signalRing r).settle }
      ∧ exec (.doneRecordWritten r false) s = .next { s with engine :=
        ((({ s.engine with
          rings := s.engine.rings.set r { g with writing := false }
          output := .maybeMemory (g.doneBase + 32 * g.doneIndex) (x.doneRecord g.donePhase) :: s.engine.output
          : Engine }.ringFault r .doneWriteError g.doneIndex).discard r c).settle) })
    ∧ (s.engine.state = .halted →
      exec (.doneRecordWritten r true) s = .next { s with engine := { s.engine with
        rings := s.engine.rings.set r { g with writing := false }
        output := .memory (g.doneBase + 32 * g.doneIndex) (x.doneRecord g.donePhase) :: s.engine.output } }
      ∧ exec (.doneRecordWritten r false) s = .next { s with engine := { s.engine with
        rings := s.engine.rings.set r { g with writing := false }
        output := .maybeMemory (g.doneBase + 32 * g.doneIndex) (x.doneRecord g.donePhase) :: s.engine.output } }))
  ∧ (∀ (e : Engine) (c : Nat) (x : JobContext), e.ctxs[c]? = some x →
    ((∀ f, e.format = some f → f.ctx ≠ c) → e.freeCtx c = e.withCtx c { staging := x.staging })
    ∧ ∀ f, e.format = some f → f.ctx = c → e.freeCtx c = { e.withCtx c { staging := x.staging } with
      format := none, reclaim := { e.reclaim with choiceDue := true } })
  ∧ (∀ (e : Engine) (r : Nat) (g : RingContext), e.rings[r]? = some g →
    (g.armed = true → g.state ≠ .faulted → e.signalRing r = { e with
      rings := e.rings.set r { g with armed := false }, output := .interrupt g.vector :: e.output })
    ∧ (g.armed = false ∨ g.state = .faulted → e.signalRing r = e)
    ∧ (∀ c, e.discard r c = (Engine.releaseLock { e with rings := e.rings.set r { g with
      posting := g.posting.filter (· != c), inFlight := g.inFlight - 1 } } c).freeCtx c)
    ∧ ∀ (n c : Nat) (rest : List Nat), g.state = .faulted → (if g.writing then g.posting.tail else g.posting) = c :: rest →
      (∀ q h, q < r → e.rings[q]? = some h → h.state = .faulted → (if h.writing then h.posting.tail else h.posting) = []) →
      e.discardAll (n + 1) = (e.discard r c).discardAll n)
  ∧ (∀ (e : Engine) (n : Nat), (∀ (r : Nat) (g : RingContext), e.rings[r]? = some g → g.state = .faulted →
      (if g.writing then g.posting.tail else g.posting) = []) → e.discardAll n = e)
  ∧ ∀ (x : JobContext) (phase : Bool) (o : JobOutcome) (record : List Byte), o = x.outcome → record = x.doneRecord phase →
    record.length = 32
    ∧ (∀ f ∈ [(0, 8, field x.descriptor 8 8), (8, 2, x.slot), (10, 1, field x.descriptor 0 1), (11, 1, o.status.code),
        (12, 1, (if o.flags.succeeded then 1 else 0) + (if o.flags.found then 2 else 0)
          + (if o.flags.matched then 4 else 0) + (if phase then 128 else 0)), (13, 1, o.kind.code), (14, 2, 0)],
      field record f.1 f.2.1 = f.2.2 % 256 ^ f.2.1)
    ∧ (∀ p ∈ [(Status.ok, 0x00), (.skipped, 0x01), (.notFound, 0x02), (.exists, 0x03), (.conflict, 0x04), (.damaged, 0x05),
        (.mediaError, 0x06), (.shortBuffer, 0x07), (.indexFull, 0x08), (.noSpace, 0x09), (.readOnly, 0x0A),
        (.badDescriptor, 0x0B), (.badKey, 0x0C), (.badLength, 0x0D), (.badChain, 0x0E), (.wrongRing, 0x0F),
        (.hostError, 0x10), (.notMounted, 0x11), (.busy, 0x12), (.badParam, 0x13)], p.1.code = p.2)
    ∧ (∀ p ∈ [(KeyKind.absent, 0), (.nascent, 1), (.value, 2), (.deleted, 3), (.lost, 4)], p.1.code = p.2)
    ∧ ∀ results : List (Nat × Nat × Nat), results = (match o.results with
        | .none => []
        | .record rseq len => [(16, 6, rseq), (24, 4, len)]
        | .scan next count => [(16, 8, next), (24, 4, count)]
        | .close unfetched => [(16, 4, unfetched)]
        | .limits l => [(16, 2, l.lowWater), (18, 2, l.threshold), (20, 4, l.spaceWait), (24, 4, l.eraseQuantum)]
        | .segment n => [(16, 2, n)]
        | .reclaim victim ended cursor t => [(16, 2, victim.getD 0xFFFF), (18, 1, match ended with
            | .none => 0
            | .free => 1
            | .retired => 2
            | .held => 3), (20, 2, cursor), (22, 2, t.copied), (24, 2, t.markers), (26, 2, t.dropped),
          (28, 2, t.stalePassed), (30, 2, t.resync)]
        | .scrub n ended maxBits walked records corrected uncorrectable => [(16, 2, n), (18, 1, match ended with
            | .blank => 1
            | .limit => 2
            | .state => 3), (19, 1, maxBits), (20, 2, walked), (22, 2, records), (24, 2, corrected), (26, 2, uncorrectable)]
        | .format erased retired free count causes =>
          [(16, 2, erased), (18, 2, retired), (20, 2, free), (22, 2, count), (24, 1, causes.modeByte)]) →
      (∀ f ∈ results, field record f.1 f.2.1 = f.2.2 % 256 ^ f.2.1)
      ∧ ∀ i, 16 ≤ i → i < 32 → (∀ f ∈ results, i < f.1 ∨ f.1 + f.2.1 ≤ i) → field record i 1 = 0

/-- The end of the notice write in flight. Written: the notice leaves the queue, the write index and phase advance, and
an armed notice ring is signalled and disarmed. Failed: the notice ring is disabled with NOTICE_FAULT set, and the
notice stays. Every field of the record stands at its place, and every other byte is 0 (R195, R192). A notice that is
raised takes the next number, and joins the queue or, with 16 queued, is discarded with the overrun flag set (R164). -/
def Obligations.AWrittenNoticeLeavesTheQueue : Prop :=
  (∀ (s : State) (g : NoticeRing) (n : Notice) (rest : List Notice), s.supply = .on → s.engine.notices.writing = true →
    s.engine.notices.ring = some g → s.engine.notices.queue = n :: rest →
    exec (.noticeWriteDone true) s = .next { s with engine := { s.engine with
      notices := { s.engine.notices with
        queue := rest, writing := false
        ring := some { g with
          writeIndex := if g.writeIndex + 1 = g.size then 0 else g.writeIndex + 1
          phase := if g.writeIndex + 1 = g.size then !g.phase else g.phase, armed := false } }
      output := (if g.armed then [HostOutput.interrupt g.vector] else [])
        ++ HostOutput.memory (g.base + 32 * g.writeIndex) (n.record g.phase) :: s.engine.output }.settle }
    ∧ exec (.noticeWriteDone false) s = .next { s with engine := { s.engine with
      notices := { s.engine.notices with writing := false, ring := none }
      control := { s.engine.control with sticky := { s.engine.control.sticky with noticeFault := true } }
      output := .maybeMemory (g.base + 32 * g.writeIndex) (n.record g.phase) :: s.engine.output }.settle })
  ∧ (∀ c : ReadOnlyCauses, c.modeByte = (if c.any then 1 else 0) + (if c.retiredLimit then 2 else 0)
      + (if c.indexOverflow then 4 else 0) + (if c.writeSequence then 8 else 0) + (if c.segmentSequence then 16 else 0)
    ∧ (c.any = true ↔
      c.retiredLimit = true ∨ c.indexOverflow = true ∨ c.writeSequence = true ∨ c.segmentSequence = true))
  ∧ (∀ (n : Notice) (phase : Bool) (record : List Byte) (kind : Nat) (fields : List (Nat × Nat × Nat)),
    record = n.record phase →
    (kind, fields) = (match n.body with
      | .mountDone1 causes writeSeq segSeq values deleted lost estimated ms => (1, [(4, 1, 1), (5, 1, causes.modeByte),
        (6, 6, if writeSeq = 2 ^ 48 then 0 else writeSeq), (12, 4, if segSeq = 2 ^ 32 then 0 else segSeq), (16, 3, values),
        (19, 3, deleted), (22, 3, lost), (25, 2, estimated), (27, 4, ms)])
      | .mountDone2 free full dirty retired scanned torn resync damaged overflow => (1, [(4, 1, 2), (6, 2, free),
        (8, 2, full), (10, 2, dirty), (12, 2, retired), (14, 3, scanned), (17, 3, torn), (20, 3, resync), (23, 3, damaged),
        (26, 3, overflow)])
      | .spaceLow free low => (2, [(4, 2, free), (6, 2, low)])
      | .spaceRestored free low => (3, [(4, 2, free), (6, 2, low)])
      | .writeMode causes cause => (4, [(4, 1, causes.modeByte), (5, 1, match cause with
          | .retiredLimit => 1
          | .writeSequence => 3
          | .segmentSequence => 4
          | .format => 5)])
      | .segmentRetired m cause count retired => (5, [(4, 2, m), (6, 1, match cause with
          | .programFailed => 1
          | .eraseFailed => 2
          | .formatFailed => 3), (8, 4, count), (12, 2, retired)])
      | .dataLost key rseq before lostSeg lostCell markerSeg markerCell => (6, [(4, 8, key), (12, 6, rseq),
        (18, 1, before.code), (20, 2, lostSeg), (22, 2, lostCell), (24, 2, markerSeg), (26, 2, markerCell)])
      | .ringFaulted r cause slot => (7, [(4, 1, r), (5, 1, match cause with
          | .fetchError => 1
          | .doneWriteError => 2), (6, 2, slot)])
      | .formatDone erased retired free count causes ms => (8, [(4, 2, erased), (6, 2, retired), (8, 2, free),
        (10, 2, count), (12, 1, causes.modeByte), (16, 4, ms)])
      | .halted cause => (9, [(4, 1, match cause with
          | .none => 0
          | .indexParity => 1
          | .tableParity => 2)])) →
    record.length = 32 ∧ field record 0 1 = kind ∧ field record 2 2 = n.number % 2 ^ 16
    ∧ field record 1 1 = (if n.overrun then 1 else 0) + (if phase then 128 else 0)
    ∧ (∀ f ∈ fields, field record f.1 f.2.1 = f.2.2 % 256 ^ f.2.1)
    ∧ ∀ i, 4 ≤ i → i < 32 → (∀ f ∈ fields, i < f.1 ∨ f.1 + f.2.1 ≤ i) → field record i 1 = 0)
  ∧ ∀ (e : Engine) (n : NoticeUnit) (body : NoticeBody), e.raiseNotice body = { e with notices := e.notices.raise body }
    ∧ (n.queue.length < 16 → n.raise body = { n with
      number := (n.number + 1) % 2 ^ 16, queue := n.queue ++ [{ number := n.number, body := body }] })
    ∧ (16 ≤ n.queue.length → n.raise body = { n with number := (n.number + 1) % 2 ^ 16, overrun := true })

/-! ### The data jobs -/

/-- A job whose outcome is decided enters POSTING with it, and joins the list of its ring; nothing else changes. The
other statements read and change the tables of contexts, rings, banks and segments by number with the operations given
here. -/
def Obligations.AnOutcomeJoinsItsRing : Prop :=
  (∀ (e : Engine) (c : Nat) (x : JobContext) (g : RingContext) (o : JobOutcome), e.ctxs[c]? = some x →
    e.rings[x.ring]? = some g →
    e.complete c o = { e with
      ctxs := e.ctxs.set c { x with state := .posting, ready := false, transfer := none, outcome := o }
      rings := e.rings.set x.ring { g with posting := g.posting ++ [c] } })
  ∧ (∀ (e : Engine) (c : Nat), e.ctx c = e.ctxs[c]?.getD {} ∧ e.ring c = e.rings[c]?.getD {} ∧ e.bank c = e.banks[c]?.getD {}
    ∧ e.seg c = e.space.segs[c]?.getD {} ∧ ∀ f, e.modBank c f = { e with banks := updAt e.banks c f })
  ∧ (∀ (l : List SegRecord) (n m : Nat) (f : SegRecord → SegRecord),
    (updAt l n f)[m]? = if m = n then l[m]?.map f else l[m]?)
  ∧ (∀ (l : List RingContext) (n m : Nat) (f : RingContext → RingContext),
    (updAt l n f)[m]? = if m = n then l[m]?.map f else l[m]?)
  ∧ (∀ (l : List JobContext) (n m : Nat) (f : JobContext → JobContext),
    (updAt l n f)[m]? = if m = n then l[m]?.map f else l[m]?)
  ∧ ∀ (l : List Bank) (n m : Nat) (f : Bank → Bank), (updAt l n f)[m]? = if m = n then l[m]?.map f else l[m]?

/-- R31, R38, R39 and R43: a PUT or DELETE completes READ_ONLY in that write mode; else a DELETE, and a PUT with a
length of 0, asks for admission at once, and any other PUT loads its value into staging. A MATCH loads the host's value
too; with a length of 0 it looks its key up at once. When the value has been read a PUT asks for admission and a MATCH
looks its key up; a failed read ends the job HOST_ERROR. -/
def Obligations.AHostValueIsLoadedFirst : Prop :=
  (∀ (s : State) (c : Nat) (x : JobContext),
      (s.jobAt c .put x → s.engine.readOnly = true →
        exec (.put c) s = .next { s with engine := (s.engine.complete c { status := .readOnly }).settle })
      ∧ (s.jobAt c .put x → s.engine.readOnly = false → Descriptor.length x.descriptor = 0 →
        exec (.put c) s = .next { s with engine := (Engine.askAdmission { s.engine with
          ctxs := s.engine.ctxs.set c { x with state := .loading, ready := false, staging := [] } } c).settle })
      ∧ (s.jobAt c .put x → s.engine.readOnly = false → 0 < Descriptor.length x.descriptor →
        exec (.put c) s = .next { s with engine := { s.engine with
          ctxs := s.engine.ctxs.set c { x with
            state := .loading, ready := false
            transfer := some (.load (Descriptor.buffer x.descriptor) (Descriptor.length x.descriptor)) } }.settle })
      ∧ (s.jobAt c .delete x → s.engine.readOnly = true →
        exec (.delete c) s = .next { s with engine := (s.engine.complete c { status := .readOnly }).settle })
      ∧ (s.jobAt c .delete x → s.engine.readOnly = false →
        exec (.delete c) s = .next { s with engine := (s.engine.askAdmission c).settle }))
  ∧ (∀ (s : State) (c : Nat) (x : JobContext), s.jobAt c .matchValue x →
      (Descriptor.length x.descriptor = 0 →
        exec (.matchValue c) s = .next { s with engine := (Engine.matchLookup { s.engine with
          ctxs := s.engine.ctxs.set c { x with state := .loading, ready := false, staging := [] } } c).settle })
      ∧ (0 < Descriptor.length x.descriptor →
        exec (.matchValue c) s = .next { s with engine := { s.engine with
          ctxs := s.engine.ctxs.set c { x with
            state := .loading, ready := false
            transfer := some (.load (Descriptor.buffer x.descriptor) (Descriptor.length x.descriptor)) } }.settle }))
  ∧ ∀ (s : State) (c a n : Nat) (x : JobContext) (bytes : List Byte), s.supply = .on → s.engine.state ≠ .halted →
      s.engine.ctxs[c]? = some x → x.state = .loading → x.transfer = some (.load a n) → bytes.length = n →
      (x.job = some .put → exec (.loadingDone c (some bytes)) s = .next { s with engine := (Engine.askAdmission { s.engine with
        ctxs := s.engine.ctxs.set c { x with transfer := none, staging := bytes } } c).settle })
      ∧ (x.job = some .matchValue →
        exec (.loadingDone c (some bytes)) s = .next { s with engine := (Engine.matchLookup { s.engine with
          ctxs := s.engine.ctxs.set c { x with transfer := none, staging := bytes } } c).settle })
      ∧ exec (.loadingDone c none) s = .next { s with engine := (s.engine.complete c { status := .hostError }).settle }

/-- R35: a GET's outcome by the kind its lookup returns; a VALUE that fits and is not empty is pinned and read. For a
DELETED key NOT_FOUND reports the tombstone's kind and sequence by R29 (assumption 24). A lookup returns the entry of
its key without its pending write, and NONE for a key with no entry; what each kind of entry gives is that of R7 (R17,
R29). -/
def Obligations.AGetReadsTheRecordItFound : Prop :=
  (∀ (s : State) (c : Nat) (x : JobContext), s.jobAt c .get x →
    ∃ e : Engine, e = { s.engine with ctxs := s.engine.ctxs.set c { x with found := s.engine.lookup x.key } }
      ∧ (s.engine.lookup x.key = none →
        exec (.get c) s = .next { s with engine :=
          (e.complete c { status := .notFound, kind := .absent, results := .record 0 0 }).settle })
      ∧ (s.engine.lookup x.key = some .nascent →
        exec (.get c) s = .next { s with engine :=
          (e.complete c { status := .notFound, kind := .nascent, results := .record 0 0 }).settle })
      ∧ (∀ l n, s.engine.lookup x.key = some (.deleted l n) →
        exec (.get c) s = .next { s with engine :=
          (e.complete c { status := .notFound, kind := .deleted, results := .record n 0 }).settle })
      ∧ (∀ l n f, s.engine.lookup x.key = some (.lost l n f) →
        exec (.get c) s = .next { s with engine :=
          (e.complete c { status := .damaged, flags := { found := true }, kind := .lost, results := .record n 0 }).settle })
      ∧ (∀ l n k, s.engine.lookup x.key = some (.value l n k) →
        (Descriptor.length x.descriptor < k →
          exec (.get c) s = .next { s with engine :=
            (e.complete c { status := .shortBuffer, flags := { found := true }, kind := .value, results := .record n k }).settle })
        ∧ (k = 0 →
          exec (.get c) s = .next { s with engine :=
            (e.complete c { status := .ok, flags := { succeeded := true, found := true }, kind := .value
                            results := .record n 0 }).settle })
        ∧ (1 ≤ k → k ≤ Descriptor.length x.descriptor →
          exec (.get c) s = .next { s with engine := (({ s.engine with
            ctxs := s.engine.ctxs.set c { x with found := some (.value l n k), state := .media, ready := false }
            space := { s.engine.space with
              segs := updAt s.engine.space.segs l.seg fun g => { g with pins := g.pins + 1 } } : Engine }.enqueue
            { kind := .read, seg := l.seg, cell := l.cell, count := l.count, requester := .ctx c }).settle) })))
  ∧ (∀ (e : Engine) (key : Nat), e.lookup key = (e.entry key).map (·.body)
    ∧ (e.entry key = none ↔ ∀ t ∈ e.index.entries, t.key ≠ key)
    ∧ ∀ t, e.entry key = some t → t ∈ e.index.entries ∧ t.key = key)
  ∧ ∀ (l : Location) (r n : Nat) (f : LossForm) (b : EntryBody),
    (EntryBody.nascent.loc? = none ∧ EntryBody.nascent.rseq = 0 ∧ EntryBody.nascent.len = 0
      ∧ EntryBody.nascent.kind = .nascent)
    ∧ ((EntryBody.value l r n).loc? = some l ∧ (EntryBody.value l r n).rseq = r ∧ (EntryBody.value l r n).len = n
      ∧ (EntryBody.value l r n).kind = .value)
    ∧ ((EntryBody.deleted l r).loc? = some l ∧ (EntryBody.deleted l r).rseq = r ∧ (EntryBody.deleted l r).len = 0
      ∧ (EntryBody.deleted l r).kind = .deleted)
    ∧ ((EntryBody.lost l r f).loc? = some l ∧ (EntryBody.lost l r f).rseq = r ∧ (EntryBody.lost l r f).len = 0
      ∧ (EntryBody.lost l r f).kind = .lost)
    ∧ bodyKind none = .absent ∧ bodyKind (some b) = b.kind
    ∧ lookupResults none = .record 0 0 ∧ lookupResults (some b) = .record b.rseq b.len

/-- R37: a PROBE completes OK with the kind, the record sequence and the length that its lookup returned, in either
write mode, and pins, reads and waits for nothing: it changes its context and its ring's list alone. -/
def Obligations.AProbeReportsItsLookup : Prop :=
  ∀ (s : State) (c : Nat) (x : JobContext), s.jobAt c .probe x →
    ∃ found kind n k, exec (.probe c) s = .next { s with engine := (s.engine.complete c
        { status := .ok, flags := { succeeded := true, found := found }, kind := kind, results := .record n k }).settle }
      ∧ (found = true ↔ kind = .value ∨ kind = .lost)
      ∧ (s.engine.entry x.key = none → kind = .absent ∧ n = 0 ∧ k = 0)
      ∧ ∀ t, s.engine.entry x.key = some t →
        (t.body = .nascent → kind = .nascent ∧ n = 0 ∧ k = 0)
        ∧ (∀ l r len, t.body = .value l r len → kind = .value ∧ n = r ∧ k = len)
        ∧ (∀ l r, t.body = .deleted l r → kind = .deleted ∧ n = r ∧ k = 0)
        ∧ (∀ l r f, t.body = .lost l r f → kind = .lost ∧ n = r ∧ k = 0)

/-- A GET or a MATCH and the record its lookup found (R36, R39, R40, R101, R102, R104, R109). A MATCH completes by the
kind its lookup returns, or pins and reads a VALUE of its own length; NOT_FOUND for a DELETED key reports the
tombstone's sequence (assumption 24). When the read is classified, it is READABLE when its header is VALID, names the
entry's key, sequence, length and cell count, and its value is INTACT. The segment is marked weak when a cell is
UNCORRECTABLE or corrected at or above the threshold, or the read is not READABLE; then it is unpinned (the order is
assumption 42); then a readable GET returns its value and a MATCH compares it, and an unreadable one completes
MEDIA_ERROR. A weak mark sets the flag of a segment in use, and outside MOUNTING appends an eligible one to the refresh
list while there is room. -/
def Obligations.AGetOrMatchTakesItsRead : Prop :=
  (∀ (e k : Engine) (c : Nat) (x : JobContext), e.ctxs[c]? = some x → k = e.withCtx c { x with found := e.lookup x.key } →
    (e.lookup x.key = none →
      e.matchLookup c = k.complete c { status := .notFound, kind := .absent, results := .record 0 0 })
    ∧ (e.lookup x.key = some .nascent →
      e.matchLookup c = k.complete c { status := .notFound, kind := .nascent, results := .record 0 0 })
    ∧ (∀ l n, e.lookup x.key = some (.deleted l n) →
      e.matchLookup c = k.complete c { status := .notFound, kind := .deleted, results := .record n 0 })
    ∧ (∀ l n f, e.lookup x.key = some (.lost l n f) →
      e.matchLookup c = k.complete c { status := .damaged, kind := .lost, results := .record n 0 })
    ∧ ∀ l n len, e.lookup x.key = some (.value l n len) →
      (len ≠ Descriptor.length x.descriptor → e.matchLookup c = k.complete c
        { status := .ok, flags := { succeeded := true, found := true }, kind := .value, results := .record n len })
      ∧ (len = Descriptor.length x.descriptor → len = 0 → e.matchLookup c = k.complete c
        { status := .ok, flags := { succeeded := true, found := true, matched := true }, kind := .value
          results := .record n 0 })
      ∧ (len = Descriptor.length x.descriptor → 1 ≤ len → e.matchLookup c =
        ({ e.withCtx c { x with found := some (.value l n len), state := .media, ready := false } with
          space := { e.space with segs := updAt e.space.segs l.seg fun g => { g with pins := g.pins + 1 } } }).enqueue
          { kind := .read, seg := l.seg, cell := l.cell, count := l.count, requester := .ctx c }))
  ∧ (∀ (e : Engine) (c n len : Nat) (x : JobContext) (q : Request) (cells : List CellOutcome) (l : Location) (ok : Bool),
    e.ctxs[c]? = some x → (x.job = some .get ∨ x.job = some .matchValue) → x.found = some (.value l n len) →
    q.requester = .ctx c → e.reclaim.requester ≠ some c →
    (ok = true ↔ ∃ h d m rest, cells = .good d m :: rest ∧ d.asHeader = some h ∧ h.inRange l.cell = true ∧ h.kind = .value
      ∧ h.key = x.key ∧ h.rseq = n ∧ h.len = len ∧ h.cells = l.count
      ∧ (len = 0 ∨ (.blank ∉ rest ∧ .uncorrectable ∉ rest ∧ h.checks (valueBytes len rest) = true))) →
    ∃ (weak : Bool) (k : Engine) (bytes : List Byte),
      (weak = true ↔ ok = false ∨ .uncorrectable ∈ cells
        ∨ ∃ d m, .good d m ∈ cells ∧ 1 ≤ m ∧ e.control.limits.threshold ≤ m)
      ∧ k = (if weak then e.weakMark q.seg else e).unpin q.seg ∧ k.ctxs[c]? = some x ∧ bytes = valueBytes len cells.tail
      ∧ (x.job = some .get → ok = true → e.readReported q cells = k.withCtx c { x with
        staging := bytes, state := .returning, ready := false
        transfer := some (.store (Descriptor.buffer x.descriptor) bytes) })
      ∧ (x.job = some .matchValue → ok = true → e.readReported q cells = k.complete c
        { status := .ok, flags := { succeeded := true, found := true, matched := decide (bytes = x.staging) }
          kind := .value, results := .record n len })
      ∧ (ok = false → e.readReported q cells = k.complete c
        { status := .mediaError, flags := { found := true }, kind := .value, results := .record n len }))
  ∧ ∀ (e : Engine) (n : Nat) (g : SegRecord) (eligible joins : Bool), e.space.segs[n]? = some g →
    (eligible = true ↔ g.state = .head ∨ g.state = .full ∨ g.state = .failedClosed) →
    (joins = true ↔ e.state ≠ .mounting ∧ eligible = true ∧ n ∉ e.reclaim.refresh ∧ e.reclaim.refresh.length < 8) →
    e.weakMark n = { (if eligible = true ∨ g.state = .reclaiming then e.withSeg n { g with weak := true } else e) with
      reclaim := if joins then { e.reclaim with refresh := e.reclaim.refresh ++ [n], choiceDue := true } else e.reclaim }

/-- R18, R41 and R42: a SCAN takes the entries it may report from its start key on, in key order, up to its capacity /
16 and 256 at a time. Its walk ends with the next key it may report, or 0, when it has reached its limit or the last
key; when staging is full with a key left it pauses after the last entry it took, with what is left of its limit. With
none to write it completes OK; else their scan entries go to the host buffer. A walk that resumes after a batch goes on
in the same way from the key it stands at, with what is left of its limit: its entries go to the buffer after those
already written, and with none found it completes OK with the count of the whole scan. An entry is 16 bytes: its key,
its record sequence, its length (0 for LOST), and bit 15 set for LOST (R196). -/
def Obligations.AScanListsKeysInOrder : Prop :=
  (∀ (s : State) (c : Nat) (x : JobContext) (l : List Entry) (limit : Nat), s.jobAt c .scan x →
    indexLaw s.engine.index.entries →
    l = s.engine.index.entries.filter (fun t => Descriptor.key x.descriptor ≤ t.key && t.body.reportable) →
    limit = Descriptor.length x.descriptor / 16 →
    ∃ batch work, batch = l.take (min limit 256) ∧ work.count = batch.length ∧ work.left = limit - batch.length
      ∧ work.written = 0
      ∧ (limit ≤ 256 → work.ended = some ((l[limit]?.map (·.key)).getD 0))
      ∧ (256 < limit → l.length < 256 → work.ended = some 0)
      ∧ (256 < limit → ∀ last : Entry, l[255]? = some last →
        ((∃ t ∈ s.engine.index.entries, last.key < t.key) → work.ended = none ∧ work.next = last.key + 1)
        ∧ ((∀ t ∈ s.engine.index.entries, t.key ≤ last.key) → work.ended = some 0))
      ∧ (batch = [] → exec (.scan c) s = .next { s with engine := (Engine.complete { s.engine with
          ctxs := s.engine.ctxs.set c { x with ready := false, staging := [], scan := work } } c
          { status := .ok, flags := { succeeded := true }, results := .scan ((l.head?.map (·.key)).getD 0) 0 }).settle })
      ∧ (batch ≠ [] → exec (.scan c) s = .next { s with engine := { s.engine with
          ctxs := s.engine.ctxs.set c { x with
            state := .returning, ready := false, scan := work
            staging := batch.flatMap fun t : Entry => scanEntry t.key t.body
            transfer := some (.store (Descriptor.buffer x.descriptor)
              (batch.flatMap fun t : Entry => scanEntry t.key t.body)) } }.settle }))
  ∧ (∀ (e : Engine) (c left : Nat) (x : JobContext) (l : List Entry), e.ctxs[c]? = some x → indexLaw e.index.entries →
    l = e.index.entries.filter (fun t => x.scan.next ≤ t.key && t.body.reportable) → left = x.scan.left →
    ∃ batch work bytes, batch = l.take (min left 256) ∧ bytes = batch.flatMap (fun t : Entry => scanEntry t.key t.body)
      ∧ work.count = x.scan.count + batch.length ∧ work.left = left - batch.length ∧ work.written = x.scan.written
      ∧ (left ≤ 256 → work.ended = some ((l[left]?.map (·.key)).getD 0))
      ∧ (256 < left → l.length < 256 → work.ended = some 0)
      ∧ (256 < left → ∀ last : Entry, l[255]? = some last →
        ((∃ t ∈ e.index.entries, last.key < t.key) → work.ended = none ∧ work.next = last.key + 1)
        ∧ ((∀ t ∈ e.index.entries, t.key ≤ last.key) → work.ended = some 0))
      ∧ (batch = [] → e.scanStep c = Engine.complete { e with ctxs := e.ctxs.set c { x with staging := [], scan := work } } c
          { status := .ok, flags := { succeeded := true, found := 1 ≤ work.count }
            results := .scan ((l.head?.map (·.key)).getD 0) work.count })
      ∧ (batch ≠ [] → e.scanStep c = { e with ctxs := e.ctxs.set c { x with
          state := .returning, ready := false, scan := work, staging := bytes
          transfer := some (.store (Descriptor.buffer x.descriptor + x.scan.written) bytes) } }))
  ∧ (∀ b : EntryBody, b.reportable = true ↔ b.kind = .value ∨ b.kind = .lost)
  ∧ ∀ (key r n : Nat) (m : Location) (f : LossForm) (b : EntryBody),
    b = .value m r n ∨ b = .lost m r f → (scanEntry key b).length = 16 ∧ field (scanEntry key b) 0 8 = key % 2 ^ 64
      ∧ field (scanEntry key b) 8 6 = r % 2 ^ 48
      ∧ (b = .value m r n → field (scanEntry key b) 14 2 = n % 2 ^ 13)
      ∧ (b = .lost m r f → field (scanEntry key b) 14 2 = 2 ^ 15)

/-- R36, R41 and R42: when a GET's value, or a SCAN's last batch, has been written the job completes OK; a SCAN whose
walk has not ended resumes it; a failed write ends the job HOST_ERROR, and any part of the bytes may lie in the buffer.
-/
def Obligations.AReturnedTransferCompletesItsJob : Prop :=
  ∀ (s : State) (c : Nat) (x : JobContext) (a : Nat) (bytes : List Byte),
    (s.returningAt c .get x a bytes →
      exec (.returningDone c true) s = .next { s with engine := (Engine.complete { s.engine with
        output := .memory a bytes :: s.engine.output } c
        { status := .ok, flags := { succeeded := true, found := true }, kind := bodyKind x.found
          results := lookupResults x.found }).settle }
      ∧ exec (.returningDone c false) s = .next { s with engine := (Engine.complete { s.engine with
        output := .maybeMemory a bytes :: s.engine.output } c
        { status := .hostError, flags := { found := true }, kind := bodyKind x.found
          results := lookupResults x.found }).settle })
    ∧ (s.returningAt c .scan x a bytes →
      exec (.scanBatchDone c false) s = .next { s with engine := (Engine.complete { s.engine with
        output := .maybeMemory a bytes :: s.engine.output } c { status := .hostError }).settle }
      ∧ (∀ k, x.scan.ended = some k → exec (.scanBatchDone c true) s = .next { s with engine := (Engine.complete { s.engine with
        ctxs := s.engine.ctxs.set c { x with
          transfer := none, scan := { x.scan with written := x.scan.written + bytes.length } }
        output := .memory a bytes :: s.engine.output } c
        { status := .ok, flags := { succeeded := true, found := 1 ≤ x.scan.count }, results := .scan k x.scan.count }).settle })
      ∧ (x.scan.ended = none → exec (.scanBatchDone c true) s = .next { s with engine := (Engine.scanStep { s.engine with
        ctxs := s.engine.ctxs.set c { x with
          state := .taken, transfer := none, scan := { x.scan with written := x.scan.written + bytes.length } }
        output := .memory a bytes :: s.engine.output } c).settle }))

/-- R71, R70, R14 and R124. The deadline of a job in SPACE_WAIT, taken whenever it is reported (assumption 10), takes it
off the wait queue, marks its pending write FAILED, and completes it NO_SPACE: a PUT reports the sequence it took and
the flags of R30, a DELETE reports sequence 0 (R29, R34). At a rise of the FREE count every waiting job, oldest first,
tries its placement again, and leaves the queue when it is placed; then the cause SPACE is cleared and a reclaim paused
for it alone goes on (the order is assumption 41). -/
def Obligations.TheWaitQueueIsServed : Prop :=
  (∀ (s : State) (c : Nat) (x : JobContext) (g : Grant), s.supply = .on → s.engine.state ≠ .halted →
    s.engine.ctxs[c]? = some x → x.state = .spaceWait → x.grant = some g → (x.job = some .put ∨ x.job = some .delete) →
    ∃ o : JobOutcome, o.status = .noSpace ∧ o.kind = g.kind
      ∧ (x.job = some .put → o.flags = { found := g.kind.holds, matched := g.matched } ∧ o.results = .record g.rseq 0)
      ∧ (x.job = some .delete → o.flags = { found := true } ∧ o.results = .record 0 0)
      ∧ exec (.spaceWaitExpiry c) s = .next { s with engine := (Engine.complete { s.engine with
        space := { s.engine.space with waitQueue := s.engine.space.waitQueue.filter (·.ctx != c) }
        index := { s.engine.index with
          entries := s.engine.index.entries.map fun t =>
            if t.key = x.key then
              { t with pending := t.pending.map fun p => if p.ctx = c then { p with progress := .failed } else p }
            else t } } c o).settle })
  ∧ (∀ e : Engine, e.wantChoice = { e with reclaim := { e.reclaim with choiceDue := true } })
  ∧ (∀ (e : Engine) (w : SpaceWaiter) (x : JobContext), e.ctxs[w.ctx]? = some x →
    (∀ k l, e.placeHost x.recordCells = (k, some l) → e.retryPlacement w =
      { k.withCtx w.ctx { x with state := .media, ready := false } with
        space := { k.space with waitQueue := k.space.waitQueue.filter (·.ctx != w.ctx) } }.enqueue
        { kind := .hostRecord, seg := l.seg, cell := l.cell, count := l.count, requester := .ctx w.ctx
          failures := x.failures, contents := x.record })
    ∧ ∀ k, e.placeHost x.recordCells = (k, none) → e.retryPlacement w = k)
  ∧ (∀ e : Engine, (e.space.waitQueue = [] → e.serveWaitQueue = e)
    ∧ ∀ (w : SpaceWaiter) (rest : List SpaceWaiter) (x : JobContext), e.space.waitQueue = w :: rest →
      e.ctxs[w.ctx]? = some x →
      (∀ k l, e.placeHost x.recordCells = (k, some l) → e.serveWaitQueue = rest.foldl Engine.retryPlacement
        ({ k.withCtx w.ctx { x with state := .media, ready := false } with
          space := { k.space with waitQueue := k.space.waitQueue.filter (·.ctx != w.ctx) } }.enqueue
          { kind := .hostRecord, seg := l.seg, cell := l.cell, count := l.count, requester := .ctx w.ctx
            failures := x.failures, contents := x.record }))
      ∧ ∀ k, e.placeHost x.recordCells = (k, none) → e.serveWaitQueue = rest.foldl Engine.retryPlacement k)
  ∧ ∀ (e k : Engine) (resumes : Bool), k = e.spaceTest.serveWaitQueue →
    (resumes = true ↔ k.reclaim.state = .paused ∧ k.reclaim.causes.stop = false ∧ k.reclaim.causes.readOnly = false
      ∧ ∀ f, k.format = some f → f.stage ≠ .ending) →
    (resumes = true → e.freeRose = ({ k with reclaim := { k.reclaim with
      state := .stepping, causes := { k.reclaim.causes with space := false } } }.beginStep).wantChoice)
    ∧ (resumes = false → e.freeRose = { k with reclaim := { k.reclaim with
      causes := { k.reclaim.causes with space := false }, choiceDue := true } })

/-- R10 to R12, R4, R29, R30, R34 and R177: a key with a pending write makes the job wait at the tail of its list. Else
the first check that fails refuses the job, with the kind the admission checks and, for EXISTS and CONFLICT, the entry's
record sequence. Else it takes the sequence, its pending write is IN_FLIGHT, MATCHED is set when IF_RSEQ was tested, and
it asks for a placement; the sequence that exhausts the counter adds the cause WRITE_SEQUENCE outside MOUNTING, with
WRITE_MODE and the pause cause, since the mode was WRITABLE. The kind it checks is NONE for a NASCENT entry too, and the
kinds that hold a value are VALUE and LOST (R29, R30). -/
def Obligations.AdmissionTakesTheLockAndASequence : Prop :=
  (∀ (e : Engine) (c : Nat) (x : JobContext) (d : Descriptor) (kind : KeyKind) (rseq : Nat) (put delete held : Prop),
    e.ctxs[c]? = some x → d = x.descriptor → (put ↔ x.job = some .put) → (delete ↔ x.job = some .delete) → put ∨ delete →
    kind = admissionKind (e.lookup x.key) → rseq = ((e.lookup x.key).map EntryBody.rseq).getD 0 →
    (held ↔ kind = .value ∨ kind = .lost) →
    (∀ t p, e.entry x.key = some t → t.pending = some p → e.askAdmission c = { e with
      index := { e.index with
        entries := e.index.entries.map fun t => if t.key = x.key then { t with waiters := t.waiters ++ [c] } else t }
      ctxs := e.ctxs.set c { x with state := .keyWait, ready := false } })
    ∧ ((∀ t, e.entry x.key = some t → t.pending = none) →
      (e.readOnly = true ∨ e.index.writeSeq = 2 ^ 48 →
        e.askAdmission c = e.complete c { status := .readOnly, kind := kind, results := .record 0 0 })
      ∧ (e.readOnly = false → e.index.writeSeq ≠ 2 ^ 48 →
        (delete → ¬ held →
          e.askAdmission c = e.complete c { status := .notFound, kind := kind, results := .record 0 0 })
        ∧ (put → d.createOnly = true → held → e.askAdmission c = e.complete c
          { status := .exists, flags := { found := true }, kind := kind, results := .record rseq 0 })
        ∧ (put → (d.createOnly = true → ¬ held) → d.replaceOnly = true → kind ≠ .value → e.askAdmission c = e.complete c
          { status := .notFound, flags := { found := kind == .lost }, kind := kind, results := .record 0 0 })
        ∧ (put → (d.createOnly = true → ¬ held) → (d.replaceOnly = true → kind = .value) → d.ifRseq = true →
          ¬ (held ∧ rseq = d.expected) → e.askAdmission c = e.complete c
          { status := .conflict, flags := { found := kind == .value || kind == .lost }, kind := kind
            results := .record rseq 0 })
        ∧ (put → d.replaceOnly = false → d.ifRseq = false → e.entry x.key = none → 65536 ≤ e.index.entries.length →
          e.askAdmission c = e.complete c { status := .indexFull, kind := .absent, results := .record 0 0 })
        ∧ ((delete ∧ held) ∨ (put ∧ (d.createOnly = true → ¬ held) ∧ (d.replaceOnly = true → kind = .value)
            ∧ (d.ifRseq = true → held ∧ rseq = d.expected) ∧ (e.entry x.key = none → e.index.entries.length < 65536)) →
          ∃ (k o : Engine) (w : WriteKind), (put → w = .put) ∧ (delete → w = .delete)
            ∧ o = { e with
              index := { entries := o.index.entries, writeSeq := e.index.writeSeq + 1 }
              ctxs := e.ctxs.set c { x with
                grant := some { kind := kind, rseq := e.index.writeSeq, matched := w == .put && d.ifRseq } } }
            ∧ o.entry x.key = some { (e.entry x.key).getD { key := x.key, body := .nascent } with
              pending := some { ctx := c, write := w, rseq := e.index.writeSeq, progress := .inFlight } }
            ∧ o.sameEntriesBut e x.key
            ∧ (e.index.writeSeq + 1 ≠ 2 ^ 48 ∨ e.state = .mounting → k = o)
            ∧ (e.index.writeSeq + 1 = 2 ^ 48 → e.state ≠ .mounting → k = { o with
              control := { e.control with causes := { e.control.causes with writeSequence := true } }
              notices := e.notices.raise (.writeMode { e.control.causes with writeSequence := true } .writeSequence)
              reclaim := { e.reclaim with causes := { e.reclaim.causes with readOnly := true } } })
            ∧ e.askAdmission c = k.placeWrite c ∧ e.admitWrite c = k.placeWrite c))))
  ∧ (admissionKind none = .absent ∧ admissionKind (some .nascent) = .absent
    ∧ ∀ b : EntryBody, b ≠ .nascent → admissionKind (some b) = b.kind)
  ∧ ∀ kind : KeyKind, kind.holds = true ↔ kind = .value ∨ kind = .lost

/-- R58 to R60, R62, R70 and R115. A placement tries the banks in turn, from the bank after the rotation point on, each
on what the one before left, and the bank that takes the record becomes the rotation point. A head with room takes it at
its write pointer, and its program is queued; a head without room is closed to FULL. A new head is opened unless the
segment sequence counter is exhausted, fewer than 3 segments are FREE, or none is FREE in the bank: the FREE segment of
the bank with the lowest erase count, and of those the lowest number, becomes HEAD with the counter's sequence, and its
open-cell program is queued before any record's. Where one opening both makes the level LOW and exhausts the counter,
SPACE_LOW comes before the WRITE_MODE of R177: the guide gives no order (assumption 48). A reclaim placement is made at
the reclaim head in the same way, its new head the first FREE segment of any bank, and moves no rotation point. With no
bank to take a host record the job waits, or completes NO_SPACE when nothing can be reclaimed. The record of a PUT is a
VALUE header with its key, its sequence and its length, its value check taken over the staged bytes, and the value in
cells of 64 bytes; a DELETE's is one TOMBSTONE header (R2, R32, R38, R97). -/
def Obligations.APlacementReservesAtTheHead : Prop :=
  (∀ (e : Engine) (c k : Nat) (x : JobContext), e.ctxs[c]? = some x → k = x.recordCells →
    (∀ b n, b = (e.space.rotation + 1) % 4 → e.headOf .host (some b) = some n → (e.seg n).writePtr + k ≤ 2047 →
      e.placeWrite c = { e with
        space := { e.space with
          segs := updAt e.space.segs n fun g => { g with writePtr := g.writePtr + k }, rotation := b }
        ctxs := e.ctxs.set c { x with state := .media, ready := false } : Engine }.enqueue
        { kind := .hostRecord, seg := n, cell := (e.seg n).writePtr, count := k, requester := .ctx c
          failures := x.failures, contents := x.record })
    ∧ (∀ m l, e.placeHost k = (m, some l) →
      e.placeWrite c = (m.withCtx c { x with state := .media, ready := false }).enqueue
        { kind := .hostRecord, seg := l.seg, cell := l.cell, count := l.count, requester := .ctx c
          failures := x.failures, contents := x.record })
    ∧ ∀ m, e.placeHost k = (m, none) →
      (m.canReclaim = true → e.placeWrite c = { m.withCtx c { x with state := .spaceWait, ready := false } with
        space := { m.space with
          waitQueue := m.space.waitQueue ++ [{ ctx := c, deadline := e.now + 1000 * e.control.limits.spaceWait }] } })
      ∧ (m.canReclaim = false → ∀ g, x.grant = some g → ∃ o : JobOutcome, o.status = .noSpace
        ∧ e.placeWrite c = Engine.complete { m with index := { m.index with
          entries := m.index.entries.map fun t =>
            if t.key = x.key then
              { t with pending := t.pending.map fun p => if p.ctx = c then { p with progress := .failed } else p }
            else t } } c o))
  ∧ (∀ (e : Engine) (k r : Nat), r = e.space.rotation →
    e.placeHost k = e.placeInBanks k [(r + 1) % 4, (r + 2) % 4, (r + 3) % 4, (r + 4) % 4]
    ∧ ∀ b bs m, (e.placeInBank b k = (m, none) → e.placeInBanks k (b :: bs) = m.placeInBanks k bs)
      ∧ ∀ l, e.placeInBank b k = (m, some l) →
        e.placeInBanks k (b :: bs) = ({ m with space := { m.space with rotation := b } }, some l))
  ∧ (∀ (e : Engine) (b k : Nat), 1 ≤ k →
    (∀ n, e.headOf .host (some b) = some n → (e.seg n).writePtr + k ≤ 2047 → e.placeInBank b k =
      ({ e with space := { e.space with segs := updAt e.space.segs n fun g => { g with writePtr := g.writePtr + k } } },
        some { seg := n, cell := (e.seg n).writePtr, count := k }))
    ∧ (∀ n, e.headOf .host (some b) = some n → 2047 < (e.seg n).writePtr + k →
      e.placeInBank b k = { e with
        space := { e.space with segs := updAt e.space.segs n fun g => { g with state := .full, role := none } }
        reclaim := { e.reclaim with choiceDue := true } : Engine }.placeInNewHead b k)
    ∧ (e.headOf .host (some b) = none → e.placeInBank b k = e.placeInNewHead b k)
    ∧ ((e.space.segSeq = 2 ^ 32 ∨ e.freeCount < 3 ∨ ∀ n g, e.space.segs[n]? = some g → g.state = .free → n / 128 ≠ b) →
      e.placeInNewHead b k = (e, none)))
  ∧ (∀ (e : Engine) (b k n : Nat) (g : SegRecord) (role : HeadRole), e.space.segSeq ≠ 2 ^ 32 →
    (role = .host → 3 ≤ e.freeCount) → e.space.segs[n]? = some g → g.state = .free → (role = .host → n / 128 = b) →
    (∀ m h, e.space.segs[m]? = some h → h.state = .free → (role = .host → m / 128 = b) → m ≠ n →
      g.eraseCount < h.eraseCount ∨ (g.eraseCount = h.eraseCount ∧ n < m)) →
    ∃ o m : Engine, o = ({ e with space := { e.space with
          segs := e.space.segs.set n { g with state := .head, role := some role, sseq := some e.space.segSeq }
          segSeq := e.space.segSeq + 1 } : Engine }.enqueue
        { kind := (match role with
            | .host => .hostOpen
            | .reclaim => .reclaimOpen)
          seg := n, cell := 1, count := 1, requester := .space, contents := [.opened e.space.segSeq] }).spaceTest
      ∧ m = (if e.space.segSeq + 1 = 2 ^ 32 then o.addCause .segmentSequence else o)
      ∧ (match role with
        | .host => e.placeInNewHead b k
        | .reclaim => e.placeInNewReclaimHead k) = (m.withSeg n { m.seg n with writePtr := g.writePtr + k },
          some { seg := n, cell := g.writePtr, count := k }))
  ∧ (∀ (e : Engine) (k : Nat), 1 ≤ k →
    (∀ n, e.headOf .reclaim none = some n → (e.seg n).writePtr + k ≤ 2047 → e.placeReclaim k =
      ({ e with space := { e.space with segs := updAt e.space.segs n fun g => { g with writePtr := g.writePtr + k } } },
        some { seg := n, cell := (e.seg n).writePtr, count := k }))
    ∧ (∀ n, e.headOf .reclaim none = some n → 2047 < (e.seg n).writePtr + k → e.placeReclaim k = { e with
        space := { e.space with segs := updAt e.space.segs n fun g => { g with state := .full, role := none } }
        reclaim := { e.reclaim with choiceDue := true } : Engine }.placeInNewReclaimHead k)
    ∧ (e.headOf .reclaim none = none → e.placeReclaim k = e.placeInNewReclaimHead k)
    ∧ ((e.space.segSeq = 2 ^ 32 ∨ ∀ g ∈ e.space.segs, g.state ≠ .free) → e.placeInNewReclaimHead k = (e, none)))
  ∧ (∀ e : Engine,
    (∀ (role : HeadRole) (bank : Option Nat) (holds : Nat → Prop), (∀ n, holds n ↔ ∃ g, e.space.segs[n]? = some g
      ∧ g.state = .head ∧ g.role = some role ∧ ∀ b, bank = some b → n / 128 = b) →
      ∀ n, e.headOf role bank = some n ↔ holds n ∧ ∀ m, m < n → ¬ holds m)
    ∧ (e.canReclaim = true ↔ (∃ g ∈ e.space.segs, g.state = .erasing) ∨ e.reclaim.state = .released
      ∨ ((e.reclaim.state = .grantWait ∨ e.reclaim.state = .stepping) ∧ e.reclaim.causes.readOnly = false)
      ∨ (e.reclaim.state = .paused ∧ e.reclaim.causes = { stop := true })
      ∨ (e.reclaim.state = .idle ∧ e.reclaim.causes.readOnly = false
        ∧ ∃ v, e.chooseVictim e.reclaim.continuous = some v ∧ (e.seg v).live + 63 ≤ e.headRoom v + 2045 * e.freeCount))
    ∧ ∀ (cause : ModeCause) (causes : ReadOnlyCauses), causes = (match cause with
        | .retiredLimit => { e.control.causes with retiredLimit := true }
        | .writeSequence => { e.control.causes with writeSequence := true }
        | .segmentSequence => { e.control.causes with segmentSequence := true }
        | .format => e.control.causes) →
      (e.state = .mounting → e.addCause cause = e)
      ∧ (e.state ≠ .mounting → e.readOnly = true → e.addCause cause = { e with
        control := { e.control with causes := causes } })
      ∧ (e.state ≠ .mounting → e.readOnly = false → e.addCause cause = { e with
        control := { e.control with causes := causes }, notices := e.notices.raise (.writeMode causes cause)
        reclaim := { e.reclaim with causes := { e.reclaim.causes with readOnly := true } } }))
  ∧ ∀ (x : JobContext) (n : Nat), n = Descriptor.length x.descriptor →
    x.job = Descriptor.job x.descriptor ∧ x.key = field x.descriptor 16 8
    ∧ (x.job = some .put → x.writeKind = .put ∧ x.recordCells = 1 + (n + 63) / 64
      ∧ ∀ g, x.grant = some g → x.staging.length = n → x.record.length = x.recordCells
        ∧ x.record[0]? = some (.header { kind := .value, key := x.key, rseq := g.rseq, len := n, checked := x.staging })
        ∧ ∀ i, i < (n + 63) / 64 → x.record[i + 1]? = some (.value ((x.staging.drop (64 * i)).take 64)))
    ∧ (x.job = some .delete → x.writeKind = .delete ∧ x.recordCells = 1
      ∧ ∀ g, x.grant = some g → x.record =
        [.header { kind := .tombstone, key := x.key, rseq := g.rseq, len := 0, checked := [] }])

/-- R13 and R63: a passed write repoints its entry, raises the stale count exactly when it supersedes a VALUE record
with a readable header, moves the live cells, and completes OK; no other entry changes. The outcome holds the kind at
admission, the sequence taken, a PUT's length, and FOUND and MATCHED as they were at admission (R29, R30, R34, R38). That
a stale count rises above the range of R7 is the model's choice (assumption 51). -/
def Obligations.APassedWriteRepointsItsEntry : Prop :=
  ∀ (e : Engine) (c : Nat) (x : JobContext) (g : Grant) (l : Location) (t : Entry) (p : PendingWrite),
    e.ctxs[c]? = some x → x.grant = some g → (x.job = some .put ∨ x.job = some .delete) → e.entry x.key = some t →
    t.pending = some p → p.ctx = c → l.seg < e.space.segs.length →
    ∃ k : Engine, k = e.hostProgramPassed c l
      ∧ k.entry x.key = some { t with
        body := if x.job = some .put then .value l g.rseq (Descriptor.length x.descriptor) else .deleted l g.rseq
        stale := t.stale + (match t.body with
          | .value .. => 1
          | .lost _ _ .damaged => 1
          | _ => 0)
        pending := some { p with progress := .durable } }
      ∧ (∀ key, key ≠ x.key → k.entry key = e.entry key)
      ∧ (k.seg l.seg).live = (match t.body.loc? with
        | some old => if old.seg = l.seg then (e.seg l.seg).live - old.count else (e.seg l.seg).live
        | none => (e.seg l.seg).live) + l.count
      ∧ (∀ old, t.body.loc? = some old → old.seg ≠ l.seg → (k.seg old.seg).live = (e.seg old.seg).live - old.count)
      ∧ k.ctxs = e.ctxs.set c { x with
        state := .posting, ready := false, transfer := none
        outcome := if x.job = some .put then
          { status := .ok, kind := g.kind, results := .record g.rseq (Descriptor.length x.descriptor)
            flags := { succeeded := true, found := g.kind == .value || g.kind == .lost, matched := g.matched } }
          else { status := .ok, kind := g.kind, results := .record g.rseq 0, flags := { succeeded := true, found := true } } }
      ∧ k.index.writeSeq = e.index.writeSeq ∧ k.banks = e.banks

/-- R16. The write lock that a context holds is released: the pending write is cleared and the lock handed on. The
oldest waiter is taken off the list and checked afresh against the entry, without the capacity test; the first that
passes is admitted and keeps the rest of the list, and each that fails completes with its refusal. With no waiter
admitted a NASCENT entry is removed, and a DELETED one with stale count 0, whose cells are then no longer live (R15,
R63). A context that does not hold the lock
releases nothing. The checks are those of R11 (`Obligations.AdmissionTakesTheLockAndASequence` says what an admission
does), and a refused outcome is that of R29, R30 and R34. -/
def Obligations.AReleasedLockIsHandedOn : Prop :=
  (∀ (e : Engine) (c : Nat) (x : JobContext) (t : Entry), e.ctxs[c]? = some x → e.entry x.key = some t →
    (∀ p, t.pending = some p → p.ctx = c → e.releaseLock c = { e with index := { e.index with
      entries := e.index.entries.map fun t : Entry => if t.key = x.key then { t with pending := none } else t } }.handOn x.key
      t.waiters)
    ∧ ((∀ p, t.pending = some p → p.ctx ≠ c) → e.releaseLock c = e))
  ∧ ∀ (e : Engine) (key : Nat) (t : Entry), e.entry key = some t → t.pending = none →
    ((t.body = .nascent ∨ ((∃ l r, t.body = .deleted l r) ∧ t.stale = 0)) →
      (e.handOn key []).entry key = none ∧ (e.handOn key []).sameEntriesBut e key
      ∧ (e.handOn key []).space = { e.space with segs := match t.body.loc? with
        | some l => updAt e.space.segs l.seg fun g => { g with live := g.live - l.count }
        | none => e.space.segs })
    ∧ (t.body ≠ .nascent → ¬ ((∃ l r, t.body = .deleted l r) ∧ t.stale = 0) → e.handOn key [] = e)
    ∧ ∀ (w : Nat) (ws : List Nat) (y : JobContext) (k : Engine), e.ctxs[w]? = some y → y.key = key →
      k = { e with index := { e.index with
        entries := e.index.entries.map fun t : Entry => if t.key = key then { t with waiters := ws } else t } } →
      (∀ st, refusal y.writeKind y.descriptor e.writesBarred (some t.body) = some st →
        e.handOn key (w :: ws) = (k.complete w (refusedOutcome y.writeKind st (some t.body))).handOn key ws)
      ∧ (refusal y.writeKind y.descriptor e.writesBarred (some t.body) = none →
        e.handOn key (w :: ws) = k.admitWrite w)
    ∧ (e.writesBarred = true ↔ e.readOnly = true ∨ e.index.writeSeq = 2 ^ 48)
    ∧ ∀ (d : Descriptor) (held : Bool), (held = true ↔ t.body.kind = .value ∨ t.body.kind = .lost) →
      refusal .delete d e.writesBarred (some t.body) =
        (if e.writesBarred = true then some .readOnly else if held = true then none else some .notFound)
      ∧ refusal .put d e.writesBarred (some t.body) =
        (if e.writesBarred = true then some .readOnly
        else if d.createOnly = true ∧ held = true then some .exists
        else if d.replaceOnly = true ∧ t.body.kind ≠ .value then some .notFound
        else if d.ifRseq = true ∧ ¬ (held = true ∧ t.body.rseq = d.expected) then some .conflict
        else none)
      ∧ ∀ (w : WriteKind) (st : Status), st ≠ .ok → st ≠ .noSpace → st ≠ .mediaError →
        refusedOutcome w st (some t.body) =
          { status := st, kind := if t.body = .nascent then .absent else t.body.kind
            flags := { found := w == .put && (st == .exists || (held && (st == .notFound || st == .conflict))) }
            results := if w = .put ∧ (st = .exists ∨ st = .conflict) then .record t.body.rseq 0 else .record 0 0 }

/-- R47, R48 and R49. When the done record of a job in a chain has been written, the ring's chain flags become the job's
outcome flags, unless it completed SKIPPED, and it is the chain's predecessor no longer. The job that waits for it then
completes with the failure of its checks; or runs, when it is no follower, has no condition, or its condition holds of
the flags; or completes SKIPPED with every flag clear. A job at position 0 and a FAULTED ring change nothing. -/
def Obligations.AChainGoesOn : Prop :=
  ∀ (e : Engine) (c : Nat) (x : JobContext) (g : RingContext), e.ctxs[c]? = some x → e.rings[x.ring]? = some g →
    (x.position = 0 ∨ g.state = .faulted → e.chainWritten c = e)
    ∧ (1 ≤ x.position → g.state ≠ .faulted →
      ∃ (flags : OutcomeFlags) (k : Engine),
        flags = (if x.outcome.status = .skipped then g.chain.flags else x.outcome.flags)
        ∧ k = { e with rings := e.rings.set x.ring { g with chain := { g.chain with
            flags := flags, predecessor := if g.chain.predecessor = some c then none else g.chain.predecessor } } }
        ∧ ((∀ y ∈ e.ctxs, y.state = .linkWait → y.predecessor ≠ some c) → e.chainWritten c = k)
        ∧ ∀ (w : Nat) (y : JobContext) (passes : Bool), e.ctxs[w]? = some y → y.state = .linkWait →
          y.predecessor = some c → y.ring = x.ring →
          (∀ v z, v < w → e.ctxs[v]? = some z → z.state = .linkWait → z.predecessor ≠ some c) →
          passes = (y.position < 2 || match Descriptor.condition y.descriptor with
            | 1 => flags.succeeded
            | 2 => !flags.succeeded
            | 3 => flags.found
            | 4 => !flags.found
            | 5 => flags.matched
            | 6 => !flags.matched
            | _ => true) →
          (∀ st, y.verdict = some st → e.chainWritten c = k.complete w { status := st })
          ∧ (y.verdict = none → passes = true →
            e.chainWritten c = k.withCtx w { y with state := .taken, ready := true, predecessor := none })
          ∧ (y.verdict = none → passes = false → e.chainWritten c = k.complete w { status := .skipped }))

/-- R66, R91, R92, R123 and R124. A record's program that fails, or an open cell's, closes its segment to FAILED_CLOSED
with its mark and its programmed pointer at the write pointer, and takes the queued programs into it off the bank's
queues. The failed record, with its failure count raised, then those, in order, are dealt with: a host record whose
count is 2 completes MEDIA_ERROR with its pending write FAILED, any other is placed afresh with its count; a reclaim
record whose count is 2 has its step retried, any other is placed afresh or pauses the reclaim for space. A format cell
that fails outside a mount retires its ERASING segment with cause FORMAT_FAILED (R68). A retire cell's failure is
ignored. A segment that has left the states of use keeps its state (assumption 14). -/
def Obligations.AFailedProgramIsPlacedAfresh : Prop :=
  (∀ (e k : Engine) (b : Nat) (q : Request) (g : SegRecord) (a : Bank) (inUse : Bool) (mine : Request → Bool),
    e.space.segs[q.seg]? = some g → e.banks[b]? = some a →
    (inUse = true ↔ g.state = .head ∨ g.state = .full ∨ g.state = .failedClosed) →
    (∀ p : Request, mine p = true ↔
      p.seg = q.seg ∧ p.kind ∈ [RequestKind.hostRecord, .hostOpen, .reclaimRecord, .reclaimOpen]) →
    k = { e.withSeg q.seg { g with
          state := if inUse then .failedClosed else g.state, role := if inUse then none else g.role
          progFailed := true, progPtr := g.writePtr } with
        reclaim := { e.reclaim with choiceDue := inUse || e.reclaim.choiceDue }
        banks := e.banks.set b { a with
          hostQ := a.hostQ.filter fun p => !mine p, reclaimQ := a.reclaimQ.filter fun p => !mine p
          streak := if (∀ p ∈ a.reclaimQ, mine p = true) ∧ a.reclaimQ ≠ [] then 0 else a.streak } } →
    (q.kind = .hostRecord ∨ q.kind = .reclaimRecord →
      e.programFailed b q = ({ q with failures := q.failures + 1 } :: (a.hostQ.filter mine ++ a.reclaimQ.filter mine)).foldl
        Engine.replaceRecord k)
    ∧ (q.kind = .hostOpen ∨ q.kind = .reclaimOpen →
      e.programFailed b q = (a.hostQ.filter mine ++ a.reclaimQ.filter mine).foldl Engine.replaceRecord k))
  ∧ (∀ (e : Engine) (b : Nat) (q : Request), q.kind = .retireCell → q.requester = .space → e.programFailed b q = e)
  ∧ (∀ (e : Engine) (b : Nat) (q : Request),
    (q.kind = .formatCell → q.requester ≠ .mount → (e.seg q.seg).state = .erasing →
      e.programFailed b q = e.retireSegment q.seg .formatFailed .space)
    ∧ (q.kind = .formatCell → q.requester ≠ .mount → (e.seg q.seg).state ≠ .erasing → e.programFailed b q = e)
    ∧ (q.kind = .formatCell ∨ q.kind = .retireCell → q.requester = .mount →
      e.programFailed b q = e.mountProgramDone q false))
  ∧ (∀ (e : Engine) (c : Nat) (x : JobContext) (g : Grant) (q : Request), q.kind = .hostRecord → q.requester = .ctx c →
    e.ctxs[c]? = some x → x.grant = some g → (x.job = some .put ∨ x.job = some .delete) →
    (2 ≤ q.failures → ∃ o : JobOutcome, o.status = .mediaError ∧ o.kind = g.kind
      ∧ (x.job = some .put → o.flags = { found := g.kind.holds, matched := g.matched } ∧ o.results = .record g.rseq 0)
      ∧ (x.job = some .delete → o.flags = { found := true } ∧ o.results = .record 0 0)
      ∧ e.replaceRecord q = Engine.complete { e with index := { e.index with
        entries := e.index.entries.map fun t =>
          if t.key = x.key then
            { t with pending := t.pending.map fun p => if p.ctx = c then { p with progress := .failed } else p }
          else t } } c o)
    ∧ (q.failures < 2 → e.replaceRecord q = (e.withCtx c { x with failures := q.failures }).placeWrite c))
  ∧ ∀ (e : Engine) (q : Request), q.kind = .reclaimRecord →
    (2 ≤ q.failures → e.replaceRecord q = e.beginStep)
    ∧ (q.failures < 2 →
      (∀ k l, e.placeReclaim q.count = (k, some l) → e.replaceRecord q = k.enqueue
        { kind := .reclaimRecord, seg := l.seg, cell := l.cell, count := l.count, requester := .reclaim
          failures := q.failures, contents := q.contents })
      ∧ ∀ k, e.placeReclaim q.count = (k, none) → e.replaceRecord q = { k with reclaim := { k.reclaim with
        state := .paused, step := .none, causes := { k.reclaim.causes with space := true } } }.answerRequester .busy .held)

/-! ### Reclamation -/

/-- R113: the victim is the oldest segment on the refresh list; else the FAILED_CLOSED segment of the lowest number;
else, while dead space is wanted, the FULL segment with the most dead cells, at least 1, of those the one with the
lowest erase count, and of those the lowest number. -/
def Obligations.TheVictimIsTheFirstRulesChoice : Prop :=
  ∀ (e : Engine) (dead : Bool),
    (∀ n rest, e.reclaim.refresh = n :: rest → e.chooseVictim dead = some n)
    ∧ (e.reclaim.refresh = [] → ∀ n, n < e.space.segs.length → (e.seg n).state = .failedClosed →
      (∀ q, q < n → (e.seg q).state ≠ .failedClosed) → e.chooseVictim dead = some n)
    ∧ (e.reclaim.refresh = [] → (∀ q, q < e.space.segs.length → (e.seg q).state ≠ .failedClosed) →
      (dead = false → e.chooseVictim dead = none)
      ∧ (dead = true →
        (e.chooseVictim dead = none ↔
          ∀ q, q < e.space.segs.length → (e.seg q).state = .full → (e.seg q).dead = 0)
        ∧ ∀ n, e.chooseVictim dead = some n →
          n < e.space.segs.length ∧ (e.seg n).state = .full ∧ 1 ≤ (e.seg n).dead
          ∧ ∀ q, q < e.space.segs.length → (e.seg q).state = .full → q ≠ n →
            (e.seg q).dead < (e.seg n).dead
            ∨ ((e.seg q).dead = (e.seg n).dead
              ∧ ((e.seg n).eraseCount < (e.seg q).eraseCount ∨ ((e.seg n).eraseCount = (e.seg q).eraseCount ∧ n < q)))))

/-- R19, R20, R118 to R120: the claims of reclamation. A decrement claim lowers the stale count of its key's entry by 1,
not below 0, and removes a DELETED entry whose count is then 0 with no pending write, whose cells are then no longer live
(R15, R63); for a key with no entry it changes nothing. The conditional repoint after a passed program: where the entry still points at the original (DONE) it moves to
the new record, a LOSS marker makes it LOST with loss form MARKER and raises DATA_LOST, and the live cells move;
elsewhere (CHANGED) a VALUE copy raises the stale count, which the decrement claim for the original lowers again, a
marker makes the decrement claim alone, and other copies claim nothing. A count at the top of its range rises too
(assumption 51). The tallies follow, no other entry changes, and
the record is passed. -/
def Obligations.AClaimSettlesItsKeyAlone : Prop :=
  (∀ (e : Engine) (key : Nat),
    (e.entry key = none → e.decrementClaim key = e)
    ∧ (∀ t, e.entry key = some t →
      (∀ l r, t.body = .deleted l r → t.stale ≤ 1 → t.pending = none → (e.decrementClaim key).entry key = none
        ∧ (e.decrementClaim key).space = { e.space with
          segs := updAt e.space.segs l.seg fun g => { g with live := g.live - l.count } })
      ∧ (¬ ((∃ l r, t.body = .deleted l r) ∧ t.stale ≤ 1 ∧ t.pending = none) →
        (e.decrementClaim key).entry key = some { t with stale := t.stale - 1 } ∧ (e.decrementClaim key).space = e.space))
    ∧ (e.decrementClaim key).sameEntriesBut e key)
  ∧ ∀ (e : Engine) (new original : Location) (what : Written) (key : Nat), e.reclaim.step = .program what key original →
    ∃ k : Engine, e.reclaimProgramPassed new = k.passRecord key original.count
      ∧ k.sameEntriesBut e key ∧ k.ctxs = e.ctxs ∧ k.rings = e.rings ∧ k.banks = e.banks
      ∧ (∀ t, e.entry key = some t → t.body.loc? = some original → new.seg < e.space.segs.length →
        k.entry key = some { t with body := match what, t.body with
          | .lossMarker, b => .lost new b.rseq .marker
          | _, .value _ r n => .value new r n
          | _, .deleted _ r => .deleted new r
          | _, .lost _ r f => .lost new r f
          | _, .nascent => .nascent }
        ∧ (k.seg new.seg).live = (if original.seg = new.seg then (e.seg new.seg).live - original.count
          else (e.seg new.seg).live) + new.count
        ∧ (original.seg ≠ new.seg → (k.seg original.seg).live = (e.seg original.seg).live - original.count)
        ∧ (what = .lossMarker →
          k.notices = e.notices.raise (.dataLost key t.body.rseq t.body.kind original.seg original.cell new.seg new.cell)
          ∧ k.reclaim.tallies = { e.reclaim.tallies with markers := e.reclaim.tallies.markers + 1 })
        ∧ (what ≠ .lossMarker → k.notices = e.notices
          ∧ k.reclaim.tallies = { e.reclaim.tallies with copied := e.reclaim.tallies.copied + 1 }))
      ∧ ((∀ t, e.entry key = some t → t.body.loc? ≠ some original) → k.notices = e.notices
        ∧ k.reclaim.tallies = { e.reclaim.tallies with
          copied := e.reclaim.tallies.copied + (if what = .lossMarker then 0 else 1)
          stalePassed := e.reclaim.tallies.stalePassed + (if what = .lossMarker ∨ what = .valueCopy then 1 else 0) }
        ∧ (what = .lossCopy ∨ what = .tombstone → k.index = e.index ∧ k.space = e.space)
        ∧ (what = .lossMarker → k.index = (e.decrementClaim key).index ∧ k.space = (e.decrementClaim key).space)
        ∧ (what = .valueCopy → ∀ t, e.entry key = some t →
          ((∃ l r, t.body = .deleted l r) → t.stale = 0 → t.pending = none → k.entry key = none)
          ∧ (¬ ((∃ l r, t.body = .deleted l r) ∧ t.stale = 0 ∧ t.pending = none) → k.entry key = some t)))

/-- R116 to R119, R121, R122, R124 and R125: the walk of victim `n`, with its cursor at cell `p`. At a record boundary a
pause cause, or a FORMAT, pauses it; else the next step begins: it pins the victim and reads the header, or takes a sweep
up where it is. A PAUSED unit with no cause left goes on in the same way. A read of the walk may mark the victim weak and
is unpinned before it is acted on (R64, R102, R105; the order is assumption 42). A BLANK header ends the walk, an
INVALID one is passed, a VALID one has its value cells read, and the record, held in the reclaim buffer, is settled: a
current record is copied, a current VALUE that is not INTACT or is LOST already is replaced by a LOSS marker, and one
not current makes a decrement claim or is dropped. A placement that cannot be made pauses for SPACE with the cursor
where it is. At the end of the walk the victim is released when its live cells are 0; else each entry that points into
it is swept, in key order, with a record built from the entry. A requester completes BUSY at a pause, HELD, with the
cursor and the tallies (R130). Where a pause cause is pending at the end of a walk, the release of a victim with no live
cell at a BLANK header, the pause with the cursor at 2047, and the pause after the sweep's last entry are the model's
choice (assumption 43). -/
def Obligations.TheReclaimCursorSettlesItsRecord : Prop :=
  (∀ (e : Engine) (n p : Nat) (g : SegRecord), e.reclaim.victim = some n → e.reclaim.cursor = some p →
    e.space.segs[n]? = some g →
    ((e.reclaim.causes.any = true ∨ e.formatEnding = true → e.recordBoundary =
        { e with reclaim := { e.reclaim with state := .paused, step := .none } }.answerRequester .busy .held)
      ∧ (e.reclaim.causes.any = false → e.formatEnding = false → e.recordBoundary = e.beginStep)
      ∧ (e.reclaim.sweep = none → p < 2047 → e.beginStep = { e.withSeg n { g with pins := g.pins + 1 } with
        reclaim := { e.reclaim with step := .header } }.enqueue
        { kind := .read, seg := n, cell := p, count := 1, requester := .reclaim })
      ∧ (e.reclaim.sweep = none → 2047 ≤ p → e.beginStep = e.walkEnd n)
      ∧ (∀ key, e.reclaim.sweep = some key → e.beginStep = e.sweepFrom n key)
      ∧ (e.reclaim.state = .paused → e.reclaim.causes.any = false → e.formatEnding = false →
        e.resumeReclaim = { e with reclaim := { e.reclaim with state := .stepping } }.beginStep)
      ∧ (e.reclaim.state ≠ .paused ∨ e.reclaim.causes.any = true ∨ e.formatEnding = true → e.resumeReclaim = e))
    ∧ (∀ count, e.passCells count =
      { e with reclaim := { e.reclaim with cursor := some (p + count), step := .none } }.recordBoundary)
    ∧ (∀ key count, (e.reclaim.sweep = none → e.passRecord key count = e.passCells count)
      ∧ ∀ at_, e.reclaim.sweep = some at_ → e.passRecord key count =
        { e with reclaim := { e.reclaim with sweep := some (key + 1), step := .none } }.recordBoundary)
    ∧ (∀ (q : Request) (cells : List CellOutcome) (weak : Bool), q.requester = .reclaim →
      weak = weakRead e.control.limits.threshold cells →
      e.readReported q cells = ((if weak then e.weakMark q.seg else e).unpin q.seg).reclaimReadDone q cells)
    ∧ (∀ (q : Request) (x : CellOutcome), e.reclaim.step = .header → q.seg = n → q.cell = p →
      (headerVerdict p x = .blank →
        e.reclaimReadDone q [x] = { e with reclaim := { e.reclaim with step := .none } }.walkEnd n)
      ∧ (headerVerdict p x = .invalid →
        e.reclaimReadDone q [x] = (e.tallied fun t => { t with resync := t.resync + 1 }).passCells 1)
      ∧ ∀ h, headerVerdict p x = .valid h →
        (h.cells = 1 → e.reclaimReadDone q [x] =
          { e with reclaim := { e.reclaim with buffer := [.header h] } }.settleRecord { seg := n, cell := p, count := 1 } h [])
        ∧ (h.cells ≠ 1 → e.reclaimReadDone q [x] = { e.withSeg n { g with pins := g.pins + 1 } with
          reclaim := { e.reclaim with buffer := [.header h], step := .values h } }.enqueue
          { kind := .read, seg := n, cell := p + 1, count := h.cells - 1, requester := .reclaim }))
    ∧ (∀ (q : Request) (cells : List CellOutcome) (h : RecordHeader), e.reclaim.step = .values h → q.seg = n →
      q.cell = p + 1 → e.reclaimReadDone q cells =
        { e with reclaim := { e.reclaim with buffer := .header h :: valueCells (h.cells - 1) (valueBytes h.len cells) } }.settleRecord
          { seg := n, cell := p, count := h.cells } h cells)
    ∧ (∀ (l : Location) (h : RecordHeader) (cells : List CellOutcome) (current : Prop), l.seg = n →
      (current ↔ ∃ t, e.entry h.key = some t ∧ t.body.loc? = some l) →
      (current → h.kind = .tombstone →
        e.settleRecord l h cells = e.placeStep .tombstone h.key l (.header h :: valueCells (h.cells - 1) []))
      ∧ (current → h.kind = .loss →
        e.settleRecord l h cells = e.placeStep .lossCopy h.key l (.header h :: valueCells (h.cells - 1) []))
      ∧ (current → h.kind = .value → ∀ ok : Bool, (ok = true ↔ valueVerdict h cells = .intact
          ∧ ∀ t m r, e.entry h.key = some t → t.body ≠ .lost m r .damaged) →
        (ok = true → e.settleRecord l h cells =
          e.placeStep .valueCopy h.key l (.header h :: valueCells (h.cells - 1) (valueBytes h.len cells)))
        ∧ (ok = false → e.settleRecord l h cells = e.placeStep .lossMarker h.key l
          [.header { kind := .loss, key := h.key, rseq := h.rseq, len := 0, checked := [] }]))
      ∧ (¬ current → h.kind = .value → valueVerdict h cells ≠ .torn → g.progFailed = false → e.settleRecord l h cells =
        ((e.decrementClaim h.key).tallied fun t => { t with stalePassed := t.stalePassed + 1 }).passCells h.cells)
      ∧ (¬ current → (h.kind ≠ .value ∨ valueVerdict h cells = .torn ∨ g.progFailed = true) → e.settleRecord l h cells =
        (e.tallied fun t => { t with dropped := t.dropped + 1 }).passCells h.cells))
    ∧ (∀ (what : Written) (key : Nat) (l : Location) (cells : List CellData) (k : Engine),
      (∀ new, e.placeReclaim cells.length = (k, some new) → e.placeStep what key l cells =
        { k with reclaim := { k.reclaim with step := .program what key l, buffer := cells } }.enqueue
          { kind := .reclaimRecord, seg := new.seg, cell := new.cell, count := new.count, requester := .reclaim
            contents := cells })
      ∧ (e.placeReclaim cells.length = (k, none) → e.placeStep what key l cells = { k with reclaim := { k.reclaim with
        state := .paused, step := .none, causes := { k.reclaim.causes with space := true } } }.answerRequester .busy .held))
    ∧ (∀ k : Engine, k = { e with
        reclaim := { e.reclaim with state := .released, step := .none, sweep := none }
        space := { e.space with released := some n } } →
      (g.live = 0 → e.walkEnd n = k)
      ∧ (0 < g.live → e.reclaim.causes.any = false → e.formatEnding = false →
        e.walkEnd n = { e with reclaim := { e.reclaim with sweep := some 0 } }.sweepFrom n 0)
      ∧ (0 < g.live → (e.reclaim.causes.any = true ∨ e.formatEnding = true) → e.walkEnd n =
        { e with reclaim := { e.reclaim with state := .paused, step := .none, sweep := some 0 } }.answerRequester .busy .held)
      ∧ ∀ key, ((∀ t ∈ e.index.entries, key ≤ t.key → ∀ l, t.body.loc? = some l → l.seg ≠ n) → e.sweepFrom n key = k)
        ∧ ∀ (i : Nat) (t : Entry) (l : Location), e.index.entries[i]? = some t → key ≤ t.key → t.body.loc? = some l → l.seg = n →
          (∀ (j : Nat) (u : Entry) (m : Location), j < i → e.index.entries[j]? = some u → key ≤ u.key → u.body.loc? = some m → m.seg ≠ n) →
          ∃ what kind, e.sweepFrom n key = { e with reclaim := { e.reclaim with
              sweep := some t.key
              buffer := [.header { kind := kind, key := t.key, rseq := t.body.rseq, len := 0, checked := [] }] } }.placeStep
              what t.key l [.header { kind := kind, key := t.key, rseq := t.body.rseq, len := 0, checked := [] }]
            ∧ (kind = .tombstone ↔ t.body.kind = .deleted) ∧ (kind ≠ .tombstone → kind = .loss)
            ∧ (what = .tombstone ↔ t.body.kind = .deleted) ∧ (what = .lossCopy ↔ ∃ r, t.body = .lost l r .marker)
            ∧ what ≠ .valueCopy)
    ∧ ((e.reclaim.requester = none → e.answerRequester .busy .held = e)
      ∧ ∀ c x r, e.reclaim.requester = some c → e.ctxs[c]? = some x → e.rings[x.ring]? = some r →
        e.answerRequester .busy .held = { (e.withCtx c { x with
          state := .posting, ready := false, transfer := none
          outcome := { status := .busy, results := .reclaim (some n) .held p e.reclaim.tallies } }) with
        rings := e.rings.set x.ring { r with posting := r.posting ++ [c] }
        reclaim := { e.reclaim with requester := none } }))
  ∧ ∀ e : Engine, e.formatEnding = true ↔ ∃ f, e.format = some f ∧ f.stage = .ending

/-- R64, R67 to R69, R73, R122 and R177. A released victim that is RECLAIMING (the guard is assumption 1), has no pins
and no entry pointing into it leaves: it enters ERASING with its erase queued, or is retired when its program failed
mark is set; else it waits. Each time a pin count falls to 0 that test is made first, the model's choice (assumption
11), and then the erases that a FORMAT holds for pins and that are now free of them are queued, in the order in which
they came to be held (assumption 47). A format cell that passes makes its segment, when it is ERASING (assumption 1),
FREE with its erase count, its mark kept and everything else cleared. A RETIRED segment keeps its fields but for the
role: R69 names the erase count and the weak mark, and the others are the model's choice (assumption 52). A retirement
makes the segment RETIRED, queues its retire cell, raises SEGMENT_RETIRED, and the one that makes 48 then adds
RETIRED_LIMIT: that SEGMENT_RETIRED is raised before its WRITE_MODE is the model's choice (assumption 48). The released
victim's end as FREE or RETIRED makes the Reclaim Unit IDLE, to choose again, and its requester completes OK. -/
def Obligations.AReleasedVictimLeaves : Prop :=
  ∀ (e : Engine) (n : Nat) (g : SegRecord), e.space.segs[n]? = some g →
    (∀ leaves : Bool, e.space.released = some n →
      (leaves = true ↔ g.state = .reclaiming ∧ g.pins = 0
        ∧ ∀ t ∈ e.index.entries, ∀ l, t.body.loc? = some l → l.seg ≠ n) →
      (leaves = true → g.progFailed = false → e.settleReleased = { e with
        space := { e.space with segs := e.space.segs.set n { g with state := .erasing }, released := none } : Engine }.enqueue
        { kind := .erase, seg := n, cell := 0, count := 2048, requester := .space })
      ∧ (leaves = true → g.progFailed = true → e.settleReleased =
        { e with space := { e.space with released := none } }.retireSegment n .programFailed .space)
      ∧ (leaves = false → e.settleReleased = e))
    ∧ (1 < g.pins → e.unpin n = e.withSeg n { g with pins := g.pins - 1 })
    ∧ (g.pins ≤ 1 → e.unpin n = (e.withSeg n { g with pins := 0 }).settleReleased.settlePinWait)
    ∧ (e.space.pinWait = [] → e.settlePinWait = e)
    ∧ e.settlePinWait = (e.space.pinWait.filter fun m => (e.seg m).pins == 0).foldl
      (fun k m => k.enqueue { kind := .erase, seg := m, cell := 0, count := 2048, requester := .space })
      { e with space := { e.space with pinWait := e.space.pinWait.filter fun m => (e.seg m).pins != 0 } }
    ∧ (∀ (q : Request) (count : Nat) (est : Bool), q.seg = n → q.contents = [.format count est] →
      (g.state = .erasing → e.formatCellPassed q = ((e.withSeg n
        { state := .free, eraseCount := count, estimated := g.estimated }).formatCounts n false).freeRose.victimEnded n .free)
      ∧ (g.state ≠ .erasing → e.formatCellPassed q = e))
    ∧ (∀ (cause : RetireCause) (by_ : Requester) (k : Engine) (count : Nat),
      count = e.retiredCount + (if g.state = .retired then 0 else 1) →
      k = (e.withSeg n { g with state := .retired, role := none }).enqueue
        { kind := .retireCell, seg := n, cell := 2047, count := 1, requester := by_, contents := [.retire] } →
      ∃ m : Engine, m = { k with notices := k.notices.raise (.segmentRetired n cause g.eraseCount count) }
        ∧ (count = 48 → e.retiredCount = 47 →
          e.retireSegment n cause by_ = ((m.addCause .retiredLimit).formatCounts n true).victimEnded n .retired)
        ∧ (count ≠ 48 ∨ e.retiredCount = 48 →
          e.retireSegment n cause by_ = (m.formatCounts n true).victimEnded n .retired))
    ∧ (∀ ended : ReclaimEnd,
      ((e.reclaim.state ≠ .released ∨ e.reclaim.victim ≠ some n) → e.victimEnded n ended = e)
      ∧ (e.reclaim.state = .released → e.reclaim.victim = some n →
        (e.reclaim.requester = none → e.victimEnded n ended = { e with reclaim := { e.reclaim with
          state := .idle, victim := none, cursor := none, tallies := {}, choiceDue := true } })
        ∧ ∀ c, e.reclaim.requester = some c → e.victimEnded n ended = { e with reclaim := { e.reclaim with
          state := .idle, victim := none, cursor := none, tallies := {}, choiceDue := true, requester := none } }.complete c
          { status := .ok, flags := { succeeded := true }, results := .reclaim (some n) ended 0 e.reclaim.tallies }))

/-! ### The mount -/

/-- R136 and R137, in phase SURVEY of a mount. A read of the Mount Unit goes to it alone: it takes no pin, and which of its
reads mark a segment weak is its own affair (R107). The read of cells 0 and 1 of a segment gives its record the count and
mark of a VALID format cell and the sequence of a VALID open cell, adds to the sum of the mean or to the segments that
are to take it, and raises the highest segment sequence; cell 2047 is read next. That read classifies the segment by the
table of R136, keeps the weak marks of a segment in use, and goes on to the next segment. After the last the mean is
computed and given, and every segment to be blank-checked is queued, in ascending number, which is the model's choice
(assumption 47), or pass A begins. NOT_BLANK makes the segment
DIRTY; BLANK queues an estimated format cell, which makes it FREE with the mean, or retires it when it fails. When the
last has ended pass A begins. Until the mean is given a segment without a VALID format cell shows count 0 (assumption
44). -/
def Obligations.TheSurveyClassifiesEverySegment : Prop :=
  (∀ (e : Engine) (q : Request) (cells : List CellOutcome), q.requester = .mount →
    e.readReported q cells = e.mountReadDone q cells)
  ∧ (∀ (e : Engine) (q : Request) (n : Nat) (g : SegRecord) (x y : CellOutcome) (weak : Bool), e.state = .mounting →
    e.mount.phase = .survey → q.seg = n → e.space.segs[n]? = some g →
    (q.cell ≠ 2047 → weak = weakRead e.control.limits.threshold [x, y] →
      ∃ (formatted : Option (Nat × Bool)) (opened : Option Nat),
        (∀ count est, formatted = some (count, est) ↔ ∃ m, x = .good (.format count est) m)
        ∧ (∀ sseq, opened = some sseq ↔ ∃ m, y = .good (.opened sseq) m)
        ∧ e.mountReadDone q [x, y] = { (e.withSeg n { g with
            eraseCount := (formatted.map (·.1)).getD g.eraseCount, estimated := (formatted.map (·.2)).getD g.estimated
            sseq := if opened.isSome then opened else g.sseq }) with
          mount := { e.mount with
            eraseSum := e.mount.eraseSum + (formatted.map (·.1)).getD 0
            formatCells := e.mount.formatCells + (if formatted.isSome then 1 else 0)
            unformatted := if formatted.isSome then e.mount.unformatted else e.mount.unformatted ++ [n]
            maxSseq := max e.mount.maxSseq (opened.getD 0)
            format := if x = .blank then .blank else if formatted.isSome then .valid else .invalid
            opened := if y = .blank then .blank else if opened.isSome then .valid else .invalid
            heldWeak := weak } : Engine }.enqueue { kind := .read, seg := n, cell := 2047, count := 1, requester := .mount })
    ∧ (q.cell = 2047 → weak = weakRead e.control.limits.threshold [x] → ∀ st : SegState,
      st = (match x, e.mount.format, e.mount.opened with
        | .good .retire _, _, _ => .retired
        | .good _ _, _, _ => .dirty
        | .uncorrectable, _, _ => .dirty
        | .blank, .valid, .valid => .full
        | .blank, .valid, .blank => .free
        | .blank, .valid, .invalid => .dirty
        | .blank, .blank, _ => .unclassified
        | .blank, .invalid, _ => .dirty) →
      ∃ k : Engine, k = (e.withSeg n { g with
          state := st, weak := st == .full && (e.mount.heldWeak || weak) }).counted (fun t =>
          if st = .dirty then { t with dirty := t.dirty + 1 } else t)
        ∧ (n < 511 → e.mountReadDone q [x] = { k with mount := { k.mount with seg := n + 1 } }.enqueue
          { kind := .read, seg := n + 1, cell := 0, count := 2, requester := .mount })
        ∧ (511 ≤ n → e.mountReadDone q [x] = k.surveyEnd)))
  ∧ (∀ (e : Engine) (mean : Nat) (blanks : List Nat), mean = e.mount.eraseSum / e.mount.formatCells →
    blanks = (List.range e.space.segs.length).filter (fun n => (e.seg n).state == .unclassified) →
    ∃ k : Engine, k.mount = { e.mount with mean := mean, blankChecks := blanks.length }
      ∧ k = { e with space := { e.space with segs := k.space.segs }, mount := k.mount }
      ∧ (∀ n, n < e.space.segs.length → k.seg n =
        if n ∈ e.mount.unformatted then { e.seg n with eraseCount := mean, estimated := true } else e.seg n)
      ∧ (blanks = [] → e.surveyEnd = k.startPassA)
      ∧ (blanks ≠ [] → e.surveyEnd = blanks.foldl (fun m n => m.enqueue
        { kind := .blankCheck, seg := n, cell := 0, count := 2048, requester := .mount }) k))
  ∧ ∀ (e m : Engine) (n : Nat) (g : SegRecord), e.state = .mounting → e.mount.phase = .survey → e.space.segs[n]? = some g →
    (m.mount.blankChecks ≤ 1 → m.blankCheckEnded = { m with mount := { m.mount with blankChecks := 0 } }.startPassA)
    ∧ (1 < m.mount.blankChecks →
      m.blankCheckEnded = { m with mount := { m.mount with blankChecks := m.mount.blankChecks - 1 } })
    ∧ e.blankAnswer n true = e.enqueue
      { kind := .formatCell, seg := n, cell := 0, count := 1, requester := .mount, contents := [.format e.mount.mean true] }
    ∧ e.blankAnswer n false =
      ((e.withSeg n { g with state := .dirty }).counted fun t => { t with dirty := t.dirty + 1 }).blankCheckEnded
    ∧ ∀ q : Request, q.seg = n → (q.kind = .formatCell →
        e.mountProgramDone q true = ((e.withSeg n { state := .free, eraseCount := e.mount.mean, estimated := true }).counted
          fun t => { t with estimated := t.estimated + 1 }).blankCheckEnded
        ∧ e.mountProgramDone q false = e.retireSegment n .formatFailed .mount)
      ∧ (q.kind = .retireCell → ∀ pass, e.mountProgramDone q pass = e.blankCheckEnded)

/-- R138 to R142: pass A walks the in-use segments, then the DIRTY and RETIRED ones, from cell 2. A BLANK header or cell
2047 ends the walk of a segment: its pointers become that cell, and an in-use segment without a record becomes DIRTY
with its weak mark dropped; the pointers of the others stay (assumption 45). An INVALID header is passed and counted, a
VALID one is read whole, counted and taken by its kind and verdict; the DIRTY and RETIRED segments give only their
sequences. A record ranks above its key's entry by its sequence, then its class (a readable VALUE above a LOSS marker
above a damaged VALUE), then the later place; the one superseded raises the stale count if it is a VALUE; a new entry
beyond 65,536 is counted as overflow. That a count at the top of R7's range rises too is the model's choice (assumption
51). That a record of more than one cell is counted and passed after the read of its value cells is the model's choice
too (assumption 53). -/
def Obligations.PassATakesTheRecordsThatRank : Prop :=
  (∀ (e : Engine) (n p : Nat) (g : SegRecord) (others : Bool), n = e.mount.seg → p = e.mount.cursor →
    others = e.mount.others → e.space.segs[n]? = some g →
    (∀ (q : Request) (cells : List CellOutcome) (weak : Bool), e.state = .mounting → e.mount.phase = .passA → q.seg = n →
      weak = weakRead e.control.limits.threshold cells →
      e.mountReadDone q cells =
        (if weak = true ∧ g.state = .full then e.withSeg n { g with weak := true } else e).passARead cells)
    ∧ (∀ x : CellOutcome, e.mount.header = none →
      (headerVerdict p x = .blank → e.passARead [x] = e.passASegEnd)
      ∧ (headerVerdict p x = .invalid → e.passARead [x] =
        (if others then e else e.counted fun t => { t with resync := t.resync + 1 }).passAMove 1)
      ∧ ∀ h, headerVerdict p x = .valid h →
        (h.cells = 1 → e.passARead [x] = e.passARecord { seg := n, cell := p, count := 1 } h [])
        ∧ (h.cells ≠ 1 → e.passARead [x] = { e with mount := { e.mount with header := some h } }.enqueue
          { kind := .read, seg := n, cell := p + 1, count := h.cells - 1, requester := .mount }))
    ∧ (∀ cells h, e.mount.header = some h →
      e.passARead cells = e.passARecord { seg := n, cell := p, count := h.cells } h cells)
    ∧ (∀ count, ∃ k : Engine, k = { e with mount := { e.mount with cursor := p + count, header := none } }
      ∧ (2047 ≤ p + count → e.passAMove count = k.passASegEnd)
      ∧ (p + count < 2047 → e.passAMove count =
        k.enqueue { kind := .read, seg := n, cell := p + count, count := 1, requester := .mount }))
    ∧ (others = true → e.passASegEnd = e.passAOthersFrom (n + 1))
    ∧ (others = false → p = 2 → e.passASegEnd = ((e.withSeg n { g with
        state := .dirty, weak := false, writePtr := 2, progPtr := 2 }).counted fun t =>
          { t with dirty := t.dirty + 1 }).passAFrom (n + 1))
    ∧ (others = false → p ≠ 2 → e.passASegEnd = (e.withSeg n { g with writePtr := p, progPtr := p }).passAFrom (n + 1))
    ∧ ∀ (l : Location) (h : RecordHeader) (cells : List CellOutcome) (v : ValueVerdict) (k m : Engine),
      v = valueVerdict h cells → k = { e with mount := { e.mount with maxRseq := max e.mount.maxRseq h.rseq } } →
      m = (k.counted fun t => { t with records := t.records + 1 }) →
      (others = true → e.passARecord l h cells = k.passAMove h.cells)
      ∧ (others = false →
        (h.kind = .value → v = .intact →
          e.passARecord l h cells = (m.rankRecord h.key (.value l h.rseq h.len)).passAMove h.cells)
        ∧ (h.kind = .value → v = .damaged → e.passARecord l h cells =
          ((m.counted fun t => { t with damaged := t.damaged + 1 }).rankRecord h.key (.lost l h.rseq .damaged)).passAMove
            h.cells)
        ∧ (h.kind = .value → v = .torn →
          e.passARecord l h cells = (m.counted fun t => { t with torn := t.torn + 1 }).passAMove h.cells)
        ∧ (h.kind = .loss → e.passARecord l h cells = (m.rankRecord h.key (.lost l h.rseq .marker)).passAMove h.cells)
        ∧ (h.kind = .tombstone → e.passARecord l h cells = m.passAMove h.cells)))
  ∧ (∀ (e : Engine) (from_ : Nat), (e.startPassA = { e with mount := { e.mount with phase := .passA, others := false } }.passAFrom 0)
    ∧ (∀ n g, from_ ≤ n → e.space.segs[n]? = some g → g.state = .full →
      (∀ m h, from_ ≤ m → m < n → e.space.segs[m]? = some h → h.state ≠ .full) →
      e.passAFrom from_ = { e with mount := { e.mount with seg := n, cursor := 2, header := none } }.enqueue
        { kind := .read, seg := n, cell := 2, count := 1, requester := .mount })
    ∧ ((∀ m h, from_ ≤ m → e.space.segs[m]? = some h → h.state ≠ .full) → e.passAFrom from_ = e.passAOthersFrom 0)
    ∧ (∀ n g, from_ ≤ n → e.space.segs[n]? = some g → (g.state = .dirty ∨ g.state = .retired) →
      (∀ m h, from_ ≤ m → m < n → e.space.segs[m]? = some h → h.state ≠ .dirty ∧ h.state ≠ .retired) →
      e.passAOthersFrom from_ = { e with mount := { e.mount with others := true, seg := n, cursor := 2, header := none } }.enqueue
        { kind := .read, seg := n, cell := 2, count := 1, requester := .mount })
    ∧ ((∀ m h, from_ ≤ m → e.space.segs[m]? = some h → h.state ≠ .dirty ∧ h.state ≠ .retired) →
      e.passAOthersFrom from_ = e.startPassB))
  ∧ ∀ (e : Engine) (key : Nat) (new : EntryBody) (l : Location) (rank : EntryBody → Nat) (value : EntryBody → Bool),
    new.loc? = some l →
    (∀ b, rank b = match b with
      | .value .. => 2
      | .lost _ _ .marker => 1
      | _ => 0) →
    (∀ b, value b = match b with
      | .value .. => true
      | .lost _ _ .damaged => true
      | _ => false) →
    (e.entry key = none → e.index.entries.length < 65536 →
      (e.rankRecord key new).entry key = some { key := key, body := new } ∧ (e.rankRecord key new).sameEntriesBut e key)
    ∧ (e.entry key = none → 65536 ≤ e.index.entries.length →
      e.rankRecord key new = e.counted fun t => { t with overflow := t.overflow + 1 })
    ∧ ∀ (t : Entry) (old : Location) (later above : Prop), e.entry key = some t → t.body.loc? = some old →
      (later ↔ if l.seg = old.seg then old.cell < l.cell else (e.seg old.seg).sseq.getD 0 < (e.seg l.seg).sseq.getD 0) →
      (above ↔ t.body.rseq < new.rseq ∨ (new.rseq = t.body.rseq
        ∧ (rank t.body < rank new ∨ (rank t.body = rank new ∧ later)))) →
      (above → (e.rankRecord key new).entry key = some { t with
        body := new, stale := t.stale + (if value t.body then 1 else 0) })
      ∧ (¬ above → (e.rankRecord key new).entry key = some { t with
        stale := t.stale + (if value new then 1 else 0) })
      ∧ (e.rankRecord key new).sameEntriesBut e key

/-- R143: pass B walks the in-use segments again, from cell 2 to where pass A's walk ended, reading headers alone. A BLANK
header ends the walk of its segment, which R143 does not name: the model's inference (assumption 22). A
VALID TOMBSTONE that is newer than its key's entry makes it DELETED there, with the stale count raised when a VALUE with
a readable header is displaced; one of the same sequence as a DELETED entry moves it to the later place; any other is
ignored, and no statistic changes. After the last segment the mount finishes. That a count at the top of R7's range rises
too is the model's choice (assumption 51). -/
def Obligations.PassBJudgesTheTombstones : Prop :=
  (∀ (e : Engine) (n p : Nat) (g : SegRecord), n = e.mount.seg → p = e.mount.cursor → e.space.segs[n]? = some g →
    (∀ (q : Request) (cells : List CellOutcome) (weak : Bool), e.state = .mounting → e.mount.phase = .passB → q.seg = n →
      weak = weakRead e.control.limits.threshold cells →
      e.mountReadDone q cells =
        (if weak = true ∧ g.state = .full then e.withSeg n { g with weak := true } else e).passBRead cells)
    ∧ (∀ x : CellOutcome,
      (headerVerdict p x = .blank → e.passBRead [x] = e.passBFrom (n + 1))
      ∧ (headerVerdict p x = .invalid → e.passBRead [x] = e.passBMove 1)
      ∧ ∀ h, headerVerdict p x = .valid h →
        (h.kind = .tombstone →
          e.passBRead [x] = (e.judgeTombstone { seg := n, cell := p, count := 1 } h).passBMove h.cells)
        ∧ (h.kind ≠ .tombstone → e.passBRead [x] = e.passBMove h.cells))
    ∧ ∀ count, (g.writePtr ≤ p + count → e.passBMove count = e.passBFrom (n + 1))
      ∧ (p + count < g.writePtr → e.passBMove count = { e with mount := { e.mount with cursor := p + count } }.enqueue
        { kind := .read, seg := n, cell := p + count, count := 1, requester := .mount }))
  ∧ (∀ (e : Engine) (from_ : Nat), (e.startPassB = { e with mount := { e.mount with phase := .passB } }.passBFrom 0)
    ∧ (∀ n g, from_ ≤ n → e.space.segs[n]? = some g → g.state = .full →
      (∀ m h, from_ ≤ m → m < n → e.space.segs[m]? = some h → h.state ≠ .full) →
      e.passBFrom from_ = { e with mount := { e.mount with seg := n, cursor := 2 } }.enqueue
        { kind := .read, seg := n, cell := 2, count := 1, requester := .mount })
    ∧ ((∀ m h, from_ ≤ m → e.space.segs[m]? = some h → h.state ≠ .full) → e.passBFrom from_ = e.finishMount))
  ∧ ∀ (e : Engine) (l : Location) (h : RecordHeader),
    (e.entry h.key = none → e.judgeTombstone l h = e)
    ∧ ∀ t, e.entry h.key = some t → ∃ k : Engine, k = e.judgeTombstone l h ∧ k.sameEntriesBut e h.key
      ∧ k = { e with index := k.index }
      ∧ (h.rseq < t.body.rseq → k = e)
      ∧ (t.body.rseq < h.rseq → k.entry h.key = some { t with
        body := .deleted l h.rseq, stale := t.stale + (match t.body with
          | .value .. => 1
          | .lost _ _ .damaged => 1
          | _ => 0) })
      ∧ (t.body.rseq = h.rseq → (∀ m, t.body ≠ .deleted m h.rseq) → k = e)
      ∧ ∀ old, t.body = .deleted old h.rseq →
        ((if l.seg = old.seg then old.cell < l.cell else (e.seg old.seg).sseq.getD 0 < (e.seg l.seg).sseq.getD 0) →
          k.entry h.key = some { t with body := .deleted l h.rseq })
        ∧ (¬ (if l.seg = old.seg then old.cell < l.cell else (e.seg old.seg).sseq.getD 0 < (e.seg l.seg).sseq.getD 0) →
          k = e)

/-- R144 to R146 and R110: a mount that finishes drops the DELETED entries with stale count 0, sets each segment's live
cells from the entries that are left, both counters past the highest found, the rotation point 3, and the causes of
READ_ONLY; it builds the refresh list from the weak eligible segments in ascending number, up to 8; raises MOUNT_DONE in
its two parts with what was found, the mount time in whole ms (assumption 49), before anything the space test raises; and
makes the engine RUNNING with the DIRTY segments ERASING and their erases queued in ascending number. The Reclaim Unit
has its cause READ_ONLY exactly when the mode is READ_ONLY, which R126 gives for the change of mode (assumption 23). When
every entry lies in a FULL segment, every entry that is left does. A FULL segment has pins 0 and its program failed mark
clear (R144), and the change to RUNNING is an event of the Reclaim Unit's choice (R112). Outside MOUNTING it does nothing (assumption 38). -/
def Obligations.AFinishedMountRebuildsTheTables : Prop :=
  ∀ e : Engine,
    (e.state ≠ .mounting → e.finishMount = e)
    ∧ (e.state = .mounting → ∀ (kept : List Entry) (causes : ReadOnlyCauses) (st : MountStats) (n1 n2 : NoticeUnit),
      kept = e.index.entries.filter (fun t => !(t.body.kind == .deleted && t.stale == 0)) →
      causes = { retiredLimit := 48 ≤ e.retiredCount, indexOverflow := 0 < e.mount.stats.overflow
                 writeSequence := e.mount.maxRseq + 1 == 2 ^ 48, segmentSequence := e.mount.maxSseq + 1 == 2 ^ 32 } →
      st = e.mount.stats →
      n1 = e.notices.raise (.mountDone1 causes (e.mount.maxRseq + 1) (e.mount.maxSseq + 1)
        (kept.countP fun t => t.body.kind == .value) (kept.countP fun t => t.body.kind == .deleted)
        (kept.countP fun t => t.body.kind == .lost) st.estimated ((e.now - e.mount.started) / 1000)) →
      n2 = n1.raise (.mountDone2 (e.countSegs .free) (e.countSegs .full) (e.countSegs .dirty) (e.countSegs .retired)
        st.records st.torn st.resync st.damaged st.overflow) →
      e.finishMount.state = .running ∧ e.finishMount.mount.phase = .none
      ∧ e.finishMount.mount.stats = { st with ms := (e.now - e.mount.started) / 1000 }
      ∧ e.finishMount.index = { entries := kept, writeSeq := e.mount.maxRseq + 1 }
      ∧ e.finishMount.space.segSeq = e.mount.maxSseq + 1 ∧ e.finishMount.space.rotation = 3
      ∧ (∀ n, n < e.space.segs.length → (e.finishMount.seg n).live =
        ((kept.filterMap fun t => t.body.loc?).filterMap fun l => if l.seg = n then some l.count else none).sum)
      ∧ (∀ n, n < e.space.segs.length → (e.seg n).state = .full →
        (e.finishMount.seg n).pins = 0 ∧ (e.finishMount.seg n).progFailed = false)
      ∧ e.finishMount.reclaim.choiceDue = true
      ∧ e.finishMount.control.causes = causes ∧ e.finishMount.reclaim.causes.readOnly = causes.any
      ∧ e.finishMount.reclaim.refresh = ((List.range e.space.segs.length).filter fun n =>
        (e.seg n).weak && ((e.seg n).state == .head || (e.seg n).state == .full || (e.seg n).state == .failedClosed)).take 8
      ∧ (e.space.low = false → e.finishMount.notices = if e.countSegs .free ≤ e.control.limits.lowWater
        then n2.raise (.spaceLow (e.countSegs .free) e.control.limits.lowWater) else n2)
      ∧ (∀ n, n < e.space.segs.length → (e.finishMount.seg n).state =
        if (e.seg n).state = .dirty then .erasing else (e.seg n).state)
      ∧ e.finishMount.banks = (((List.range e.space.segs.length).filter fun n => (e.seg n).state == .dirty).foldl
        (fun k n => k.enqueue { kind := .erase, seg := n, cell := 0, count := 2048, requester := .space }) e).banks
      ∧ ((∀ l ∈ e.locations, (e.seg l.seg).state = .full) →
        ∀ l ∈ e.finishMount.locations, (e.finishMount.seg l.seg).state = .full))

/-! ### The admin jobs -/

/-- R161 and R162. An OPEN_RING is refused BAD_PARAM for a ring that is no data ring, BUSY for one that is not CLOSED or
while a FORMAT is running, and BAD_PARAM for parameters out of range; else the ring becomes OPEN as the descriptor gives
it. A CLOSE_RING completes BAD_PARAM for a ring that is no data ring, OK with a count of 0 for a CLOSED one, and BUSY
for one another CLOSE_RING waits on; an OPEN ring becomes DRAINING and a FAULTED one stays so, and the job waits, in
MEDIA (assumption 21). A DRAINING or FAULTED ring that a CLOSE_RING waits on becomes CLOSED when nothing of it is in
flight, with everything it held forgotten, and the job completes OK with the unfetched slots (R51, R162); every data ring
is tried at the end of a step, in ascending number (assumption 11). -/
def Obligations.AnOpenOrCloseRingFollowsItsState : Prop :=
  (∀ (s : State) (c : Nat) (x : JobContext) (d : Descriptor), s.jobAt c .openRing x → s.engine.rings.length = 8 →
      d = x.descriptor →
      (d.ringNumber = 0 ∨ 7 < d.ringNumber →
        exec (.openRing c) s = .next { s with engine := (s.engine.complete c { status := .badParam }).settle })
      ∧ (1 ≤ d.ringNumber → d.ringNumber ≤ 7 →
        ((s.engine.ring d.ringNumber).state ≠ .closed ∨ s.engine.format ≠ none →
          exec (.openRing c) s = .next { s with engine := (s.engine.complete c { status := .busy }).settle })
        ∧ ((s.engine.ring d.ringNumber).state = .closed → s.engine.format = none →
          ∀ ok : Bool, (ok = true ↔ d.ringSize ∈ [16, 32, 64, 128, 256, 512, 1024] ∧ d.priority ≤ 3 ∧ d.vector ≤ 8
            ∧ d.ringBase % 64 = 0 ∧ d.doneBase % 64 = 0) →
          (ok = false →
            exec (.openRing c) s = .next { s with engine := (s.engine.complete c { status := .badParam }).settle })
          ∧ (ok = true →
            exec (.openRing c) s = .next { s with engine := (Engine.complete { s.engine with
              rings := s.engine.rings.set d.ringNumber
                { state := .opened, jobBase := d.ringBase, doneBase := d.doneBase, size := d.ringSize
                  priority := d.priority, vector := d.vector, armed := d.armByte % 2 == 1 } } c
              { status := .ok, flags := { succeeded := true } }).settle }))))
  ∧ (∀ (s : State) (c r : Nat) (x : JobContext), s.jobAt c .closeRing x → r = Descriptor.ringNumber x.descriptor →
      (r = 0 ∨ 7 < r →
        exec (.closeRing c) s = .next { s with engine := (s.engine.complete c { status := .badParam }).settle })
      ∧ (∀ g, 1 ≤ r → r ≤ 7 → s.engine.rings[r]? = some g →
        (g.state = .closed → exec (.closeRing c) s = .next { s with engine := (s.engine.complete c
          { status := .ok, flags := { succeeded := true }, results := .close 0 }).settle })
        ∧ ((g.state = .draining ∨ (g.state = .faulted ∧ g.closer ≠ none)) →
          exec (.closeRing c) s = .next { s with engine := (s.engine.complete c { status := .busy }).settle })
        ∧ ((g.state = .opened ∨ (g.state = .faulted ∧ g.closer = none)) →
          exec (.closeRing c) s = .next { s with engine := { s.engine with
            rings := s.engine.rings.set r
              { g with state := if g.state = RingState.opened then RingState.draining else g.state, closer := some c }
            ctxs := s.engine.ctxs.set c { x with state := .media, ready := false } }.settle })))
  ∧ ∀ (e : Engine) (r : Nat) (g : RingContext), e.rings[r]? = some g →
    (∀ c, (g.state = .draining ∨ g.state = .faulted) → g.inFlight = 0 → g.closer = some c →
      e.closeRing r = Engine.complete { e with rings := e.rings.set r {} } c
        { status := .ok, flags := { succeeded := true }, results := .close ((g.tail + g.size - g.fetch) % g.size) })
    ∧ ((g.state = .closed ∨ g.state = .opened ∨ 0 < g.inFlight ∨ g.closer = none) → e.closeRing r = e)
    ∧ e.closeRings = ((((((e.closeRing 1).closeRing 2).closeRing 3).closeRing 4).closeRing 5).closeRing 6).closeRing 7

/-- R166: a SET_NOTICE completes BAD_PARAM for a size, vector or base out of range; it waits while a notice write is in
flight, with its context in MEDIA (assumption 21); else it sets the notice ring, or unsets it for a size of 0, clears
NOTICE_FAULT and completes OK. The jobs that waited do so, in the order in which they came, once no notice write is in
flight. -/
def Obligations.ASetNoticeReplacesTheRing : Prop :=
  (∀ (s : State) (c : Nat) (x : JobContext) (d : Descriptor) (ok : Bool), s.jobAt c .setNotice x → d = x.descriptor →
    (ok = true ↔ d.ringSize ∈ [0, 16, 32, 64, 128, 256, 512, 1024] ∧ d.vector ≤ 8 ∧ d.ringBase % 64 = 0) →
    (ok = false → exec (.setNotice c) s = .next { s with engine := (s.engine.complete c { status := .badParam }).settle })
    ∧ (ok = true → s.engine.notices.writing = true → exec (.setNotice c) s = .next { s with engine := { s.engine with
      ctxs := s.engine.ctxs.set c { x with state := .media, ready := false }
      notices := { s.engine.notices with setters := s.engine.notices.setters ++ [c] } }.settle })
    ∧ (ok = true → s.engine.notices.writing = false →
      exec (.setNotice c) s = .next { s with engine := (Engine.complete { s.engine with
        notices := { s.engine.notices with
          setters := s.engine.notices.setters.filter (· != c)
          ring := if d.ringSize = 0 then none
            else some { base := d.ringBase, size := d.ringSize, vector := d.vector, armed := d.armByte % 2 == 1 } }
        control := { s.engine.control with sticky := { s.engine.control.sticky with noticeFault := false } } } c
        { status := .ok, flags := { succeeded := true } }).settle }))
  ∧ ∀ (e : Engine) (c : Nat) (x : JobContext) (d : Descriptor), e.ctxs[c]? = some x → d = x.descriptor →
    e.applySetter c = Engine.complete { e with
      notices := { e.notices with
        setters := e.notices.setters.filter (· != c)
        ring := if d.ringSize = 0 then none
          else some { base := d.ringBase, size := d.ringSize, vector := d.vector, armed := d.armByte % 2 == 1 } }
      control := { e.control with sticky := { e.control.sticky with noticeFault := false } } } c
      { status := .ok, flags := { succeeded := true } }
    ∧ (e.notices.writing = true → e.applySetters = e)
    ∧ (e.notices.writing = false → e.applySetters = e.notices.setters.foldl Engine.applySetter e)

/-- R183: a SET_LIMITS with a nonzero value out of its range completes BAD_PARAM and changes no limit; else it takes the
nonzero values, all four in one step, and completes OK. Either way it reports the limits then in force. R72: the space
event test, made for a new low watermark, makes the level LOW at or below it, with continuous reclamation and SPACE_LOW,
and NORMAL above it plus 4, ending both with SPACE_RESTORED; between, and in MOUNTING, it changes nothing. The Reclaim
Unit's choice at SPACE_LOW is made at the end of the step (assumption 12). -/
def Obligations.ASetLimitsTakesAllOrNone : Prop :=
  (∀ (s : State) (c : Nat) (x : JobContext) (d : Descriptor) (old new : Limits) (ok : Bool), s.jobAt c .setLimits x →
      d = x.descriptor → old = s.engine.control.limits →
      (ok = true ↔ (d.lowWater = 0 ∨ (8 ≤ d.lowWater ∧ d.lowWater ≤ 64)) ∧ (d.spaceWait = 0 ∨ (10 ≤ d.spaceWait ∧ d.spaceWait ≤ 2000))
        ∧ (d.eraseQuantum = 0 ∨ (200 ≤ d.eraseQuantum ∧ d.eraseQuantum ≤ 5000))
        ∧ (d.threshold = 0 ∨ (1 ≤ d.threshold ∧ d.threshold ≤ 4))) →
      new = { lowWater := if d.lowWater = 0 then old.lowWater else d.lowWater
              spaceWait := if d.spaceWait = 0 then old.spaceWait else d.spaceWait
              eraseQuantum := if d.eraseQuantum = 0 then old.eraseQuantum else d.eraseQuantum
              threshold := if d.threshold = 0 then old.threshold else d.threshold } →
      (ok = false → exec (.setLimits c) s = .next { s with engine := (s.engine.complete c
        { status := .badParam, results := .limits old }).settle })
      ∧ (ok = true → d.lowWater = 0 → exec (.setLimits c) s = .next { s with engine := (Engine.complete { s.engine with
        control := { s.engine.control with limits := new } } c
        { status := .ok, flags := { succeeded := true }, results := .limits new }).settle })
      ∧ (ok = true → d.lowWater ≠ 0 → exec (.setLimits c) s = .next { s with engine := (Engine.complete
        (Engine.spaceTest { s.engine with control := { s.engine.control with limits := new } }) c
        { status := .ok, flags := { succeeded := true }, results := .limits new }).settle }))
  ∧ ∀ (e : Engine) (free low : Nat), free = e.freeCount → low = e.control.limits.lowWater →
      (e.state = .mounting → e.spaceTest = e)
      ∧ (e.state ≠ .mounting → e.space.low = false → low < free → e.spaceTest = e)
      ∧ (e.state ≠ .mounting → e.space.low = false → free ≤ low → e.spaceTest = { e with
        space := { e.space with low := true }
        reclaim := { e.reclaim with continuous := true, choiceDue := true }
        notices := e.notices.raise (.spaceLow free low) })
      ∧ (e.state ≠ .mounting → e.space.low = true → free ≤ low + 4 → e.spaceTest = e)
      ∧ (e.state ≠ .mounting → e.space.low = true → low + 4 < free → e.spaceTest = { e with
        space := { e.space with low := false }
        reclaim := { e.reclaim with continuous := false }
        notices := e.notices.raise (.spaceRestored free low) })

/-- R182, R185 to R187 and R196: a QUERY_ENGINE sends the 128-byte engine report to its report address; a QUERY_SEGMENT
is refused during MOUNTING and for a number above 511, and else sends the 64-byte segment report. Every field of both
reports holds its value at its place, and every other byte is 0. When the report has been written the job completes OK,
and HOST_ERROR when its write failed; a QUERY_SEGMENT then reports its segment, and a refused one reports 0 (assumption
32). The mount time is in whole ms (assumption 49). The codes of the states, phases and pause causes are those of R180
and R196, and the counts of segments and dead cells those of R55, R57 and R69. -/
def Obligations.AQuerySendsItsReport : Prop :=
  (∀ (s : State) (c : Nat) (x : JobContext) (n : Nat), n = Descriptor.segment x.descriptor →
    (s.jobAt c .queryEngine x →
      exec (.queryEngine c) s = .next { s with engine := { s.engine with
        ctxs := s.engine.ctxs.set c { x with
          state := .returning, ready := false
          transfer := some (.store (Descriptor.reportAddress x.descriptor) s.engine.report) } }.settle })
    ∧ (s.jobAt c .querySegment x →
      (s.engine.state = .mounting →
        exec (.querySegment c) s = .next { s with engine := (s.engine.complete c { status := .notMounted }).settle })
      ∧ (s.engine.state ≠ .mounting → 511 < n →
        exec (.querySegment c) s = .next { s with engine := (s.engine.complete c { status := .badParam }).settle })
      ∧ (s.engine.state ≠ .mounting → n ≤ 511 →
        exec (.querySegment c) s = .next { s with engine := { s.engine with
          ctxs := s.engine.ctxs.set c { x with
            state := .returning, ready := false
            transfer := some (.store (Descriptor.reportAddress x.descriptor) (s.engine.segReport n)) } }.settle }))
    ∧ (∀ j a bytes, (j = .queryEngine ∨ j = .querySegment) → s.returningAt c j x a bytes →
      exec (.reportWriteDone c true) s = .next { s with engine := (Engine.complete { s.engine with
        output := .memory a bytes :: s.engine.output } c
        { status := .ok, flags := { succeeded := true }
          results := if j = .querySegment then .segment n else .none }).settle }
      ∧ exec (.reportWriteDone c false) s = .next { s with engine := (Engine.complete { s.engine with
        output := .maybeMemory a bytes :: s.engine.output } c
        { status := .hostError, results := if j = .querySegment then .segment n else .none }).settle }))
  ∧ (∀ (e : Engine) (mounting : Bool) (held : KeyKind → Nat) (erases : List Nat) (st : MountStats) (u : ReclaimUnit),
    (mounting = true ↔ e.state = .mounting) → st = e.mount.stats → u = e.reclaim →
    (∀ kind, held kind = e.index.entries.countP fun t => t.body.kind == kind) →
    erases = (e.space.segs.filter fun g => g.state != .retired && g.state != .unclassified).map (·.eraseCount) →
    e.report.length = 128 ∧ e.report.drop 119 = List.replicate 9 0
    ∧ field e.report 60 4 = (erases.min?.getD 0) % 2 ^ 32 ∧ field e.report 64 4 = (erases.max?.getD 0) % 2 ^ 32
    ∧ ∀ f ∈ [(0, 1, e.state.code), (1, 1, e.control.causes.modeByte), (2, 1, e.mount.phase.code),
        (3, 1, if e.space.low then 1 else 0), (4, 4, held .nascent), (8, 4, held .value), (12, 4, held .deleted),
        (16, 4, held .lost), (20, 4, e.index.entries.length), (24, 8, if mounting then 0 else e.index.writeSeq),
        (32, 8, if mounting then 0 else e.space.segSeq), (40, 2, e.countSegs .free), (42, 2, e.countSegs .head),
        (44, 2, e.countSegs .full), (46, 2, e.countSegs .failedClosed), (48, 2, e.countSegs .reclaiming),
        (50, 2, e.countSegs .erasing), (52, 2, e.countSegs .dirty), (54, 2, e.countSegs .retired),
        (56, 2, e.countSegs .unclassified), (58, 2, e.retiredCount), (68, 4, erases.sum / erases.length),
        (72, 2, e.space.segs.countP fun g => g.estimated && g.state != .retired && g.state != .unclassified),
        (74, 1, u.state.code), (75, 1, u.causes.byte), (76, 2, u.victim.getD 0), (78, 2, u.cursor.getD 0),
        (80, 1, u.refresh.length), (81, 1, e.notices.queue.length), (82, 2, e.notices.number), (84, 4, st.records),
        (88, 4, st.torn), (92, 4, st.resync), (96, 4, st.damaged), (100, 2, st.dirty), (102, 2, st.estimated),
        (104, 4, st.overflow), (108, 4, if e.mount.phase = .none then st.ms else (e.now - e.mount.started) / 1000),
        (112, 2, e.control.limits.lowWater), (114, 2, e.control.limits.spaceWait),
        (116, 2, e.control.limits.eraseQuantum), (118, 1, e.control.limits.threshold)],
      field e.report f.1 f.2.1 = f.2.2 % 256 ^ f.2.1)
  ∧ (∀ (e : Engine) (n : Nat) (g : SegRecord), g = e.seg n →
    (e.segReport n).length = 64 ∧ (e.segReport n).drop 26 = List.replicate 38 0
    ∧ (∀ i, i = field (e.segReport n) 6 1 → e.reclaim.refresh.length ≤ 8 →
      (n ∉ e.reclaim.refresh → i = 0) ∧ (n ∈ e.reclaim.refresh → 1 ≤ i ∧ e.reclaim.refresh[i - 1]? = some n))
    ∧ ∀ f ∈ [(0, 2, n), (2, 1, n / 128), (3, 1, g.state.code), (4, 1, match g.role with
          | none => 0
          | some .host => 1
          | some .reclaim => 2),
        (5, 1, (if g.estimated then 1 else 0) + (if g.sseq = none then 0 else 2) + (if g.weak then 4 else 0)
          + (if g.progFailed then 8 else 0)),
        (7, 1, g.pins), (8, 4, g.eraseCount), (12, 4, g.sseq.getD 0), (16, 2, g.writePtr), (18, 2, g.progPtr),
        (20, 2, g.live), (22, 2, g.writePtr - 2 - g.live),
        (24, 2, if e.reclaim.victim = some n then e.reclaim.cursor.getD 0 else 0)],
      field (e.segReport n) f.1 f.2.1 = f.2.2 % 256 ^ f.2.1)
  ∧ (∀ e : Engine, e.freeCount = e.countSegs .free ∧ e.retiredCount = e.countSegs .retired
    ∧ ∀ st, e.countSegs st = e.space.segs.countP fun g => g.state == st)
  ∧ (∀ g : SegRecord, g.dead = g.writePtr - 2 - g.live)
  ∧ (∀ p ∈ [(EngineState.mounting, 0), (.running, 1), (.stopping, 2), (.stopped, 3), (.halted, 4)], p.1.code = p.2)
  ∧ (∀ p ∈ [(MountPhase.none, 0), (.survey, 1), (.passA, 2), (.passB, 3), (.finish, 4)], p.1.code = p.2)
  ∧ (∀ p ∈ [(ReclaimState.idle, 0), (.grantWait, 1), (.stepping, 2), (.paused, 3), (.released, 4)], p.1.code = p.2)
  ∧ (∀ p ∈ [(SegState.free, 0), (.head, 1), (.full, 2), (.failedClosed, 3), (.reclaiming, 4), (.erasing, 5), (.dirty, 6),
    (.retired, 7)], p.1.code = p.2)
  ∧ ∀ causes : PauseCauses, causes.byte =
    (if causes.stop then 1 else 0) + (if causes.readOnly then 2 else 0) + (if causes.space then 4 else 0)

/-- R129 and R114: a RECLAIM's refusals in order, one refused BUSY reporting no victim and no end state (assumption 46);
a RECLAIM of ANY that finds nothing completes OK with no victim; one whose start test fails completes NO_SPACE; else its
victim waits for its grant, a HEAD being closed first. The events of R112 it makes are taken up by the choice at the end
of the step (assumption 12). The unit's own choice is made when such an event has been taken and all the conditions of
R112 hold; the victim chosen is started with no requester and its grant tried at once. R65 and R110: the grant is made
when the victim's pointers are equal; it enters RECLAIMING with its tallies 0 and the cursor at 2, and leaves the refresh
list, which then takes the lowest-numbered weak segment in an eligible state that is not on it, if there is room. -/
def Obligations.AReclaimStartsItsVictim : Prop :=
  (∀ (s : State) (c n : Nat) (x : JobContext), s.jobAt c .reclaim x → n = Descriptor.segment x.descriptor →
    (s.engine.state = .mounting →
      exec (.reclaim c) s = .next { s with engine := (s.engine.complete c { status := .notMounted }).settle })
    ∧ (s.engine.state ≠ .mounting →
      ∀ named : Prop, (named ↔ n = 0xFFFF ∨ (n < 512 ∧ ((s.engine.seg n).state = .head ∨ (s.engine.seg n).state = .full
        ∨ (s.engine.seg n).state = .failedClosed))) →
      (¬ named → exec (.reclaim c) s = .next { s with engine := (s.engine.complete c { status := .badParam }).settle })
      ∧ (named → s.engine.readOnly = true →
        exec (.reclaim c) s = .next { s with engine := (s.engine.complete c { status := .readOnly }).settle })
      ∧ (named → s.engine.readOnly = false → (s.engine.reclaim.state ≠ .idle ∨ s.engine.format ≠ none) →
        exec (.reclaim c) s = .next { s with engine := (s.engine.complete c { status := .busy }).settle })
      ∧ (named → s.engine.readOnly = false → s.engine.reclaim.state = .idle → s.engine.format = none →
        (n = 0xFFFF → s.engine.chooseVictim true = none →
          exec (.reclaim c) s = .next { s with engine := (s.engine.complete c
            { status := .ok, flags := { succeeded := true }, results := .reclaim none .none 0 {} }).settle })
        ∧ ∀ v, (if n = 0xFFFF then s.engine.chooseVictim true else some n) = some v →
          (¬ (s.engine.seg v).live + 63 ≤ s.engine.headRoom v + 2045 * s.engine.freeCount →
            exec (.reclaim c) s = .next { s with engine := (s.engine.complete c { status := .noSpace }).settle })
          ∧ ((s.engine.seg v).live + 63 ≤ s.engine.headRoom v + 2045 * s.engine.freeCount →
            ∃ head : Bool, (head = true ↔ (s.engine.seg v).state = .head)
              ∧ exec (.reclaim c) s = .next { s with engine := { s.engine with
                ctxs := s.engine.ctxs.set c { x with state := .media, ready := false }
                space := if head then { s.engine.space with
                  segs := updAt s.engine.space.segs v fun g => { g with state := .full, role := none } } else s.engine.space
                reclaim := { s.engine.reclaim with
                  state := .grantWait, victim := some v, cursor := none, requester := some c, step := .none, sweep := none
                  choiceDue := head || s.engine.reclaim.choiceDue } }.settle }))))
  ∧ (∀ (e : Engine) (v : Nat), (e.headOf .reclaim none = none → e.headRoom v = 0)
    ∧ ∀ h, e.headOf .reclaim none = some h → e.headRoom v = if h = v then 0 else 2047 - (e.seg h).writePtr)
  ∧ (∀ (e : Engine) (chooses : Bool), (chooses = true ↔ e.reclaim.choiceDue = true ∧ e.reclaim.state = .idle
      ∧ e.state = .running ∧ e.readOnly = false ∧ e.format = none
      ∧ (e.reclaim.refresh ≠ [] ∨ (∃ g ∈ e.space.segs, g.state = .failedClosed) ∨ e.reclaim.continuous = true)) →
    (chooses = false ∨ e.chooseVictim e.reclaim.continuous = none →
      e.makeChoice = { e with reclaim := { e.reclaim with choiceDue := false } })
    ∧ ∀ v g, chooses = true → e.chooseVictim e.reclaim.continuous = some v → e.space.segs[v]? = some g →
      (¬ g.live + 63 ≤ e.headRoom v + 2045 * e.freeCount →
        e.makeChoice = { e with reclaim := { e.reclaim with choiceDue := false } })
      ∧ (g.live + 63 ≤ e.headRoom v + 2045 * e.freeCount → ∃ k : Engine,
        k = Engine.grantVictim { (if g.state = .head then e.withSeg v { g with state := .full, role := none } else e) with
          reclaim := { e.reclaim with
            state := .grantWait, victim := some v, cursor := none, requester := none, step := .none, sweep := none } }
        ∧ e.makeChoice = { k with reclaim := { k.reclaim with choiceDue := false } }))
  ∧ ∀ (e : Engine) (n : Nat) (g : SegRecord) (refresh rest : List Nat) (due : Bool), e.space.segs[n]? = some g →
    e.reclaim.victim = some n → rest = e.reclaim.refresh.filter (· != n) →
    (e.reclaim.state ≠ .grantWait ∨ g.progPtr ≠ g.writePtr → e.grantVictim = e)
    ∧ (e.reclaim.state = .grantWait → g.progPtr = g.writePtr → ∀ joins : Nat → Prop,
      (∀ m, joins m ↔ m ≠ n ∧ m ∉ rest ∧ ∃ h, e.space.segs[m]? = some h ∧ h.weak = true
        ∧ (h.state = .head ∨ h.state = .full ∨ h.state = .failedClosed)) →
      (n ∉ e.reclaim.refresh → refresh = e.reclaim.refresh ∧ due = e.reclaim.choiceDue) →
      (n ∈ e.reclaim.refresh → (8 ≤ rest.length ∨ ∀ m, ¬ joins m) → refresh = rest ∧ due = e.reclaim.choiceDue) →
      (n ∈ e.reclaim.refresh → rest.length < 8 → ∀ m, joins m → (∀ q, q < m → ¬ joins q) →
        refresh = rest ++ [m] ∧ due = true) →
      e.grantVictim = Engine.recordBoundary { e.withSeg n { g with state := .reclaiming, role := none } with
        reclaim := { e.reclaim with
          state := .stepping, cursor := some 2, tallies := {}, step := .none, sweep := none, refresh := refresh
          choiceDue := due } })

/-- R132: a SCRUB is refused NOT_MOUNTED during MOUNTING and BAD_PARAM for a segment that is not in use; else it pins
the segment and reads its first record cell, with the programmed pointer as its limit, or ends at once when that is the
first cell. R106, R132 and R133: a read of the walk may mark its segment weak and is unpinned (the order is assumption
42); the cells corrected and the largest count are noted. A BLANK header ends the walk with BLANK; an INVALID one is
passed, an uncorrectable record when its cell was UNCORRECTABLE; a VALID one is counted, and its value cells are read,
an uncorrectable record when they are DAMAGED. The walk ends with LIMIT at its limit or cell 2047, and with STATE when
its segment is no longer in use; then the job completes OK with the cells walked and the counts. -/
def Obligations.AScrubReadsFromTheFirstCell : Prop :=
  (∀ (s : State) (c n : Nat) (x : JobContext), s.jobAt c .scrub x → n = Descriptor.segment x.descriptor →
    (s.engine.state = .mounting →
      exec (.scrub c) s = .next { s with engine := (s.engine.complete c { status := .notMounted }).settle })
    ∧ (s.engine.state ≠ .mounting →
      ∀ inUse : Prop, (inUse ↔ n < 512 ∧ ((s.engine.seg n).state = .head ∨ (s.engine.seg n).state = .full
        ∨ (s.engine.seg n).state = .failedClosed ∨ (s.engine.seg n).state = .reclaiming)) →
      (¬ inUse → exec (.scrub c) s = .next { s with engine := (s.engine.complete c { status := .badParam }).settle })
      ∧ (inUse → ∀ y, y = { x with
          state := .media, ready := false, scrub := { seg := n, cursor := 2, limit := (s.engine.seg n).progPtr } } →
        ((s.engine.seg n).progPtr ≤ 2 → exec (.scrub c) s = .next { s with engine := (Engine.complete { s.engine with
          ctxs := s.engine.ctxs.set c y } c
          { status := .ok, flags := { succeeded := true }, results := .scrub n .limit 0 0 0 0 0 }).settle })
        ∧ (2 < (s.engine.seg n).progPtr → exec (.scrub c) s = .next { s with engine := ({ s.engine with
          ctxs := s.engine.ctxs.set c y
          space := { s.engine.space with
            segs := updAt s.engine.space.segs n fun g => { g with pins := g.pins + 1 } } : Engine }.enqueue
          { kind := .read, seg := n, cell := 2, count := 1, requester := .ctx c }).settle }))))
  ∧ ∀ (e : Engine) (c p : Nat) (x : JobContext) (w : ScrubWork) (g : SegRecord), e.ctxs[c]? = some x → w = x.scrub →
    p = w.cursor → e.space.segs[w.seg]? = some g →
    (∀ (q : Request) (cells : List CellOutcome) (weak : Bool), x.job = some .scrub → q.requester = .ctx c → q.seg = w.seg →
      weak = weakRead e.control.limits.threshold cells →
      e.readReported q cells = ((if weak then e.weakMark w.seg else e).unpin w.seg).scrubReadDone c q cells)
    ∧ (∀ (q : Request) (cells : List CellOutcome) (bits : CellOutcome → Nat) (y : ScrubWork),
      (∀ o, bits o = match o with
        | .good _ m => m
        | _ => 0) →
      y = { w with
        corrected := w.corrected + cells.countP (fun o => 1 ≤ bits o)
        maxBits := cells.foldl (fun m o => max m (bits o)) w.maxBits } →
      (∀ h, w.header = some h → e.scrubReadDone c q cells = (e.withCtx c { x with scrub := { y with
        cursor := p + h.cells, header := none
        uncorrectable := y.uncorrectable + (if valueVerdict h cells = .damaged then 1 else 0) } }).scrubNext c)
      ∧ ∀ o, w.header = none → cells = [o] → q.cell = p →
        (headerVerdict p o = .blank → e.scrubReadDone c q cells = (e.withCtx c { x with scrub := y }).scrubEnd c .blank)
        ∧ (headerVerdict p o = .invalid → e.scrubReadDone c q cells = (e.withCtx c { x with scrub := { y with
          cursor := p + 1, uncorrectable := y.uncorrectable + (if o = .uncorrectable then 1 else 0) } }).scrubNext c)
        ∧ ∀ h, headerVerdict p o = .valid h →
          (h.cells = 1 → e.scrubReadDone c q cells = (e.withCtx c { x with scrub := { y with
            cursor := p + 1, records := y.records + 1 } }).scrubNext c)
          ∧ (h.cells ≠ 1 → e.scrubReadDone c q cells = (e.withCtx c { x with scrub := { y with
            records := y.records + 1, header := some h } }).scrubRead c (p + 1) (h.cells - 1)))
    ∧ (w.limit ≤ p ∨ 2047 ≤ p → e.scrubNext c = e.scrubEnd c .limit)
    ∧ (p < w.limit → p < 2047 → e.scrubNext c = e.scrubRead c p 1)
    ∧ (∀ (cell count : Nat) (inUse : Bool),
      (inUse = true ↔ g.state = .head ∨ g.state = .full ∨ g.state = .failedClosed ∨ g.state = .reclaiming) →
      (inUse = true → e.scrubRead c cell count = (e.withSeg w.seg { g with pins := g.pins + 1 }).enqueue
        { kind := .read, seg := w.seg, cell := cell, count := count, requester := .ctx c })
      ∧ (inUse = false → e.scrubRead c cell count = e.scrubEnd c .state))
    ∧ ∀ ended, e.scrubEnd c ended = e.complete c
      { status := .ok, flags := { succeeded := true }
        results := .scrub w.seg ended w.maxBits (p - 2) w.records w.corrected w.uncorrectable }

/-- R188, R190, R4, R5 and R178: a FORMAT is refused NOT_MOUNTED during MOUNTING, and BUSY while another runs or any
data ring is not CLOSED; else it is running from that moment, with its context in MEDIA. The stages of R189: it waits
until no step or grant is under way and ends the reclaim, whose requester completes BUSY, HELD (R127, R130); then the
index is emptied (R22), and every segment in use or DIRTY, but for a released victim, enters ERASING and leaves the
refresh list, the rotation point is 3, and the erases of those that are not pinned are queued, in ascending number, which
is the model's choice (assumption 47; R73, R110); it waits until no segment is ERASING and no released victim is left,
counting the segments of stage 3 as they end. One that ends sets both sequence counters to 1, leaves no cause of READ_ONLY
but a retired count of 48 or more, raises WRITE_MODE and lets the Reclaim Unit choose when the mode becomes WRITABLE,
raises FORMAT_DONE, its time in whole ms (assumption 49), and completes OK; nothing else changes. -/
def Obligations.AFormatNeedsClosedDataRings : Prop :=
  (∀ (s : State) (c : Nat) (x : JobContext), s.jobAt c .format x → s.engine.rings.length = 8 →
    (s.engine.state = .mounting →
      exec (.format c) s = .next { s with engine := (s.engine.complete c { status := .notMounted }).settle })
    ∧ (s.engine.state ≠ .mounting →
      (s.engine.format ≠ none ∨ ∃ r, 1 ≤ r ∧ r ≤ 7 ∧ (s.engine.ring r).state ≠ .closed) →
      exec (.format c) s = .next { s with engine := (s.engine.complete c { status := .busy }).settle })
    ∧ (s.engine.state ≠ .mounting → s.engine.format = none → (∀ r, 1 ≤ r → r ≤ 7 → (s.engine.ring r).state = .closed) →
      exec (.format c) s = .next { s with engine := { s.engine with
        ctxs := s.engine.ctxs.set c { x with state := .media, ready := false }
        format := some { ctx := c, started := s.engine.now } }.settle }))
  ∧ (∀ e : Engine, e.format = none → e.formatBegin = e ∧ e.formatEnd = e ∧ ∀ n retired, e.formatCounts n retired = e)
  ∧ (∀ (e : Engine) (f : FormatRun), e.format = some f →
    (f.stage ≠ .ending ∨ e.reclaim.state = .grantWait ∨ e.reclaim.state = .stepping → e.formatBegin = e)
    ∧ (f.stage = .ending → (e.reclaim.state = .idle ∨ e.reclaim.state = .paused ∨ e.reclaim.state = .released) →
      ∀ (segs : List Nat) (k : Engine), segs = (List.range e.space.segs.length).filter (fun n => match (e.seg n).state with
          | .head | .full | .failedClosed | .dirty => true
          | .reclaiming => e.space.released != some n
          | _ => false) →
        (e.reclaim.requester = none → k = e) →
        (∀ c, e.reclaim.requester = some c → k = e.complete c
          { status := .busy, results := .reclaim e.reclaim.victim .held (e.reclaim.cursor.getD 0) e.reclaim.tallies }) →
        e.formatBegin = (segs.filter fun n => (e.seg n).pins == 0).foldl
          (fun m n => m.enqueue { kind := .erase, seg := n, cell := 0, count := 2048, requester := .space })
          { k with
            index := { e.index with entries := [] }
            space := { e.space with
              segs := e.space.segs.mapIdx fun n g => if n ∈ segs then
                { g with state := .erasing, role := none, progFailed := false, live := 0 } else { g with live := 0 }
              rotation := 3, pinWait := e.space.pinWait ++ segs.filter fun n => (e.seg n).pins != 0 }
            reclaim := { e.reclaim with
              state := .idle, victim := none, cursor := none, causes := {}, requester := none, tallies := {}
              step := .none, sweep := none, refresh := [] }
            format := some { f with stage := .erasing, segs := segs } })
    ∧ (f.stage = .erasing → (∀ g ∈ e.space.segs, g.state ≠ .erasing) → e.space.released = none →
      e.formatEnd = e.formatFinish f)
    ∧ (f.stage ≠ .erasing ∨ (∃ g ∈ e.space.segs, g.state = .erasing) ∨ e.space.released ≠ none → e.formatEnd = e)
    ∧ ∀ (n : Nat) (retired : Bool), (n ∉ f.segs → e.formatCounts n retired = e)
      ∧ (n ∈ f.segs → e.formatCounts n retired = { e with format := some { f with
        erased := f.erased + (if retired then 0 else 1), retired := f.retired + (if retired then 1 else 0) } }))
  ∧ ∀ (e : Engine) (f : FormatRun) (causes : ReadOnlyCauses) (freed : Prop), causes = { retiredLimit := 48 ≤ e.retiredCount } →
    (freed ↔ e.readOnly = true ∧ e.retiredCount < 48) →
    ∃ k : Engine, e.formatFinish f = (k.raiseNotice (.formatDone f.erased f.retired e.freeCount e.retiredCount causes
        ((e.now - f.started) / 1000))).complete f.ctx
        { status := .ok, flags := { succeeded := true }
          results := .format f.erased f.retired e.freeCount e.retiredCount causes }
      ∧ (freed → k = { e with
        index := { e.index with writeSeq := 1 }, space := { e.space with segSeq := 1 }
        control := { e.control with causes := causes }, format := some { f with stage := .posting }
        notices := e.notices.raise (.writeMode {} .format), reclaim := { e.reclaim with choiceDue := true } })
      ∧ (¬ freed → k = { e with
        index := { e.index with writeSeq := 1 }, space := { e.space with segSeq := 1 }
        control := { e.control with causes := causes }, format := some { f with stage := .posting } })
end

