-- ==== Sys2Proof/Laws/Array.lean ====
section
/-! SUPPORT. The cell array: every operation keeps its canonical form, a cell reads what was last put there, and a set
leaves every other cell alone. -/

namespace Sys2Proof.Machine

open Sys2Proof

/-- Every cell number listed is above `n`. -/
def CellArray.above (a : CellArray) (n : Nat) : Prop := ∀ p ∈ a, n < p.1

theorem CellArray.wf_cons {k : Nat} {d : CellData} {l : CellArray} :
    CellArray.wf ((k, d) :: l) ↔ CellArray.above l k ∧ CellArray.wf l := by
  simp only [CellArray.wf, CellArray.above, List.map_cons, List.pairwise_cons, List.mem_map, forall_exists_index, and_imp]
  constructor
  · rintro ⟨h1, h2⟩
    exact ⟨fun p hp => h1 p.1 p hp rfl, h2⟩
  · rintro ⟨h1, h2⟩
    exact ⟨fun a p hp he => he ▸ h1 p hp, h2⟩

theorem CellArray.above_set {a : CellArray} {m n : Nat} (v : Option CellData) (h : CellArray.above a m) (hn : m < n) :
    CellArray.above (a.set n v) m := by
  induction a with
  | nil =>
    cases v with
    | none => exact h
    | some x => intro p hp; simp only [CellArray.set, List.mem_singleton] at hp; subst hp; exact hn
  | cons q l ih =>
    obtain ⟨k, d⟩ := q
    have hk : m < k := h (k, d) (List.mem_cons_self ..)
    have hl : CellArray.above l m := fun p hp => h p (List.mem_cons_of_mem _ hp)
    unfold CellArray.set
    split
    · cases v with
      | none => exact h
      | some x =>
        intro p hp
        rcases List.mem_cons.mp hp with rfl | hp
        · exact hn
        · exact h p hp
    · split
      · cases v with
        | none => exact hl
        | some x =>
          intro p hp
          rcases List.mem_cons.mp hp with rfl | hp
          · exact hk
          · exact hl p hp
      · intro p hp
        rcases List.mem_cons.mp hp with rfl | hp
        · exact hk
        · exact ih hl p hp

/-- A set keeps the canonical form. -/
theorem CellArray.set_wf {a : CellArray} (h : a.wf) (n : Nat) (v : Option CellData) : (a.set n v).wf := by
  induction a with
  | nil => cases v <;> simp [CellArray.set, CellArray.wf]
  | cons q l ih =>
    obtain ⟨k, d⟩ := q
    have hc := CellArray.wf_cons.mp h
    unfold CellArray.set
    split
    · rename_i hlt
      cases v with
      | none => exact h
      | some x =>
        refine CellArray.wf_cons.mpr ⟨fun p hp => ?_, h⟩
        rcases List.mem_cons.mp hp with rfl | hp
        · exact hlt
        · exact Nat.lt_trans hlt (hc.1 p hp)
    · split
      · cases v with
        | none => exact hc.2
        | some x => exact CellArray.wf_cons.mpr hc
      · exact CellArray.wf_cons.mpr ⟨CellArray.above_set v hc.1 (by omega), ih hc.2⟩

/-- A cell reads what a set put there. -/
theorem CellArray.get_set_self {a : CellArray} (h : a.wf) (n : Nat) (v : Option CellData) : (a.set n v).get n = v := by
  induction a with
  | nil => cases v <;> simp [CellArray.set, CellArray.get]
  | cons q l ih =>
    obtain ⟨k, d⟩ := q
    have hc := CellArray.wf_cons.mp h
    have none_above : ∀ {b : CellArray}, (∀ p ∈ b, n < p.1) → b.get n = none := by
      intro b hb
      induction b with
      | nil => rfl
      | cons r m im =>
        have h1 : n < r.1 := hb r (List.mem_cons_self ..)
        show (if r.1 = n then some r.2 else CellArray.get m n) = none
        rw [if_neg (by omega)]
        exact im fun p hp => hb p (List.mem_cons_of_mem _ hp)
    unfold CellArray.set
    split
    · rename_i hlt
      cases v with
      | none =>
        apply none_above
        intro p hp
        rcases List.mem_cons.mp hp with rfl | hp
        · exact hlt
        · exact Nat.lt_trans hlt (hc.1 p hp)
      | some x => simp [CellArray.get]
    · split
      · rename_i hne heq
        subst heq
        cases v with
        | none => exact none_above hc.1
        | some x => simp [CellArray.get]
      · rename_i hlt hne
        show (if k = n then some d else CellArray.get (CellArray.set l n v) n) = v
        rw [if_neg (fun he => hne he.symm)]
        exact ih hc.2

/-- A set leaves every other cell as it was. -/
theorem CellArray.get_set_ne {a : CellArray} (n m : Nat) (v : Option CellData) (hm : m ≠ n) :
    (a.set n v).get m = a.get m := by
  induction a with
  | nil => cases v <;> simp [CellArray.set, CellArray.get, hm.symm]
  | cons q l ih =>
    obtain ⟨k, d⟩ := q
    unfold CellArray.set
    split
    · cases v <;> simp [CellArray.get, hm.symm]
    · split
      · rename_i heq
        subst heq
        cases v <;> simp [CellArray.get, hm.symm]
      · show (if k = m then some d else CellArray.get (CellArray.set l n v) m) = if k = m then some d else CellArray.get l m
        rw [ih]

theorem CellArray.program_wf {a : CellArray} (h : a.wf) (n : Nat) (ds : List CellData) : (a.program n ds).wf := by
  induction ds generalizing a n with
  | nil => exact h
  | cons d ds ih => exact ih (CellArray.set_wf h n _) (n + 1)

theorem CellArray.failProgram_wf {a : CellArray} (h : a.wf) (draw n : Nat) (ds : List CellData) :
    (a.failProgram draw n ds).wf := by
  induction ds generalizing a n with
  | nil => exact h
  | cons d ds ih => exact ih (CellArray.set_wf h n _) (n + 1)

theorem CellArray.cutCells_wf {a : CellArray} (h : a.wf) (draw : Nat) (whole : Bool) (n : Nat) (ds : List CellData) :
    (a.cutCells draw whole n ds).wf := by
  induction ds generalizing a n with
  | nil => exact h
  | cons d ds ih => exact ih (CellArray.set_wf h n _) (n + 1)

theorem CellArray.cutProgram_wf {a : CellArray} (h : a.wf) (draw n : Nat) (ds : List CellData) :
    (a.cutProgram draw n ds).wf := by
  unfold CellArray.cutProgram
  dsimp only
  split
  · exact CellArray.set_wf (CellArray.cutCells_wf h draw _ n ds) _ _
  · exact CellArray.cutCells_wf h draw _ n ds

/-- The cells of a program cut short are the only ones it changes. -/
theorem CellArray.get_cutCells_out {a : CellArray} (draw : Nat) (whole : Bool) (n : Nat) (ds : List CellData) (m : Nat)
    (h : m < n ∨ n + ds.length ≤ m) : (a.cutCells draw whole n ds).get m = a.get m := by
  induction ds generalizing a n with
  | nil => rfl
  | cons d ds ih =>
    simp only [List.length_cons] at h
    show CellArray.get (CellArray.cutCells _ draw whole (n + 1) ds) m = a.get m
    rw [ih _ (by omega), CellArray.get_set_ne _ m _ (by omega)]

/-- Each of them holds what its draw says. -/
theorem CellArray.get_cutCells_in {a : CellArray} (h : a.wf) (draw : Nat) (whole : Bool) (n : Nat) (ds : List CellData)
    {i : Nat} {d : CellData} (hi : ds[i]? = some d) :
    (a.cutCells draw whole n ds).get (n + i) = (Config.tornCell draw (n + i)).cutContents d draw whole := by
  induction ds generalizing a n i with
  | nil => cases hi
  | cons c ds ih =>
    show CellArray.get (CellArray.cutCells _ draw whole (n + 1) ds) (n + i) = _
    cases i with
    | zero =>
      cases hi
      rw [CellArray.get_cutCells_out _ _ _ _ _ (by omega)]
      exact CellArray.get_set_self h _ _
    | succ i =>
      have := ih (CellArray.set_wf h n ((Config.tornCell draw n).cutContents c draw whole)) (n + 1) hi
      rwa [show n + (i + 1) = n + 1 + i by omega]

theorem CellArray.get_cutProgram_out {a : CellArray} (draw n : Nat) (ds : List CellData) (m : Nat)
    (h : m < n ∨ n + ds.length ≤ m) : (a.cutProgram draw n ds).get m = a.get m := by
  unfold CellArray.cutProgram
  dsimp only
  split
  · rename_i hw
    simp only [Bool.and_eq_true, decide_eq_true_eq] at hw
    rw [CellArray.get_set_ne _ m _ (by omega), CellArray.get_cutCells_out _ _ _ _ _ h]
  · exact CellArray.get_cutCells_out _ _ _ _ _ h

/-- The two forms of a program cut short (R23, R96, R100): none of its cells is whole, or its header is and a value cell is
blank. -/
theorem CellArray.cutProgram_torn {a : CellArray} (h : a.wf) (draw n : Nat) (ds : List CellData) :
    (∀ i, i < ds.length → (a.cutProgram draw n ds).get (n + i) = none
      ∨ ∃ t, (a.cutProgram draw n ds).get (n + i) = some (.torn t))
    ∨ (2 ≤ ds.length ∧ (a.cutProgram draw n ds).get n = ds[0]?
      ∧ ∃ i, 1 ≤ i ∧ i < ds.length ∧ (a.cutProgram draw n ds).get (n + i) = none) := by
  unfold CellArray.cutProgram
  dsimp only
  cases hw : Config.tornCell draw n == .whole && decide (2 ≤ ds.length) with
  | false =>
    left
    intro i hi
    simp only [Bool.false_and, Bool.false_eq_true, if_false]
    rw [CellArray.get_cutCells_in h draw false n ds (List.getElem?_eq_getElem hi)]
    cases Config.tornCell draw (n + i) with
    | blank => exact .inl rfl
    | whole => exact .inr ⟨draw, rfl⟩
    | stray t => exact .inr ⟨t, rfl⟩
  | true =>
    right
    simp only [Bool.and_eq_true, beq_iff_eq, decide_eq_true_eq] at hw
    obtain ⟨hc, hl⟩ := hw
    have h0 : (a.cutCells draw true n ds).get n = ds[0]? := by
      have := CellArray.get_cutCells_in h draw true n ds (i := 0) (List.getElem?_eq_getElem (by omega))
      rw [Nat.add_zero, hc] at this
      rw [this, List.getElem?_eq_getElem (by omega : 0 < ds.length)]
      rfl
    simp only [Bool.true_and]
    split
    · refine ⟨hl, ?_, ds.length - 1, by omega, by omega, ?_⟩
      · rw [CellArray.get_set_ne _ n _ (by omega), h0]
      · rw [show n + (ds.length - 1) = n + ds.length - 1 by omega]
        exact CellArray.get_set_self (CellArray.cutCells_wf h draw true n ds) _ _
    · rename_i hall
      simp only [List.all_eq_true, List.mem_range, bne_iff_ne, ne_eq, Classical.not_forall, Decidable.not_not] at hall
      obtain ⟨i, hi, hb⟩ := hall
      refine ⟨hl, h0, i + 1, by omega, by omega, ?_⟩
      rw [CellArray.get_cutCells_in h draw true n ds (List.getElem?_eq_getElem (by omega : i + 1 < ds.length)),
        show n + (i + 1) = n + 1 + i by omega, hb]
      rfl

theorem CellArray.failRequest_wf {a : CellArray} (h : a.wf) (draw : Nat) (q : Request) : (a.failRequest draw q).wf := by
  unfold CellArray.failRequest
  dsimp only
  split
  · exact CellArray.cutProgram_wf h _ _ _
  · exact CellArray.failProgram_wf h _ _ _

/-- The first failure of a host record leaves nothing that a mount takes (R147). -/
theorem CellArray.failRequest_first (a : CellArray) (draw : Nat) {q : Request} (hk : q.kind = .hostRecord)
    (hf : q.failures = 0) : a.failRequest draw q = a.cutProgram draw (cellNumber q.seg q.cell) q.contents :=
  if_pos ⟨hk, hf⟩

/-- Any other failure leaves any contents (R88). -/
theorem CellArray.failRequest_other (a : CellArray) (draw : Nat) {q : Request} (h : q.kind ≠ .hostRecord ∨ q.failures ≠ 0) :
    a.failRequest draw q = a.failProgram draw (cellNumber q.seg q.cell) q.contents :=
  if_neg fun k => h.elim (· k.1) (· k.2)

theorem CellArray.erase_wf {a : CellArray} (h : a.wf) (seg : Nat) : (a.erase seg).wf :=
  List.Pairwise.sublist (List.Sublist.map _ List.filter_sublist) h

theorem CellArray.eraseCells_wf {a : CellArray} (h : a.wf) (draw seg n : Nat) : (a.eraseCells draw seg n).wf := by
  induction n generalizing a with
  | zero => exact h
  | succ n ih => exact ih (CellArray.set_wf h _ _)

theorem CellArray.partialErase_wf {a : CellArray} (h : a.wf) (draw seg : Nat) : (a.partialErase draw seg).wf := by
  unfold CellArray.partialErase
  dsimp only
  split
  · exact CellArray.eraseCells_wf (CellArray.set_wf h _ _) draw seg _
  · exact CellArray.set_wf h _ _

/-- What is left of cells 1 to `n` of a segment leaves every other cell as it was. -/
theorem CellArray.get_eraseCells_out {a : CellArray} (draw seg n m : Nat)
    (h : m ≤ cellNumber seg 0 ∨ cellNumber seg n < m) : (a.eraseCells draw seg n).get m = a.get m := by
  induction n generalizing a with
  | zero => rfl
  | succ n ih =>
    have hne : m ≠ cellNumber seg (n + 1) := by
      unfold cellNumber at h ⊢
      omega
    have h' : m ≤ cellNumber seg 0 ∨ cellNumber seg n < m := by
      unfold cellNumber at h ⊢
      omega
    show CellArray.get (CellArray.eraseCells _ draw seg n) m = a.get m
    rw [ih h', CellArray.get_set_ne _ m _ hne]

/-- A failed or cut erase leaves every cell outside its segment as it was (R78). -/
theorem CellArray.get_partialErase_out {a : CellArray} (draw seg m : Nat) (h : inSegment seg m = false) :
    (a.partialErase draw seg).get m = a.get m := by
  simp only [inSegment, Bool.and_eq_false_iff, decide_eq_false_iff_not, cellsPerSegment] at h
  have hne : m ≠ cellNumber seg 0 := by simp only [cellNumber, cellsPerSegment]; omega
  unfold CellArray.partialErase
  dsimp only
  split
  · rw [CellArray.get_eraseCells_out, CellArray.get_set_ne _ m _ hne]
    simp only [cellNumber, cellsPerSegment]
    omega
  · exact CellArray.get_set_ne _ m _ hne

/-- Its format cell is erased, or no other cell has changed (R78). -/
theorem CellArray.partialErase_format {a : CellArray} (h : a.wf) (draw seg : Nat) :
    (a.partialErase draw seg).get (cellNumber seg 0) = none
      ∨ ∀ m, m ≠ cellNumber seg 0 → (a.partialErase draw seg).get m = a.get m := by
  unfold CellArray.partialErase
  dsimp only
  split
  · left
    rw [CellArray.get_eraseCells_out _ _ _ _ (.inl (Nat.le_refl _)), CellArray.get_set_self h]
  · exact .inr fun m hm => CellArray.get_set_ne _ m _ hm

theorem CellArray.cutShort_wf {a : CellArray} (h : a.wf) (draw : Nat) (q : Request) : (a.cutShort draw q).wf := by
  unfold CellArray.cutShort
  cases q.kind <;>
    first
      | exact h
      | exact CellArray.partialErase_wf h draw q.seg
      | exact CellArray.set_wf h _ _
      | exact CellArray.cutProgram_wf h draw _ _

theorem CellArray.cutAll_wf {a : CellArray} (h : a.wf) (draw : Nat) (os : List Operation) : (a.cutAll draw os).wf := by
  induction os generalizing a draw with
  | nil => exact h
  | cons o os ih => exact ih (CellArray.cutShort_wf h draw o.request) (draw + 1)

/-- An erase that passed leaves every cell of the segment erased (R78). -/
theorem CellArray.get_erase_in {a : CellArray} (seg n : Nat) (h : inSegment seg n = true) : (a.erase seg).get n = none := by
  induction a with
  | nil => rfl
  | cons q l ih =>
    obtain ⟨k, d⟩ := q
    have ih' : CellArray.get (List.filter (fun p => !inSegment seg p.1) l) n = none := ih
    by_cases hk : inSegment seg k = true
    · simpa [CellArray.erase, hk] using ih'
    · simp only [CellArray.erase, List.filter_cons, hk, Bool.not_false, if_true]
      show (if k = n then some d else CellArray.get _ n) = none
      have hne : k ≠ n := fun he => hk (by rw [he]; exact h)
      rw [if_neg hne, ih']

/-- It leaves every other cell as it was. -/
theorem CellArray.get_erase_out {a : CellArray} (seg n : Nat) (h : inSegment seg n = false) :
    (a.erase seg).get n = a.get n := by
  induction a with
  | nil => rfl
  | cons q l ih =>
    obtain ⟨k, d⟩ := q
    have ih' : CellArray.get (List.filter (fun p => !inSegment seg p.1) l) n = CellArray.get l n := ih
    by_cases hk : inSegment seg k = true
    · have hne : k ≠ n := fun he => by rw [he, h] at hk; exact Bool.noConfusion hk
      simpa [CellArray.erase, hk, CellArray.get, hne] using ih'
    · simp only [CellArray.erase, List.filter_cons, hk, Bool.not_false, if_true]
      show (if k = n then some d else CellArray.get _ n) = if k = n then some d else CellArray.get l n
      rw [ih']

/-- What a program that passed leaves: its cells hold what was programmed, and every other cell is as it was (R78). -/
theorem CellArray.get_program_out {a : CellArray} (n m : Nat) (ds : List CellData) (h : m < n ∨ n + ds.length ≤ m) :
    (a.program n ds).get m = a.get m := by
  induction ds generalizing a n with
  | nil => rfl
  | cons d ds ih =>
    have h' : m < n + 1 ∨ n + 1 + ds.length ≤ m := by
      rcases h with h | h
      · exact .inl (by omega)
      · exact .inr (by simp only [List.length_cons] at h; omega)
    have hne : m ≠ n := by
      rcases h with h | h
      · omega
      · simp only [List.length_cons] at h; omega
    show CellArray.get (CellArray.program (a.set n (some d)) (n + 1) ds) m = a.get m
    rw [ih (n + 1) h', CellArray.get_set_ne n m _ hne]

theorem CellArray.get_program_in {a : CellArray} (h : a.wf) (n i : Nat) (ds : List CellData) (hi : i < ds.length) :
    (a.program n ds).get (n + i) = ds[i]? := by
  induction ds generalizing a n i with
  | nil => simp at hi
  | cons d ds ih =>
    have hw := CellArray.set_wf h n (some d)
    cases i with
    | zero =>
      show CellArray.get (CellArray.program (a.set n (some d)) (n + 1) ds) n = some d
      rw [CellArray.get_program_out (n + 1) n ds (.inl (by omega)), CellArray.get_set_self h]
    | succ i =>
      have hi' : i < ds.length := by simpa using hi
      show CellArray.get (CellArray.program (a.set n (some d)) (n + 1) ds) (n + (i + 1)) = ds[i]?
      rw [show n + (i + 1) = n + 1 + i by omega]
      exact ih hw (n + 1) i hi'

end Sys2Proof.Machine
end

