-- ==== Sys2Proof/Laws/Banks.lean ====
section
/-! SUPPORT. What each operation on a bank keeps: the rules of its queues, its suspend stack and its streak. -/

namespace Sys2Proof.Machine

open Sys2Proof

@[simp] theorem Bank.run_activeOp (k : Bank) (now quantum : Nat) (o : Operation) :
    (k.run now quantum o).activeOp = some o.op := rfl
@[simp] theorem Bank.run_stack (k : Bank) (now quantum : Nat) (o : Operation) : (k.run now quantum o).stack = k.stack := rfl
@[simp] theorem Bank.run_state (k : Bank) (now quantum : Nat) (o : Operation) : (k.run now quantum o).state = .active := rfl
@[simp] theorem Bank.run_streak (k : Bank) (now quantum : Nat) (o : Operation) : (k.run now quantum o).streak = k.streak := rfl

/-- Running an operation over a stack that it may lie above keeps the law. -/
theorem Bank.run_lawful {k : Bank} {now quantum : Nat} {o : Operation} (q : k.queuesHold) (t : k.streak ≤ maxStreak)
    (s : stackShape (k.stack.map Operation.op))
    (p : o.op = .program → k.stack.map Operation.op = [] ∨ k.stack.map Operation.op = [.erase])
    (e : o.op = .erase → k.stack = []) : (k.run now quantum o).lawful :=
  ⟨q, ⟨s, fun h => p (by simpa using h), fun h => e (by simpa using h)⟩, fun h => by simp at h, t⟩

/-- A request joins the queue of its own operation. -/
theorem Bank.join_queuesHold {k : Bank} (q : Request) (h : k.queuesHold) : (k.join q).queuesHold := by
  obtain ⟨h1, h2, h3, h4⟩ := h
  unfold Bank.join
  cases hk : q.kind <;>
    (refine ⟨?_, ?_, ?_, ?_⟩ <;> intro r hr <;>
      first
        | exact h1 r hr
        | exact h2 r hr
        | exact h3 r hr
        | exact h4 r hr
        | (rcases List.mem_append.mp hr with hr | hr
           · first
               | exact h1 r hr
               | exact h2 r hr
               | exact h3 r hr
               | exact h4 r hr
           · simp only [List.mem_singleton] at hr
             subst hr
             simp [hk, RequestKind.op]))

theorem Bank.join_rest (k : Bank) (q : Request) :
    (k.join q).stack = k.stack ∧ (k.join q).active = k.active ∧ (k.join q).state = k.state ∧ (k.join q).streak = k.streak := by
  unfold Bank.join
  cases q.kind <;> exact ⟨rfl, rfl, rfl, rfl⟩

theorem Bank.join_lawful {k : Bank} (q : Request) (h : k.lawful) : (k.join q).lawful := by
  obtain ⟨h1, h2, h3, h4⟩ := h
  obtain ⟨hs, ha, ht, hk⟩ := k.join_rest q
  refine ⟨Bank.join_queuesHold q h1, ?_, ?_, ?_⟩
  · simpa only [Bank.stackHolds, Bank.activeOp, hs, ha] using h2
  · simpa only [Bank.suspendHolds, Bank.activeOp, ht, ha] using h3
  · simpa only [hk] using h4

/-- Steps 5 to 7 of the selection keep the law, where no program lies on the stack. -/
theorem Bank.selectBackground_lawful {k : Bank} (now quantum : Nat) (q : k.queuesHold) (t : k.streak ≤ maxStreak)
    (s : k.stack.map Operation.op = [] ∨ k.stack.map Operation.op = [.erase]) :
    (k.selectBackground now quantum).lawful := by
  unfold Bank.selectBackground
  split
  · rename_i o rest hst
    rw [hst] at s
    have hr : rest = [] := by simp at s; exact s.2
    subst hr
    have ho : o.op = .erase := by simp at s; exact s
    exact Bank.run_lawful (k := { k with stack := [] }) q t (.inl rfl) (fun _ => .inl rfl) (fun _ => rfl)
  · rename_i r rest hst hr
    have h0 : k.stack.map Operation.op = [] := by simp [hst]
    refine Bank.run_lawful (k := { k with reclaimQ := rest, streak := 0 }) ?_ (Nat.zero_le _) (.inl h0) (fun _ => .inl h0)
      (fun _ => hst)
    exact ⟨q.1, q.2.1, fun x h => q.2.2.1 x (by rw [hr]; exact List.mem_cons_of_mem _ h), q.2.2.2⟩
  · rename_i r rest hst hr he
    have h0 : k.stack.map Operation.op = [] := by simp [hst]
    refine Bank.run_lawful (k := { k with eraseQ := rest }) ?_ t (.inl h0) (fun _ => .inl h0) (fun _ => hst)
    exact ⟨q.1, q.2.1, q.2.2.1, fun x h => q.2.2.2 x (by rw [he]; exact List.mem_cons_of_mem _ h)⟩
  · rename_i hst hr he
    exact ⟨q, ⟨.inl (by simp [hst]), fun h => by simp [Bank.activeOp] at h, fun _ => hst⟩, fun h => by simp at h, t⟩

/-- Starting a host program above nothing or one erase keeps the law. -/
theorem Bank.startHost_lawful {k : Bank} (now quantum : Nat) {r : Request} {rest : List Request} (hr : k.hostQ = r :: rest)
    (q : k.queuesHold) (t : k.streak ≤ maxStreak)
    (s : k.stack.map Operation.op = [] ∨ k.stack.map Operation.op = [.erase]) :
    (k.startHost now quantum r rest).lawful := by
  have hop : r.kind.op = .program := q.2.1 r (by simp [hr])
  have hne : ({ request := r } : Operation).op ≠ .erase := by simp [Operation.op, hop]
  refine Bank.run_lawful ?_ ?_ ?_ (fun _ => s) (fun h => absurd h hne)
  · exact ⟨q.1, fun x h => q.2.1 x (by rw [hr]; exact List.mem_cons_of_mem _ h), q.2.2.1, q.2.2.2⟩
  · show (if k.reclaimQ.isEmpty then k.streak else min maxStreak (k.streak + 1)) ≤ maxStreak
    split
    · exact t
    · exact Nat.min_le_left _ _
  · rcases s with s | s
    · exact .inl s
    · exact .inr (.inl s)

/-- Steps 2 to 4 of the selection keep the law. -/
theorem Bank.selectForeground_lawful {k : Bank} (now quantum : Nat) (q : k.queuesHold) (t : k.streak ≤ maxStreak)
    (s : stackShape (k.stack.map Operation.op)) : (k.selectForeground now quantum).lawful := by
  unfold Bank.selectForeground
  split
  · rename_i r rest hr
    have hop : r.kind.op = .read := q.1 r (by simp [hr])
    refine Bank.run_lawful (k := { k with readQ := rest }) ?_ t s (fun h => ?_) (fun h => ?_)
    · exact ⟨fun x h => q.1 x (by rw [hr]; exact List.mem_cons_of_mem _ h), q.2.1, q.2.2.1, q.2.2.2⟩
    · simp [Operation.op, hop] at h
    · simp [Operation.op, hop] at h
  · split
    · rename_i o rest hst
      rw [hst] at s
      by_cases hp : o.op = .program
      · rw [if_pos hp]
        have hrest : rest.map Operation.op = [] ∨ rest.map Operation.op = [.erase] := by
          rcases s with s | s | s | s <;> simp_all
        refine Bank.run_lawful (k := { k with stack := rest }) q t ?_ (fun _ => hrest) (fun h => ?_)
        · rcases hrest with h | h
          · exact .inl h
          · exact .inr (.inl h)
        · rw [hp] at h; simp at h
      · rw [if_neg hp]
        have hs : k.stack.map Operation.op = [] ∨ k.stack.map Operation.op = [.erase] := by
          rw [hst]; rcases s with s | s | s | s <;> simp_all
        split
        · rename_i r more hh
          exact Bank.startHost_lawful now quantum hh q t hs
        · exact Bank.selectBackground_lawful now quantum q t hs
    · rename_i hst
      have hs : k.stack.map Operation.op = [] ∨ k.stack.map Operation.op = [.erase] := .inl (by simp [hst])
      split
      · rename_i r more hh
        exact Bank.startHost_lawful now quantum hh q t hs
      · exact Bank.selectBackground_lawful now quantum q t hs

/-- A selection keeps the law, whatever was active before it. -/
theorem Bank.select_lawful {k : Bank} (now quantum : Nat) (q : k.queuesHold) (t : k.streak ≤ maxStreak)
    (s : stackShape (k.stack.map Operation.op)) : (k.select now quantum).lawful := by
  unfold Bank.select
  split
  · rename_i r rest hst hr
    split
    · have h0 : k.stack.map Operation.op = [] := by simp [hst]
      refine Bank.run_lawful (k := { k with reclaimQ := rest, streak := 0 }) ?_ (Nat.zero_le _) (.inl h0)
        (fun _ => .inl h0) (fun _ => hst)
      exact ⟨q.1, q.2.1, fun x h => q.2.2.1 x (by rw [hr]; exact List.mem_cons_of_mem _ h), q.2.2.2⟩
    · exact Bank.selectForeground_lawful now quantum q t s
  · exact Bank.selectForeground_lawful now quantum q t s

theorem Bank.lawful.select {k : Bank} (h : k.lawful) (now quantum : Nat) : (k.select now quantum).lawful :=
  Bank.select_lawful now quantum h.1 h.2.2.2 h.2.1.1

/-- Only a program or an erase is suspendable (R83). -/
theorem Bank.suspendable_activeOp {k : Bank} (h : k.suspendable = true) :
    k.activeOp = some .program ∨ k.activeOp = some .erase := by
  unfold Bank.suspendable at h
  unfold Bank.activeOp
  cases ha : k.active with
  | none => simp [ha] at h
  | some o =>
    simp only [ha] at h
    cases ho : o.op with
    | read => simp [ho] at h
    | program => exact .inl (by simp [ho])
    | erase => exact .inr (by simp [ho])
    | blankCheck => simp [ho] at h

theorem Bank.lawful.askSuspend {k : Bank} (h : k.lawful) (s : k.suspendable = true) : k.askSuspend.lawful :=
  ⟨h.1, h.2.1, fun _ => Bank.suspendable_activeOp (k := k) s, h.2.2.2⟩

/-- A suspendable bank stays so when a request joins a queue. -/
theorem Bank.join_suspendable (k : Bank) (q : Request) (ha : k.suspendable = true) : (k.join q).suspendable = true := by
  have : (k.join q).suspendable = k.suspendable := by unfold Bank.join; cases q.kind <;> rfl
  rw [this]; exact ha

/-- An arrival keeps the law (R77, R79, R84). -/
theorem Bank.lawful.arrive {k : Bank} (h : k.lawful) (now quantum : Nat) (q : Request) : (k.arrive now quantum q).lawful := by
  unfold Bank.arrive
  have hj := Bank.join_lawful q h
  cases k.state with
  | idle => exact hj.select now quantum
  | active =>
    dsimp only
    split
    · rename_i hc
      simp only [Bool.and_eq_true] at hc
      exact hj.askSuspend (k.join_suspendable q hc.2)
    · exact hj
  | suspending => exact hj

/-- The expiry of a quantum keeps the law (R85). -/
theorem Bank.lawful.quantumExpired {k : Bank} (h : k.lawful) : k.quantumExpired.lawful := by
  have hq : ({ k with quantumEnd := none } : Bank).lawful := h
  unfold Bank.quantumExpired
  dsimp only
  split
  · rename_i hc
    simp only [Bool.and_eq_true] at hc
    exact hq.askSuspend hc.2
  · exact hq

theorem Bank.lawful.ended {k : Bank} (h : k.lawful) : k.ended.lawful :=
  ⟨h.1, ⟨h.2.1.1, fun c => by simp [Bank.activeOp, Bank.ended] at c, fun c => by simp [Bank.activeOp, Bank.ended] at c⟩,
    fun c => by simp [Bank.ended] at c, h.2.2.2⟩

theorem Bank.lawful.haltedIdle {k : Bank} (h : k.lawful) : k.haltedIdle.lawful :=
  ⟨h.1, ⟨h.2.1.1, fun c => by simp [Bank.activeOp, Bank.haltedIdle] at c,
    fun c => by simp [Bank.activeOp, Bank.haltedIdle] at c⟩, fun c => by simp [Bank.haltedIdle] at c, h.2.2.2⟩

theorem Bank.lawful.dropQueues {k : Bank} (h : k.lawful) : k.dropQueues.lawful :=
  ⟨⟨fun _ c => by simp [Bank.dropQueues] at c, fun _ c => by simp [Bank.dropQueues] at c,
    fun _ c => by simp [Bank.dropQueues] at c, fun _ c => by simp [Bank.dropQueues] at c⟩, h.2.1, h.2.2.1, h.2.2.2⟩

/-- A suspension that takes effect keeps the law (R86, R87). -/
theorem Bank.lawful.pushActive {k : Bank} (h : k.lawful) (hs : k.state = .suspending) : k.pushActive.lawful := by
  have hop := h.2.2.1 hs
  unfold Bank.pushActive
  split
  · rename_i o ha
    have hact : k.activeOp = some o.op := by simp [Bank.activeOp, ha]
    have hpush : ({ o with suspends := o.suspends + 1 } : Operation).op = o.op := rfl
    refine ⟨h.1, ⟨?_, fun c => by simp [Bank.activeOp, Bank.ended] at c, fun c => by simp [Bank.activeOp, Bank.ended] at c⟩,
      fun c => by simp [Bank.ended] at c, h.2.2.2⟩
    rw [hact] at hop
    show stackShape (List.map Operation.op ({ o with suspends := o.suspends + 1 } :: k.stack))
    rw [List.map_cons, hpush]
    rcases hop with hp | he
    · have hp' : o.op = .program := by simpa using hp
      rcases h.2.1.2.1 (by rw [hact, hp']) with hk | hk
      · rw [hk, hp']; exact .inr (.inr (.inl rfl))
      · rw [hk, hp']; exact .inr (.inr (.inr rfl))
    · have he' : o.op = .erase := by simpa using he
      rw [h.2.1.2.2 (by rw [hact, he']), he']
      exact .inr (.inl rfl)
  · exact h

/-- A withdrawal keeps the law (R91). -/
theorem Bank.lawful.withdraw {k : Bank} (h : k.lawful) (seg : Nat) : (k.withdraw seg).lawful := by
  refine ⟨⟨h.1.1, fun q c => h.1.2.1 q (List.mem_filter.mp c).1, fun q c => h.1.2.2.1 q (List.mem_filter.mp c).1,
    h.1.2.2.2⟩, h.2.1, h.2.2.1, ?_⟩
  show (if _ then 0 else k.streak) ≤ maxStreak
  split
  · exact Nat.zero_le _
  · exact h.2.2.2

/-- The passing of time keeps the law. -/
theorem Bank.lawful.tick {k : Bank} (h : k.lawful) : k.tick.lawful := by
  have hop : k.tick.activeOp = k.activeOp := by
    unfold Bank.tick Bank.activeOp
    cases k.state <;> (try rfl)
    cases k.active <;> rfl
  have hrest : k.tick.stack = k.stack ∧ k.tick.state = k.state ∧ k.tick.streak = k.streak ∧ k.tick.readQ = k.readQ
      ∧ k.tick.hostQ = k.hostQ ∧ k.tick.reclaimQ = k.reclaimQ ∧ k.tick.eraseQ = k.eraseQ := by
    unfold Bank.tick
    split <;> exact ⟨rfl, by simp_all, rfl, rfl, rfl, rfl, rfl⟩
  obtain ⟨r1, r2, r3, r4, r5, r6, r7⟩ := hrest
  obtain ⟨h1, h2, h3, h4⟩ := h
  refine ⟨?_, ?_, ?_, ?_⟩
  · simpa only [Bank.queuesHold, r4, r5, r6, r7] using h1
  · simpa only [Bank.stackHolds, hop, r1] using h2
  · simpa only [Bank.suspendHolds, hop, r2] using h3
  · rw [r3]; exact h4

/-- A bank after a reset is lawful. -/
theorem Bank.reset_lawful : ({} : Bank).lawful :=
  ⟨⟨fun _ c => by simp at c, fun _ c => by simp at c, fun _ c => by simp at c, fun _ c => by simp at c⟩,
    ⟨.inl rfl, fun _ => .inl rfl, fun _ => rfl⟩, fun c => by simp at c, Nat.zero_le _⟩

end Sys2Proof.Machine
end

