-- ==== Sys2Proof/Laws/Index.lean ====
section
/-! SUPPORT. The index's map: finding after each change, and that each change keeps R6. -/

namespace Sys2Proof.Machine

open Sys2Proof

theorem changeEntry_keys (l : List Entry) (key : Nat) (f : Entry → Entry) :
    (changeEntry l key f).map (·.key) = l.map (·.key) := by
  unfold changeEntry
  rw [List.map_map]
  apply List.map_congr_left
  intro t _
  dsimp only [Function.comp]
  split <;> rfl

theorem changeEntry_law {l : List Entry} (h : indexLaw l) (key : Nat) (f : Entry → Entry) :
    indexLaw (changeEntry l key f) := by
  refine ⟨?_, ?_⟩
  · rw [changeEntry_keys]; exact h.1
  · simpa [changeEntry] using h.2

theorem filter_law {l : List Entry} (h : indexLaw l) (p : Entry → Bool) : indexLaw (l.filter p) :=
  ⟨List.Pairwise.sublist (List.Sublist.map _ List.filter_sublist) h.1,
    Nat.le_trans (List.length_filter_le p l) h.2⟩

theorem nil_law : indexLaw [] := ⟨List.Pairwise.nil, Nat.zero_le _⟩

theorem insertEntry_mem {l : List Entry} {t : Entry} {k : Nat} (h : k ∈ (insertEntry l t).map (·.key)) :
    k = t.key ∨ k ∈ l.map (·.key) := by
  induction l with
  | nil => simpa [insertEntry] using h
  | cons u l ih =>
    unfold insertEntry at h
    split at h
    · simpa using h
    · simp only [List.map_cons, List.mem_cons] at h ⊢
      rcases h with h | h
      · exact .inr (.inl h)
      · rcases ih h with h | h
        · exact .inl h
        · exact .inr (.inr h)

theorem insertEntry_length (l : List Entry) (t : Entry) : (insertEntry l t).length = l.length + 1 := by
  induction l with
  | nil => rfl
  | cons u l ih => unfold insertEntry; split <;> simp [ih]

/-- A key with no entry is not among the keys. -/
theorem findEntry_none {l : List Entry} {key : Nat} : findEntry l key = none ↔ key ∉ l.map (·.key) := by
  simp [findEntry, List.find?_eq_none]

theorem insertEntry_law {l : List Entry} (h : indexLaw l) (t : Entry) (absent : findEntry l t.key = none)
    (room : l.length < indexCapacity) : indexLaw (insertEntry l t) := by
  refine ⟨?_, by rw [insertEntry_length]; exact room⟩
  have hn := findEntry_none.mp absent
  have hs := h.1
  clear h absent room
  induction l with
  | nil => simp [insertEntry]
  | cons u l ih =>
    simp only [List.map_cons, List.mem_cons, not_or] at hn
    simp only [List.map_cons, List.pairwise_cons] at hs
    unfold insertEntry
    split
    · rename_i hlt
      simp only [List.map_cons, List.pairwise_cons, List.mem_cons]
      refine ⟨?_, hs.1, hs.2⟩
      rintro k (rfl | hk)
      · exact hlt
      · exact Nat.lt_trans hlt (hs.1 k hk)
    · rename_i hge
      simp only [List.map_cons, List.pairwise_cons]
      refine ⟨fun k hk => ?_, ih hn.2 hs.2⟩
      rcases insertEntry_mem hk with rfl | hk
      · have := hn.1; omega
      · exact hs.1 k hk

/-- The entry of a key after that entry has been changed. -/
theorem findEntry_changeEntry_self (l : List Entry) (key : Nat) (f : Entry → Entry) :
    findEntry (changeEntry l key f) key = (findEntry l key).map fun t => { f t with key := t.key } := by
  unfold findEntry changeEntry
  induction l with
  | nil => rfl
  | cons u l ih =>
    simp only [List.map_cons, List.find?_cons]
    by_cases hk : u.key = key
    · simp [hk]
    · have : (u.key == key) = false := by simp [hk]
      simp [hk, this, ih]

/-- Another key's entry is as it was. -/
theorem findEntry_changeEntry_ne (l : List Entry) (key other : Nat) (f : Entry → Entry) (h : other ≠ key) :
    findEntry (changeEntry l key f) other = findEntry l other := by
  unfold findEntry changeEntry
  induction l with
  | nil => rfl
  | cons u l ih =>
    simp only [List.map_cons, List.find?_cons]
    by_cases hk : u.key = key
    · have h1 : (key == other) = false := by simp [Ne.symm h]
      simp [hk, h1, ih]
    · simp [hk, ih]

end Sys2Proof.Machine
end

