-- ==== Sys2Proof/Laws/State.lean ====
section
/-! SUPPORT. One lemma per field per update of the engine, true by rfl, so that no proof unfolds a record update; and what
reading one context, ring or bank gives after one of them was changed. -/

namespace Sys2Proof.Machine

open Sys2Proof

/-! ### Changing one item of a list -/

@[simp] theorem updAt_length {α : Type} (l : List α) (i : Nat) (f : α → α) : (updAt l i f).length = l.length := by
  induction l generalizing i with
  | nil => rfl
  | cons a l ih => cases i <;> simp [updAt, ih]

theorem updAt_getD_self {α : Type} (l : List α) (i : Nat) (f : α → α) (d : α) (h : i < l.length) :
    (updAt l i f).getD i d = f (l.getD i d) := by
  induction l generalizing i with
  | nil => simp at h
  | cons a l ih =>
    cases i with
    | zero => rfl
    | succ i => simpa [updAt] using ih i (by simpa using h)

theorem updAt_getD_ne {α : Type} (l : List α) (i j : Nat) (f : α → α) (d : α) (h : j ≠ i) :
    (updAt l i f).getD j d = l.getD j d := by
  induction l generalizing i j with
  | nil => rfl
  | cons a l ih =>
    cases i with
    | zero => cases j with
      | zero => exact absurd rfl h
      | succ j => rfl
    | succ i => cases j with
      | zero => rfl
      | succ j => simpa [updAt] using ih i j (by omega)

/-! ### What an update leaves alone -/

@[simp] theorem Engine.modCtx_registers (e : Engine) (c : Nat) (f : JobContext → JobContext) : (e.modCtx c f).registers = e.registers := rfl
@[simp] theorem Engine.modCtx_rings (e : Engine) (c : Nat) (f : JobContext → JobContext) : (e.modCtx c f).rings = e.rings := rfl
@[simp] theorem Engine.modCtx_arbiter (e : Engine) (c : Nat) (f : JobContext → JobContext) : (e.modCtx c f).arbiter = e.arbiter := rfl
@[simp] theorem Engine.modCtx_notices (e : Engine) (c : Nat) (f : JobContext → JobContext) : (e.modCtx c f).notices = e.notices := rfl
@[simp] theorem Engine.modCtx_index (e : Engine) (c : Nat) (f : JobContext → JobContext) : (e.modCtx c f).index = e.index := rfl
@[simp] theorem Engine.modCtx_space (e : Engine) (c : Nat) (f : JobContext → JobContext) : (e.modCtx c f).space = e.space := rfl
@[simp] theorem Engine.modCtx_banks (e : Engine) (c : Nat) (f : JobContext → JobContext) : (e.modCtx c f).banks = e.banks := rfl
@[simp] theorem Engine.modCtx_reclaim (e : Engine) (c : Nat) (f : JobContext → JobContext) : (e.modCtx c f).reclaim = e.reclaim := rfl
@[simp] theorem Engine.modCtx_mount (e : Engine) (c : Nat) (f : JobContext → JobContext) : (e.modCtx c f).mount = e.mount := rfl
@[simp] theorem Engine.modCtx_format (e : Engine) (c : Nat) (f : JobContext → JobContext) : (e.modCtx c f).format = e.format := rfl
@[simp] theorem Engine.modCtx_control (e : Engine) (c : Nat) (f : JobContext → JobContext) : (e.modCtx c f).control = e.control := rfl
@[simp] theorem Engine.modCtx_now (e : Engine) (c : Nat) (f : JobContext → JobContext) : (e.modCtx c f).now = e.now := rfl
@[simp] theorem Engine.modCtx_draws (e : Engine) (c : Nat) (f : JobContext → JobContext) : (e.modCtx c f).draws = e.draws := rfl
@[simp] theorem Engine.modCtx_output (e : Engine) (c : Nat) (f : JobContext → JobContext) : (e.modCtx c f).output = e.output := rfl

@[simp] theorem Engine.modRing_registers (e : Engine) (r : Nat) (f : RingContext → RingContext) : (e.modRing r f).registers = e.registers := rfl
@[simp] theorem Engine.modRing_arbiter (e : Engine) (r : Nat) (f : RingContext → RingContext) : (e.modRing r f).arbiter = e.arbiter := rfl
@[simp] theorem Engine.modRing_notices (e : Engine) (r : Nat) (f : RingContext → RingContext) : (e.modRing r f).notices = e.notices := rfl
@[simp] theorem Engine.modRing_ctxs (e : Engine) (r : Nat) (f : RingContext → RingContext) : (e.modRing r f).ctxs = e.ctxs := rfl
@[simp] theorem Engine.modRing_index (e : Engine) (r : Nat) (f : RingContext → RingContext) : (e.modRing r f).index = e.index := rfl
@[simp] theorem Engine.modRing_space (e : Engine) (r : Nat) (f : RingContext → RingContext) : (e.modRing r f).space = e.space := rfl
@[simp] theorem Engine.modRing_banks (e : Engine) (r : Nat) (f : RingContext → RingContext) : (e.modRing r f).banks = e.banks := rfl
@[simp] theorem Engine.modRing_reclaim (e : Engine) (r : Nat) (f : RingContext → RingContext) : (e.modRing r f).reclaim = e.reclaim := rfl
@[simp] theorem Engine.modRing_mount (e : Engine) (r : Nat) (f : RingContext → RingContext) : (e.modRing r f).mount = e.mount := rfl
@[simp] theorem Engine.modRing_format (e : Engine) (r : Nat) (f : RingContext → RingContext) : (e.modRing r f).format = e.format := rfl
@[simp] theorem Engine.modRing_control (e : Engine) (r : Nat) (f : RingContext → RingContext) : (e.modRing r f).control = e.control := rfl
@[simp] theorem Engine.modRing_now (e : Engine) (r : Nat) (f : RingContext → RingContext) : (e.modRing r f).now = e.now := rfl
@[simp] theorem Engine.modRing_draws (e : Engine) (r : Nat) (f : RingContext → RingContext) : (e.modRing r f).draws = e.draws := rfl
@[simp] theorem Engine.modRing_output (e : Engine) (r : Nat) (f : RingContext → RingContext) : (e.modRing r f).output = e.output := rfl

@[simp] theorem Engine.modBank_registers (e : Engine) (b : Nat) (f : Bank → Bank) : (e.modBank b f).registers = e.registers := rfl
@[simp] theorem Engine.modBank_rings (e : Engine) (b : Nat) (f : Bank → Bank) : (e.modBank b f).rings = e.rings := rfl
@[simp] theorem Engine.modBank_arbiter (e : Engine) (b : Nat) (f : Bank → Bank) : (e.modBank b f).arbiter = e.arbiter := rfl
@[simp] theorem Engine.modBank_notices (e : Engine) (b : Nat) (f : Bank → Bank) : (e.modBank b f).notices = e.notices := rfl
@[simp] theorem Engine.modBank_ctxs (e : Engine) (b : Nat) (f : Bank → Bank) : (e.modBank b f).ctxs = e.ctxs := rfl
@[simp] theorem Engine.modBank_index (e : Engine) (b : Nat) (f : Bank → Bank) : (e.modBank b f).index = e.index := rfl
@[simp] theorem Engine.modBank_space (e : Engine) (b : Nat) (f : Bank → Bank) : (e.modBank b f).space = e.space := rfl
@[simp] theorem Engine.modBank_reclaim (e : Engine) (b : Nat) (f : Bank → Bank) : (e.modBank b f).reclaim = e.reclaim := rfl
@[simp] theorem Engine.modBank_mount (e : Engine) (b : Nat) (f : Bank → Bank) : (e.modBank b f).mount = e.mount := rfl
@[simp] theorem Engine.modBank_format (e : Engine) (b : Nat) (f : Bank → Bank) : (e.modBank b f).format = e.format := rfl
@[simp] theorem Engine.modBank_control (e : Engine) (b : Nat) (f : Bank → Bank) : (e.modBank b f).control = e.control := rfl
@[simp] theorem Engine.modBank_now (e : Engine) (b : Nat) (f : Bank → Bank) : (e.modBank b f).now = e.now := rfl
@[simp] theorem Engine.modBank_draws (e : Engine) (b : Nat) (f : Bank → Bank) : (e.modBank b f).draws = e.draws := rfl
@[simp] theorem Engine.modBank_output (e : Engine) (b : Nat) (f : Bank → Bank) : (e.modBank b f).output = e.output := rfl

@[simp] theorem Engine.modSeg_registers (e : Engine) (n : Nat) (f : SegRecord → SegRecord) : (e.modSeg n f).registers = e.registers := rfl
@[simp] theorem Engine.modSeg_rings (e : Engine) (n : Nat) (f : SegRecord → SegRecord) : (e.modSeg n f).rings = e.rings := rfl
@[simp] theorem Engine.modSeg_arbiter (e : Engine) (n : Nat) (f : SegRecord → SegRecord) : (e.modSeg n f).arbiter = e.arbiter := rfl
@[simp] theorem Engine.modSeg_notices (e : Engine) (n : Nat) (f : SegRecord → SegRecord) : (e.modSeg n f).notices = e.notices := rfl
@[simp] theorem Engine.modSeg_ctxs (e : Engine) (n : Nat) (f : SegRecord → SegRecord) : (e.modSeg n f).ctxs = e.ctxs := rfl
@[simp] theorem Engine.modSeg_index (e : Engine) (n : Nat) (f : SegRecord → SegRecord) : (e.modSeg n f).index = e.index := rfl
@[simp] theorem Engine.modSeg_banks (e : Engine) (n : Nat) (f : SegRecord → SegRecord) : (e.modSeg n f).banks = e.banks := rfl
@[simp] theorem Engine.modSeg_reclaim (e : Engine) (n : Nat) (f : SegRecord → SegRecord) : (e.modSeg n f).reclaim = e.reclaim := rfl
@[simp] theorem Engine.modSeg_mount (e : Engine) (n : Nat) (f : SegRecord → SegRecord) : (e.modSeg n f).mount = e.mount := rfl
@[simp] theorem Engine.modSeg_format (e : Engine) (n : Nat) (f : SegRecord → SegRecord) : (e.modSeg n f).format = e.format := rfl
@[simp] theorem Engine.modSeg_control (e : Engine) (n : Nat) (f : SegRecord → SegRecord) : (e.modSeg n f).control = e.control := rfl
@[simp] theorem Engine.modSeg_now (e : Engine) (n : Nat) (f : SegRecord → SegRecord) : (e.modSeg n f).now = e.now := rfl
@[simp] theorem Engine.modSeg_draws (e : Engine) (n : Nat) (f : SegRecord → SegRecord) : (e.modSeg n f).draws = e.draws := rfl
@[simp] theorem Engine.modSeg_output (e : Engine) (n : Nat) (f : SegRecord → SegRecord) : (e.modSeg n f).output = e.output := rfl

@[simp] theorem Engine.emit_registers (e : Engine) (o : HostOutput) : (e.emit o).registers = e.registers := rfl
@[simp] theorem Engine.emit_rings (e : Engine) (o : HostOutput) : (e.emit o).rings = e.rings := rfl
@[simp] theorem Engine.emit_arbiter (e : Engine) (o : HostOutput) : (e.emit o).arbiter = e.arbiter := rfl
@[simp] theorem Engine.emit_notices (e : Engine) (o : HostOutput) : (e.emit o).notices = e.notices := rfl
@[simp] theorem Engine.emit_ctxs (e : Engine) (o : HostOutput) : (e.emit o).ctxs = e.ctxs := rfl
@[simp] theorem Engine.emit_index (e : Engine) (o : HostOutput) : (e.emit o).index = e.index := rfl
@[simp] theorem Engine.emit_space (e : Engine) (o : HostOutput) : (e.emit o).space = e.space := rfl
@[simp] theorem Engine.emit_banks (e : Engine) (o : HostOutput) : (e.emit o).banks = e.banks := rfl
@[simp] theorem Engine.emit_reclaim (e : Engine) (o : HostOutput) : (e.emit o).reclaim = e.reclaim := rfl
@[simp] theorem Engine.emit_mount (e : Engine) (o : HostOutput) : (e.emit o).mount = e.mount := rfl
@[simp] theorem Engine.emit_format (e : Engine) (o : HostOutput) : (e.emit o).format = e.format := rfl
@[simp] theorem Engine.emit_control (e : Engine) (o : HostOutput) : (e.emit o).control = e.control := rfl
@[simp] theorem Engine.emit_now (e : Engine) (o : HostOutput) : (e.emit o).now = e.now := rfl
@[simp] theorem Engine.emit_draws (e : Engine) (o : HostOutput) : (e.emit o).draws = e.draws := rfl

@[simp] theorem Engine.sendMessage_registers (e : Engine) (v : Nat) : (e.sendMessage v).registers = e.registers := rfl
@[simp] theorem Engine.sendMessage_rings (e : Engine) (v : Nat) : (e.sendMessage v).rings = e.rings := rfl
@[simp] theorem Engine.sendMessage_arbiter (e : Engine) (v : Nat) : (e.sendMessage v).arbiter = e.arbiter := rfl
@[simp] theorem Engine.sendMessage_notices (e : Engine) (v : Nat) : (e.sendMessage v).notices = e.notices := rfl
@[simp] theorem Engine.sendMessage_ctxs (e : Engine) (v : Nat) : (e.sendMessage v).ctxs = e.ctxs := rfl
@[simp] theorem Engine.sendMessage_index (e : Engine) (v : Nat) : (e.sendMessage v).index = e.index := rfl
@[simp] theorem Engine.sendMessage_space (e : Engine) (v : Nat) : (e.sendMessage v).space = e.space := rfl
@[simp] theorem Engine.sendMessage_banks (e : Engine) (v : Nat) : (e.sendMessage v).banks = e.banks := rfl
@[simp] theorem Engine.sendMessage_reclaim (e : Engine) (v : Nat) : (e.sendMessage v).reclaim = e.reclaim := rfl
@[simp] theorem Engine.sendMessage_mount (e : Engine) (v : Nat) : (e.sendMessage v).mount = e.mount := rfl
@[simp] theorem Engine.sendMessage_format (e : Engine) (v : Nat) : (e.sendMessage v).format = e.format := rfl
@[simp] theorem Engine.sendMessage_control (e : Engine) (v : Nat) : (e.sendMessage v).control = e.control := rfl
@[simp] theorem Engine.sendMessage_now (e : Engine) (v : Nat) : (e.sendMessage v).now = e.now := rfl
@[simp] theorem Engine.sendMessage_draws (e : Engine) (v : Nat) : (e.sendMessage v).draws = e.draws := rfl

@[simp] theorem Engine.wantChoice_registers (e : Engine) : (e.wantChoice).registers = e.registers := rfl
@[simp] theorem Engine.wantChoice_rings (e : Engine) : (e.wantChoice).rings = e.rings := rfl
@[simp] theorem Engine.wantChoice_arbiter (e : Engine) : (e.wantChoice).arbiter = e.arbiter := rfl
@[simp] theorem Engine.wantChoice_notices (e : Engine) : (e.wantChoice).notices = e.notices := rfl
@[simp] theorem Engine.wantChoice_ctxs (e : Engine) : (e.wantChoice).ctxs = e.ctxs := rfl
@[simp] theorem Engine.wantChoice_index (e : Engine) : (e.wantChoice).index = e.index := rfl
@[simp] theorem Engine.wantChoice_space (e : Engine) : (e.wantChoice).space = e.space := rfl
@[simp] theorem Engine.wantChoice_banks (e : Engine) : (e.wantChoice).banks = e.banks := rfl
@[simp] theorem Engine.wantChoice_mount (e : Engine) : (e.wantChoice).mount = e.mount := rfl
@[simp] theorem Engine.wantChoice_format (e : Engine) : (e.wantChoice).format = e.format := rfl
@[simp] theorem Engine.wantChoice_control (e : Engine) : (e.wantChoice).control = e.control := rfl
@[simp] theorem Engine.wantChoice_now (e : Engine) : (e.wantChoice).now = e.now := rfl
@[simp] theorem Engine.wantChoice_draws (e : Engine) : (e.wantChoice).draws = e.draws := rfl
@[simp] theorem Engine.wantChoice_output (e : Engine) : (e.wantChoice).output = e.output := rfl

@[simp] theorem Engine.setReclaim_registers (e : Engine) (f : ReclaimUnit → ReclaimUnit) : (e.setReclaim f).registers = e.registers := rfl
@[simp] theorem Engine.setReclaim_rings (e : Engine) (f : ReclaimUnit → ReclaimUnit) : (e.setReclaim f).rings = e.rings := rfl
@[simp] theorem Engine.setReclaim_arbiter (e : Engine) (f : ReclaimUnit → ReclaimUnit) : (e.setReclaim f).arbiter = e.arbiter := rfl
@[simp] theorem Engine.setReclaim_notices (e : Engine) (f : ReclaimUnit → ReclaimUnit) : (e.setReclaim f).notices = e.notices := rfl
@[simp] theorem Engine.setReclaim_ctxs (e : Engine) (f : ReclaimUnit → ReclaimUnit) : (e.setReclaim f).ctxs = e.ctxs := rfl
@[simp] theorem Engine.setReclaim_index (e : Engine) (f : ReclaimUnit → ReclaimUnit) : (e.setReclaim f).index = e.index := rfl
@[simp] theorem Engine.setReclaim_space (e : Engine) (f : ReclaimUnit → ReclaimUnit) : (e.setReclaim f).space = e.space := rfl
@[simp] theorem Engine.setReclaim_banks (e : Engine) (f : ReclaimUnit → ReclaimUnit) : (e.setReclaim f).banks = e.banks := rfl
@[simp] theorem Engine.setReclaim_mount (e : Engine) (f : ReclaimUnit → ReclaimUnit) : (e.setReclaim f).mount = e.mount := rfl
@[simp] theorem Engine.setReclaim_format (e : Engine) (f : ReclaimUnit → ReclaimUnit) : (e.setReclaim f).format = e.format := rfl
@[simp] theorem Engine.setReclaim_control (e : Engine) (f : ReclaimUnit → ReclaimUnit) : (e.setReclaim f).control = e.control := rfl
@[simp] theorem Engine.setReclaim_now (e : Engine) (f : ReclaimUnit → ReclaimUnit) : (e.setReclaim f).now = e.now := rfl
@[simp] theorem Engine.setReclaim_draws (e : Engine) (f : ReclaimUnit → ReclaimUnit) : (e.setReclaim f).draws = e.draws := rfl
@[simp] theorem Engine.setReclaim_output (e : Engine) (f : ReclaimUnit → ReclaimUnit) : (e.setReclaim f).output = e.output := rfl

@[simp] theorem Engine.setMount_registers (e : Engine) (f : MountUnit → MountUnit) : (e.setMount f).registers = e.registers := rfl
@[simp] theorem Engine.setMount_rings (e : Engine) (f : MountUnit → MountUnit) : (e.setMount f).rings = e.rings := rfl
@[simp] theorem Engine.setMount_arbiter (e : Engine) (f : MountUnit → MountUnit) : (e.setMount f).arbiter = e.arbiter := rfl
@[simp] theorem Engine.setMount_notices (e : Engine) (f : MountUnit → MountUnit) : (e.setMount f).notices = e.notices := rfl
@[simp] theorem Engine.setMount_ctxs (e : Engine) (f : MountUnit → MountUnit) : (e.setMount f).ctxs = e.ctxs := rfl
@[simp] theorem Engine.setMount_index (e : Engine) (f : MountUnit → MountUnit) : (e.setMount f).index = e.index := rfl
@[simp] theorem Engine.setMount_space (e : Engine) (f : MountUnit → MountUnit) : (e.setMount f).space = e.space := rfl
@[simp] theorem Engine.setMount_banks (e : Engine) (f : MountUnit → MountUnit) : (e.setMount f).banks = e.banks := rfl
@[simp] theorem Engine.setMount_reclaim (e : Engine) (f : MountUnit → MountUnit) : (e.setMount f).reclaim = e.reclaim := rfl
@[simp] theorem Engine.setMount_format (e : Engine) (f : MountUnit → MountUnit) : (e.setMount f).format = e.format := rfl
@[simp] theorem Engine.setMount_control (e : Engine) (f : MountUnit → MountUnit) : (e.setMount f).control = e.control := rfl
@[simp] theorem Engine.setMount_now (e : Engine) (f : MountUnit → MountUnit) : (e.setMount f).now = e.now := rfl
@[simp] theorem Engine.setMount_draws (e : Engine) (f : MountUnit → MountUnit) : (e.setMount f).draws = e.draws := rfl
@[simp] theorem Engine.setMount_output (e : Engine) (f : MountUnit → MountUnit) : (e.setMount f).output = e.output := rfl

@[simp] theorem Engine.setState_registers (e : Engine) (st : EngineState) : (e.setState st).registers = e.registers := rfl
@[simp] theorem Engine.setState_rings (e : Engine) (st : EngineState) : (e.setState st).rings = e.rings := rfl
@[simp] theorem Engine.setState_arbiter (e : Engine) (st : EngineState) : (e.setState st).arbiter = e.arbiter := rfl
@[simp] theorem Engine.setState_notices (e : Engine) (st : EngineState) : (e.setState st).notices = e.notices := rfl
@[simp] theorem Engine.setState_ctxs (e : Engine) (st : EngineState) : (e.setState st).ctxs = e.ctxs := rfl
@[simp] theorem Engine.setState_index (e : Engine) (st : EngineState) : (e.setState st).index = e.index := rfl
@[simp] theorem Engine.setState_space (e : Engine) (st : EngineState) : (e.setState st).space = e.space := rfl
@[simp] theorem Engine.setState_banks (e : Engine) (st : EngineState) : (e.setState st).banks = e.banks := rfl
@[simp] theorem Engine.setState_reclaim (e : Engine) (st : EngineState) : (e.setState st).reclaim = e.reclaim := rfl
@[simp] theorem Engine.setState_mount (e : Engine) (st : EngineState) : (e.setState st).mount = e.mount := rfl
@[simp] theorem Engine.setState_format (e : Engine) (st : EngineState) : (e.setState st).format = e.format := rfl
@[simp] theorem Engine.setState_now (e : Engine) (st : EngineState) : (e.setState st).now = e.now := rfl
@[simp] theorem Engine.setState_draws (e : Engine) (st : EngineState) : (e.setState st).draws = e.draws := rfl
@[simp] theorem Engine.setState_output (e : Engine) (st : EngineState) : (e.setState st).output = e.output := rfl

@[simp] theorem Engine.setEntries_registers (e : Engine) (l : List Entry) : (e.setEntries l).registers = e.registers := rfl
@[simp] theorem Engine.setEntries_rings (e : Engine) (l : List Entry) : (e.setEntries l).rings = e.rings := rfl
@[simp] theorem Engine.setEntries_arbiter (e : Engine) (l : List Entry) : (e.setEntries l).arbiter = e.arbiter := rfl
@[simp] theorem Engine.setEntries_notices (e : Engine) (l : List Entry) : (e.setEntries l).notices = e.notices := rfl
@[simp] theorem Engine.setEntries_ctxs (e : Engine) (l : List Entry) : (e.setEntries l).ctxs = e.ctxs := rfl
@[simp] theorem Engine.setEntries_space (e : Engine) (l : List Entry) : (e.setEntries l).space = e.space := rfl
@[simp] theorem Engine.setEntries_banks (e : Engine) (l : List Entry) : (e.setEntries l).banks = e.banks := rfl
@[simp] theorem Engine.setEntries_reclaim (e : Engine) (l : List Entry) : (e.setEntries l).reclaim = e.reclaim := rfl
@[simp] theorem Engine.setEntries_mount (e : Engine) (l : List Entry) : (e.setEntries l).mount = e.mount := rfl
@[simp] theorem Engine.setEntries_format (e : Engine) (l : List Entry) : (e.setEntries l).format = e.format := rfl
@[simp] theorem Engine.setEntries_control (e : Engine) (l : List Entry) : (e.setEntries l).control = e.control := rfl
@[simp] theorem Engine.setEntries_now (e : Engine) (l : List Entry) : (e.setEntries l).now = e.now := rfl
@[simp] theorem Engine.setEntries_draws (e : Engine) (l : List Entry) : (e.setEntries l).draws = e.draws := rfl
@[simp] theorem Engine.setEntries_output (e : Engine) (l : List Entry) : (e.setEntries l).output = e.output := rfl

@[simp] theorem Engine.changeEntry_registers (e : Engine) (key : Nat) (f : Entry → Entry) : (e.changeEntry key f).registers = e.registers := rfl
@[simp] theorem Engine.changeEntry_rings (e : Engine) (key : Nat) (f : Entry → Entry) : (e.changeEntry key f).rings = e.rings := rfl
@[simp] theorem Engine.changeEntry_arbiter (e : Engine) (key : Nat) (f : Entry → Entry) : (e.changeEntry key f).arbiter = e.arbiter := rfl
@[simp] theorem Engine.changeEntry_notices (e : Engine) (key : Nat) (f : Entry → Entry) : (e.changeEntry key f).notices = e.notices := rfl
@[simp] theorem Engine.changeEntry_ctxs (e : Engine) (key : Nat) (f : Entry → Entry) : (e.changeEntry key f).ctxs = e.ctxs := rfl
@[simp] theorem Engine.changeEntry_space (e : Engine) (key : Nat) (f : Entry → Entry) : (e.changeEntry key f).space = e.space := rfl
@[simp] theorem Engine.changeEntry_banks (e : Engine) (key : Nat) (f : Entry → Entry) : (e.changeEntry key f).banks = e.banks := rfl
@[simp] theorem Engine.changeEntry_reclaim (e : Engine) (key : Nat) (f : Entry → Entry) : (e.changeEntry key f).reclaim = e.reclaim := rfl
@[simp] theorem Engine.changeEntry_mount (e : Engine) (key : Nat) (f : Entry → Entry) : (e.changeEntry key f).mount = e.mount := rfl
@[simp] theorem Engine.changeEntry_format (e : Engine) (key : Nat) (f : Entry → Entry) : (e.changeEntry key f).format = e.format := rfl
@[simp] theorem Engine.changeEntry_control (e : Engine) (key : Nat) (f : Entry → Entry) : (e.changeEntry key f).control = e.control := rfl
@[simp] theorem Engine.changeEntry_now (e : Engine) (key : Nat) (f : Entry → Entry) : (e.changeEntry key f).now = e.now := rfl
@[simp] theorem Engine.changeEntry_draws (e : Engine) (key : Nat) (f : Entry → Entry) : (e.changeEntry key f).draws = e.draws := rfl
@[simp] theorem Engine.changeEntry_output (e : Engine) (key : Nat) (f : Entry → Entry) : (e.changeEntry key f).output = e.output := rfl

@[simp] theorem Engine.complete_registers (e : Engine) (c : Nat) (o : JobOutcome) : (e.complete c o).registers = e.registers := rfl
@[simp] theorem Engine.complete_arbiter (e : Engine) (c : Nat) (o : JobOutcome) : (e.complete c o).arbiter = e.arbiter := rfl
@[simp] theorem Engine.complete_notices (e : Engine) (c : Nat) (o : JobOutcome) : (e.complete c o).notices = e.notices := rfl
@[simp] theorem Engine.complete_index (e : Engine) (c : Nat) (o : JobOutcome) : (e.complete c o).index = e.index := rfl
@[simp] theorem Engine.complete_space (e : Engine) (c : Nat) (o : JobOutcome) : (e.complete c o).space = e.space := rfl
@[simp] theorem Engine.complete_banks (e : Engine) (c : Nat) (o : JobOutcome) : (e.complete c o).banks = e.banks := rfl
@[simp] theorem Engine.complete_reclaim (e : Engine) (c : Nat) (o : JobOutcome) : (e.complete c o).reclaim = e.reclaim := rfl
@[simp] theorem Engine.complete_mount (e : Engine) (c : Nat) (o : JobOutcome) : (e.complete c o).mount = e.mount := rfl
@[simp] theorem Engine.complete_format (e : Engine) (c : Nat) (o : JobOutcome) : (e.complete c o).format = e.format := rfl
@[simp] theorem Engine.complete_control (e : Engine) (c : Nat) (o : JobOutcome) : (e.complete c o).control = e.control := rfl
@[simp] theorem Engine.complete_now (e : Engine) (c : Nat) (o : JobOutcome) : (e.complete c o).now = e.now := rfl
@[simp] theorem Engine.complete_draws (e : Engine) (c : Nat) (o : JobOutcome) : (e.complete c o).draws = e.draws := rfl
@[simp] theorem Engine.complete_output (e : Engine) (c : Nat) (o : JobOutcome) : (e.complete c o).output = e.output := rfl

@[simp] theorem Engine.enqueue_registers (e : Engine) (q : Request) : (e.enqueue q).registers = e.registers := rfl
@[simp] theorem Engine.enqueue_rings (e : Engine) (q : Request) : (e.enqueue q).rings = e.rings := rfl
@[simp] theorem Engine.enqueue_arbiter (e : Engine) (q : Request) : (e.enqueue q).arbiter = e.arbiter := rfl
@[simp] theorem Engine.enqueue_notices (e : Engine) (q : Request) : (e.enqueue q).notices = e.notices := rfl
@[simp] theorem Engine.enqueue_ctxs (e : Engine) (q : Request) : (e.enqueue q).ctxs = e.ctxs := rfl
@[simp] theorem Engine.enqueue_index (e : Engine) (q : Request) : (e.enqueue q).index = e.index := rfl
@[simp] theorem Engine.enqueue_space (e : Engine) (q : Request) : (e.enqueue q).space = e.space := rfl
@[simp] theorem Engine.enqueue_reclaim (e : Engine) (q : Request) : (e.enqueue q).reclaim = e.reclaim := rfl
@[simp] theorem Engine.enqueue_mount (e : Engine) (q : Request) : (e.enqueue q).mount = e.mount := rfl
@[simp] theorem Engine.enqueue_format (e : Engine) (q : Request) : (e.enqueue q).format = e.format := rfl
@[simp] theorem Engine.enqueue_control (e : Engine) (q : Request) : (e.enqueue q).control = e.control := rfl
@[simp] theorem Engine.enqueue_now (e : Engine) (q : Request) : (e.enqueue q).now = e.now := rfl
@[simp] theorem Engine.enqueue_draws (e : Engine) (q : Request) : (e.enqueue q).draws = e.draws := rfl
@[simp] theorem Engine.enqueue_output (e : Engine) (q : Request) : (e.enqueue q).output = e.output := rfl

@[simp] theorem Engine.selectBank_registers (e : Engine) (b : Nat) : (e.selectBank b).registers = e.registers := rfl
@[simp] theorem Engine.selectBank_rings (e : Engine) (b : Nat) : (e.selectBank b).rings = e.rings := rfl
@[simp] theorem Engine.selectBank_arbiter (e : Engine) (b : Nat) : (e.selectBank b).arbiter = e.arbiter := rfl
@[simp] theorem Engine.selectBank_notices (e : Engine) (b : Nat) : (e.selectBank b).notices = e.notices := rfl
@[simp] theorem Engine.selectBank_ctxs (e : Engine) (b : Nat) : (e.selectBank b).ctxs = e.ctxs := rfl
@[simp] theorem Engine.selectBank_index (e : Engine) (b : Nat) : (e.selectBank b).index = e.index := rfl
@[simp] theorem Engine.selectBank_space (e : Engine) (b : Nat) : (e.selectBank b).space = e.space := rfl
@[simp] theorem Engine.selectBank_reclaim (e : Engine) (b : Nat) : (e.selectBank b).reclaim = e.reclaim := rfl
@[simp] theorem Engine.selectBank_mount (e : Engine) (b : Nat) : (e.selectBank b).mount = e.mount := rfl
@[simp] theorem Engine.selectBank_format (e : Engine) (b : Nat) : (e.selectBank b).format = e.format := rfl
@[simp] theorem Engine.selectBank_control (e : Engine) (b : Nat) : (e.selectBank b).control = e.control := rfl
@[simp] theorem Engine.selectBank_now (e : Engine) (b : Nat) : (e.selectBank b).now = e.now := rfl
@[simp] theorem Engine.selectBank_draws (e : Engine) (b : Nat) : (e.selectBank b).draws = e.draws := rfl
@[simp] theorem Engine.selectBank_output (e : Engine) (b : Nat) : (e.selectBank b).output = e.output := rfl

@[simp] theorem Engine.pin_registers (e : Engine) (n : Nat) : (e.pin n).registers = e.registers := rfl
@[simp] theorem Engine.pin_rings (e : Engine) (n : Nat) : (e.pin n).rings = e.rings := rfl
@[simp] theorem Engine.pin_arbiter (e : Engine) (n : Nat) : (e.pin n).arbiter = e.arbiter := rfl
@[simp] theorem Engine.pin_notices (e : Engine) (n : Nat) : (e.pin n).notices = e.notices := rfl
@[simp] theorem Engine.pin_ctxs (e : Engine) (n : Nat) : (e.pin n).ctxs = e.ctxs := rfl
@[simp] theorem Engine.pin_index (e : Engine) (n : Nat) : (e.pin n).index = e.index := rfl
@[simp] theorem Engine.pin_banks (e : Engine) (n : Nat) : (e.pin n).banks = e.banks := rfl
@[simp] theorem Engine.pin_reclaim (e : Engine) (n : Nat) : (e.pin n).reclaim = e.reclaim := rfl
@[simp] theorem Engine.pin_mount (e : Engine) (n : Nat) : (e.pin n).mount = e.mount := rfl
@[simp] theorem Engine.pin_format (e : Engine) (n : Nat) : (e.pin n).format = e.format := rfl
@[simp] theorem Engine.pin_control (e : Engine) (n : Nat) : (e.pin n).control = e.control := rfl
@[simp] theorem Engine.pin_now (e : Engine) (n : Nat) : (e.pin n).now = e.now := rfl
@[simp] theorem Engine.pin_draws (e : Engine) (n : Nat) : (e.pin n).draws = e.draws := rfl
@[simp] theorem Engine.pin_output (e : Engine) (n : Nat) : (e.pin n).output = e.output := rfl


@[simp] theorem Engine.draw_registers (e : Engine) : (e.draw).registers = e.registers := rfl
@[simp] theorem Engine.draw_rings (e : Engine) : (e.draw).rings = e.rings := rfl
@[simp] theorem Engine.draw_arbiter (e : Engine) : (e.draw).arbiter = e.arbiter := rfl
@[simp] theorem Engine.draw_notices (e : Engine) : (e.draw).notices = e.notices := rfl
@[simp] theorem Engine.draw_ctxs (e : Engine) : (e.draw).ctxs = e.ctxs := rfl
@[simp] theorem Engine.draw_index (e : Engine) : (e.draw).index = e.index := rfl
@[simp] theorem Engine.draw_space (e : Engine) : (e.draw).space = e.space := rfl
@[simp] theorem Engine.draw_banks (e : Engine) : (e.draw).banks = e.banks := rfl
@[simp] theorem Engine.draw_reclaim (e : Engine) : (e.draw).reclaim = e.reclaim := rfl
@[simp] theorem Engine.draw_mount (e : Engine) : (e.draw).mount = e.mount := rfl
@[simp] theorem Engine.draw_format (e : Engine) : (e.draw).format = e.format := rfl
@[simp] theorem Engine.draw_control (e : Engine) : (e.draw).control = e.control := rfl
@[simp] theorem Engine.draw_now (e : Engine) : (e.draw).now = e.now := rfl
@[simp] theorem Engine.draw_output (e : Engine) : (e.draw).output = e.output := rfl

@[simp] theorem Engine.postError_registers (e : Engine) : (e.postError).registers = e.registers := rfl
@[simp] theorem Engine.postError_rings (e : Engine) : (e.postError).rings = e.rings := rfl
@[simp] theorem Engine.postError_arbiter (e : Engine) : (e.postError).arbiter = e.arbiter := rfl
@[simp] theorem Engine.postError_notices (e : Engine) : (e.postError).notices = e.notices := rfl
@[simp] theorem Engine.postError_ctxs (e : Engine) : (e.postError).ctxs = e.ctxs := rfl
@[simp] theorem Engine.postError_index (e : Engine) : (e.postError).index = e.index := rfl
@[simp] theorem Engine.postError_space (e : Engine) : (e.postError).space = e.space := rfl
@[simp] theorem Engine.postError_banks (e : Engine) : (e.postError).banks = e.banks := rfl
@[simp] theorem Engine.postError_reclaim (e : Engine) : (e.postError).reclaim = e.reclaim := rfl
@[simp] theorem Engine.postError_mount (e : Engine) : (e.postError).mount = e.mount := rfl
@[simp] theorem Engine.postError_format (e : Engine) : (e.postError).format = e.format := rfl
@[simp] theorem Engine.postError_now (e : Engine) : (e.postError).now = e.now := rfl
@[simp] theorem Engine.postError_draws (e : Engine) : (e.postError).draws = e.draws := rfl
@[simp] theorem Engine.postError_output (e : Engine) : (e.postError).output = e.output := rfl

@[simp] theorem Engine.raiseNotice_registers (e : Engine) (b : NoticeBody) : (e.raiseNotice b).registers = e.registers := rfl
@[simp] theorem Engine.raiseNotice_rings (e : Engine) (b : NoticeBody) : (e.raiseNotice b).rings = e.rings := rfl
@[simp] theorem Engine.raiseNotice_arbiter (e : Engine) (b : NoticeBody) : (e.raiseNotice b).arbiter = e.arbiter := rfl
@[simp] theorem Engine.raiseNotice_ctxs (e : Engine) (b : NoticeBody) : (e.raiseNotice b).ctxs = e.ctxs := rfl
@[simp] theorem Engine.raiseNotice_index (e : Engine) (b : NoticeBody) : (e.raiseNotice b).index = e.index := rfl
@[simp] theorem Engine.raiseNotice_space (e : Engine) (b : NoticeBody) : (e.raiseNotice b).space = e.space := rfl
@[simp] theorem Engine.raiseNotice_banks (e : Engine) (b : NoticeBody) : (e.raiseNotice b).banks = e.banks := rfl
@[simp] theorem Engine.raiseNotice_reclaim (e : Engine) (b : NoticeBody) : (e.raiseNotice b).reclaim = e.reclaim := rfl
@[simp] theorem Engine.raiseNotice_mount (e : Engine) (b : NoticeBody) : (e.raiseNotice b).mount = e.mount := rfl
@[simp] theorem Engine.raiseNotice_format (e : Engine) (b : NoticeBody) : (e.raiseNotice b).format = e.format := rfl
@[simp] theorem Engine.raiseNotice_control (e : Engine) (b : NoticeBody) : (e.raiseNotice b).control = e.control := rfl
@[simp] theorem Engine.raiseNotice_now (e : Engine) (b : NoticeBody) : (e.raiseNotice b).now = e.now := rfl
@[simp] theorem Engine.raiseNotice_draws (e : Engine) (b : NoticeBody) : (e.raiseNotice b).draws = e.draws := rfl
@[simp] theorem Engine.raiseNotice_output (e : Engine) (b : NoticeBody) : (e.raiseNotice b).output = e.output := rfl

/-! ### What an update makes of its own field -/

@[simp] theorem Engine.modCtx_ctxs_new (e : Engine) (c : Nat) (f : JobContext → JobContext) :
    (e.modCtx c f).ctxs = updAt e.ctxs c f := rfl
@[simp] theorem Engine.modRing_rings_new (e : Engine) (r : Nat) (f : RingContext → RingContext) :
    (e.modRing r f).rings = updAt e.rings r f := rfl
@[simp] theorem Engine.modBank_banks_new (e : Engine) (b : Nat) (f : Bank → Bank) :
    (e.modBank b f).banks = updAt e.banks b f := rfl
@[simp] theorem Engine.modSeg_space_new (e : Engine) (n : Nat) (f : SegRecord → SegRecord) :
    (e.modSeg n f).space = { e.space with segs := updAt e.space.segs n f } := rfl
@[simp] theorem Engine.emit_output_new (e : Engine) (o : HostOutput) :
    (e.emit o).output = o :: e.output := rfl
@[simp] theorem Engine.sendMessage_output_new (e : Engine) (v : Nat) :
    (e.sendMessage v).output = .interrupt v :: e.output := rfl
@[simp] theorem Engine.wantChoice_reclaim_new (e : Engine) :
    e.wantChoice.reclaim = { e.reclaim with choiceDue := true } := rfl
@[simp] theorem Engine.setReclaim_reclaim_new (e : Engine) (f : ReclaimUnit → ReclaimUnit) :
    (e.setReclaim f).reclaim = f e.reclaim := rfl
@[simp] theorem Engine.setMount_mount_new (e : Engine) (f : MountUnit → MountUnit) :
    (e.setMount f).mount = f e.mount := rfl
@[simp] theorem Engine.setState_control_new (e : Engine) (st : EngineState) :
    (e.setState st).control = { e.control with engine := st } := rfl
@[simp] theorem Engine.setEntries_index_new (e : Engine) (l : List Entry) :
    (e.setEntries l).index = { e.index with entries := l } := rfl
@[simp] theorem Engine.changeEntry_index_new (e : Engine) (key : Nat) (f : Entry → Entry) :
    (e.changeEntry key f).index = { e.index with entries := Machine.changeEntry e.index.entries key f } := rfl
@[simp] theorem Engine.raiseNotice_notices_new (e : Engine) (b : NoticeBody) :
    (e.raiseNotice b).notices = e.notices.raise b := rfl
@[simp] theorem Engine.draw_draws_new (e : Engine) :
    e.draw.draws = e.draws + 1 := rfl

/-! ### Reading after an update -/

theorem Engine.modCtx_ctx_self (e : Engine) (c : Nat) (f : JobContext → JobContext) (h : c < e.ctxs.length) :
    (e.modCtx c f).ctx c = f (e.ctx c) := updAt_getD_self e.ctxs c f {} h
theorem Engine.modCtx_ctx_ne (e : Engine) (c d : Nat) (f : JobContext → JobContext) (h : d ≠ c) :
    (e.modCtx c f).ctx d = e.ctx d := updAt_getD_ne e.ctxs c d f {} h
theorem Engine.modRing_ring_self (e : Engine) (r : Nat) (f : RingContext → RingContext) (h : r < e.rings.length) :
    (e.modRing r f).ring r = f (e.ring r) := updAt_getD_self e.rings r f {} h
theorem Engine.modRing_ring_ne (e : Engine) (r q : Nat) (f : RingContext → RingContext) (h : q ≠ r) :
    (e.modRing r f).ring q = e.ring q := updAt_getD_ne e.rings r q f {} h
theorem Engine.modBank_bank_self (e : Engine) (b : Nat) (f : Bank → Bank) (h : b < e.banks.length) :
    (e.modBank b f).bank b = f (e.bank b) := updAt_getD_self e.banks b f {} h
theorem Engine.modBank_bank_ne (e : Engine) (b d : Nat) (f : Bank → Bank) (h : d ≠ b) :
    (e.modBank b f).bank d = e.bank d := updAt_getD_ne e.banks b d f {} h
theorem Engine.modSeg_seg_self (e : Engine) (n : Nat) (f : SegRecord → SegRecord) (h : n < e.space.segs.length) :
    (e.modSeg n f).seg n = f (e.seg n) := updAt_getD_self e.space.segs n f {} h
theorem Engine.modSeg_seg_ne (e : Engine) (n d : Nat) (f : SegRecord → SegRecord) (h : d ≠ n) :
    (e.modSeg n f).seg d = e.seg d := updAt_getD_ne e.space.segs n d f {} h

/-! ### Completing a job -/

/-- The context of a completed job is in POSTING with its outcome; nothing else of it changes but that it is not ready and
has no transfer. -/
theorem Engine.complete_ctx_self (e : Engine) (c : Nat) (o : JobOutcome) (h : c < e.ctxs.length) :
    (e.complete c o).ctx c =
      { e.ctx c with state := .posting, ready := false, transfer := none, outcome := o } :=
  updAt_getD_self e.ctxs c _ {} h
theorem Engine.complete_ctx_ne (e : Engine) (c d : Nat) (o : JobOutcome) (h : d ≠ c) :
    (e.complete c o).ctx d = e.ctx d := updAt_getD_ne e.ctxs c d _ {} h

/-- Its done record joins its ring's list. -/
theorem Engine.complete_ring_self (e : Engine) (c : Nat) (o : JobOutcome) (h : (e.ctx c).ring < e.rings.length) :
    (e.complete c o).ring (e.ctx c).ring =
      { e.ring (e.ctx c).ring with posting := (e.ring (e.ctx c).ring).posting ++ [c] } :=
  updAt_getD_self e.rings _ _ {} h
theorem Engine.complete_ring_ne (e : Engine) (c r : Nat) (o : JobOutcome) (h : r ≠ (e.ctx c).ring) :
    (e.complete c o).ring r = e.ring r := updAt_getD_ne e.rings _ r _ {} h

/-! ### The supply -/

theorem State.whenOn_on (s : State) (f : State → State) (h : s.supply = .on) : s.whenOn f = f s := by
  simp [State.whenOn, h]
theorem State.withEngine_on (s : State) (f : Engine → Engine) (h : s.supply = .on) :
    s.withEngine f = { s with engine := f s.engine } := by simp [State.withEngine, State.whenOn, h]
@[simp] theorem State.withEngine_array (s : State) (f : Engine → Engine) : (s.withEngine f).array = s.array := by
  unfold State.withEngine State.whenOn; split <;> rfl
@[simp] theorem State.withEngine_pending (s : State) (f : Engine → Engine) : (s.withEngine f).pending = s.pending := by
  unfold State.withEngine State.whenOn; split <;> rfl
@[simp] theorem State.withEngine_supply (s : State) (f : Engine → Engine) : (s.withEngine f).supply = s.supply := by
  unfold State.withEngine State.whenOn; split <;> simp_all

end Sys2Proof.Machine
end

