-- ==== Sys2Proof/Laws/Items.lean ====
section
/-! SUPPORT. Reading and changing one context, ring or segment that is there, as the statements name them; and what a command
does when its hypotheses hold: the engine it works on and the settling after it. -/

namespace Sys2Proof.Machine

open Sys2Proof

/-! ### Items that are there -/

theorem updAt_set {α : Type} {l : List α} {i : Nat} {x : α} (h : l[i]? = some x) (f : α → α) :
    updAt l i f = l.set i (f x) := by
  induction l generalizing i with
  | nil => simp at h
  | cons a l ih =>
    cases i with
    | zero => simp at h; subst h; rfl
    | succ i => simpa [updAt] using ih (by simpa using h)

/-- Reading item `j` of a list with item `i` changed. -/
theorem updAt_get {α : Type} (l : List α) (i j : Nat) (f : α → α) :
    (updAt l i f)[j]? = if j = i then l[j]?.map f else l[j]? := by
  induction l generalizing i j with
  | nil => simp [updAt]
  | cons a l ih => cases i <;> cases j <;> simp [updAt, ih]

theorem updAt_absent {α : Type} {l : List α} {i : Nat} (h : l[i]? = none) (f : α → α) : updAt l i f = l := by
  induction l generalizing i with
  | nil => rfl
  | cons a l ih =>
    cases i with
    | zero => simp at h
    | succ i => simpa [updAt] using ih (by simpa using h)

theorem Engine.ctx_of {e : Engine} {c : Nat} {x : JobContext} (h : e.ctxs[c]? = some x) : e.ctx c = x := by
  unfold Engine.ctx; rw [List.getD_eq_getElem?_getD, h]; rfl

theorem Engine.ring_of {e : Engine} {r : Nat} {g : RingContext} (h : e.rings[r]? = some g) : e.ring r = g := by
  unfold Engine.ring; rw [List.getD_eq_getElem?_getD, h]; rfl

theorem Engine.ring_absent {e : Engine} {r : Nat} (h : e.rings[r]? = none) : e.ring r = {} := by
  unfold Engine.ring; rw [List.getD_eq_getElem?_getD, h]; rfl

theorem Engine.modCtx_set {e : Engine} {c : Nat} {x : JobContext} (h : e.ctxs[c]? = some x) (f : JobContext → JobContext) :
    e.modCtx c f = { e with ctxs := e.ctxs.set c (f x) } := by
  unfold Engine.modCtx; rw [updAt_set h]

theorem Engine.modRing_set {e : Engine} {r : Nat} {g : RingContext} (h : e.rings[r]? = some g)
    (f : RingContext → RingContext) : e.modRing r f = { e with rings := e.rings.set r (f g) } := by
  unfold Engine.modRing; rw [updAt_set h]

theorem set_there {α : Type} {l : List α} {i : Nat} {x : α} (h : l[i]? = some x) (y : α) : (l.set i y)[i]? = some y := by
  have hi : i < l.length := by
    rcases Nat.lt_or_ge i l.length with hi | hi
    · exact hi
    · rw [List.getElem?_eq_none hi] at h; simp at h
  simp [hi]

/-- A completion after a change of the same context that kept its ring, as one update of the context. -/
theorem Engine.complete_set {e : Engine} {c : Nat} {x : JobContext} (h : e.ctxs[c]? = some x) (o : JobOutcome) :
    e.complete c o = { e with
      ctxs := e.ctxs.set c { x with state := .posting, ready := false, transfer := none, outcome := o }
      rings := updAt e.rings x.ring fun g => { g with posting := g.posting ++ [c] } } := by
  unfold Engine.complete Engine.modRing
  rw [Engine.modCtx_set h, Engine.ctx_of h]

/-! ### Commands under their hypotheses -/

theorem State.jobAt.ready {s : State} {c : Nat} {j : Job} {x : JobContext} (h : s.jobAt c j x) :
    s.engine.jobReady c j = true := by
  obtain ⟨_, h2, h3, h4, h5, h6⟩ := h
  unfold Engine.jobReady
  rw [Engine.ctx_of h3]
  simp [h2, h4, h5, h6]

theorem State.jobAt.ctx {s : State} {c : Nat} {j : Job} {x : JobContext} (h : s.jobAt c j x) : s.engine.ctx c = x :=
  Engine.ctx_of h.2.2.1

/-- The step of a job that stands ready: its work, and the settling after it. -/
theorem State.jobAt.step {s : State} {c : Nat} {j : Job} {x : JobContext} (h : s.jobAt c j x) (f : Engine → Engine) :
    s.withEngine (fun e => e.jobStep c j f) = { s with engine := (f s.engine).settle } := by
  rw [State.withEngine_on _ _ h.1]
  unfold Engine.jobStep
  rw [if_pos h.ready]

end Sys2Proof.Machine
end

