-- ==== Sys2Proof/Laws/Moves.lean ====
section
/-! SUPPORT. Once for all the shared operations: what they can do to the index's map, to the banks and to the sizes of the
tables. Each operation is a sequence of a few kinds of move, and each kind keeps the laws. -/

-- One theorem at a time: elaborated side by side, these many small proofs wait on one another and ask for a thread each.
set_option Elab.async false

namespace Sys2Proof.Machine

open Sys2Proof

/-- A change that leaves the banks, the index's map, the sizes of the tables and the engine state alone, and keeps the
rules of the notice queue, the refresh list and the limits. -/
structure Engine.Quiet (e e' : Engine) : Prop where
  banks : e'.banks = e.banks := by rfl
  entries : e'.index.entries = e.index.entries := by rfl
  rings : e'.rings.length = e.rings.length := by first | rfl | simp
  ctxs : e'.ctxs.length = e.ctxs.length := by first | rfl | simp
  segs : e'.space.segs.length = e.space.segs.length := by first | rfl | simp
  served : e'.arbiter.served.length = e.arbiter.served.length := by first | rfl | simp
  engine : e'.control.engine = e.control.engine := by rfl
  halt : e'.control.halt = e.control.halt := by rfl
  notices : e.notices.holds → e'.notices.holds := by exact id
  refresh : refreshHolds e.reclaim.refresh → refreshHolds e'.reclaim.refresh := by exact id
  limits : e.control.limits.holds → e'.control.limits.holds := by exact id

/-- Raising a notice keeps the rules of the queue (R164). -/
theorem NoticeUnit.holds.raise {n : NoticeUnit} (h : n.holds) (body : NoticeBody) : (n.raise body).holds := by
  have hn : (n.number + 1) % noticeNumbers < noticeNumbers := Nat.mod_lt _ (by decide)
  unfold NoticeUnit.raise
  split
  · rename_i hl
    refine ⟨by simp; omega, hn, fun x hx => ?_⟩
    rcases List.mem_append.mp hx with hx | hx
    · exact h.2.2 x hx
    · simp only [List.mem_singleton] at hx
      subst hx
      exact h.2.1
  · exact ⟨h.1, hn, h.2.2⟩

/-- A segment that is not on the list joins it while there is room (R109, R110). -/
theorem refreshHolds.append {l : List Nat} (h : refreshHolds l) {n : Nat} (hn : n ∉ l) (hl : l.length < refreshPlaces) :
    refreshHolds (l ++ [n]) := by
  refine ⟨by simp; omega, ?_⟩
  rw [List.nodup_append]
  refine ⟨h.2, by simp, fun x hx y hy => ?_⟩
  simp only [List.mem_singleton] at hy
  subst hy
  rintro rfl
  exact hn hx

theorem refreshHolds.filter {l : List Nat} (h : refreshHolds l) (p : Nat → Bool) : refreshHolds (l.filter p) :=
  ⟨Nat.le_trans (List.length_filter_le _ _) h.1, h.2.filter _⟩

/-- The moves every shared operation is made of; `m` says which changes of engine state are among them. -/
inductive Engine.Move (m : EngineState → EngineState → Prop) : Engine → Engine → Prop where
  | quiet {e e' : Engine} (h : e.Quiet e') : Engine.Move m e e'
  | bank (e : Engine) (b : Nat) (f : Bank → Bank) (h : (e.bank b).lawful → (f (e.bank b)).lawful) :
      Engine.Move m e (e.modBank b f)
  | allBanks (e : Engine) (f : Bank → Bank) (h : ∀ k : Bank, k.lawful → (f k).lawful) :
      Engine.Move m e { e with banks := e.banks.map f }
  | change (e : Engine) (key : Nat) (f : Entry → Entry) : Engine.Move m e (e.changeEntry key f)
  | filter (e : Engine) (p : Entry → Bool) : Engine.Move m e (e.setEntries (e.index.entries.filter p))
  | insert (e : Engine) (t : Entry) (absent : e.entry t.key = none) (room : e.index.entries.length < indexCapacity) :
      Engine.Move m e (e.setEntries (insertEntry e.index.entries t))
  | state (e : Engine) (st : EngineState) (h : m e.state st) : Engine.Move m e (e.setState st)
  | trans {a b c : Engine} (h : Engine.Move m a b) (k : Engine.Move m b c) : Engine.Move m a c

namespace Engine.Move

variable {m : EngineState → EngineState → Prop} {a e : Engine}

/-! ### What moves keep -/

theorem index_law (h : Engine.Move m a e) : indexLaw a.index.entries → indexLaw e.index.entries := by
  induction h with
  | quiet h => intro l; rw [h.entries]; exact l
  | bank => exact id
  | allBanks => exact id
  | change e key f => intro l; exact changeEntry_law l key f
  | filter e p => intro l; exact filter_law l p
  | insert e t absent room => intro l; exact insertEntry_law l t absent room
  | state => exact id
  | trans _ _ h1 h2 => exact h2 ∘ h1

theorem updAt_mem {α : Type} {l : List α} {i : Nat} {f : α → α} {x d : α} (h : x ∈ updAt l i f) :
    x ∈ l ∨ (i < l.length ∧ x = f (l.getD i d)) := by
  induction l generalizing i with
  | nil => simp [updAt] at h
  | cons b l ih =>
    cases i with
    | zero =>
      simp only [updAt, List.mem_cons] at h
      rcases h with h | h
      · exact .inr ⟨by simp, by simpa using h⟩
      · exact .inl (List.mem_cons_of_mem _ h)
    | succ i =>
      simp only [updAt, List.mem_cons] at h
      rcases h with h | h
      · exact .inl (by simp [h])
      · rcases ih h with h | h
        · exact .inl (List.mem_cons_of_mem _ h)
        · exact .inr ⟨by simpa using h.1, by simpa using h.2⟩

/-- A bank of lawful banks is lawful, and so is the bank that is not there. -/
theorem bank_lawful (h : e.banksLawful) (b : Nat) : (e.bank b).lawful := by
  by_cases hb : b < e.banks.length
  · have : e.bank b ∈ e.banks := by
      unfold Engine.bank
      rw [List.getD_eq_getElem?_getD, List.getElem?_eq_getElem hb, Option.getD_some]
      exact List.getElem_mem hb
    exact h _ this
  · have : e.bank b = {} := by
      unfold Engine.bank
      rw [List.getD_eq_getElem?_getD, List.getElem?_eq_none (by omega), Option.getD_none]
    rw [this]; exact Bank.reset_lawful

theorem banks_lawful (h : Engine.Move m a e) : a.banksLawful → e.banksLawful := by
  induction h with
  | quiet h => intro l k hk; rw [h.banks] at hk; exact l k hk
  | bank e b f hf =>
    intro l k hk
    rcases updAt_mem (d := ({} : Bank)) hk with hk | hk
    · exact l k hk
    · rw [hk.2]; exact hf (bank_lawful l b)
  | allBanks e f hf =>
    intro l k hk
    obtain ⟨k0, h0, rfl⟩ := List.mem_map.mp hk
    exact hf k0 (l k0 h0)
  | change => exact id
  | filter => exact id
  | insert => exact id
  | state => exact id
  | trans _ _ h1 h2 => exact h2 ∘ h1

theorem shape_kept (h : Engine.Move m a e) : a.shape → e.shape := by
  induction h with
  | quiet h =>
    intro s
    exact ⟨h.rings ▸ s.1, h.ctxs ▸ s.2.1, h.segs ▸ s.2.2.1, (by rw [h.banks]; exact s.2.2.2.1), h.served ▸ s.2.2.2.2⟩
  | bank e b f _ => intro s; exact ⟨s.1, s.2.1, s.2.2.1, by simpa using s.2.2.2.1, s.2.2.2.2⟩
  | allBanks e f _ => intro s; exact ⟨s.1, s.2.1, s.2.2.1, by simpa using s.2.2.2.1, s.2.2.2.2⟩
  | change => exact id
  | filter => exact id
  | insert => exact id
  | state => exact id
  | trans _ _ h1 h2 => exact h2 ∘ h1

theorem halt_kept (h : Engine.Move m a e) : e.control.halt = a.control.halt := by
  induction h with
  | quiet h => exact h.halt
  | bank => rfl
  | allBanks => rfl
  | change => rfl
  | filter => rfl
  | insert => rfl
  | state => rfl
  | trans _ _ h1 h2 => exact h2.trans h1

theorem notices_hold (h : Engine.Move m a e) : a.notices.holds → e.notices.holds := by
  induction h with
  | quiet h => exact h.notices
  | bank => exact id
  | allBanks => exact id
  | change => exact id
  | filter => exact id
  | insert => exact id
  | state => exact id
  | trans _ _ h1 h2 => exact h2 ∘ h1

theorem refresh_holds (h : Engine.Move m a e) : refreshHolds a.reclaim.refresh → refreshHolds e.reclaim.refresh := by
  induction h with
  | quiet h => exact h.refresh
  | bank => exact id
  | allBanks => exact id
  | change => exact id
  | filter => exact id
  | insert => exact id
  | state => exact id
  | trans _ _ h1 h2 => exact h2 ∘ h1

theorem limits_hold (h : Engine.Move m a e) : a.control.limits.holds → e.control.limits.holds := by
  induction h with
  | quiet h => exact h.limits
  | bank => exact id
  | allBanks => exact id
  | change => exact id
  | filter => exact id
  | insert => exact id
  | state => exact id
  | trans _ _ h1 h2 => exact h2 ∘ h1

/-- Moves change the engine state only as a reflexive and transitive relation above `m` says. -/
theorem state_follows {r : EngineState → EngineState → Prop} (refl : ∀ x, r x x) (tr : ∀ x y z, r x y → r y z → r x z)
    (hm : ∀ x y, m x y → r x y) (h : Engine.Move m a e) : r a.state e.state := by
  induction h with
  | quiet h => unfold Engine.state; rw [h.engine]; exact refl _
  | bank => exact refl _
  | allBanks => exact refl _
  | change => exact refl _
  | filter => exact refl _
  | insert => exact refl _
  | state _ _ h => exact hm _ _ h
  | trans _ _ h1 h2 => exact tr _ _ _ h1 h2

/-- Moves with no change of engine state among them keep it. -/
theorem state_kept (h : Engine.Move (fun _ _ => False) a e) : e.state = a.state :=
  (h.state_follows (r := fun x y => y = x) (fun _ => rfl) (fun _ _ _ h1 h2 => h2.trans h1) (fun _ _ h => h.elim))

/-- Moves that make fewer changes of engine state are moves. -/
theorem mono {m' : EngineState → EngineState → Prop} (hm : ∀ x y, m x y → m' x y) (h : Engine.Move m a e) :
    Engine.Move m' a e := by
  induction h with
  | quiet h => exact .quiet h
  | bank e b f h => exact .bank e b f h
  | allBanks e f h => exact .allBanks e f h
  | change e key f => exact .change e key f
  | filter e p => exact .filter e p
  | insert e t h1 h2 => exact .insert e t h1 h2
  | state e st h => exact .state e st (hm _ _ h)
  | trans _ _ h1 h2 => exact h1.trans h2

/-! ### Moves made of updates -/

theorem refl (e : Engine) : Engine.Move m e e := .quiet {}

theorem quietly (h : Engine.Move m a e) {e' : Engine} (q : e.Quiet e') : Engine.Move m a e' := h.trans (.quiet q)

theorem withSpace (h : Engine.Move m a e) (s : SpaceManager) (hs : s.segs.length = e.space.segs.length) :
    Engine.Move m a { e with space := s } := h.quietly { segs := hs }
theorem withReclaim (h : Engine.Move m a e) (u : ReclaimUnit)
    (hr : refreshHolds e.reclaim.refresh → refreshHolds u.refresh := by exact id) :
    Engine.Move m a { e with reclaim := u } := h.quietly { refresh := hr }
theorem withFormat (h : Engine.Move m a e) (f : Option FormatRun) : Engine.Move m a { e with format := f } :=
  h.quietly {}
theorem withNotices (h : Engine.Move m a e) (n : NoticeUnit) (hn : e.notices.holds → n.holds := by exact id) :
    Engine.Move m a { e with notices := n } := h.quietly { notices := hn }
theorem withControl (h : Engine.Move m a e) (c : EngineControl) (he : c.engine = e.control.engine := by rfl)
    (hh : c.halt = e.control.halt := by rfl) (hl : e.control.limits.holds → c.limits.holds := by exact id) :
    Engine.Move m a { e with control := c } := h.quietly { engine := he, halt := hh, limits := hl }
theorem withWriteSeq (h : Engine.Move m a e) (n : Nat) :
    Engine.Move m a { e with index := { e.index with writeSeq := n } } := h.quietly {}
theorem withFetching (h : Engine.Move m a e) (f : Option (Nat × Nat)) :
    Engine.Move m a { e with arbiter := { e.arbiter with fetching := f } } := h.quietly {}
theorem modCtx (h : Engine.Move m a e) (c : Nat) (f : JobContext → JobContext) : Engine.Move m a (e.modCtx c f) :=
  h.quietly {}
theorem modRing (h : Engine.Move m a e) (r : Nat) (f : RingContext → RingContext) : Engine.Move m a (e.modRing r f) :=
  h.quietly {}
theorem modSeg (h : Engine.Move m a e) (n : Nat) (f : SegRecord → SegRecord) : Engine.Move m a (e.modSeg n f) :=
  h.quietly {}
theorem modBank (h : Engine.Move m a e) (b : Nat) (f : Bank → Bank) (hf : (e.bank b).lawful → (f (e.bank b)).lawful) :
    Engine.Move m a (e.modBank b f) := h.trans (.bank e b f hf)
theorem emit (h : Engine.Move m a e) (o : HostOutput) : Engine.Move m a (e.emit o) :=
  h.quietly {}
theorem sendMessage (h : Engine.Move m a e) (v : Nat) : Engine.Move m a (e.sendMessage v) := h.emit _
theorem raiseNotice (h : Engine.Move m a e) (b : NoticeBody) : Engine.Move m a (e.raiseNotice b) :=
  h.withNotices _ (fun k => k.raise b)
theorem wantChoice (h : Engine.Move m a e) : Engine.Move m a e.wantChoice := h.withReclaim _
theorem setReclaim (h : Engine.Move m a e) (f : ReclaimUnit → ReclaimUnit)
    (hr : ∀ u, (f u).refresh = u.refresh := by exact fun _ => rfl) : Engine.Move m a (e.setReclaim f) :=
  h.withReclaim _ (by rw [hr]; exact id)
theorem setMount (h : Engine.Move m a e) (f : MountUnit → MountUnit) : Engine.Move m a (e.setMount f) :=
  h.quietly {}
theorem setState (h : Engine.Move m a e) (st : EngineState) (hs : m e.state st) : Engine.Move m a (e.setState st) :=
  h.trans (.state e st hs)
theorem draw (h : Engine.Move m a e) : Engine.Move m a e.draw := h.quietly {}
theorem complete (h : Engine.Move m a e) (c : Nat) (o : JobOutcome) : Engine.Move m a (e.complete c o) :=
  (h.modCtx c _).modRing _ _
theorem changeEntry (h : Engine.Move m a e) (key : Nat) (f : Entry → Entry) : Engine.Move m a (e.changeEntry key f) :=
  h.trans (.change e key f)
theorem filterEntries (h : Engine.Move m a e) (p : Entry → Bool) :
    Engine.Move m a (e.setEntries (e.index.entries.filter p)) := h.trans (.filter e p)
theorem insertAbsent (h : Engine.Move m a e) (t : Entry) (absent : e.entry t.key = none)
    (room : e.index.entries.length < indexCapacity) : Engine.Move m a (e.setEntries (insertEntry e.index.entries t)) :=
  h.trans (.insert e t absent room)
theorem enqueue (h : Engine.Move m a e) (q : Request) : Engine.Move m a (e.enqueue q) :=
  h.modBank _ _ fun l => l.arrive _ _ q
theorem selectBank (h : Engine.Move m a e) (b : Nat) : Engine.Move m a (e.selectBank b) := h.modBank _ _ fun l => l.select _ _
theorem pin (h : Engine.Move m a e) (n : Nat) : Engine.Move m a (e.pin n) := h.modSeg _ _

/-- A fold of moves. -/
theorem fold {α : Type} (f : Engine → α → Engine) (hf : ∀ {b : Engine} (x : α), Engine.Move m a b → Engine.Move m a (f b x))
    (h : Engine.Move m a e) (l : List α) : Engine.Move m a (l.foldl f e) := by
  induction l generalizing e with
  | nil => exact h
  | cons x l ih => exact ih (hf x h)

/-! ### Engine Control and the Space Manager -/

theorem addCause (h : Engine.Move m a e) (c : ModeCause) : Engine.Move m a (e.addCause c) := by
  unfold Engine.addCause
  dsimp only
  split
  · exact h
  · split
    · exact h.withControl _
    · exact ((h.withControl _).raiseNotice _).withReclaim _

theorem spaceTest (h : Engine.Move m a e) : Engine.Move m a e.spaceTest := by
  unfold Engine.spaceTest
  dsimp only
  split
  · exact h
  · split
    · split
      · refine Engine.Move.raiseNotice ?_ _
        exact h.quietly {}
      · exact h
    · split
      · refine Engine.Move.wantChoice (Engine.Move.raiseNotice ?_ _)
        exact h.quietly {}
      · exact h

theorem closeHead (h : Engine.Move m a e) (n : Nat) : Engine.Move m a (e.closeHead n) := (h.modSeg n _).wantChoice

theorem openHead (h : Engine.Move m a e) (n : Nat) (role : HeadRole) : Engine.Move m a (e.openHead n role) := by
  unfold Engine.openHead
  dsimp only
  have h2 : Engine.Move m a { e.modSeg n fun g => { g with state := .head, role := some role, sseq := some e.space.segSeq } with
      space := { (e.modSeg n fun g => { g with state := .head, role := some role, sseq := some e.space.segSeq }).space with
        segSeq := e.space.segSeq + 1 } } := (h.modSeg n _).withSpace _ rfl
  split
  · exact (h2.enqueue _).spaceTest.addCause _
  · exact (h2.enqueue _).spaceTest

theorem reserve (h : Engine.Move m a e) (n k : Nat) : Engine.Move m a (e.reserve n k).1 := h.modSeg n _

theorem placeInNewHead (h : Engine.Move m a e) (b k : Nat) : Engine.Move m a (e.placeInNewHead b k).1 := by
  unfold Engine.placeInNewHead
  split
  · exact (h.openHead _ _).reserve _ _
  · exact h

theorem placeInBank (h : Engine.Move m a e) (b k : Nat) : Engine.Move m a (e.placeInBank b k).1 := by
  unfold Engine.placeInBank
  split
  · split
    · exact h.reserve _ _
    · exact (h.closeHead _).placeInNewHead b k
  · exact h.placeInNewHead b k

theorem placeInBanks (h : Engine.Move m a e) (k : Nat) (bs : List Nat) : Engine.Move m a (e.placeInBanks k bs).1 := by
  induction bs generalizing e with
  | nil => exact h
  | cons b bs ih =>
    have h1 := h.placeInBank b k
    unfold Engine.placeInBanks
    split
    · rename_i heq; rw [heq] at h1; exact h1.withSpace _ rfl
    · rename_i heq; rw [heq] at h1; exact ih h1

theorem placeHost (h : Engine.Move m a e) (k : Nat) : Engine.Move m a (e.placeHost k).1 := h.placeInBanks k _

theorem placeInNewReclaimHead (h : Engine.Move m a e) (k : Nat) : Engine.Move m a (e.placeInNewReclaimHead k).1 := by
  unfold Engine.placeInNewReclaimHead
  split
  · exact (h.openHead _ _).reserve _ _
  · exact h

theorem placeReclaim (h : Engine.Move m a e) (k : Nat) : Engine.Move m a (e.placeReclaim k).1 := by
  unfold Engine.placeReclaim
  split
  · split
    · exact h.reserve _ _
    · exact (h.closeHead _).placeInNewReclaimHead k
  · exact h.placeInNewReclaimHead k

theorem lowerLive (h : Engine.Move m a e) (l : Location) : Engine.Move m a (e.lowerLive l) := by
  unfold Engine.lowerLive
  dsimp only
  split
  · exact (h.modSeg _ _).wantChoice
  · exact (h.modSeg _ _).wantChoice
  · exact h.modSeg _ _

theorem raiseLive (h : Engine.Move m a e) (l : Location) : Engine.Move m a (e.raiseLive l) := h.modSeg _ _

theorem moveLive (h : Engine.Move m a e) (old : Option Location) (new : Location) : Engine.Move m a (e.moveLive old new) := by
  cases old with
  | none => exact h.raiseLive new
  | some l => exact (h.lowerLive l).raiseLive new

theorem dropEntry (h : Engine.Move m a e) (key : Nat) : Engine.Move m a (e.dropEntry key) := by
  unfold Engine.dropEntry
  split
  · exact h
  · dsimp only
    split
    · exact (h.filterEntries _).lowerLive _
    · exact h.filterEntries _

theorem removalTest (h : Engine.Move m a e) (key : Nat) : Engine.Move m a (e.removalTest key) := by
  unfold Engine.removalTest
  split
  · split
    · exact h.dropEntry key
    · exact h
  · exact h

theorem decrementClaim (h : Engine.Move m a e) (key : Nat) : Engine.Move m a (e.decrementClaim key) :=
  (h.changeEntry key _).removalTest key

theorem weakMark (h : Engine.Move m a e) (n : Nat) : Engine.Move m a (e.weakMark n) := by
  unfold Engine.weakMark
  dsimp only
  have h1 : Engine.Move m a (if (e.seg n).state.inUse then e.modSeg n fun g => { g with weak := true } else e) := by
    split
    · exact h.modSeg _ _
    · exact h
  have hr : (if (e.seg n).state.inUse then e.modSeg n fun g => { g with weak := true } else e).reclaim = e.reclaim := by
    split <;> rfl
  split
  · rename_i hc
    simp only [Bool.and_eq_true, Bool.not_eq_true', List.contains_eq_mem, decide_eq_false_iff_not, decide_eq_true_eq] at hc
    refine Engine.Move.wantChoice (h1.withReclaim _ fun hl => ?_)
    rw [hr] at hl ⊢
    exact hl.append hc.1.2 hc.2
  · exact h1

/-- A segment that the refill finds is not on the list (R110). -/
theorem refillCandidate_absent {n : Nat} (h : e.refillCandidate = some n) : n ∉ e.reclaim.refresh := by
  unfold Engine.refillCandidate at h
  obtain ⟨p, hp, rfl⟩ := Option.map_eq_some_iff.mp h
  have := List.find?_some hp
  simp only [Bool.and_eq_true, Bool.not_eq_true', List.contains_eq_mem, decide_eq_false_iff_not] at this
  exact this.2

theorem refill (h : Engine.Move m a e) : Engine.Move m a e.refill := by
  unfold Engine.refill
  split
  · rename_i hn
    split
    · rename_i hl
      exact Engine.Move.wantChoice (h.withReclaim _ fun k => k.append (refillCandidate_absent hn) hl)
    · exact h
  · exact h

theorem unlist (h : Engine.Move m a e) (n : Nat) : Engine.Move m a (e.unlist n) := by
  unfold Engine.unlist
  split
  · exact Engine.Move.refill (h.withReclaim _ fun k => k.filter _)
  · exact h

theorem answerRequester (h : Engine.Move m a e) (st : Status) (ended : ReclaimEnd) :
    Engine.Move m a (e.answerRequester st ended) := by
  unfold Engine.answerRequester
  split
  · exact h
  · exact (h.complete _ _).withReclaim _

theorem victimEnded (h : Engine.Move m a e) (n : Nat) (ended : ReclaimEnd) : Engine.Move m a (e.victimEnded n ended) := by
  unfold Engine.victimEnded
  dsimp only
  split
  · exact Engine.Move.wantChoice ((h.answerRequester _ _).withReclaim _)
  · exact h

theorem formatCounts (h : Engine.Move m a e) (n : Nat) (retired : Bool) : Engine.Move m a (e.formatCounts n retired) := by
  unfold Engine.formatCounts
  split
  · split
    · exact h.withFormat _
    · exact h
  · exact h

theorem retireSegment (h : Engine.Move m a e) (n : Nat) (cause : RetireCause) (r : Requester) :
    Engine.Move m a (e.retireSegment n cause r) := by
  unfold Engine.retireSegment
  dsimp only
  split
  · exact ((((((h.modSeg _ _).enqueue _).raiseNotice _).addCause _).formatCounts _ _).victimEnded _ _)
  · exact (((((h.modSeg _ _).enqueue _).raiseNotice _).formatCounts _ _).victimEnded _ _)

theorem queueErase (h : Engine.Move m a e) (n : Nat) : Engine.Move m a (e.queueErase n) := h.enqueue _

theorem settleReleased (h : Engine.Move m a e) : Engine.Move m a e.settleReleased := by
  unfold Engine.settleReleased
  split
  · exact h
  · split
    · have h1 : Engine.Move m a { e with space := { e.space with released := none } } := h.withSpace _ rfl
      dsimp only
      split
      · exact h1.retireSegment _ _ _
      · exact (h1.modSeg _ _).queueErase _
    · exact h

theorem settlePinWait (h : Engine.Move m a e) : Engine.Move m a e.settlePinWait := by
  refine fold _ (fun n k => k.queueErase n) ?_ _
  exact h.withSpace _ rfl

theorem unpin (h : Engine.Move m a e) (n : Nat) : Engine.Move m a (e.unpin n) := by
  unfold Engine.unpin
  dsimp only
  split
  · exact (h.modSeg _ _).settleReleased.settlePinWait
  · exact h.modSeg _ _

theorem eraseLost (h : Engine.Move m a e) (n : Nat) (c : RetireCause) : Engine.Move m a (e.eraseLost n c) := by
  unfold Engine.eraseLost
  split
  · exact h.retireSegment _ _ _
  · exact h

theorem erasePassed (h : Engine.Move m a e) (n : Nat) : Engine.Move m a (e.erasePassed n) :=
  (h.modSeg _ _).enqueue _

theorem closeFailed (h : Engine.Move m a e) (n : Nat) : Engine.Move m a (e.closeFailed n) := by
  unfold Engine.closeFailed
  split
  · exact (h.modSeg _ _).wantChoice
  · exact h.modSeg _ _

/-! ### The Reclaim Unit -/

theorem pauseReclaim (h : Engine.Move m a e) : Engine.Move m a e.pauseReclaim := (h.setReclaim _).answerRequester _ _

theorem releaseVictim (h : Engine.Move m a e) (n : Nat) : Engine.Move m a (e.releaseVictim n) :=
  Engine.Move.withSpace (h.setReclaim _) _ rfl

theorem pauseForSpace (h : Engine.Move m a e) : Engine.Move m a e.pauseForSpace := (h.setReclaim _).pauseReclaim

theorem queueReclaimRecord (h : Engine.Move m a e) (l : Location) (ds : List CellData) (n : Nat) :
    Engine.Move m a (e.queueReclaimRecord l ds n) := h.enqueue _

theorem placeStep (h : Engine.Move m a e) (w : Written) (key : Nat) (l : Location) (ds : List CellData) :
    Engine.Move m a (e.placeStep w key l ds) := by
  have h1 := h.placeReclaim ds.length
  unfold Engine.placeStep
  split
  · rename_i heq; rw [heq] at h1; exact (h1.setReclaim _).queueReclaimRecord _ _ _
  · rename_i heq; rw [heq] at h1; exact h1.pauseForSpace

theorem sweepWrite (h : Engine.Move m a e) (w : Written) (key : Nat) (l : Location) (ds : List CellData) :
    Engine.Move m a (e.sweepWrite w key l ds) := (h.setReclaim _).placeStep _ _ _ _

theorem sweepEntry (h : Engine.Move m a e) (t : Entry) : Engine.Move m a (e.sweepEntry t) := by
  unfold Engine.sweepEntry
  split
  · exact h.setReclaim _
  · exact h.sweepWrite _ _ _ _
  · exact h.sweepWrite _ _ _ _
  · exact h.sweepWrite _ _ _ _
  · exact h.sweepWrite _ _ _ _

theorem sweepFrom (h : Engine.Move m a e) (n key : Nat) : Engine.Move m a (e.sweepFrom n key) := by
  unfold Engine.sweepFrom
  split
  · exact h.sweepEntry _
  · exact h.releaseVictim _

theorem walkEnd (h : Engine.Move m a e) (n : Nat) : Engine.Move m a (e.walkEnd n) := by
  unfold Engine.walkEnd
  split
  · exact h.releaseVictim _
  · dsimp only
    split
    · exact (h.setReclaim _).pauseReclaim
    · exact (h.setReclaim _).sweepFrom _ _

theorem reclaimRead (h : Engine.Move m a e) (n cell count : Nat) (st : ReclaimStep) :
    Engine.Move m a (e.reclaimRead n cell count st) := ((h.setReclaim _).pin _).enqueue _

theorem beginStep (h : Engine.Move m a e) : Engine.Move m a e.beginStep := by
  unfold Engine.beginStep
  split
  · exact h.sweepFrom _ _
  · split
    · exact h.walkEnd _
    · exact h.reclaimRead _ _ _ _
  · exact h

theorem recordBoundary (h : Engine.Move m a e) : Engine.Move m a e.recordBoundary := by
  unfold Engine.recordBoundary
  split
  · exact h.pauseReclaim
  · exact h.beginStep

theorem passCells (h : Engine.Move m a e) (n : Nat) : Engine.Move m a (e.passCells n) := (h.setReclaim _).recordBoundary

theorem passRecord (h : Engine.Move m a e) (key n : Nat) : Engine.Move m a (e.passRecord key n) := by
  unfold Engine.passRecord
  split
  · exact (h.setReclaim _).recordBoundary
  · exact h.passCells n

theorem tally (h : Engine.Move m a e) (f : Tallies → Tallies) : Engine.Move m a (e.tally f) := h.setReclaim _

theorem settleStale (h : Engine.Move m a e) (n : Nat) (r : RecordHeader) (v : ValueVerdict) :
    Engine.Move m a (e.settleStale n r v) := by
  unfold Engine.settleStale
  split
  · exact ((h.decrementClaim _).tally _).passCells _
  · exact (h.tally _).passCells _

theorem settleRecord (h : Engine.Move m a e) (l : Location) (r : RecordHeader) (cells : List CellOutcome) :
    Engine.Move m a (e.settleRecord l r cells) := by
  unfold Engine.settleRecord
  dsimp only
  split
  · split
    · exact h.placeStep _ _ _ _
    · exact (h.tally _).passCells _
  · split
    · exact h.placeStep _ _ _ _
    · exact h.settleStale _ _ _
  · split
    · split
      · exact h.placeStep _ _ _ _
      · exact h.placeStep _ _ _ _
    · exact h.settleStale _ _ _

theorem reclaimReadDone (h : Engine.Move m a e) (q : Request) (cells : List CellOutcome) :
    Engine.Move m a (e.reclaimReadDone q cells) := by
  unfold Engine.reclaimReadDone
  split
  · split
    · exact (h.setReclaim _).walkEnd _
    · exact (h.tally _).passCells _
    · dsimp only
      split
      · exact (h.setReclaim _).settleRecord _ _ _
      · exact (h.setReclaim _).reclaimRead _ _ _ _
  · exact (h.setReclaim _).settleRecord _ _ _
  · exact h

theorem repointDone (h : Engine.Move m a e) (w : Written) (key : Nat) (b : EntryBody) (old new : Location) :
    Engine.Move m a (e.repointDone w key b old new) := by
  unfold Engine.repointDone
  dsimp only
  split
  · exact (((h.changeEntry _ _).moveLive _ _).tally _).raiseNotice _
  · exact (h.changeEntry _ _).moveLive _ _

theorem repointChanged (h : Engine.Move m a e) (w : Written) (key : Nat) : Engine.Move m a (e.repointChanged w key) := by
  unfold Engine.repointChanged
  split
  · exact ((h.changeEntry _ _).decrementClaim _).tally _
  · exact (h.decrementClaim _).tally _
  · exact h

theorem tallyCopy (h : Engine.Move m a e) (w : Written) : Engine.Move m a (e.tallyCopy w) := by
  unfold Engine.tallyCopy
  split
  · exact h
  · exact h.tally _

theorem reclaimProgramPassed (h : Engine.Move m a e) (l : Location) : Engine.Move m a (e.reclaimProgramPassed l) := by
  unfold Engine.reclaimProgramPassed
  split
  · rename_i w key old _
    dsimp only
    have h1 := h.tallyCopy w
    split
    · split
      · exact (h1.repointDone _ _ _ _ _).passRecord _ _
      · exact (h1.repointChanged _ _).passRecord _ _
    · exact (h1.repointChanged _ _).passRecord _ _
  · exact h

theorem startVictim (h : Engine.Move m a e) (n : Nat) (r : Option Nat) : Engine.Move m a (e.startVictim n r) := by
  unfold Engine.startVictim
  dsimp only
  split
  · exact (h.setReclaim _).closeHead _
  · exact h.setReclaim _

theorem grantVictim (h : Engine.Move m a e) : Engine.Move m a e.grantVictim := by
  unfold Engine.grantVictim
  split
  · split
    · exact (((h.modSeg _ _).unlist _).setReclaim _).recordBoundary
    · exact h
  · exact h

theorem resumeReclaim (h : Engine.Move m a e) : Engine.Move m a e.resumeReclaim := by
  unfold Engine.resumeReclaim
  split
  · exact (h.setReclaim _).beginStep
  · exact h

theorem makeChoice (h : Engine.Move m a e) : Engine.Move m a e.makeChoice := by
  unfold Engine.makeChoice
  dsimp only
  refine Engine.Move.setReclaim ?_ _
  split
  · split
    · split
      · exact (h.startVictim _ _).grantVictim
      · exact h
    · exact h
  · exact h

/-! ### The Job Unit -/

theorem beginTransfer (h : Engine.Move m a e) (c : Nat) (st : CtxState) (t : Transfer) :
    Engine.Move m a (e.beginTransfer c st t) := h.modCtx _ _

theorem queueHostRecord (h : Engine.Move m a e) (c : Nat) (l : Location) : Engine.Move m a (e.queueHostRecord c l) :=
  (h.modCtx _ _).enqueue _

theorem changePending (h : Engine.Move m a e) (c : Nat) (f : PendingWrite → PendingWrite) :
    Engine.Move m a (e.changePending c f) := h.changeEntry _ _

theorem failWrite (h : Engine.Move m a e) (c : Nat) (st : Status) : Engine.Move m a (e.failWrite c st) := by
  unfold Engine.failWrite
  split
  · exact (h.changePending _ _).complete _ _
  · exact h

theorem beginSpaceWait (h : Engine.Move m a e) (c : Nat) : Engine.Move m a (e.beginSpaceWait c) :=
  Engine.Move.withSpace (h.modCtx _ _) _ rfl

theorem placeWrite (h : Engine.Move m a e) (c : Nat) : Engine.Move m a (e.placeWrite c) := by
  have h1 := h.placeHost (e.ctx c).recordCells
  unfold Engine.placeWrite
  split
  · rename_i heq; rw [heq] at h1; exact h1.queueHostRecord _ _
  · rename_i heq
    rw [heq] at h1
    split
    · exact h1.beginSpaceWait _
    · exact h1.failWrite _ _

theorem retryPlacement (h : Engine.Move m a e) (w : SpaceWaiter) : Engine.Move m a (e.retryPlacement w) := by
  have h1 := h.placeHost (e.ctx w.ctx).recordCells
  unfold Engine.retryPlacement
  split
  · rename_i heq
    rw [heq] at h1
    refine Engine.Move.queueHostRecord ?_ _ _
    exact h1.withSpace _ rfl
  · rename_i heq; rw [heq] at h1; exact h1

theorem serveWaitQueue (h : Engine.Move m a e) : Engine.Move m a e.serveWaitQueue :=
  fold _ (fun w k => k.retryPlacement w) h _

theorem freeRose (h : Engine.Move m a e) : Engine.Move m a e.freeRose :=
  ((h.spaceTest.serveWaitQueue).setReclaim _).resumeReclaim.wantChoice

theorem takeSequence (h : Engine.Move m a e) : Engine.Move m a e.takeSequence := by
  unfold Engine.takeSequence
  dsimp only
  split
  · exact (h.withWriteSeq _).addCause _
  · exact h.withWriteSeq _

/-- An admission, when the key has an entry or there is room for a new one. -/
theorem admitWrite (h : Engine.Move m a e) (c : Nat)
    (room : (e.lookup (e.ctx c).key).isNone → e.index.entries.length < indexCapacity) : Engine.Move m a (e.admitWrite c) := by
  unfold Engine.admitWrite
  dsimp only
  refine Engine.Move.placeWrite ?_ _
  refine Engine.Move.modCtx ?_ _ _
  refine Engine.Move.takeSequence ?_
  refine Engine.Move.changeEntry ?_ _ _
  split
  · rename_i hn
    refine h.insertAbsent _ ?_ (room hn)
    simpa [Engine.lookup] using hn
  · exact h

theorem checkWrite (h : Engine.Move m a e) (c : Nat) : Engine.Move m a (e.checkWrite c).1 := by
  unfold Engine.checkWrite
  dsimp only
  split
  · exact h.complete _ _
  · split
    · exact h.complete _ _
    · rename_i hc
      refine h.admitWrite c fun hn => ?_
      simp only [Bool.and_eq_true, decide_eq_true_eq, not_and, Nat.not_le] at hc
      exact hc hn

theorem askAdmission (h : Engine.Move m a e) (c : Nat) : Engine.Move m a (e.askAdmission c) := by
  unfold Engine.askAdmission
  dsimp only
  split
  · exact (h.changeEntry _ _).modCtx _ _
  · exact h.checkWrite c

end Engine.Move

end Sys2Proof.Machine
end

