-- ==== Sys2Proof/Laws/MovesJobs.lean ====
section
/-! SUPPORT. What the operations of the Job Unit, the Mount Unit, the Ring Unit, FORMAT and SCRUB are made of: moves
(Laws/Moves.lean), so that each keeps the index's law, the rules of the banks and the sizes of the tables. -/

-- One theorem at a time: elaborated side by side, these many small proofs wait on one another and ask for a thread each.
set_option Elab.async false

namespace Sys2Proof.Machine

open Sys2Proof

/-- Moves with the changes of engine state that happen of themselves. -/
abbrev Engine.Flow : Engine → Engine → Prop := Engine.Move EngineState.settlesTo

/-- The list a mount builds is one of at most 8 segments, none twice (R110, R145). -/
theorem builtRefresh_holds (e : Engine) : refreshHolds e.builtRefresh := by
  refine ⟨List.length_take_le _ _, ?_⟩
  refine List.Nodup.sublist (List.take_sublist _ _) ?_
  refine List.Nodup.sublist (List.Sublist.map _ List.filter_sublist) ?_
  rw [Engine.segTable, List.zipIdx_map_snd]
  exact List.nodup_range'

namespace Engine.Move

variable {m : EngineState → EngineState → Prop} {a e : Engine}

/-! ### The write lock, lookups and reads -/

theorem handOn (h : Engine.Move m a e) (key : Nat) (ws : List Nat) : Engine.Move m a (e.handOn key ws) := by
  induction ws generalizing e with
  | nil =>
    unfold Engine.handOn
    split
    · exact h.dropEntry key
    · exact h.removalTest key
  | cons w ws ih =>
    have h1 := (h.changeEntry key fun t => { t with waiters := ws }).checkWrite w
    unfold Engine.handOn
    split
    · rename_i heq; rw [heq] at h1; exact h1
    · rename_i heq; rw [heq] at h1; exact ih h1

theorem releaseLock (h : Engine.Move m a e) (c : Nat) : Engine.Move m a (e.releaseLock c) := by
  unfold Engine.releaseLock
  dsimp only
  split
  · split
    · exact (h.changeEntry _ _).handOn _ _
    · exact h
  · exact h

theorem hostProgramPassed (h : Engine.Move m a e) (c : Nat) (l : Location) : Engine.Move m a (e.hostProgramPassed c l) := by
  unfold Engine.hostProgramPassed
  dsimp only
  split
  · exact ((((h.changeEntry _ _).moveLive _ _).changePending _ _).removalTest _).complete _ _
  · exact h

theorem readLocation (h : Engine.Move m a e) (c : Nat) (l : Location) : Engine.Move m a (e.readLocation c l) :=
  ((h.modCtx _ _).pin _).enqueue _

theorem noteLookup (h : Engine.Move m a e) (c : Nat) (b : Option EntryBody) : Engine.Move m a (e.noteLookup c b) :=
  h.modCtx _ _

theorem getLookup (h : Engine.Move m a e) (c : Nat) : Engine.Move m a (e.getLookup c) := by
  unfold Engine.getLookup
  dsimp only
  split
  · split
    · exact (h.noteLookup _ _).complete _ _
    · split
      · exact (h.noteLookup _ _).complete _ _
      · exact (h.noteLookup _ _).readLocation _ _
  · exact (h.noteLookup _ _).complete _ _
  · exact (h.noteLookup _ _).complete _ _

theorem matchLookup (h : Engine.Move m a e) (c : Nat) : Engine.Move m a (e.matchLookup c) := by
  unfold Engine.matchLookup
  dsimp only
  split
  · split
    · exact (h.noteLookup _ _).complete _ _
    · split
      · exact (h.noteLookup _ _).complete _ _
      · exact (h.noteLookup _ _).readLocation _ _
  · exact (h.noteLookup _ _).complete _ _
  · exact (h.noteLookup _ _).complete _ _

theorem getReadDone (h : Engine.Move m a e) (c : Nat) (cells : List CellOutcome) : Engine.Move m a (e.getReadDone c cells) := by
  unfold Engine.getReadDone
  dsimp only
  split
  · exact (h.modCtx _ _).beginTransfer _ _ _
  · exact h.complete _ _

theorem matchReadDone (h : Engine.Move m a e) (c : Nat) (cells : List CellOutcome) :
    Engine.Move m a (e.matchReadDone c cells) := by
  unfold Engine.matchReadDone
  dsimp only
  split
  · exact h.complete _ _
  · exact h.complete _ _

theorem scanStep (h : Engine.Move m a e) (c : Nat) : Engine.Move m a (e.scanStep c) := by
  unfold Engine.scanStep
  dsimp only
  split
  · exact (h.modCtx _ _).complete _ _
  · exact (h.modCtx _ _).beginTransfer _ _ _

/-! ### Chains and the end of a context -/

theorem proceed (h : Engine.Move m a e) (c : Nat) : Engine.Move m a (e.proceed c) := by
  unfold Engine.proceed
  dsimp only
  split
  · exact h.complete _ _
  · split
    · exact h.complete _ _
    · exact h.modCtx _ _

theorem chainWritten (h : Engine.Move m a e) (c : Nat) : Engine.Move m a (e.chainWritten c) := by
  unfold Engine.chainWritten
  dsimp only
  split
  · exact h
  · split
    · exact (h.modRing _ _).proceed _
    · exact h.modRing _ _

theorem freeCtx (h : Engine.Move m a e) (c : Nat) : Engine.Move m a (e.freeCtx c) := by
  unfold Engine.freeCtx
  dsimp only
  split
  · split
    · exact Engine.Move.wantChoice ((h.modCtx _ _).withFormat _)
    · exact h.modCtx _ _
  · exact h.modCtx _ _

theorem discard (h : Engine.Move m a e) (r c : Nat) : Engine.Move m a (e.discard r c) :=
  ((h.modRing _ _).releaseLock _).freeCtx _

theorem discardAll (h : Engine.Move m a e) (n : Nat) : Engine.Move m a (e.discardAll n) := by
  induction n generalizing e with
  | zero => exact h
  | succ n ih =>
    unfold Engine.discardAll
    split
    · exact ih (h.discard _ _)
    · exact h

/-! ### The Mount Unit -/

theorem countMount (h : Engine.Move m a e) (f : MountStats → MountStats) : Engine.Move m a (e.countMount f) := h.setMount _

theorem mountRead (h : Engine.Move m a e) (seg cell count : Nat) : Engine.Move m a (e.mountRead seg cell count) := h.enqueue _

theorem queueErases (h : Engine.Move m a e) (l : List Nat) : Engine.Move m a (l.foldl Engine.queueErase e) :=
  fold _ (fun _ k => k.enqueue _) h l

theorem finishTables (h : Engine.Move m a e) : Engine.Move m a e.finishTables := by
  refine (h.filterEntries fun t => !(t.body.isDeleted && t.stale == 0)).quietly ?_
  exact { segs := by simp [Engine.finishTables, finishSegs, Engine.setEntries] }

theorem eraseDirty (h : Engine.Move m a e) : Engine.Move m a e.eraseDirty :=
  fold _ (fun n k => (k.modSeg n _).enqueue _) h _

theorem raiseMountDone (h : Engine.Move m a e) : Engine.Move m a e.raiseMountDone := (h.raiseNotice _).raiseNotice _

/-- The work of phase FINISH, which keeps the engine state. -/
theorem finishWork (h : Engine.Move m a e) : Engine.Move m a e.finishWork := by
  unfold Engine.finishWork
  dsimp only
  refine Engine.Move.setMount (Engine.Move.raiseMountDone ?_) _
  refine (h.setMount _).finishTables.quietly { refresh := fun _ => ?_ }
  exact builtRefresh_holds _

theorem finishMount (h : Engine.Flow a e) : Engine.Flow a e.finishMount := by
  unfold Engine.finishMount
  split
  · rename_i hs
    refine Engine.Move.wantChoice (Engine.Move.spaceTest (Engine.Move.eraseDirty ?_))
    exact h.finishWork.setState _ (.inl ⟨(refl e).finishWork.state_kept.trans hs, rfl⟩)
  · exact h

theorem mountHeader (h : Engine.Move m a e) : Engine.Move m a e.mountHeader := h.mountRead _ _ _

theorem passBFrom (h : Engine.Flow a e) (n : Nat) : Engine.Flow a (e.passBFrom n) := by
  unfold Engine.passBFrom
  split
  · exact (h.setMount _).mountHeader
  · exact h.finishMount

theorem startPassB (h : Engine.Flow a e) : Engine.Flow a e.startPassB := (h.setMount _).passBFrom 0

theorem passBMove (h : Engine.Flow a e) (n : Nat) : Engine.Flow a (e.passBMove n) := by
  unfold Engine.passBMove
  dsimp only
  split
  · exact h.passBFrom _
  · exact (h.setMount _).mountHeader

theorem judgeTombstone (h : Engine.Move m a e) (l : Location) (x : RecordHeader) : Engine.Move m a (e.judgeTombstone l x) := by
  unfold Engine.judgeTombstone
  split
  · exact h
  · split
    · exact h.changeEntry _ _
    · split
      · split
        · exact h.changeEntry _ _
        · exact h
      · exact h

theorem passBRead (h : Engine.Flow a e) (cells : List CellOutcome) : Engine.Flow a (e.passBRead cells) := by
  unfold Engine.passBRead
  split
  · exact h.passBFrom _
  · exact h.passBMove _
  · dsimp only
    refine Engine.Move.passBMove ?_ _
    split
    · exact h.judgeTombstone _ _
    · exact h

theorem passAOthersFrom (h : Engine.Flow a e) (n : Nat) : Engine.Flow a (e.passAOthersFrom n) := by
  unfold Engine.passAOthersFrom
  split
  · exact (h.setMount _).mountHeader
  · exact h.startPassB

theorem passAFrom (h : Engine.Flow a e) (n : Nat) : Engine.Flow a (e.passAFrom n) := by
  unfold Engine.passAFrom
  split
  · exact (h.setMount _).mountHeader
  · exact h.passAOthersFrom 0

theorem startPassA (h : Engine.Flow a e) : Engine.Flow a e.startPassA := (h.setMount _).passAFrom 0

theorem passASegEnd (h : Engine.Flow a e) : Engine.Flow a e.passASegEnd := by
  unfold Engine.passASegEnd
  dsimp only
  split
  · exact h.passAOthersFrom _
  · split
    · exact ((h.modSeg _ _).countMount _).passAFrom _
    · exact (h.modSeg _ _).passAFrom _

theorem passAMove (h : Engine.Flow a e) (n : Nat) : Engine.Flow a (e.passAMove n) := by
  unfold Engine.passAMove
  dsimp only
  split
  · exact (h.setMount _).passASegEnd
  · exact (h.setMount _).mountHeader

theorem rankRecord (h : Engine.Move m a e) (key : Nat) (b : EntryBody) : Engine.Move m a (e.rankRecord key b) := by
  unfold Engine.rankRecord
  split
  · rename_i hl
    split
    · rename_i hc
      exact h.insertAbsent _ (by simpa [Engine.lookup] using hl) hc
    · exact h.countMount _
  · split
    · exact h.changeEntry _ _
    · exact h.changeEntry _ _

theorem takeRecord (h : Engine.Move m a e) (l : Location) (x : RecordHeader) (v : ValueVerdict) :
    Engine.Move m a (e.takeRecord l x v) := by
  unfold Engine.takeRecord
  split
  · exact h.rankRecord _ _
  · exact (h.countMount _).rankRecord _ _
  · exact h.countMount _
  · exact h.rankRecord _ _
  · exact h

theorem passARecord (h : Engine.Flow a e) (l : Location) (x : RecordHeader) (cells : List CellOutcome) :
    Engine.Flow a (e.passARecord l x cells) := by
  unfold Engine.passARecord
  dsimp only
  refine Engine.Move.passAMove ?_ _
  split
  · exact h.setMount _
  · exact ((h.setMount _).countMount _).takeRecord _ _ _

theorem passARead (h : Engine.Flow a e) (cells : List CellOutcome) : Engine.Flow a (e.passARead cells) := by
  unfold Engine.passARead
  dsimp only
  split
  · exact h.passARecord _ _ _
  · split
    · exact h.passASegEnd
    · refine Engine.Move.passAMove ?_ _
      split
      · exact h
      · exact h.countMount _
    · split
      · exact h.passARecord _ _ _
      · exact (h.setMount _).mountRead _ _ _

theorem giveMean (h : Engine.Move m a e) (mean : Nat) : Engine.Move m a (e.giveMean mean) :=
  fold _ (fun n k => k.modSeg n _) h _

theorem surveyEnd (h : Engine.Flow a e) : Engine.Flow a e.surveyEnd := by
  unfold Engine.surveyEnd
  dsimp only
  split
  · exact ((h.giveMean _).setMount _).startPassA
  · exact fold _ (fun _ k => k.enqueue _) ((h.giveMean _).setMount _) _

theorem noteFormat (h : Engine.Move m a e) (n : Nat) (x : CellOutcome) : Engine.Move m a (e.noteFormat n x) := by
  unfold Engine.noteFormat
  split
  · exact (h.modSeg _ _).setMount _
  · exact h.setMount _

theorem noteOpen (h : Engine.Move m a e) (n : Nat) (x : CellOutcome) : Engine.Move m a (e.noteOpen n x) := by
  unfold Engine.noteOpen
  split
  · exact (h.modSeg _ _).setMount _
  · exact h

theorem surveyFirst (h : Engine.Move m a e) (n : Nat) (cells : List CellOutcome) (weak : Bool) :
    Engine.Move m a (e.surveyFirst n cells weak) :=
  ((((h.noteFormat _ _).noteOpen _ _).setMount _).mountRead _ _ _)

theorem surveySecond (h : Engine.Flow a e) (n : Nat) (cells : List CellOutcome) (weak : Bool) :
    Engine.Flow a (e.surveySecond n cells weak) := by
  unfold Engine.surveySecond
  dsimp only
  split <;> split
  · exact (((h.modSeg _ _).countMount _).setMount _).mountRead _ _ _
  · exact ((h.modSeg _ _).setMount _).mountRead _ _ _
  · exact ((h.modSeg _ _).countMount _).surveyEnd
  · exact (h.modSeg _ _).surveyEnd

theorem blankCheckEnded (h : Engine.Flow a e) : Engine.Flow a e.blankCheckEnded := by
  unfold Engine.blankCheckEnded
  dsimp only
  split
  · exact (h.setMount _).startPassA
  · exact h.setMount _

theorem blankAnswer (h : Engine.Flow a e) (n : Nat) (blank : Bool) : Engine.Flow a (e.blankAnswer n blank) := by
  unfold Engine.blankAnswer
  split
  · exact h
  · split
    · exact h.enqueue _
    · exact ((h.modSeg _ _).countMount _).blankCheckEnded

theorem formatEstimated (h : Engine.Flow a e) (n : Nat) (pass : Bool) : Engine.Flow a (e.formatEstimated n pass) := by
  unfold Engine.formatEstimated
  split
  · exact ((h.modSeg _ _).countMount _).blankCheckEnded
  · exact h.retireSegment _ _ _

theorem mountProgramDone (h : Engine.Flow a e) (q : Request) (pass : Bool) : Engine.Flow a (e.mountProgramDone q pass) := by
  unfold Engine.mountProgramDone
  split
  · exact h.formatEstimated _ _
  · exact h.blankCheckEnded
  · exact h

theorem markMounted (h : Engine.Move m a e) (n : Nat) (weak : Bool) : Engine.Move m a (e.markMounted n weak) := by
  unfold Engine.markMounted
  split
  · exact h.modSeg _ _
  · exact h

theorem mountReadDone (h : Engine.Flow a e) (q : Request) (cells : List CellOutcome) :
    Engine.Flow a (e.mountReadDone q cells) := by
  have h1 := h.markMounted q.seg (weakRead e.control.limits.threshold cells)
  unfold Engine.mountReadDone
  dsimp only
  split
  · split
    · exact h.surveySecond _ _ _
    · exact h.surveyFirst _ _ _
  · exact h1.passARead _
  · exact h1.passBRead _
  · exact h

/-! ### The Ring Unit -/

theorem noteServed (h : Engine.Move m a e) (r : Nat) : Engine.Move m a (e.noteServed r) := by
  unfold Engine.noteServed
  split
  · exact h
  · exact h.quietly {}

theorem issueFetch (h : Engine.Move m a e) : Engine.Move m a e.issueFetch := by
  unfold Engine.issueFetch
  split
  · split
    · exact ((((h.noteServed _).modRing _ _).modCtx _ _).withFetching _).emit _
    · exact h
  · exact h

theorem checked (h : Engine.Move m a e) (c : Nat) : Engine.Move m a (e.checked c) := by
  unfold Engine.checked
  split
  · exact h.modCtx _ _
  · exact h.proceed _

theorem takeDescriptor (h : Engine.Move m a e) (r c : Nat) (d : Descriptor) : Engine.Move m a (e.takeDescriptor r c d) :=
  ((h.modRing _ _).modCtx _ _).checked _

theorem ringFault (h : Engine.Move m a e) (r : Nat) (cause : FaultCause) (slot : Nat) :
    Engine.Move m a (e.ringFault r cause slot) := by
  unfold Engine.ringFault
  dsimp only
  split
  · exact h
  · refine Engine.Move.raiseNotice ?_ _
    exact fold _ (fun c k => k.complete c _) (h.modRing _ _) _

theorem fetchEnded (h : Engine.Move m a e) (c : Nat) : Engine.Move m a (e.fetchEnded c) := (h.modCtx _ _).withFetching _

theorem dropFetch (h : Engine.Move m a e) (r : Nat) : Engine.Move m a (e.dropFetch r) := h.modRing _ _

theorem fetchDone (h : Engine.Move m a e) (r c : Nat) (d : Option Descriptor) : Engine.Move m a (e.fetchDone r c d) := by
  unfold Engine.fetchDone
  dsimp only
  split
  · exact (h.fetchEnded _).takeDescriptor _ _ _
  · exact (h.fetchEnded _).takeDescriptor _ _ _
  · exact (h.fetchEnded _).dropFetch _
  · exact ((h.fetchEnded _).dropFetch _).ringFault _ _ _

theorem issueRecords (h : Engine.Move m a e) : Engine.Move m a e.issueRecords :=
  h.quietly { rings := by simp [Engine.issueRecords] }

theorem signalRing (h : Engine.Move m a e) (r : Nat) : Engine.Move m a (e.signalRing r) := by
  unfold Engine.signalRing
  split
  · exact (h.sendMessage _).modRing _ _
  · exact h

theorem recordWritten (h : Engine.Move m a e) (r c : Nat) : Engine.Move m a (e.recordWritten r c) :=
  (((((h.emit _).modRing _ _).releaseLock _).chainWritten _).freeCtx _).signalRing _

theorem recordFailed (h : Engine.Move m a e) (r c : Nat) : Engine.Move m a (e.recordFailed r c) :=
  (((h.emit _).modRing _ _).ringFault _ _ _).discard _ _

theorem recordHalted (h : Engine.Move m a e) (r c : Nat) (ok : Bool) : Engine.Move m a (e.recordHalted r c ok) :=
  (h.emit _).modRing _ _

theorem postError (h : Engine.Move m a e) : Engine.Move m a e.postError := h.withControl _

theorem post (h : Engine.Move m a e) (r t : Nat) : Engine.Move m a (e.post r t) := by
  unfold Engine.post
  split
  · exact h.modRing _ _
  · exact h.postError

theorem ackRing (h : Engine.Move m a e) (r : Nat) (arm : Bool) (n : Nat) : Engine.Move m a (e.ackRing r arm n) := by
  unfold Engine.ackRing
  dsimp only
  split
  · exact (h.modRing _ _).sendMessage _
  · exact h.modRing _ _

theorem ackNotice (h : Engine.Move m a e) (g : NoticeRing) (arm : Bool) (n : Nat) : Engine.Move m a (e.ackNotice g arm n) := by
  unfold Engine.ackNotice
  dsimp only
  split
  · exact (h.withNotices _).sendMessage _
  · exact h.withNotices _

theorem ack (h : Engine.Move m a e) (r : Nat) (arm : Bool) (n : Nat) : Engine.Move m a (e.ack r arm n) := by
  unfold Engine.ack
  dsimp only
  split
  · split
    · split
      · exact h.ackNotice _ _ _
      · exact h.postError
    · exact h.postError
  · split
    · exact h.ackRing _ _ _
    · exact h.postError

theorem withRegisters (h : Engine.Move m a e) (g : Registers) : Engine.Move m a { e with registers := g } :=
  h.quietly {}

theorem initAdminRing (h : Engine.Move m a e) : Engine.Move m a e.initAdminRing := h.modRing _ _

theorem writeAdminSize (h : Engine.Move m a e) (v : BitVec 32) : Engine.Move m a (e.writeAdminSize v) := by
  unfold Engine.writeAdminSize
  split
  · exact h.withControl _
  · exact (h.withRegisters _).initAdminRing

theorem closeRing (h : Engine.Move m a e) (r : Nat) : Engine.Move m a (e.closeRing r) := by
  unfold Engine.closeRing
  split
  · exact (h.modRing _ _).complete _ _
  · exact h

theorem closeRings (h : Engine.Move m a e) : Engine.Move m a e.closeRings := fold _ (fun r k => k.closeRing r) h _

theorem issueNotice (h : Engine.Move m a e) : Engine.Move m a e.issueNotice := by
  unfold Engine.issueNotice
  split
  · rename_i hq
    split
    · refine h.withNotices _ fun k => ?_
      unfold NoticeUnit.holds at k ⊢
      rw [hq] at k
      simpa using k
    · exact h
  · exact h

theorem noticeWritten (h : Engine.Move m a e) {n : Notice} {rest : List Notice} (hq : e.notices.queue = n :: rest)
    (g : NoticeRing) : Engine.Move m a (e.noticeWritten g n rest) := by
  have h1 : Engine.Move m a { (e.emit (.memory g.slot (n.record g.phase))) with
      notices := { (e.emit (.memory g.slot (n.record g.phase))).notices with
        queue := rest, writing := false
        ring := some { g with
          writeIndex := nextSlot g.size g.writeIndex
          phase := nextPhase g.size g.writeIndex g.phase
          armed := false } } } := by
    refine (h.emit _).withNotices _ fun k => ?_
    have k' : e.notices.holds := k
    unfold NoticeUnit.holds at k' ⊢
    rw [hq] at k'
    refine ⟨?_, k'.2.1, fun x hx => k'.2.2 x (List.mem_cons_of_mem _ hx)⟩
    have := k'.1
    simp only [List.length_cons] at this
    exact Nat.le_trans (Nat.le_succ _) this
  unfold Engine.noticeWritten
  dsimp only
  split
  · exact h1.sendMessage _
  · exact h1

theorem noticeFailed (h : Engine.Move m a e) (g : NoticeRing) (n : Notice) : Engine.Move m a (e.noticeFailed g n) :=
  h.quietly {}

theorem noticeDone (h : Engine.Move m a e) (ok : Bool) : Engine.Move m a (e.noticeDone ok) := by
  unfold Engine.noticeDone
  split
  · rename_i hq
    split
    · exact h.noticeWritten hq _
    · exact h.noticeFailed _ _
  · exact h

theorem applySetter (h : Engine.Move m a e) (c : Nat) : Engine.Move m a (e.applySetter c) := by
  unfold Engine.applySetter
  refine Engine.Move.complete ?_ _ _
  exact h.quietly {}

theorem applySetters (h : Engine.Move m a e) : Engine.Move m a e.applySetters := by
  unfold Engine.applySetters
  split
  · exact h
  · exact fold _ (fun c k => k.applySetter c) h _

/-! ### FORMAT and the end of a step -/

theorem endReclaim (h : Engine.Move m a e) : Engine.Move m a e.endReclaim := (h.answerRequester _ _).setReclaim _

theorem formatRelease (h : Engine.Move m a e) (f : FormatRun) : Engine.Move m a (e.formatRelease f) := by
  unfold Engine.formatRelease
  dsimp only
  refine Engine.Move.queueErases ?_ _
  refine (h.filterEntries fun _ => false).quietly { entries := ?_, segs := ?_, refresh := fun _ => ?_ }
  · simp [Engine.setEntries]
  · simp [Engine.setEntries, Engine.segTable]
  · exact ⟨Nat.zero_le _, List.nodup_nil⟩

theorem formatBegin (h : Engine.Move m a e) : Engine.Move m a e.formatBegin := by
  unfold Engine.formatBegin
  split
  · split
    · exact h.endReclaim.formatRelease _
    · exact h
  · exact h

theorem recomputeMode (h : Engine.Move m a e) : Engine.Move m a e.recomputeMode := by
  unfold Engine.recomputeMode
  dsimp only
  split
  · exact ((h.withControl _).raiseNotice _).wantChoice
  · exact h.withControl _

theorem formatFinish (h : Engine.Move m a e) (f : FormatRun) : Engine.Move m a (e.formatFinish f) := by
  unfold Engine.formatFinish
  dsimp only
  refine Engine.Move.complete (Engine.Move.raiseNotice (Engine.Move.recomputeMode ?_) _) _ _
  exact h.quietly {}

theorem formatEnd (h : Engine.Move m a e) : Engine.Move m a e.formatEnd := by
  unfold Engine.formatEnd
  split
  · split
    · exact h.formatFinish _
    · exact h
  · exact h

theorem testQuiescence (h : Engine.Flow a e) : Engine.Flow a e.testQuiescence := by
  unfold Engine.testQuiescence
  split
  · rename_i hs
    simp only [Bool.and_eq_true, decide_eq_true_eq] at hs
    exact h.setState _ (.inr ⟨hs.1, rfl⟩)
  · exact h

theorem settleBlocks (h : Engine.Move m a e) : Engine.Move m a e.settleBlocks :=
  ((((((((h.discardAll _).grantVictim).formatBegin).settleReleased).settlePinWait).formatEnd).applySetters).closeRings).discardAll
    _

theorem settle (h : Engine.Flow a e) : Engine.Flow a e.settle := by
  unfold Engine.settle
  split
  · exact h.issueNotice
  · exact ((((h.settleBlocks.makeChoice).issueRecords).issueFetch).issueNotice).testQuiescence

/-! ### SCRUB -/

theorem scrubEnd (h : Engine.Move m a e) (c : Nat) (x : ScrubEnd) : Engine.Move m a (e.scrubEnd c x) := h.complete _ _

theorem setScrub (h : Engine.Move m a e) (c : Nat) (f : ScrubWork → ScrubWork) : Engine.Move m a (e.setScrub c f) := h.modCtx _ _

theorem scrubRead (h : Engine.Move m a e) (c cell count : Nat) : Engine.Move m a (e.scrubRead c cell count) := by
  unfold Engine.scrubRead
  dsimp only
  split
  · exact (h.pin _).enqueue _
  · exact h.scrubEnd _ _

theorem scrubNext (h : Engine.Move m a e) (c : Nat) : Engine.Move m a (e.scrubNext c) := by
  unfold Engine.scrubNext
  dsimp only
  split
  · exact h.scrubEnd _ _
  · exact h.scrubRead _ _ _

theorem scrubPass (h : Engine.Move m a e) (c n : Nat) : Engine.Move m a (e.scrubPass c n) := (h.setScrub _ _).scrubNext _

theorem scrubHeader (h : Engine.Move m a e) (c cell : Nat) (x : RecordHeader) : Engine.Move m a (e.scrubHeader c cell x) := by
  unfold Engine.scrubHeader
  dsimp only
  split
  · exact (h.setScrub _ _).scrubPass _ _
  · exact (h.setScrub _ _).scrubRead _ _ _

theorem scrubReadDone (h : Engine.Move m a e) (c : Nat) (q : Request) (cells : List CellOutcome) :
    Engine.Move m a (e.scrubReadDone c q cells) := by
  unfold Engine.scrubReadDone
  dsimp only
  split
  · exact ((h.setScrub _ _).setScrub _ _).scrubPass _ _
  · split
    · exact (h.setScrub _ _).scrubEnd _ _
    · exact ((h.setScrub _ _).setScrub _ _).scrubPass _ _
    · exact (h.setScrub _ _).scrubHeader _ _ _

end Engine.Move

end Sys2Proof.Machine
end

