-- ==== Sys2Proof/Laws/MovesEvents.lean ====
section
/-! SUPPORT. What the commands do to the engine is made of moves too (Laws/Moves.lean), and what a reset leaves is lawful
whatever it found. -/

-- One theorem at a time: elaborated side by side, these many small proofs wait on one another and ask for a thread each.
set_option Elab.async false

namespace Sys2Proof.Machine

open Sys2Proof

/-- A limit that passed the check of SET_LIMITS lies in its range after it (R183). -/
theorem newLimit_range {lo hi old n : Nat} (ho : lo ≤ old ∧ old ≤ hi) (hn : limitHolds lo hi n = true) :
    lo ≤ newLimit old n ∧ newLimit old n ≤ hi := by
  unfold newLimit
  split
  · exact ho
  · simpa [limitHolds, *] using hn

/-- A SET_LIMITS that is accepted keeps the limits in their ranges (R183). -/
theorem Limits.holds.changed {l : Limits} (h : l.holds) {d : Descriptor} (hd : limitsHold d = true) :
    (l.changed d).holds := by
  simp only [limitsHold, Bool.and_eq_true] at hd
  exact ⟨newLimit_range h.1 hd.1.1.1, newLimit_range h.2.1 hd.1.1.2, newLimit_range h.2.2.1 hd.1.2,
    newLimit_range h.2.2.2 hd.2⟩

namespace Engine.Move

variable {a e : Engine}

/-! ### The media's reports -/

theorem advanceProgrammed (h : Engine.Flow a e) (q : Request) : Engine.Flow a (e.advanceProgrammed q) := h.modSeg _ _

theorem formatCellPassed (h : Engine.Flow a e) (q : Request) : Engine.Flow a (e.formatCellPassed q) := by
  unfold Engine.formatCellPassed
  split
  · exact (((h.modSeg _ _).formatCounts _ _).freeRose).victimEnded _ _
  · exact h

theorem recordPassed (h : Engine.Flow a e) (q : Request) (f : Engine → Location → Engine)
    (hf : ∀ k l, Engine.Flow a k → Engine.Flow a (f k l)) : Engine.Flow a (e.recordPassed q f) := by
  unfold Engine.recordPassed
  split
  · exact hf _ _ (h.advanceProgrammed _)
  · exact h

theorem programPassed (h : Engine.Flow a e) (q : Request) : Engine.Flow a (e.programPassed q) := by
  unfold Engine.programPassed
  split
  · exact h.recordPassed _ _ fun _ _ k => k.hostProgramPassed _ _
  · exact h.recordPassed _ _ fun _ _ k => k.reclaimProgramPassed _
  · exact h.mountProgramDone _ _
  · exact h.mountProgramDone _ _
  · exact h.formatCellPassed _
  · exact h

theorem replaceHost (h : Engine.Flow a e) (c : Nat) (q : Request) : Engine.Flow a (e.replaceHost c q) := by
  unfold Engine.replaceHost
  split
  · exact h.failWrite _ _
  · exact (h.modCtx _ _).placeWrite _

theorem replaceReclaim (h : Engine.Flow a e) (q : Request) : Engine.Flow a (e.replaceReclaim q) := by
  have h1 := h.placeReclaim q.count
  unfold Engine.replaceReclaim
  split
  · exact h.beginStep
  · split
    · rename_i heq; rw [heq] at h1; exact h1.queueReclaimRecord _ _ _
    · rename_i heq; rw [heq] at h1; exact h1.pauseForSpace

theorem replaceRecord (h : Engine.Flow a e) (q : Request) : Engine.Flow a (e.replaceRecord q) := by
  unfold Engine.replaceRecord
  split
  · exact h.replaceHost _ _
  · exact h.replaceReclaim _
  · exact h

theorem segmentFailed (h : Engine.Flow a e) (b seg : Nat) (l : List Request) : Engine.Flow a (e.segmentFailed b seg l) :=
  fold _ (fun q k => k.replaceRecord q) ((h.closeFailed _).modBank _ _ fun k => k.withdraw _) _

theorem programFailed (h : Engine.Flow a e) (b : Nat) (q : Request) : Engine.Flow a (e.programFailed b q) := by
  unfold Engine.programFailed
  split
  · exact h.segmentFailed _ _ _
  · exact h.segmentFailed _ _ _
  · exact h.segmentFailed _ _ _
  · exact h.segmentFailed _ _ _
  · exact h.mountProgramDone _ _
  · exact h.mountProgramDone _ _
  · exact h.eraseLost _ _
  · exact h

theorem programEnded (h : Engine.Flow a e) (b : Nat) (q : Request) (pass : Bool) :
    Engine.Flow a (e.programEnded b q pass) := by
  unfold Engine.programEnded
  split
  · exact h.programPassed _
  · exact h.programFailed _ _

theorem eraseEnded (h : Engine.Flow a e) (q : Request) (pass : Bool) : Engine.Flow a (e.eraseEnded q pass) := by
  unfold Engine.eraseEnded
  split
  · exact h.erasePassed _
  · exact h.eraseLost _ _

theorem markWeak (h : Engine.Flow a e) (n : Nat) (weak : Bool) : Engine.Flow a (e.markWeak n weak) := by
  unfold Engine.markWeak
  split
  · exact h.weakMark _
  · exact h

theorem ctxReadDone (h : Engine.Flow a e) (c : Nat) (q : Request) (cells : List CellOutcome) :
    Engine.Flow a (e.ctxReadDone c q cells) := by
  unfold Engine.ctxReadDone
  split
  · exact h.getReadDone _ _
  · exact h.matchReadDone _ _
  · exact h.scrubReadDone _ _ _
  · exact h

theorem readReported (h : Engine.Flow a e) (q : Request) (cells : List CellOutcome) :
    Engine.Flow a (e.readReported q cells) := by
  unfold Engine.readReported
  dsimp only
  split
  · exact ((h.markWeak _ _).unpin _).ctxReadDone _ _ _
  · exact ((h.markWeak _ _).unpin _).reclaimReadDone _ _
  · exact h.mountReadDone _ _
  · exact h

/-- The end of a bank's operation, when its report is made of moves. -/
theorem opEnded (h : Engine.Flow a e) (b : Nat) (report : Engine → Engine)
    (hr : ∀ k, Engine.Flow a k → Engine.Flow a (report k)) : Engine.Flow a (e.opEnded b report) := by
  unfold Engine.opEnded
  split
  · exact (h.modBank _ _ fun l => l.haltedIdle).settle
  · exact ((hr _ (h.modBank _ _ fun l => l.ended)).selectBank _).settle

/-- A suspension that took effect, at a bank that is SUSPENDING. -/
theorem suspended (h : Engine.Flow a e) (b : Nat) (hs : (e.bank b).state = .suspending) :
    Engine.Flow a (e.suspended b) := by
  unfold Engine.suspended
  split
  · exact (h.modBank _ _ fun l => (l.pushActive hs).haltedIdle).settle
  · exact ((h.modBank _ _ fun l => l.pushActive hs).selectBank _).settle

theorem quantumEvent (h : Engine.Flow a e) (b : Nat) : Engine.Flow a (e.quantumEvent b) := by
  unfold Engine.quantumEvent
  split
  · rename_i hs _
    exact h.modBank _ _ fun l => l.quantumExpired
  · exact h

/-! ### Engine Control and the register window -/

/-- START in STOPPED is moves from the same engine in RUNNING (R173). -/
theorem start_flow (hs : e.state = .stopped) : Engine.Flow (e.setState .running) e.start := by
  unfold Engine.start
  rw [if_pos hs]
  exact (((refl _).setReclaim _).resumeReclaim.wantChoice).settle

/-- STOP in RUNNING is moves from the same engine in STOPPING (R171). -/
theorem stop_flow (hs : e.state = .running) : Engine.Flow (e.setState .stopping) e.stop := by
  unfold Engine.stop
  rw [if_pos hs]
  exact ((refl _).setReclaim _).settle

/-- A parity error outside HALTED is moves from the same engine in HALTED with its halt cause (R176). -/
theorem halt_flow (c : ParityMemory) (hs : e.state ≠ .halted) :
    Engine.Flow { e with control := { e.control with engine := .halted, halt := haltCauseOf c } } (e.halt c) := by
  unfold Engine.halt
  rw [if_neg hs]
  refine Engine.Move.settle (Engine.Move.raiseNotice ?_ _)
  exact .allBanks { e with control := { e.control with engine := .halted, halt := haltCauseOf c } } Bank.dropQueues
    fun k l => l.dropQueues

theorem startMount (h : Engine.Flow a e) : Engine.Flow a e.startMount := (h.setMount _).enqueue _

theorem readWindow (h : Engine.Flow a e) (offset width : Nat) : Engine.Flow a (e.readWindow offset width) :=
  (h.emit _).withControl _

theorem writeBase (h : Engine.Flow a e) (offset : Nat) (v : BitVec 32) : Engine.Flow a (e.writeBase offset v) := by
  unfold Engine.writeBase
  split
  · exact h.withRegisters _
  · split
    · exact h.withRegisters _
    · exact h

/-! ### The events of the Ring Unit -/

theorem fetchEvent (h : Engine.Flow a e) (d : Option (List Byte)) : Engine.Flow a (e.fetchEvent d) := by
  unfold Engine.fetchEvent
  split
  · exact h
  · exact h.withFetching _
  · exact (h.fetchDone _ _ _).settle

theorem recordEvent (h : Engine.Flow a e) (r : Nat) (ok : Bool) : Engine.Flow a (e.recordEvent r ok) := by
  unfold Engine.recordEvent
  split
  · split
    · exact h.recordHalted _ _ _
    · split
      · exact (h.recordWritten _ _).settle
      · exact (h.recordFailed _ _).settle
  · exact h

theorem noticeEvent (h : Engine.Flow a e) (ok : Bool) : Engine.Flow a (e.noticeEvent ok) := by
  unfold Engine.noticeEvent
  split
  · exact (h.noticeDone _).settle
  · exact h

/-! ### The data jobs -/

theorem jobStep (h : Engine.Flow a e) (c : Nat) (j : Job) (f : Engine → Engine)
    (hf : ∀ k, Engine.Flow a k → Engine.Flow a (f k)) : Engine.Flow a (e.jobStep c j f) := by
  unfold Engine.jobStep
  split
  · exact (hf _ h).settle
  · exact h

theorem putStep (h : Engine.Flow a e) (c : Nat) : Engine.Flow a (e.putStep c) := by
  unfold Engine.putStep
  dsimp only
  split
  · exact h.complete _ _
  · split
    · exact Engine.Move.askAdmission (h.modCtx _ _) _
    · exact h.beginTransfer _ _ _

theorem probeStep (h : Engine.Flow a e) (c : Nat) : Engine.Flow a (e.probeStep c) := h.complete _ _

theorem deleteStep (h : Engine.Flow a e) (c : Nat) : Engine.Flow a (e.deleteStep c) := by
  unfold Engine.deleteStep
  split
  · exact h.complete _ _
  · exact h.askAdmission _

theorem matchStep (h : Engine.Flow a e) (c : Nat) : Engine.Flow a (e.matchStep c) := by
  unfold Engine.matchStep
  dsimp only
  split
  · exact Engine.Move.matchLookup (h.modCtx _ _) _
  · exact h.beginTransfer _ _ _

theorem scanBegin (h : Engine.Flow a e) (c : Nat) : Engine.Flow a (e.scanBegin c) := (h.modCtx _ _).scanStep _

theorem afterTransfer (h : Engine.Flow a e) (f : Engine → Engine) (hf : ∀ k, Engine.Flow a k → Engine.Flow a (f k)) :
    Engine.Flow a (e.afterTransfer f) := by
  unfold Engine.afterTransfer
  split
  · exact h
  · exact (hf _ h).settle

theorem loaded (h : Engine.Flow a e) (c n : Nat) (d : Option (List Byte)) : Engine.Flow a (e.loaded c n d) := by
  unfold Engine.loaded
  split
  · exact h.complete _ _
  · dsimp only
    split
    · exact (h.modCtx _ _).matchLookup _
    · exact (h.modCtx _ _).askAdmission _

theorem loadEvent (h : Engine.Flow a e) (c : Nat) (d : Option (List Byte)) : Engine.Flow a (e.loadEvent c d) := by
  unfold Engine.loadEvent
  split
  · exact Engine.Move.afterTransfer (h.modCtx _ _) _ fun _ k => k.loaded _ _ _
  · exact h

theorem returnEvent (h : Engine.Flow a e) (c : Nat) (mine : Job → Bool) (ok : Bool) (f : Nat → Engine → Engine)
    (hf : ∀ n k, Engine.Flow a k → Engine.Flow a (f n k)) : Engine.Flow a (e.returnEvent c mine ok f) := by
  unfold Engine.returnEvent
  split
  · split
    · exact Engine.Move.afterTransfer (Engine.Move.emit (h.modCtx _ _) _) _ (hf _)
    · exact h
  · exact h

theorem getReturned (h : Engine.Flow a e) (c : Nat) (ok : Bool) : Engine.Flow a (e.getReturned c ok) := h.complete _ _

theorem scanReturned (h : Engine.Flow a e) (c : Nat) (ok : Bool) (n : Nat) : Engine.Flow a (e.scanReturned c ok n) := by
  unfold Engine.scanReturned
  dsimp only
  split
  · split
    · exact (h.modCtx _ _).complete _ _
    · exact ((h.modCtx _ _).modCtx _ _).scanStep _
  · exact h.complete _ _

theorem expireWait (h : Engine.Flow a e) (c : Nat) : Engine.Flow a (e.expireWait c) := by
  unfold Engine.expireWait
  split
  · refine Engine.Move.settle (Engine.Move.failWrite ?_ _ _)
    exact h.withSpace _ rfl
  · exact h

/-! ### The admin jobs -/

theorem answer (h : Engine.Flow a e) (c : Nat) (st : Status) (r : Results) : Engine.Flow a (e.answer c st r) :=
  h.complete _ _

theorem openRingStep (h : Engine.Flow a e) (c : Nat) : Engine.Flow a (e.openRingStep c) := by
  unfold Engine.openRingStep
  dsimp only
  split
  · exact h.answer _ _ _
  · exact (h.modRing _ _).answer _ _ _

theorem closeRingStep (h : Engine.Flow a e) (c : Nat) : Engine.Flow a (e.closeRingStep c) := by
  unfold Engine.closeRingStep
  dsimp only
  split
  · exact h.answer _ _ _
  · split
    · exact h.answer _ _ _
    · exact h.answer _ _ _
    · exact Engine.Move.modRing (h.modCtx _ _) _ _
    · split
      · exact h.answer _ _ _
      · exact Engine.Move.modRing (h.modCtx _ _) _ _

theorem setNoticeStep (h : Engine.Flow a e) (c : Nat) : Engine.Flow a (e.setNoticeStep c) := by
  unfold Engine.setNoticeStep
  split
  · exact h.answer _ _ _
  · split
    · exact Engine.Move.withNotices (h.modCtx _ _) _
    · exact h.applySetter _

theorem setLimitsStep (h : Engine.Flow a e) (c : Nat) : Engine.Flow a (e.setLimitsStep c) := by
  unfold Engine.setLimitsStep
  dsimp only
  split
  · exact h.answer _ _ _
  · rename_i hd
    simp only [Bool.not_eq_true', Bool.not_eq_false] at hd
    have h1 : Engine.Flow a { e with
        control := { e.control with limits := e.control.limits.changed (e.ctx c).descriptor } } :=
      h.withControl _ rfl rfl fun k => k.changed hd
    split
    · exact h1.answer _ _ _
    · exact h1.spaceTest.answer _ _ _

theorem queryEngineStep (h : Engine.Flow a e) (c : Nat) : Engine.Flow a (e.queryEngineStep c) := h.beginTransfer _ _ _

theorem querySegmentStep (h : Engine.Flow a e) (c : Nat) : Engine.Flow a (e.querySegmentStep c) := by
  unfold Engine.querySegmentStep
  dsimp only
  split
  · exact h.answer _ _ _
  · split
    · exact h.answer _ _ _
    · exact h.beginTransfer _ _ _

theorem reclaimStep (h : Engine.Flow a e) (c : Nat) : Engine.Flow a (e.reclaimStep c) := by
  unfold Engine.reclaimStep
  dsimp only
  split
  · exact h.answer _ _ _
  · split
    · exact h.answer _ _ _
    · split
      · exact Engine.Move.startVictim (h.modCtx _ _) _ _
      · exact h.answer _ _ _

theorem scrubStep (h : Engine.Flow a e) (c : Nat) : Engine.Flow a (e.scrubStep c) := by
  unfold Engine.scrubStep
  dsimp only
  split
  · exact h.answer _ _ _
  · split
    · exact h.answer _ _ _
    · exact Engine.Move.scrubNext (Engine.Move.modCtx (h.modCtx _ _) _ _) _

theorem formatStep (h : Engine.Flow a e) (c : Nat) : Engine.Flow a (e.formatStep c) := by
  unfold Engine.formatStep
  split
  · exact h.answer _ _ _
  · split
    · exact h.answer _ _ _
    · split
      · exact h.answer _ _ _
      · exact Engine.Move.withFormat (h.modCtx _ _) _

theorem reportWritten (h : Engine.Flow a e) (c : Nat) (ok : Bool) : Engine.Flow a (e.reportWritten c ok) := h.answer _ _ _

end Engine.Move

/-! ### What a reset leaves -/

theorem Engine.fresh_banksLawful (e : Engine) (g : Registers) : (e.fresh g).banksLawful := by
  intro k hk
  have : k = {} := by simpa [Engine.fresh] using (List.mem_replicate.mp hk).2
  rw [this]; exact Bank.reset_lawful

theorem Engine.fresh_shape (e : Engine) (g : Registers) : (e.fresh g).shape := by
  exact ⟨List.length_replicate, List.length_replicate, List.length_replicate, List.length_replicate, rfl⟩

@[simp] theorem Engine.fresh_entries (e : Engine) (g : Registers) : (e.fresh g).index.entries = [] := rfl

/-! ### The engine after a reset -/

theorem State.mount_engine (s : State) : s.mount.engine = s.engine.startMount.settle := by
  unfold State.mount; rfl

theorem State.engineReset_engine (s : State) :
    s.engineReset.engine = (s.engine.fresh s.engine.registers).initAdminRing.startMount.settle := by
  rw [State.engineReset, State.mount_engine]; rfl

theorem State.linkReset_engine (s : State) : s.linkReset.engine = (s.engine.fresh {}).startMount.settle := by
  rw [State.linkReset, State.mount_engine]; rfl

theorem State.coldReset_engine (s : State) : s.coldReset.engine = (s.engine.fresh {}).startMount.settle := by
  rw [State.coldReset, State.mount_engine]; rfl

/-! ### The ends of operations, as engines -/

theorem State.endProgram_passed (s : State) (b : Nat) (o : Operation) :
    (s.endProgram b o true).engine = s.engine.opEnded b fun e => e.programEnded b o.request true := rfl

theorem State.endProgram_failed (s : State) (b : Nat) (o : Operation) :
    (s.endProgram b o false).engine = s.engine.draw.opEnded b fun e => e.programEnded b o.request false := rfl

theorem State.endErase_passed (s : State) (b : Nat) (o : Operation) :
    (s.endErase b o true).engine = s.engine.opEnded b fun e => e.eraseEnded o.request true := rfl

theorem State.endErase_failed (s : State) (b : Nat) (o : Operation) :
    (s.endErase b o false).engine = s.engine.draw.opEnded b fun e => e.eraseEnded o.request false := rfl

theorem State.endProgram_flow (s : State) (b : Nat) (o : Operation) (pass : Bool) :
    s.engine.Flow (s.endProgram b o pass).engine := by
  cases pass
  · rw [State.endProgram_failed]
    exact Engine.Move.opEnded (Engine.Move.refl s.engine).draw b _ fun k h => h.programEnded _ _ _
  · rw [State.endProgram_passed]
    exact Engine.Move.opEnded (Engine.Move.refl s.engine) b _ fun k h => h.programEnded _ _ _

theorem State.endErase_flow (s : State) (b : Nat) (o : Operation) (pass : Bool) :
    s.engine.Flow (s.endErase b o pass).engine := by
  cases pass
  · rw [State.endErase_failed]
    exact Engine.Move.opEnded (Engine.Move.refl s.engine).draw b _ fun k h => h.eraseEnded _ _
  · rw [State.endErase_passed]
    exact Engine.Move.opEnded (Engine.Move.refl s.engine) b _ fun k h => h.eraseEnded _ _

theorem State.endOp_flow (s : State) (b : Nat) (o : Operation) (pass : Bool) :
    s.engine.Flow (s.endOp b o pass).engine := by
  unfold State.endOp
  split
  · exact s.endErase_flow _ _ _
  · exact s.endProgram_flow _ _ _

/-- An end report acts on the bank's active operation, or on nothing. -/
theorem State.onActive_cases (s : State) (b : Nat) (op : MediaOp) (f : Operation → State) :
    s.onActive b op f = s ∨ ∃ o, s.engine.activeOp b op = some o ∧ s.onActive b op f = f o := by
  unfold State.onActive
  split
  · rename_i o h; exact .inr ⟨o, h, rfl⟩
  · exact .inl rfl

theorem State.suspendReported_flow (s : State) (b : Nat) (x : SuspendOutcome) :
    s.engine.Flow (s.suspendReported b x).engine := by
  unfold State.suspendReported
  split
  · exact .refl _
  · rename_i o h
    split
    · refine (Engine.Move.refl _).suspended b ?_
      unfold Engine.suspendingOp at h
      split at h
      · assumption
      · simp at h
    · exact s.endOp_flow _ _ _
    · exact s.endOp_flow _ _ _

end Sys2Proof.Machine
end

