-- ==== Sys2Proof/WellFormed.lean ====
section
/-! DEFINITION. The commands the part can be sent: numbers in the ranges the guide gives them. A command that is not
well-formed names something the part does not have; its meaning then finds nothing to act on. -/

namespace Sys2Proof

/-- A descriptor has 64 bytes (R151). -/
def descriptorWf : Option (List Byte) → Bool
  | none => true
  | some d => d.length == 64

/-- A value read into staging has at most 4,032 bytes (R31, R39). -/
def dataWf : Option (List Byte) → Bool
  | none => true
  | some d => d.length ≤ 4032

/-- Context numbers are 0 to 31 (R24), ring numbers 0 to 7 (R150), bank numbers 0 to 3 (section 3.1); a register access is
of 1 to 8 bytes and lies in the 4 KiB region (R179); a READ covers at most 64 cells (R76). -/
def Instr.wf : Instr → Bool
  | .start => true
  | .stop => true
  | .engineReset => true
  | .adminSizeWrite _ => true
  | .post _ _ => true
  | .ack _ _ _ => true
  | .stateRead offset width => 1 ≤ width && width ≤ 8 && offset + width ≤ 4096
  | .registerWrite offset width _ => 1 ≤ width && width ≤ 8 && offset + width ≤ 4096
  | .linkReset => true
  | .coldReset => true
  | .parityError _ => true
  | .descriptorFetchDone d => descriptorWf d
  | .doneRecordWritten ring _ => ring < 8
  | .noticeWriteDone _ => true
  | .put c => c < 32
  | .get c => c < 32
  | .probe c => c < 32
  | .delete c => c < 32
  | .matchValue c => c < 32
  | .scan c => c < 32
  | .openRing c => c < 32
  | .closeRing c => c < 32
  | .setNotice c => c < 32
  | .setLimits c => c < 32
  | .queryEngine c => c < 32
  | .querySegment c => c < 32
  | .reclaim c => c < 32
  | .scrub c => c < 32
  | .format c => c < 32
  | .loadingDone c data => c < 32 && dataWf data
  | .returningDone c _ => c < 32
  | .scanBatchDone c _ => c < 32
  | .reportWriteDone c _ => c < 32
  | .spaceWaitExpiry c => c < 32
  | .quantumExpiry b => b < 4
  | .suspendReport b _ => b < 4
  | .readDone b flips => b < 4 && flips.length ≤ 64
  | .blankCheckDone b _ => b < 4
  | .programDone b _ => b < 4
  | .eraseDone b _ => b < 4
  | .programTimeout b => b < 4
  | .eraseTimeout b => b < 4
  | .resetInputAsserted => true
  | .powerLoss => true

end Sys2Proof
end

