-- ==== Sys2Proof/Laws/PerInstr.lean ====
section
/-! SUPPORT. What a well-formed command names: one lemma per constructor of Instr. -/

-- One theorem at a time: see Laws/Moves.lean.
set_option Elab.async false

namespace Sys2Proof

/-- The job context a command names, if it names one. -/
def Instr.context? : Instr → Option Nat
  | .start => none
  | .stop => none
  | .engineReset => none
  | .adminSizeWrite _ => none
  | .post _ _ => none
  | .ack _ _ _ => none
  | .stateRead _ _ => none
  | .registerWrite _ _ _ => none
  | .linkReset => none
  | .coldReset => none
  | .parityError _ => none
  | .descriptorFetchDone _ => none
  | .doneRecordWritten _ _ => none
  | .noticeWriteDone _ => none
  | .put c => some c
  | .get c => some c
  | .probe c => some c
  | .delete c => some c
  | .matchValue c => some c
  | .scan c => some c
  | .openRing c => some c
  | .closeRing c => some c
  | .setNotice c => some c
  | .setLimits c => some c
  | .queryEngine c => some c
  | .querySegment c => some c
  | .reclaim c => some c
  | .scrub c => some c
  | .format c => some c
  | .loadingDone c _ => some c
  | .returningDone c _ => some c
  | .scanBatchDone c _ => some c
  | .reportWriteDone c _ => some c
  | .spaceWaitExpiry c => some c
  | .quantumExpiry _ => none
  | .suspendReport _ _ => none
  | .readDone _ _ => none
  | .blankCheckDone _ _ => none
  | .programDone _ _ => none
  | .eraseDone _ _ => none
  | .programTimeout _ => none
  | .eraseTimeout _ => none
  | .resetInputAsserted => none
  | .powerLoss => none

/-- The bank a command names, if it names one. -/
def Instr.bank? : Instr → Option Nat
  | .start => none
  | .stop => none
  | .engineReset => none
  | .adminSizeWrite _ => none
  | .post _ _ => none
  | .ack _ _ _ => none
  | .stateRead _ _ => none
  | .registerWrite _ _ _ => none
  | .linkReset => none
  | .coldReset => none
  | .parityError _ => none
  | .descriptorFetchDone _ => none
  | .doneRecordWritten _ _ => none
  | .noticeWriteDone _ => none
  | .put _ => none
  | .get _ => none
  | .probe _ => none
  | .delete _ => none
  | .matchValue _ => none
  | .scan _ => none
  | .openRing _ => none
  | .closeRing _ => none
  | .setNotice _ => none
  | .setLimits _ => none
  | .queryEngine _ => none
  | .querySegment _ => none
  | .reclaim _ => none
  | .scrub _ => none
  | .format _ => none
  | .loadingDone _ _ => none
  | .returningDone _ _ => none
  | .scanBatchDone _ _ => none
  | .reportWriteDone _ _ => none
  | .spaceWaitExpiry _ => none
  | .quantumExpiry b => some b
  | .suspendReport b _ => some b
  | .readDone b _ => some b
  | .blankCheckDone b _ => some b
  | .programDone b _ => some b
  | .eraseDone b _ => some b
  | .programTimeout b => some b
  | .eraseTimeout b => some b
  | .resetInputAsserted => none
  | .powerLoss => none

end Sys2Proof

namespace Sys2Proof.Laws.Operands

open Sys2Proof

/-- A well-formed command names a context of the 32 (R24) and a bank of the 4 (section 3.1), never both. -/
def Statement (i : Instr) : Prop :=
  i.wf = true →
    (∀ c, i.context? = some c → c < 32 ∧ i.bank? = none) ∧ ∀ b, i.bank? = some b → b < 4 ∧ i.context? = none

theorem start : Statement (.start) := by
  simp +contextual [Statement, Instr.wf, Instr.context?, Instr.bank?]

theorem stop : Statement (.stop) := by
  simp +contextual [Statement, Instr.wf, Instr.context?, Instr.bank?]

theorem engineReset : Statement (.engineReset) := by
  simp +contextual [Statement, Instr.wf, Instr.context?, Instr.bank?]

theorem adminSizeWrite (value : BitVec 32) : Statement (.adminSizeWrite value) := by
  simp +contextual [Statement, Instr.wf, Instr.context?, Instr.bank?]

theorem post (ring : BitVec 4) (tail : BitVec 10) : Statement (.post ring tail) := by
  simp +contextual [Statement, Instr.wf, Instr.context?, Instr.bank?]

theorem ack (ring : BitVec 4) (arm : Bool) (head : BitVec 10) : Statement (.ack ring arm head) := by
  simp +contextual [Statement, Instr.wf, Instr.context?, Instr.bank?]

theorem stateRead (offset width : Nat) : Statement (.stateRead offset width) := by
  simp +contextual [Statement, Instr.wf, Instr.context?, Instr.bank?]

theorem registerWrite (offset width : Nat) (value : BitVec 32) : Statement (.registerWrite offset width value) := by
  simp +contextual [Statement, Instr.wf, Instr.context?, Instr.bank?]

theorem linkReset : Statement (.linkReset) := by
  simp +contextual [Statement, Instr.wf, Instr.context?, Instr.bank?]

theorem coldReset : Statement (.coldReset) := by
  simp +contextual [Statement, Instr.wf, Instr.context?, Instr.bank?]

theorem parityError (memory : ParityMemory) : Statement (.parityError memory) := by
  simp +contextual [Statement, Instr.wf, Instr.context?, Instr.bank?]

theorem descriptorFetchDone (descriptor : Option (List Byte)) : Statement (.descriptorFetchDone descriptor) := by
  simp +contextual [Statement, Instr.wf, Instr.context?, Instr.bank?]

theorem doneRecordWritten (ring : Nat) (ok : Bool) : Statement (.doneRecordWritten ring ok) := by
  simp +contextual [Statement, Instr.wf, Instr.context?, Instr.bank?]

theorem noticeWriteDone (ok : Bool) : Statement (.noticeWriteDone ok) := by
  simp +contextual [Statement, Instr.wf, Instr.context?, Instr.bank?]

theorem put (ctx : Nat) : Statement (.put ctx) := by
  simp +contextual [Statement, Instr.wf, Instr.context?, Instr.bank?]

theorem get (ctx : Nat) : Statement (.get ctx) := by
  simp +contextual [Statement, Instr.wf, Instr.context?, Instr.bank?]

theorem probe (ctx : Nat) : Statement (.probe ctx) := by
  simp +contextual [Statement, Instr.wf, Instr.context?, Instr.bank?]

theorem delete (ctx : Nat) : Statement (.delete ctx) := by
  simp +contextual [Statement, Instr.wf, Instr.context?, Instr.bank?]

theorem matchValue (ctx : Nat) : Statement (.matchValue ctx) := by
  simp +contextual [Statement, Instr.wf, Instr.context?, Instr.bank?]

theorem scan (ctx : Nat) : Statement (.scan ctx) := by
  simp +contextual [Statement, Instr.wf, Instr.context?, Instr.bank?]

theorem openRing (ctx : Nat) : Statement (.openRing ctx) := by
  simp +contextual [Statement, Instr.wf, Instr.context?, Instr.bank?]

theorem closeRing (ctx : Nat) : Statement (.closeRing ctx) := by
  simp +contextual [Statement, Instr.wf, Instr.context?, Instr.bank?]

theorem setNotice (ctx : Nat) : Statement (.setNotice ctx) := by
  simp +contextual [Statement, Instr.wf, Instr.context?, Instr.bank?]

theorem setLimits (ctx : Nat) : Statement (.setLimits ctx) := by
  simp +contextual [Statement, Instr.wf, Instr.context?, Instr.bank?]

theorem queryEngine (ctx : Nat) : Statement (.queryEngine ctx) := by
  simp +contextual [Statement, Instr.wf, Instr.context?, Instr.bank?]

theorem querySegment (ctx : Nat) : Statement (.querySegment ctx) := by
  simp +contextual [Statement, Instr.wf, Instr.context?, Instr.bank?]

theorem reclaim (ctx : Nat) : Statement (.reclaim ctx) := by
  simp +contextual [Statement, Instr.wf, Instr.context?, Instr.bank?]

theorem scrub (ctx : Nat) : Statement (.scrub ctx) := by
  simp +contextual [Statement, Instr.wf, Instr.context?, Instr.bank?]

theorem format (ctx : Nat) : Statement (.format ctx) := by
  simp +contextual [Statement, Instr.wf, Instr.context?, Instr.bank?]

theorem loadingDone (ctx : Nat) (data : Option (List Byte)) : Statement (.loadingDone ctx data) := by
  simp +contextual [Statement, Instr.wf, Instr.context?, Instr.bank?]

theorem returningDone (ctx : Nat) (ok : Bool) : Statement (.returningDone ctx ok) := by
  simp +contextual [Statement, Instr.wf, Instr.context?, Instr.bank?]

theorem scanBatchDone (ctx : Nat) (ok : Bool) : Statement (.scanBatchDone ctx ok) := by
  simp +contextual [Statement, Instr.wf, Instr.context?, Instr.bank?]

theorem reportWriteDone (ctx : Nat) (ok : Bool) : Statement (.reportWriteDone ctx ok) := by
  simp +contextual [Statement, Instr.wf, Instr.context?, Instr.bank?]

theorem spaceWaitExpiry (ctx : Nat) : Statement (.spaceWaitExpiry ctx) := by
  simp +contextual [Statement, Instr.wf, Instr.context?, Instr.bank?]

theorem quantumExpiry (bank : Nat) : Statement (.quantumExpiry bank) := by
  simp +contextual [Statement, Instr.wf, Instr.context?, Instr.bank?]

theorem suspendReport (bank : Nat) (outcome : SuspendOutcome) : Statement (.suspendReport bank outcome) := by
  simp +contextual [Statement, Instr.wf, Instr.context?, Instr.bank?]

theorem readDone (bank : Nat) (flips : List Nat) : Statement (.readDone bank flips) := by
  simp +contextual [Statement, Instr.wf, Instr.context?, Instr.bank?]

theorem blankCheckDone (bank : Nat) (disturbed : Bool) : Statement (.blankCheckDone bank disturbed) := by
  simp +contextual [Statement, Instr.wf, Instr.context?, Instr.bank?]

theorem programDone (bank : Nat) (pass : Bool) : Statement (.programDone bank pass) := by
  simp +contextual [Statement, Instr.wf, Instr.context?, Instr.bank?]

theorem eraseDone (bank : Nat) (pass : Bool) : Statement (.eraseDone bank pass) := by
  simp +contextual [Statement, Instr.wf, Instr.context?, Instr.bank?]

theorem programTimeout (bank : Nat) : Statement (.programTimeout bank) := by
  simp +contextual [Statement, Instr.wf, Instr.context?, Instr.bank?]

theorem eraseTimeout (bank : Nat) : Statement (.eraseTimeout bank) := by
  simp +contextual [Statement, Instr.wf, Instr.context?, Instr.bank?]

theorem resetInputAsserted : Statement (.resetInputAsserted) := by
  simp +contextual [Statement, Instr.wf, Instr.context?, Instr.bank?]

theorem powerLoss : Statement (.powerLoss) := by
  simp +contextual [Statement, Instr.wf, Instr.context?, Instr.bank?]

end Sys2Proof.Laws.Operands
end

