-- ==== Sys2Proof/Tests/Slice0.lean ====
section
/-! SUPPORT. Tests of the model's own: the ill-formed commands that the check refuses, one or two small steps a command with
the results the guide gives (its worked sequences where they have one), and for every statement a state and operands that
meet its hypotheses. -/

-- One theorem at a time: see Laws/Moves.lean.
set_option Elab.async false

namespace Sys2Proof.Tests

open Sys2Proof Sys2Proof.Machine

/-! ### Building small states -/

/-- A descriptor: a job code and fields, each an offset, a size and a value (R193). -/
def desc (code : Nat) (fields : List (Nat × Nat × Nat)) : List Byte :=
  fields.foldl (fun d p => d.take p.1 ++ le p.2.1 p.2.2 ++ d.drop (p.1 + p.2.1)) (le 1 code ++ zeros 63)

/-- A segment table with some records given. -/
def table (l : List (Nat × SegRecord)) : List SegRecord := l.foldl (fun t p => t.set p.1 p.2) (List.replicate 512 {})

/-- A RUNNING engine with ring 1 open (size 64, vector 1, armed) as in section 12.5. -/
def store : Engine :=
  { control := { engine := .running }
    rings := {} :: { state := .opened, size := 64, vector := 1, armed := true, tail := 10, fetch := 10, inFlight := 1
                     doneIndex := 7, head := 7, doneBase := 4096, jobBase := 8192 } :: List.replicate 6 {}
    index := { entries := [{ key := 0x2A00, body := .value { seg := 90, cell := 600, count := 3 } 47912 150 }]
               writeSeq := 48300 }
    space := { segs := table [(90, { state := .full, writePtr := 2047, progPtr := 2047, live := 1210 }),
                              (301, { state := .head, role := some .host, sseq := some 9, writePtr := 812, progPtr := 812
                                      live := 640 })]
               rotation := 1 } }

/-- The store with context 3 as given. -/
def ctx3 (x : JobContext) (e : Engine := store) : State := { engine := { e with ctxs := e.ctxs.set 3 x } }

/-- Context 3 ready for the step of the job its descriptor holds, on ring 1. -/
def ready (d : List Byte) : JobContext := { state := .taken, ring := 1, descriptor := d, ready := true }

/-- The same for an admin job, on ring 0, which is open with size 16. -/
def admin (d : List Byte) : JobContext := { state := .taken, ring := 0, descriptor := d, ready := true }

/-- The store with its admin ring open. -/
def adminStore : Engine :=
  { store with rings := store.rings.set 0 { state := .opened, size := 16, inFlight := 1, tail := 1, fetch := 1 } }

/-- The state after a command. -/
def after (c : Instr) (s : State) : State :=
  match exec c s with
  | .next t => t
  | _ => s

/-! ### Ill-formed commands are refused -/

theorem test_wf_context : Instr.wf (.put 32) = false ∧ Instr.wf (.put 31) = true := by decide
theorem test_wf_bank : Instr.wf (.eraseDone 4 true) = false ∧ Instr.wf (.eraseDone 3 true) = true := by decide
theorem test_wf_ring : Instr.wf (.doneRecordWritten 8 true) = false ∧ Instr.wf (.doneRecordWritten 7 true) = true := by decide
theorem test_wf_read : Instr.wf (.stateRead 4 0) = false ∧ Instr.wf (.stateRead 4 9) = false
    ∧ Instr.wf (.stateRead 4094 4) = false ∧ Instr.wf (.stateRead 4 4) = true := by decide
theorem test_wf_write_width : Instr.wf (.registerWrite 0 0 0) = false ∧ Instr.wf (.registerWrite 0 9 0) = false
    ∧ Instr.wf (.registerWrite 4095 2 0) = false ∧ Instr.wf (.registerWrite 4092 4 0) = true := by decide
theorem test_wf_descriptor : Instr.wf (.descriptorFetchDone (some (zeros 63))) = false
    ∧ Instr.wf (.descriptorFetchDone (some (zeros 64))) = true := by decide
theorem test_wf_value : Instr.wf (.loadingDone 0 (some (zeros 4033))) = false
    ∧ Instr.wf (.loadingDone 0 (some (zeros 4032))) = true := by decide +kernel
theorem test_wf_flips : Instr.wf (.readDone 0 (List.replicate 65 0)) = false
    ∧ Instr.wf (.readDone 0 (List.replicate 64 0)) = true := by decide

/-! ### No word spells a command -/

theorem test_no_word (n w : Nat) : decodeTableWord n w = none ∧ State.reset.withFetchWord n w = State.reset := ⟨rfl, rfl⟩

/-! ### Resets, START and STOP (chapter 9) -/

/-- R164 to R175: the state after reset is the one a cold reset leaves of an erased part. -/
theorem test_cold_reset : (after .coldReset {}).engine.banks = State.reset.engine.banks
    ∧ (after .coldReset {}).engine.mount = State.reset.engine.mount := by decide +kernel

/-- R174: an engine reset keeps the registers and opens the admin ring from them. -/
theorem test_engine_reset :
    let s : State := { engine := { store with registers := { adminBaseLo := 4096, adminSize := 16 } } }
    (after .engineReset s).engine.registers = s.engine.registers
      ∧ ((after .engineReset s).engine.ring 0).doneBase = 4096 + 64 * 16
      ∧ (after .engineReset s).engine.state = .mounting := by decide +kernel

/-- R175: a link reset clears them, and leaves the admin ring CLOSED. -/
theorem test_link_reset :
    let s : State := { engine := { store with registers := { adminBaseLo := 4096, adminSize := 16 } } }
    (after .linkReset s).engine.registers = {} ∧ ((after .linkReset s).engine.ring 0).state = .closed := by decide +kernel

/-- R175: with the reset input asserted no mount runs, and commands do nothing until its release. -/
theorem test_reset_input :
    (after .resetInputAsserted ({} : State)).engine.mount.phase = .none
      ∧ after .stop (after .resetInputAsserted ({} : State)) = after .resetInputAsserted ({} : State) := ⟨rfl, rfl⟩

/-- R175: a loss of supply leaves the array as it was when nothing ran. -/
theorem test_power_loss :
    (after .powerLoss ({ array := [(3, .retire)], engine := store } : State)).array = [(3, .retire)]
      ∧ (after .powerLoss ({ engine := store } : State)).supply = .off := by decide +kernel

/-- R171, R172: a STOP with a job in flight makes the engine STOPPING; with nothing in flight, STOPPED. -/
theorem test_stop : (after .stop (ctx3 (ready (desc 3 [])))).engine.state = .stopping
    ∧ (after .stop (ctx3 {})).engine.state = .stopped := by decide +kernel

/-- R173: a START in STOPPED makes it RUNNING, and in STOPPING does nothing. -/
theorem test_start : (after .start { engine := { store with control := { engine := .stopped } } }).engine.state = .running
    ∧ (after .start { engine := { store with control := { engine := .stopping } } }).engine.state = .stopping := by
  decide +kernel

/-- R176: a parity error in index memory halts the engine with cause 1. -/
theorem test_parity : (after (.parityError .index) (ctx3 {})).engine.state = .halted
    ∧ (after (.parityError .index) (ctx3 {})).engine.control.halt = .indexParity := by decide +kernel

/-! ### The register window (R153, R154, R179, R180) -/

/-- R153: size 16 opens the admin ring with its done records after the 16 job slots; size 12 leaves it CLOSED. -/
theorem test_admin_size :
    let s : State := { engine := { store with registers := { adminBaseLo := 0x1000 } } }
    ((after (.adminSizeWrite 16) s).engine.ring 0).doneBase = 0x1400
      ∧ ((after (.adminSizeWrite 12) s).engine.ring 0).state = .closed := by decide +kernel

/-- Section 8.9, event 1: a POST of tail 12 to ring 3 starts a fetch. -/
theorem test_post :
    let s : State := { engine := { store with rings := store.rings.set 3 { state := .opened, size := 16, vector := 3, armed := true } } }
    ((after (.post 3 12) s).engine.ring 3).tail = 12 ∧ ((after (.post 3 12) s).engine.ring 3).inFlight = 1
      ∧ (after (.post 3 16) s).engine.control.sticky.postError = true := by decide +kernel

/-- R159, R160: an ACK with ARM that leaves a record behind sends the message at once and leaves the ring disarmed. -/
theorem test_ack :
    let s : State := { engine := { store with rings := store.rings.set 3 { state := .opened, size := 16, vector := 3, doneIndex := 3 } } }
    (after (.ack 3 true 2) s).engine.output = [.interrupt 3] ∧ ((after (.ack 3 true 3) s).engine.ring 3).armed = true
      ∧ (after (.ack 3 true 4) s).engine.control.sticky.postError = true := by decide +kernel

/-- R180: the read returns RUNNING with POST_ERROR, and clears it; a read of its lowest byte alone does not. -/
theorem test_state_read :
    let s : State := { engine := { store with control := { engine := .running, sticky := { postError := true } } } }
    (after (.stateRead 4 4) s).engine.output = [.readData 4 (1 + 2 ^ 16)]
      ∧ (after (.stateRead 4 4) s).engine.control.sticky.postError = false
      ∧ (after (.stateRead 4 1) s).engine.control.sticky.postError = true := by decide +kernel

/-- R179: 16 bits of IDENT from its byte 2, and an offset past the registers. -/
theorem test_register_read :
    (after (.stateRead 2 2) (ctx3 {})).engine.output = [.readData 2 0x0640]
      ∧ (after (.stateRead 0x020 4) (ctx3 {})).engine.output = [.readData 4 0] := by decide +kernel

/-- R179: a CONTROL write of START with STOP does nothing; one of STOP alone stops; a 16-bit write is ignored. -/
theorem test_register_write :
    (after (.registerWrite 8 4 3) (ctx3 {})).engine.state = .running
      ∧ (after (.registerWrite 8 4 2) (ctx3 {})).engine.state = .stopped
      ∧ (after (.registerWrite 8 2 2) (ctx3 {})).engine.state = .running := by decide +kernel

/-! ### The Ring Unit (chapter 8) -/

/-- Section 12.5: the fetch of slot 9 takes the descriptor; a failed fetch faults the ring. -/
theorem test_descriptor_fetch :
    let s : State := { engine := { store with
      rings := store.rings.set 1 { state := .opened, size := 64, tail := 10, fetch := 9, inFlight := 1 }
      ctxs := store.ctxs.set 3 { held := true }, arbiter := { fetching := some (1, 3) } } }
    ((after (.descriptorFetchDone (some (desc 1 [(16, 8, 0x2A00), (32, 4, 200)]))) s).engine.ring 1).fetch = 10
      ∧ ((after (.descriptorFetchDone (some (desc 1 [(16, 8, 0x2A00), (32, 4, 200)]))) s).engine.ctx 3).ready = true
      ∧ ((after (.descriptorFetchDone none) s).engine.ring 1).state = .faulted := by decide +kernel

/-- A context whose record is being written on ring 1, holding the lock of key 2A00. -/
def posting : State :=
  ctx3 { state := .posting, ring := 1, slot := 9, descriptor := desc 1 [(16, 8, 0x2A00), (32, 4, 200)]
         outcome := { results := .record 48300 200 } }
    { store with
      rings := store.rings.set 1
        { state := .opened, size := 64, vector := 1, armed := true, tail := 10, fetch := 10, inFlight := 1, doneIndex := 7
          head := 7, doneBase := 4096, posting := [3], writing := true }
      index := { writeSeq := 48301, entries :=
        [{ key := 0x2A00, body := .value { seg := 301, cell := 812, count := 5 } 48300 200, stale := 1
           pending := some { ctx := 3, write := .put, rseq := 48300, progress := .durable } }] } }

/-- Section 12.5, last event: done 8, nothing in flight, the message on vector 1, disarmed, FREE, the lock released. -/
theorem test_done_record :
    let t := (after (.doneRecordWritten 1 true) posting).engine
    ((t.ring 1).doneIndex, (t.ring 1).inFlight, (t.ring 1).unacked, (t.ring 1).armed) = (8, 0, 1, false)
      ∧ t.output.head? = some (.interrupt 1) ∧ (t.ctx 3).state = .free ∧ (t.entry 0x2A00).bind (·.pending) = none := by
  decide +kernel

/-- R163: a failed write faults the ring, and the context is freed with its record discarded. -/
theorem test_done_record_failed :
    let t := (after (.doneRecordWritten 1 false) posting).engine
    (t.ring 1).state = .faulted ∧ (t.ctx 3).state = .free ∧ (t.ring 1).inFlight = 0 := by decide +kernel

/-- A notice being written to a notice ring of 16. -/
def noticing : State :=
  { engine := { store with
    notices := { queue := [{ number := 5, body := .halted .indexParity }], writing := true, number := 6
                 ring := some { base := 64, size := 16, vector := 8, armed := true, writeIndex := 15 } } } }

/-- R165: the written notice leaves the queue, the index wraps and the phase turns; a failure disables the ring (R166). -/
theorem test_notice_write :
    (after (.noticeWriteDone true) noticing).engine.notices.queue = []
      ∧ (after (.noticeWriteDone true) noticing).engine.notices.ring.map (fun g => (g.writeIndex, g.phase, g.armed))
        = some (0, false, false)
      ∧ (after (.noticeWriteDone false) noticing).engine.control.sticky.noticeFault = true
      ∧ (after (.noticeWriteDone false) noticing).engine.notices.queue.length = 1 := by decide +kernel

/-! ### The data jobs (chapter 2) -/

/-- Section 12.5: a PUT of 200 bytes enters LOADING; in READ_ONLY it is refused at once. -/
theorem test_put :
    ((after (.put 3) (ctx3 (ready (desc 1 [(16, 8, 0x2A00), (32, 4, 200)])))).engine.ctx 3).transfer = some (.load 0 200)
      ∧ ((after (.put 3) (ctx3 (ready (desc 1 [(16, 8, 0x2A00), (32, 4, 200)])) { store with
        control := { engine := .running, causes := { retiredLimit := true } } })).engine.ctx 3).outcome.status
        = .readOnly := by decide +kernel

/-- Section 12.5: with its value loaded it takes sequence 48,300 and cells 812 to 816 of segment 301, whose program
starts at bank 2. -/
theorem test_loading_done :
    let t := (after (.loadingDone 3 (some (zeros 200))) (ctx3
      { state := .loading, ring := 1, descriptor := desc 1 [(16, 8, 0x2A00), (32, 4, 200)], transfer := some (.load 0 200) })).engine
    t.index.writeSeq = 48301 ∧ (t.seg 301).writePtr = 817 ∧ (t.seg 301).progPtr = 812 ∧ (t.ctx 3).state = .media
      ∧ t.space.rotation = 2 ∧ (t.bank 2).active.map (fun o => (o.request.cell, o.request.count)) = some (812, 5) := by
  decide +kernel

/-- Section 1.9, event 1: a GET of a NASCENT key completes NOT_FOUND, and a PROBE reports it NASCENT. -/
theorem test_get_probe_nascent :
    let e : Engine := { store with index := { entries := [{ key := 0xA11, body := .nascent }] } }
    ((after (.get 3) (ctx3 (ready (desc 2 [(16, 8, 0xA11), (32, 4, 64)])) e)).engine.ctx 3).outcome.status = .notFound
      ∧ ((after (.probe 3) (ctx3 (ready (desc 3 [(16, 8, 0xA11)])) e)).engine.ctx 3).outcome.kind = .nascent := by
  decide +kernel

/-- Section 1.9, event 4: a GET of a VALUE pins its segment and reads its cells. -/
theorem test_get_value :
    let t := (after (.get 3) (ctx3 (ready (desc 2 [(16, 8, 0x2A00), (32, 4, 4032)])))).engine
    (t.seg 90).pins = 1 ∧ (t.bank 0).active.map (fun o => (o.request.seg, o.request.cell, o.request.count)) = some (90, 600, 3)
      ∧ ((after (.get 3) (ctx3 (ready (desc 2 [(16, 8, 0x2A00), (32, 4, 149)])))).engine.ctx 3).outcome.status
        = .shortBuffer := by decide +kernel

/-- R37: a PROBE reports the sequence and the length of a VALUE. -/
theorem test_probe :
    ((after (.probe 3) (ctx3 (ready (desc 3 [(16, 8, 0x2A00)])))).engine.ctx 3).outcome
      = { status := .ok, flags := { succeeded := true, found := true }, kind := .value, results := .record 47912 150 } := by
  decide +kernel

/-- R38: a DELETE of a VALUE is admitted and reserves one cell; of a missing key it is NOT_FOUND. -/
theorem test_delete :
    ((after (.delete 3) (ctx3 (ready (desc 4 [(16, 8, 0x2A00)])))).engine.seg 301).writePtr = 813
      ∧ ((after (.delete 3) (ctx3 (ready (desc 4 [(16, 8, 7)])))).engine.ctx 3).outcome.status = .notFound := by
  decide +kernel

/-- R39: a MATCH of 24 bytes loads them; one of length 0 against a longer value completes OK with MATCHED clear. -/
theorem test_match :
    ((after (.matchValue 3) (ctx3 (ready (desc 5 [(16, 8, 0x2A00), (32, 4, 24)])))).engine.ctx 3).state = .loading
      ∧ ((after (.matchValue 3) (ctx3 (ready (desc 5 [(16, 8, 0x2A00)])))).engine.ctx 3).outcome.flags
        = { succeeded := true, found := true } := by decide +kernel

/-- R41: a SCAN with room for one entry writes 16 bytes, and one with room for none reports the next key. -/
theorem test_scan :
    ((after (.scan 3) (ctx3 (ready (desc 6 [(16, 8, 1), (32, 4, 16)])))).engine.ctx 3).staging.length = 16
      ∧ ((after (.scan 3) (ctx3 (ready (desc 6 [(16, 8, 1)])))).engine.ctx 3).outcome.results = .scan 0x2A00 0 := by
  decide +kernel

/-- R36: the transfer of a GET's value ends the job OK, or HOST_ERROR. -/
theorem test_returning_done :
    let s := ctx3 { state := .returning, ring := 1, descriptor := desc 2 [(16, 8, 0x2A00), (32, 4, 150)]
                    found := some (.value { seg := 90, cell := 600, count := 3 } 47912 150), transfer := some (.store 64 (zeros 150)) }
    ((after (.returningDone 3 true) s).engine.ctx 3).outcome.results = .record 47912 150
      ∧ ((after (.returningDone 3 false) s).engine.ctx 3).outcome.status = .hostError := by decide +kernel

/-- R42: the end of the last batch completes the SCAN with its continuation key. -/
theorem test_scan_batch :
    let s := ctx3 { state := .returning, ring := 1, descriptor := desc 6 [(16, 8, 1), (32, 4, 16)]
                    scan := { count := 1, ended := some 0x2A00 }, transfer := some (.store 64 (zeros 16)) }
    ((after (.scanBatchDone 3 true) s).engine.ctx 3).outcome.results = .scan 0x2A00 1
      ∧ ((after (.scanBatchDone 3 true) s).engine.ctx 3).outcome.flags = { succeeded := true, found := true } := by
  decide +kernel

/-- A PUT in SPACE_WAIT. -/
def waiting : State :=
  ctx3 { state := .spaceWait, ring := 1, descriptor := desc 1 [(16, 8, 0x2A00), (32, 4, 200)]
         grant := some { kind := .value, rseq := 48300, matched := false } }
    { store with
      space := { store.space with waitQueue := [{ ctx := 3, deadline := 202000 }] }
      index := { writeSeq := 48301, entries :=
        [{ key := 0x2A00, body := .value { seg := 90, cell := 600, count := 3 } 47912 150
           pending := some { ctx := 3, write := .put, rseq := 48300, progress := .inFlight } }] } }

/-- R71: its deadline completes it NO_SPACE with the sequence it took, and the entry stays as it was. -/
theorem test_space_wait :
    let t := (after (.spaceWaitExpiry 3) waiting).engine
    (t.ctx 3).outcome.status = .noSpace ∧ (t.ctx 3).outcome.results = .record 48300 0 ∧ t.space.waitQueue = []
      ∧ (t.lookup 0x2A00).map (·.rseq) = some 47912 := by decide +kernel

/-! ### The admin jobs (chapters 6, 8, 10) -/

/-- R161: an OPEN_RING opens ring 2; of an open ring it is BUSY. -/
theorem test_open_ring :
    ((after (.openRing 3) (ctx3 (admin (desc 0x10 [(16, 1, 2), (18, 1, 3), (20, 4, 16), (24, 8, 4096), (32, 8, 8192)])) adminStore)).engine.ring
        2).size = 16
      ∧ ((after (.openRing 3) (ctx3 (admin (desc 0x10 [(16, 1, 1), (20, 4, 16)])) adminStore)).engine.ctx 3).outcome.status
        = .busy := by decide +kernel

/-- R162: a CLOSE_RING of a ring with a job in flight makes it DRAINING; of ring 0 it is BAD_PARAM. -/
theorem test_close_ring :
    ((after (.closeRing 3) (ctx3 (admin (desc 0x11 [(16, 1, 1)])) adminStore)).engine.ring 1).state = .draining
      ∧ ((after (.closeRing 3) (ctx3 (admin (desc 0x11 [])) adminStore)).engine.ctx 3).outcome.status = .badParam := by
  decide +kernel

/-- R166: a SET_NOTICE sets the notice ring; with a size of 12 it is BAD_PARAM. -/
theorem test_set_notice :
    (after (.setNotice 3) (ctx3 (admin (desc 0x12 [(18, 1, 8), (20, 4, 16), (24, 8, 64)])) adminStore)).engine.notices.ring
        = some { base := 64, size := 16, vector := 8 }
      ∧ ((after (.setNotice 3) (ctx3 (admin (desc 0x12 [(20, 4, 12)])) adminStore)).engine.ctx 3).outcome.status
        = .badParam := by decide +kernel

/-- R183: a SET_LIMITS of threshold 2 keeps the other limits; a threshold of 5 changes none. -/
theorem test_set_limits :
    (after (.setLimits 3) (ctx3 (admin (desc 0x13 [(18, 2, 2)])) adminStore)).engine.control.limits
        = { lowWater := 24, spaceWait := 200, eraseQuantum := 500, threshold := 2 }
      ∧ (after (.setLimits 3) (ctx3 (admin (desc 0x13 [(16, 2, 30), (18, 2, 5)])) adminStore)).engine.control.limits = {} := by
  decide +kernel

/-- R182: a QUERY_ENGINE sends 128 bytes, a QUERY_SEGMENT 64, and segment 512 is BAD_PARAM. -/
theorem test_queries :
    (∃ bytes, ((after (.queryEngine 3) (ctx3 (admin (desc 0x14 [(24, 8, 64)])) adminStore)).engine.ctx 3).transfer
        = some (.store 64 bytes) ∧ bytes.length = 128)
      ∧ ((after (.querySegment 3) (ctx3 (admin (desc 0x15 [(20, 2, 512)])) adminStore)).engine.ctx 3).outcome.status
        = .badParam := ⟨⟨_, rfl, by decide +kernel⟩, by decide +kernel⟩

/-- R182: the end of a report's write completes its query. -/
theorem test_report_write :
    let s := ctx3 { state := .returning, ring := 0, descriptor := desc 0x15 [(20, 2, 90)], transfer := some (.store 64 (zeros 64)) }
      adminStore
    ((after (.reportWriteDone 3 true) s).engine.ctx 3).outcome.status = .ok
      ∧ ((after (.reportWriteDone 3 false) s).engine.ctx 3).outcome.status = .hostError := by decide +kernel

/-- R114, R129: a RECLAIM of ANY finds FULL segment 90 with dead cells, but its start test fails with no FREE segment:
NO_SPACE. With 2 FREE segments it is granted, its reclaim head aside. -/
theorem test_reclaim :
    ((after (.reclaim 3) (ctx3 (admin (desc 0x16 [(20, 2, 0xFFFF)])) adminStore)).engine.ctx 3).outcome.status = .noSpace
      ∧ ((after (.reclaim 3) (ctx3 (admin (desc 0x16 [(20, 2, 90)])) { adminStore with
        space := { adminStore.space with segs := (adminStore.space.segs.set 7 { state := .free }).set 8 { state := .free } } })).engine.seg
        90).state = .reclaiming := by decide +kernel

/-- R132: a SCRUB of an in-use segment pins it and reads its first record cell; of one not in use it is BAD_PARAM. -/
theorem test_scrub :
    let t := (after (.scrub 3) (ctx3 (admin (desc 0x17 [(20, 2, 90)])) adminStore)).engine
    (t.seg 90).pins = 1 ∧ (t.bank 0).active.map (·.request.cell) = some 2
      ∧ ((after (.scrub 3) (ctx3 (admin (desc 0x17 [(20, 2, 91)])) adminStore)).engine.ctx 3).outcome.status = .badParam := by
  decide +kernel

/-- R188, R189: a FORMAT is BUSY while ring 1 is open; else it empties the index and erases the in-use segments. -/
theorem test_format :
    ((after (.format 3) (ctx3 (admin (desc 0x18 [])) adminStore)).engine.ctx 3).outcome.status = .busy
      ∧ (after (.format 3) (ctx3 (admin (desc 0x18 [])) { adminStore with rings := adminStore.rings.set 1 {} })).engine.index.entries = []
      ∧ ((after (.format 3) (ctx3 (admin (desc 0x18 [])) { adminStore with rings := adminStore.rings.set 1 {} })).engine.seg 90).state
        = .erasing := by decide +kernel

/-! ### The media (chapters 4 and 5) -/

/-- The bank of section 4.9: the erase of segment 300 in its quantum, a read and a host program waiting. -/
def bank49 : Bank :=
  { state := .active, active := some { request := { kind := .erase, seg := 300, requester := .space } }, quantumEnd := some 500
    readQ := [{ kind := .read, seg := 301, cell := 740, count := 3, requester := .ctx 14 }]
    hostQ := [{ kind := .hostRecord, seg := 260, cell := 1500, count := 10, requester := .ctx 22 }] }

/-- A state with bank 2 as given. -/
def bank2 (k : Bank) : State := { engine := { store with banks := [{}, {}, k, {}] } }

/-- Section 4.9, event 4: the erase quantum expires, and the controller asks for a suspension. -/
theorem test_quantum : ((after (.quantumExpiry 2) (bank2 bank49)).engine.bank 2).state = .suspending := by decide +kernel

/-- Section 4.9, event 5: the erase is pushed with count 1, and the read starts. -/
theorem test_suspend_report :
    let k := (after (.suspendReport 2 .tookEffect) (bank2 { bank49 with state := .suspending, quantumEnd := none })).engine.bank 2
    k.stack.map (fun o => (o.request.seg, o.suspends)) = [(300, 1)] ∧ k.active.map (·.request.cell) = some 740
      ∧ k.readQ = [] := by decide +kernel

/-- Section 4.9, event 6: the read ends, and the host program starts above the suspended erase. -/
theorem test_read_done :
    let k := (after (.readDone 2 []) (bank2 { bank49 with
      active := some { request := { kind := .read, seg := 301, cell := 740, count := 3, requester := .space } }, readQ := []
      quantumEnd := none, stack := [{ request := { kind := .erase, seg := 300, requester := .space }, suspends := 1 }] })).engine.bank 2
    k.active.map (·.request.cell) = some 1500 ∧ k.quantumEnd = some 30 ∧ k.streak = 0 ∧ k.stack.length = 1 := by
  decide +kernel

/-- Section 5.6, event 1: a read with a cell corrected in 3 bits marks its segment weak. -/
theorem test_read_weak :
    let s : State := { bank2 { state := .active, active := some { request :=
        { kind := .read, seg := 301, cell := 2, count := 2, requester := .reclaim } } } with
      array := [(2048 * 301 + 2, .retire), (2048 * 301 + 3, .retire)] }
    ((after (.readDone 2 [0, 3]) s).engine.seg 301).weak = true
      ∧ ((after (.readDone 2 [0, 2]) s).engine.seg 301).weak = false := by decide +kernel

/-- R137: NOT_BLANK leaves the segment DIRTY, and BLANK queues its format cell with the mean and the estimated mark. -/
theorem test_blank_check :
    let s : State := { engine := { mount := { phase := .survey, mean := 7, blankChecks := 2 }
                                   banks := [{ state := .active, active := some { request :=
                                     { kind := .blankCheck, seg := 5, requester := .mount } } }, {}, {}, {}] } }
    ((after (.blankCheckDone 0 true) s).engine.seg 5).state = .dirty
      ∧ ((after (.blankCheckDone 0 false) s).engine.bank 0).active.map (·.request.contents) = some [.format 7 true] := by
  decide +kernel

/-- Segment 301 with the 5 cells of section 12.5 reserved. -/
def head301 : SegRecord :=
  { state := .head, role := some .host, sseq := some 9, writePtr := 817, progPtr := 812, live := 640 }

/-- The program of section 12.5 under way at bank 2. -/
def programming : State :=
  let s := ctx3 { state := .media, ring := 1, descriptor := desc 1 [(16, 8, 0x2A00), (32, 4, 200)]
                  grant := some { kind := .value, rseq := 48300, matched := false } }
    { store with
      index := { writeSeq := 48301, entries :=
        [{ key := 0x2A00, body := .value { seg := 90, cell := 600, count := 3 } 47912 150
           pending := some { ctx := 3, write := .put, rseq := 48300, progress := .inFlight } }] }
      space := { store.space with segs := store.space.segs.set 301 head301 } }
  let k : Bank := { state := .active, active := some { request :=
    { kind := .hostRecord, seg := 301, cell := 812, count := 5, requester := .ctx 3, contents := List.replicate 5 .retire } } }
  { s with engine := { s.engine with banks := [{}, {}, k, {}] } }

/-- Section 12.5: the program passes: VALUE 48,300 at 301/812, length 200, stale 1; pp 817, live 645, 1,207 and IDLE. -/
theorem test_program_done :
    let t := (after (.programDone 2 true) programming).engine
    t.lookup 0x2A00 = some (.value { seg := 301, cell := 812, count := 5 } 48300 200)
      ∧ (t.entry 0x2A00).map (·.stale) = some 1 ∧ (t.seg 301).progPtr = 817 ∧ (t.seg 301).live = 645
      ∧ (t.seg 90).live = 1207 ∧ (t.bank 2).state = .idle ∧ (t.ctx 3).outcome.flags = { succeeded := true, found := true } := by
  decide +kernel

/-- R88: a program's timeout is its failure: the segment is FAILED_CLOSED. -/
theorem test_program_timeout :
    ((after (.programTimeout 2) programming).engine.seg 301).state = .failedClosed
      ∧ after (.programTimeout 2) programming = after (.programDone 2 false) programming := ⟨by decide +kernel, rfl⟩

/-- Bank 2 erasing segment 300. -/
def erasing300 : State :=
  { engine := { store with
    banks := [{}, {}, { state := .active, active := some { request := { kind := .erase, seg := 300, requester := .space } } }, {}]
    space := { store.space with segs := store.space.segs.set 300 { state := .erasing } } } }

/-- R93: an erase that passes has its format cell queued with the erase count plus 1; one that fails retires its
segment, and a timeout is a failure (R88). -/
theorem test_erase_done :
    ((after (.eraseDone 2 true) erasing300).engine.bank 2).active.map (·.request.contents) = some [.format 1 false]
      ∧ ((after (.eraseDone 2 false) erasing300).engine.seg 300).state = .retired := by decide +kernel

/-- R55: a passed erase blanks the open cell, and the segment sequence is absent. -/
theorem test_erase_sequence :
    ((after (.eraseDone 2 true) { erasing300 with engine := { erasing300.engine with
      space := { segs := table [(300, { state := .erasing, sseq := some 9 })] } } }).engine.seg 300)
      = { state := .erasing } := by decide +kernel

theorem test_erase_timeout : ((after (.eraseTimeout 2) erasing300).engine.seg 300).state = .retired := by decide +kernel

/-- Assumption 9: an idle step is 1 µs of run time for an ACTIVE bank. -/
theorem test_idle_step : ∃ t, step (bank2 bank49) = .next t ∧ t.engine.now = 1
    ∧ (t.engine.bank 2).active.map (·.runTime) = some 1 := ⟨_, rfl, by decide +kernel, by decide +kernel⟩

/-! ### Every statement has a state and operands that meet its hypotheses -/

/-- The job of context 3 stands ready. -/
theorem ready_at {d : List Byte} {e : Engine} (he : e.state ≠ .halted) (hc : e.ctxs.length = 32) {j : Job}
    (hj : Descriptor.job d = some j) : (ctx3 (ready d) e).jobAt 3 j (ready d) :=
  ⟨rfl, he, by simp [ctx3, hc], rfl, rfl, hj⟩

theorem admin_at {d : List Byte} {e : Engine} (he : e.state ≠ .halted) (hc : e.ctxs.length = 32) {j : Job}
    (hj : Descriptor.job d = some j) : (ctx3 (admin d) e).jobAt 3 j (admin d) :=
  ⟨rfl, he, by simp [ctx3, hc], rfl, rfl, hj⟩

/-- The store with an entry for key 2A00 as given. -/
def holding (b : EntryBody) (p : Option PendingWrite := none) (stale : Nat := 0) : Engine :=
  { store with index := { entries := [{ key := 0x2A00, body := b, stale := stale, pending := p }], writeSeq := 48300 } }

/-- The store MOUNTING, READ_ONLY, HALTED. -/
def mountingStore : Engine := { store with control := {} }
def readOnlyStore : Engine := { store with control := { engine := .running, causes := { retiredLimit := true } } }
def haltedStore : Engine := { store with control := { engine := .halted, halt := .indexParity } }

/-- Ring 1 of the store. -/
def ring1 : RingContext := store.ring 1

theorem witness_StepRunsTheFrontCommand :
    ({ pending := [.stop, .start] } : State).pending = .stop :: [.start]
    ∧ (bank2 bank49).pending = [] ∧ (bank2 bank49).supply = .on ∧ (bank2 bank49).engine.banks[2]? = some bank49
    ∧ ({ supply := .held } : State).pending = [] ∧ ({ supply := .held } : State).supply ≠ .on :=
  ⟨rfl, rfl, rfl, rfl, rfl, by decide⟩

theorem witness_AResetStartsAFreshMount : ({ engine := store } : State).supply = .on := rfl

theorem witness_SupplyEventsStopTheEngine :
    ({ supply := .held } : State).supply ≠ .off ∧ ({ supply := .off } : State).supply ≠ .on
    ∧ Instr.stop ≠ .coldReset ∧ Instr.stop ≠ .resetInputAsserted ∧ Instr.stop ≠ .powerLoss := by decide

/-- A store with a refresh list, ring 1 with all its credit in use, and a mount in pass A past the record of segment 90. -/
def refreshing : Engine := { store with reclaim := { refresh := [90] } }
def spent : Engine := { store with rings := store.rings.set 1 { ring1 with inFlight := 60, doneIndex := 10, head := 7 } }
def passing : Engine := { mountingStore with mount := { phase := .passA, seg := 90, cursor := 3 } }

/-- A STOP steps in every one of these. -/
theorem steps (e : Engine) : ∃ t, step ({ engine := e, pending := [.stop] } : State) = .next t := ⟨_, rfl⟩

theorem witness_EveryStepKeepsTheArrayForm :
    (∃ t, step ({ engine := store, pending := [.stop] } : State) = .next t) ∧ CellArray.wf [(3, .retire), (4, .retire)]
    ∧ Instr.endsWork (.readDone 0 []) = false ∧ ¬ (Instr.readDone 0 []).isReset
    ∧ ∃ t, exec (.readDone 0 []) State.reset = .next t :=
  ⟨steps store, by decide, rfl, by simp [Instr.isReset, Instr.writesControl], _, rfl⟩

theorem witness_EveryStepKeepsTheIndexLaw :
    (∃ t, step ({ engine := store, pending := [.stop] } : State) = .next t) ∧ indexLaw store.index.entries :=
  ⟨steps store, by simp [store], by simp [store, indexCapacity]⟩

theorem witness_EveryStepKeepsTheBankRules :
    (∃ t, step ({ engine := store, pending := [.stop] } : State) = .next t) ∧ store.banksLawful :=
  ⟨steps store, fun k hk => by rw [(List.mem_replicate.mp hk).2]; exact Bank.reset_lawful⟩

theorem witness_EveryStepKeepsQueuesSizesAndLimits :
    (∃ t, step ({ engine := store, pending := [.stop] } : State) = .next t)
    ∧ store.notices.holds ∧ store.shape ∧ store.control.limits.holds :=
  ⟨steps store, ⟨Nat.zero_le _, by decide, by simp [store]⟩, ⟨rfl, rfl, by decide +kernel, rfl, rfl⟩,
    by unfold Limits.holds; decide⟩

theorem witness_EveryStepKeepsTheRefreshList :
    (∃ t, step ({ engine := refreshing, pending := [.stop] } : State) = .next t) ∧ refreshing.refreshLaw :=
  ⟨steps refreshing, ⟨by decide, by simp [refreshing]⟩, by decide +kernel, by decide⟩

theorem witness_EveryStepKeepsTheCreditLaw :
    (∃ t, step ({ engine := spent, pending := [.stop] } : State) = .next t) ∧ spent.creditLaw
    ∧ (spent.ring 1).inFlight + (spent.ring 1).unacked = (spent.ring 1).size - 1 :=
  ⟨steps spent, by unfold Engine.creditLaw RingContext.creditHolds; decide, by decide⟩

theorem witness_EveryStepKeepsTheLocationLaw :
    (∃ t, step ({ engine := store, pending := [.stop] } : State) = .next t) ∧ store.locationLaw
    ∧ (∃ t, step ({ engine := passing, pending := [.stop] } : State) = .next t) ∧ passing.locationLaw :=
  ⟨steps store, ⟨by decide +kernel, fun h => absurd h (by decide)⟩, steps passing, by decide +kernel,
    fun _ => ⟨rfl, rfl, rfl, rfl, by decide, fun _ _ => ⟨by decide +kernel, by decide, by decide⟩, by decide⟩⟩

theorem witness_TheEngineStateFollowsItsEvents :
    (∃ t, step ({ engine := store, pending := [.stop] } : State) = .next t)
    ∧ (store.state = .halted ↔ store.control.halt ≠ .none) := ⟨⟨_, rfl⟩, by decide⟩

theorem witness_HaltedHoldsUntilAReset :
    haltedStore.state = .halted ∧ ¬ (Instr.post 1 0).isReset
    ∧ ∃ t, exec (.post 1 0) ({ engine := haltedStore } : State) = .next t :=
  ⟨rfl, by simp [Instr.isReset, Instr.writesControl], _, rfl⟩

theorem witness_ACalmEngineSettlesUnchanged : ({ store with arbiter := { fetching := some (1, 3) } } : Engine).calm :=
  ⟨.inl rfl, by decide, by decide, rfl, rfl, rfl, rfl, rfl, .inl (by simp), .inl rfl⟩

/-- The program that `programming` has active. -/
def programOp : Operation := { request :=
  { kind := .hostRecord, seg := 301, cell := 812, count := 5, requester := .ctx 3, contents := List.replicate 5 .retire } }

theorem witness_AProgramEndReachesOnlyItsCells :
    programming.array.wf ∧ programming.activeAt 2 .program programOp ∧ 4 < programOp.request.contents.length
    ∧ programOp.request.contents[4]? = some .retire :=
  ⟨List.Pairwise.nil, ⟨rfl, by decide, rfl, rfl, rfl⟩, by decide, rfl⟩

/-- A first failure, a second one, and a program of another kind. -/
theorem witness_AProgramEndReachesOnlyItsCells_first :
    let q := programOp.request
    (q.kind = .hostRecord ∧ q.failures = 0) ∧ ({ q with failures := 1 } : Request).failures ≠ 0
    ∧ ({ q with kind := .reclaimRecord } : Request).kind ≠ .hostRecord := by decide

/-- The erase of segment 300 at bank 2. -/
def eraseOp : Operation := { request := { kind := .erase, seg := 300, requester := .space } }

theorem witness_AnEraseEndReachesOnlyItsSegment :
    (bank2 { state := .active, active := some eraseOp }).array.wf
    ∧ (bank2 { state := .active, active := some eraseOp }).activeAt 2 .erase eraseOp :=
  ⟨List.Pairwise.nil, rfl, by decide, rfl, rfl, rfl⟩

/-- A read of two cells at bank 2, of which the array holds the second. -/
def readOp : Operation := { request := { kind := .read, seg := 300, cell := 2, count := 2, requester := .reclaim } }
def reading : State :=
  { bank2 { state := .active, active := some readOp } with array := [(cellNumber 300 3, .retire)] }

/-- One list of flips a clause: an erased cell with none, 1, 4 and 5 of them, a programmed one with 4 and 5. -/
theorem witness_AReadClassifiesItsCells :
    reading.activeAt 2 .read readOp ∧ reading.array.get (cellNumber 300 2 + 0) = none
    ∧ reading.array.get (cellNumber 300 2 + 1) = some .retire
    ∧ [0, 4].getD 0 0 = 0 ∧ [0, 4].getD 1 0 ≤ 4 ∧ 1 ≤ [1].getD 0 0 ∧ [4].getD 0 0 ≤ 4 ∧ 4 < [5, 5].getD 0 0
    ∧ 4 < [5, 5].getD 1 0 :=
  ⟨⟨rfl, by decide, rfl, rfl, rfl⟩, by decide, by decide, by decide, by decide, by decide, by decide, by decide, by decide⟩

def checkOp : Operation := { request := { kind := .blankCheck, seg := 300, requester := .mount } }

theorem witness_ABlankCheckTestsEveryCell :
    (bank2 { state := .active, active := some checkOp }).activeAt 2 .blankCheck checkOp := ⟨rfl, by decide, rfl, rfl, rfl⟩

theorem witness_ASuspensionPushesItsOperation :
    let s := bank2 { state := .suspending, active := some eraseOp }
    s.supply = .on ∧ s.engine.state ≠ .halted ∧ (s.engine.bank 2).state = .suspending
    ∧ (s.engine.bank 2).active = some eraseOp := ⟨rfl, by decide, rfl, rfl⟩

/-- An erase with 31 suspensions and a program with 3, each one below its limit, and a bank past its quantum. -/
theorem witness_AnExpiredQuantumSuspendsForWaiters :
    (({ bank49 with quantumEnd := none } : Bank).state = .active ∧ bank49.active = some eraseOp ∧ eraseOp.op = .erase) ∧
    (let o := { eraseOp with suspends := 31 }
     let s := bank2 { bank49 with active := some o }
     s.supply = .on ∧ (s.engine.bank 2).state = .active ∧ (s.engine.bank 2).active = some o
      ∧ (s.engine.bank 2).quantumEnd = some 500 ∧ (o.op = .program ∨ o.op = .erase))
    ∧ (let o := { programOp with suspends := 3 }
     let s := bank2 { bank49 with active := some o }
     s.supply = .on ∧ (s.engine.bank 2).state = .active ∧ (s.engine.bank 2).active = some o
      ∧ (s.engine.bank 2).quantumEnd = some 500 ∧ (o.op = .program ∨ o.op = .erase)) := by decide

/-- A bank for each of the steps of R79 in turn. -/
theorem witness_TheBankSelectsInOrder :
    let q := programOp.request
    (({ reclaimQ := [q], streak := 8 } : Bank).stack = [] ∧ ({ reclaimQ := [q], streak := 8 } : Bank).active = none
      ∧ ({ reclaimQ := [q], streak := 8 } : Bank).quantumEnd = none)
    ∧ (({ readQ := [q], reclaimQ := [q], streak := 7 } : Bank).streak ≠ 8)
    ∧ (({ stack := [programOp] } : Bank).readQ = [] ∧ programOp.op = .program)
    ∧ (({ stack := [eraseOp], hostQ := [q] } : Bank).readQ = [] ∧ ∀ o ∈ [eraseOp], o.op = .erase)
    ∧ (({ stack := [eraseOp] } : Bank).hostQ = [] ∧ eraseOp.op = .erase)
    ∧ (({ reclaimQ := [q], streak := 7 } : Bank).stack = [] ∧ ({ reclaimQ := [q], streak := 7 } : Bank).hostQ = [])
    ∧ (({ eraseQ := [q] } : Bank).reclaimQ = [] ∧ ({ eraseQ := [q] } : Bank).stack = [])
    ∧ (({} : Bank).readQ = [] ∧ ({} : Bank).eraseQ = []) := by decide

theorem witness_StartAndStopActInOneStateEach :
    ({ engine := store } : State).supply = .on ∧ store.state = .running ∧ store.state ≠ .stopped
    ∧ ({ store with control := { engine := .stopped } } : Engine).state = .stopped := by decide +kernel

theorem witness_AdminSizeReinitialisesTheAdminRing :
    adminStore.rings = { state := .opened, size := 16, inFlight := 1, tail := 1, fetch := 1 } :: store.rings.tail
    ∧ store.rings = {} :: store.rings.tail ∧ ({} : RingContext).inFlight = 0
    ∧ (store.registers.adminBaseLo.toNat + 4294967296 * store.registers.adminBaseHi.toNat) % 64 = 0
    ∧ ¬ ((255 : BitVec 32) = 16 ∨ (255 : BitVec 32) = 32 ∨ (255 : BitVec 32) = 64 ∨ (255 : BitVec 32) = 128
      ∨ (255 : BitVec 32) = 256) := ⟨rfl, rfl, rfl, rfl, by decide⟩

/-- Of ring 1 with nothing unacknowledged, an ACK of head 7 is legal and one of head 8 is not; of a notice ring with two
written records, heads 2 and 3. -/
theorem witness_APostOrAckIsAppliedOrFlagged :
    let g : NoticeRing := { size := 16, writeIndex := 2 }
    let e : Engine := { store with notices := { ring := some g } }
    (store.rings[(1 : BitVec 4).toNat]? = some ring1 ∧ ring1.state = .opened ∧ (63 : BitVec 10).toNat < ring1.size
      ∧ ∀ g, store.rings[(1 : BitVec 4).toNat]? = some g → g.state ≠ .opened ∨ g.size ≤ (64 : BitVec 10).toNat)
    ∧ (ring1.state ≠ .closed ∧ (7 : BitVec 10).toNat < ring1.size
      ∧ ((7 : BitVec 10).toNat + ring1.size - ring1.head) % ring1.size
        ≤ (ring1.doneIndex + ring1.size - ring1.head) % ring1.size
      ∧ ∀ g, store.rings[(1 : BitVec 4).toNat]? = some g → g.state = .closed ∨ g.size ≤ (8 : BitVec 10).toNat
        ∨ (g.doneIndex + g.size - g.head) % g.size < ((8 : BitVec 10).toNat + g.size - g.head) % g.size)
    ∧ ((8 : BitVec 4).toNat = 8 ∧ e.notices.ring = some g ∧ (2 : BitVec 10).toNat < g.size
      ∧ ((2 : BitVec 10).toNat + g.size - g.head) % g.size ≤ (g.writeIndex + g.size - g.head) % g.size)
    ∧ (∀ k, e.notices.ring = some k → k.size ≤ (3 : BitVec 10).toNat
      ∨ (k.writeIndex + k.size - k.head) % k.size < ((3 : BitVec 10).toNat + k.size - k.head) % k.size)
    ∧ 8 < (9 : BitVec 4).toNat ∧ e.rings.length = 8 :=
  ⟨⟨rfl, rfl, by decide, fun g h => by cases h; exact .inr (by decide)⟩,
    ⟨by decide, by decide, by decide, fun g h => by cases h; exact .inr (.inr (by decide))⟩,
    ⟨rfl, rfl, by decide, by decide⟩, fun k h => by cases h; exact .inr (by decide), by decide, rfl⟩

/-- Reads that take in the byte of the flags, one that ends before it, and one that starts past it. -/
theorem witness_ARegisterReadReturnsItsBytes :
    ({ engine := store } : State).supply = .on ∧ (6 ≤ 6 ∧ 6 < 6 + 1) ∧ ¬ (4 ≤ 6 ∧ 6 < 4 + 2) ∧ ¬ (7 ≤ 6) := by decide

/-- A value for each clause of a CONTROL write, and an offset that takes no writes. -/
theorem witness_ARegisterWriteIsItsCommand :
    ({ engine := store } : State).supply = .on ∧ (2 : Nat) ≠ 4 ∧ BitVec.getLsbD (7 : BitVec 32) 2 = true
    ∧ (BitVec.getLsbD (1 : BitVec 32) 2 = false ∧ BitVec.getLsbD (1 : BitVec 32) 0 = true ∧ BitVec.getLsbD (1 : BitVec 32) 1 = false)
    ∧ (BitVec.getLsbD (2 : BitVec 32) 2 = false ∧ BitVec.getLsbD (2 : BitVec 32) 0 = false ∧ BitVec.getLsbD (2 : BitVec 32) 1 = true)
    ∧ (BitVec.getLsbD (3 : BitVec 32) 2 = false ∧ BitVec.getLsbD (3 : BitVec 32) 0 = BitVec.getLsbD (3 : BitVec 32) 1)
    ∧ 0x004 ∉ [0x008, 0x00C, 0x010, 0x014, 0x018, 0x01C] := by decide

/-- A notice queue with a place, one without, and a notice ring that takes the notice at once. -/
theorem witness_AParityErrorHaltsTheEngine :
    haltedStore.state = .halted ∧ store.state ≠ .halted ∧ store.notices.queue.length < 16
    ∧ ¬ (List.replicate 16 ({ number := 0, body := .halted .none } : Notice)).length < 16
    ∧ (let g : NoticeRing := { size := 16, writeIndex := 14 }
       let n : NoticeUnit := { ring := some g, queue := [{ number := 0, body := .halted .indexParity }] }
       n.writing = false ∧ (g.writeIndex + g.size - g.head) % g.size < g.size - 1)
    ∧ store.notices.ring = none := by decide +kernel

/-- The store with a slot to fetch on ring 1. -/
def fetchable : Engine := { store with rings := store.rings.set 1 { ring1 with tail := 11 } }

theorem witness_TheFetchArbiterChoosesInOrder :
    fetchable.shape ∧ fetchable.arbiter.fetching = none ∧ (∀ g ∈ fetchable.rings, g.priority ≤ 3)
    ∧ (∀ l ∈ fetchable.arbiter.served, ∀ r, l = some r → 1 ≤ r ∧ r ≤ 7) ∧ (∃ r, fetchable.eligible r = true)
    ∧ fetchable.eligible 0 = false ∧ (∀ r, store.eligible r = false) ∧ store.shape := by
  refine ⟨⟨rfl, rfl, by decide +kernel, rfl, rfl⟩, rfl, by decide, ?_, ⟨1, by decide +kernel⟩, by decide +kernel, fun r => ?_,
    rfl, rfl, by decide +kernel, rfl, rfl⟩
  · intro l hl r hr; subst hr; simp [fetchable, store] at hl
  · by_cases h : r < 8
    · have : ∀ q < 8, store.eligible q = false := by decide +kernel
      exact this r h
    · have : store.rings[r]? = none := by rw [List.getElem?_eq_none]; simp [store]; omega
      unfold Engine.eligible; rw [Engine.ring_absent this]; rfl

/-- The store with the fetch of slot 9 of ring 1 into context 3 in flight, the ring in a state. -/
def fetching (st : RingState) (e : Engine := store) : State :=
  { engine := { e with
    rings := store.rings.set 1 { ring1 with state := st, fetch := 9 }
    ctxs := store.ctxs.set 3 { held := true }, arbiter := { fetching := some (1, 3) } } }

theorem witness_AFetchedDescriptorIsTaken :
    (fetching .opened).engine.arbiter.fetching = some (1, 3)
    ∧ (fetching .opened).engine.rings[1]? = some { ring1 with state := .opened, fetch := 9 }
    ∧ (fetching .opened).engine.ctxs[3]? = some { held := true } ∧ (zeros 64).length = 64
    ∧ (fetching .opened).engine.state ≠ .halted ∧ (fetching .opened haltedStore).engine.state = .halted
    ∧ (fetching .draining).engine.rings[1]? = some { ring1 with state := .draining, fetch := 9 }
    ∧ (fetching .faulted).engine.rings[1]? = some { ring1 with state := .faulted, fetch := 9 } :=
  ⟨rfl, rfl, rfl, rfl, by decide, rfl, rfl, rfl⟩

theorem witness_AWrittenRecordFreesItsContext :
    posting.supply = .on ∧ posting.engine.rings[1]? = some (posting.engine.ring 1) ∧ (posting.engine.ring 1).writing = true
    ∧ (posting.engine.ring 1).posting = 3 :: [] ∧ 0 < (posting.engine.ring 1).inFlight
    ∧ posting.engine.ctxs[3]? = some (posting.engine.ctx 3) ∧ posting.engine.state ≠ .halted
    ∧ ({ posting.engine with control := { engine := .halted } } : Engine).state = .halted :=
  ⟨rfl, rfl, rfl, rfl, by decide, rfl, by decide, rfl⟩

theorem witness_AWrittenNoticeLeavesTheQueue :
    noticing.supply = .on ∧ noticing.engine.notices.writing = true
    ∧ noticing.engine.notices.ring = some { base := 64, size := 16, vector := 8, armed := true, writeIndex := 15 }
    ∧ noticing.engine.notices.queue = { number := 5, body := .halted .indexParity } :: [] := ⟨rfl, rfl, rfl, rfl⟩

theorem witness_AnOutcomeJoinsItsRing :
    store.ctxs[3]? = some ({} : JobContext) ∧ store.rings[({} : JobContext).ring]? = some ({} : RingContext) := ⟨rfl, rfl⟩

/-- A context that loads its value. -/
def loadingCtx (code : Nat) : JobContext :=
  { state := .loading, ring := 1, descriptor := desc code [(16, 8, 0x2A00), (32, 4, 24)], transfer := some (.load 0 24) }

theorem witness_AHostValueIsLoadedFirst :
    ((ctx3 (ready (desc 1 [])) readOnlyStore).jobAt 3 .put (ready (desc 1 [])) ∧ readOnlyStore.readOnly = true)
    ∧ ((ctx3 (ready (desc 1 []))).jobAt 3 .put (ready (desc 1 [])) ∧ store.readOnly = false
      ∧ Descriptor.length (desc 1 []) = 0)
    ∧ ((ctx3 (ready (desc 1 [(32, 4, 1)]))).jobAt 3 .put (ready (desc 1 [(32, 4, 1)]))
      ∧ 0 < Descriptor.length (desc 1 [(32, 4, 1)]))
    ∧ (ctx3 (ready (desc 4 [])) readOnlyStore).jobAt 3 .delete (ready (desc 4 []))
    ∧ (ctx3 (ready (desc 4 []))).jobAt 3 .delete (ready (desc 4 []))
    ∧ ((ctx3 (ready (desc 5 []))).jobAt 3 .matchValue (ready (desc 5 [])) ∧ Descriptor.length (desc 5 []) = 0)
    ∧ ((ctx3 (ready (desc 5 [(32, 4, 1)]))).jobAt 3 .matchValue (ready (desc 5 [(32, 4, 1)]))
      ∧ 0 < Descriptor.length (desc 5 [(32, 4, 1)]))
    ∧ ((ctx3 (loadingCtx 1)).supply = .on ∧ (ctx3 (loadingCtx 1)).engine.state ≠ .halted
      ∧ (ctx3 (loadingCtx 1)).engine.ctxs[3]? = some (loadingCtx 1) ∧ (loadingCtx 1).state = .loading
      ∧ (loadingCtx 1).transfer = some (.load 0 24) ∧ (zeros 24).length = 24 ∧ (loadingCtx 1).job = some .put
      ∧ (loadingCtx 5).job = some .matchValue) :=
  ⟨⟨ready_at (by decide) rfl (by decide), by decide⟩, ⟨ready_at (by decide) rfl (by decide), by decide, by decide⟩,
    ⟨ready_at (by decide) rfl (by decide), by decide⟩, ready_at (by decide) rfl (by decide),
    ready_at (by decide) rfl (by decide), ⟨ready_at (by decide) rfl (by decide), by decide⟩,
    ⟨ready_at (by decide) rfl (by decide), by decide⟩, rfl, by decide, rfl, rfl, rfl, rfl, by decide, by decide⟩

/-- A GET of key 2A00 with room for `n` bytes. -/
def getOf (n : Nat) : List Byte := desc 2 [(16, 8, 0x2A00), (32, 4, n)]

/-- A store for every kind a lookup returns, and a buffer one byte short, and one that just holds the value. -/
theorem witness_AGetReadsTheRecordItFound :
    let l : Location := { seg := 90, cell := 600, count := 3 }
    (ctx3 (ready (getOf 150))).jobAt 3 .get (ready (getOf 150)) ∧ store.lookup (JobContext.key (ready (getOf 150))) = some (.value l 47912 150)
    ∧ ({ store with index := {} } : Engine).lookup 0x2A00 = none ∧ (holding .nascent).lookup 0x2A00 = some .nascent
    ∧ (holding (.deleted l 5)).lookup 0x2A00 = some (.deleted l 5)
    ∧ (holding (.lost l 5 .marker)).lookup 0x2A00 = some (.lost l 5 .marker)
    ∧ (holding (.value l 5 0)).lookup 0x2A00 = some (.value l 5 0)
    ∧ Descriptor.length (getOf 149) < 150 ∧ 1 ≤ 150 ∧ 150 ≤ Descriptor.length (getOf 150) :=
  ⟨ready_at (by decide) rfl (by decide), by decide, by decide, by decide, by decide, by decide, by decide, by decide, by decide,
    by decide⟩

theorem witness_AProbeReportsItsLookup :
    (ctx3 (ready (desc 3 [(16, 8, 0x2A00)]))).jobAt 3 .probe (ready (desc 3 [(16, 8, 0x2A00)]))
    ∧ JobContext.key (ready (desc 3 [(16, 8, 0x2A00)])) = 0x2A00 ∧ (∃ t, store.entry 0x2A00 = some t)
    ∧ ({ store with index := {} } : Engine).entry 0x2A00 = none ∧ (∃ t, (holding .nascent).entry 0x2A00 = some t) :=
  ⟨ready_at (by decide) rfl (by decide), by decide, ⟨_, rfl⟩, rfl, ⟨_, rfl⟩⟩

/-- A header of key 2A00 with record sequence 5 and a length. -/
def headerOf (kind : RecordKind) (len : Nat) : RecordHeader :=
  { kind := kind, key := 0x2A00, rseq := 5, len := len, checked := [] }

/-- A MATCH of every kind a lookup returns, with the length of the value and with another; a read that is READABLE and one
that is not; and a weak mark that joins the refresh list, one that finds it full, and one of a segment not in use. -/
theorem witness_AGetOrMatchTakesItsRead :
    let l : Location := { seg := 90, cell := 600, count := 1 }
    let y (code len : Nat) : JobContext := ready (desc code [(16, 8, 0x2A00), (32, 4, len)])
    let x (code : Nat) : JobContext := { y code 64 with state := .media, found := some (.value l 5 0) }
    ((ctx3 (y 5 150)).engine.ctxs[3]? = some (y 5 150) ∧ store.lookup (y 5 150).key
        = some (.value { seg := 90, cell := 600, count := 3 } 47912 150)
      ∧ 150 = Descriptor.length (y 5 150).descriptor ∧ 150 ≠ Descriptor.length (y 5 24).descriptor
      ∧ (holding .nascent).lookup 0x2A00 = some .nascent ∧ ({ store with index := {} } : Engine).lookup 0x2A00 = none
      ∧ (holding (.deleted l 5)).lookup 0x2A00 = some (.deleted l 5)
      ∧ (holding (.lost l 5 .damaged)).lookup 0x2A00 = some (.lost l 5 .damaged)
      ∧ (holding (.value l 5 0)).lookup 0x2A00 = some (.value l 5 0))
    ∧ ((ctx3 (x 2)).engine.ctxs[3]? = some (x 2) ∧ (x 2).job = some .get ∧ (x 5).job = some .matchValue
      ∧ (x 2).found = some (.value l 5 0) ∧ store.reclaim.requester ≠ some 3
      ∧ (∃ h d m rest, [CellOutcome.good (.header (headerOf .value 0)) 1] = .good d m :: rest ∧ d.asHeader = some h
        ∧ h.inRange l.cell = true ∧ h.kind = .value ∧ h.key = (x 2).key ∧ h.rseq = 5 ∧ h.len = 0 ∧ h.cells = l.count
        ∧ ((0 : Nat) = 0 ∨ (.blank ∉ rest ∧ .uncorrectable ∉ rest ∧ h.checks (valueBytes 0 rest) = true)))
      ∧ ¬ ∃ d m rest, [CellOutcome.blank] = .good d m :: rest)
    ∧ (store.space.segs[90]? = some (store.seg 90) ∧ (store.seg 90).state = .full
      ∧ (store.state ≠ .mounting ∧ 90 ∉ store.reclaim.refresh ∧ store.reclaim.refresh.length < 8)
      ∧ ¬ ([1, 2, 3, 4, 5, 6, 7, 8] : List Nat).length < 8 ∧ store.space.segs[91]? = some ({} : SegRecord)) := by
  refine ⟨⟨rfl, by decide, by decide, by decide, by decide, by decide, by decide, by decide, by decide⟩,
    ⟨rfl, by decide, by decide, rfl, by decide, ⟨headerOf .value 0, _, _, _, rfl, rfl, by decide, rfl, by decide, rfl, rfl,
      by decide, .inl rfl⟩, by rintro ⟨_, _, _, h⟩; cases h⟩, by decide +kernel, by decide +kernel, by decide +kernel, by decide,
      by decide +kernel⟩

/-- An index of LOST entries with keys 1 to `n`. -/
def lostStore (n : Nat) : Engine :=
  { store with index := { entries := (List.range n).map fun k =>
      { key := k + 1, body := .lost { seg := 90, cell := 600, count := 1 } 5 .marker } } }

theorem lostStore_law {n : Nat} (h : n ≤ 65536) : indexLaw (lostStore n).index.entries := by
  refine ⟨?_, by simpa [lostStore, indexCapacity] using h⟩
  simp only [lostStore, List.map_map, List.pairwise_map, Function.comp_apply]
  exact List.pairwise_lt_range.imp fun h => Nat.succ_lt_succ h

theorem lostStore_filter (n : Nat) : (lostStore n).index.entries.filter (fun t => 1 ≤ t.key && t.body.reportable)
    = (lostStore n).index.entries := by
  refine List.filter_eq_self.mpr fun t ht => ?_
  obtain ⟨k, -, rfl⟩ := List.mem_map.mp ht
  simp [EntryBody.reportable]

/-- A SCAN with room for one entry over an index of one, and one with room for none; with room for 257, over 255, 256 and 257
entries. -/
theorem witness_AScanListsKeysInOrder :
    (ctx3 (ready (desc 6 [(16, 8, 1), (32, 4, 16)]))).jobAt 3 .scan (ready (desc 6 [(16, 8, 1), (32, 4, 16)]))
    ∧ indexLaw store.index.entries
    ∧ store.index.entries.filter (fun t => Descriptor.key (desc 6 [(16, 8, 1), (32, 4, 16)]) ≤ t.key && t.body.reportable) ≠ []
    ∧ 1 = Descriptor.length (desc 6 [(16, 8, 1), (32, 4, 16)]) / 16
    ∧ (ctx3 (ready (desc 6 [(16, 8, 1)]))).jobAt 3 .scan (ready (desc 6 [(16, 8, 1)]))
    ∧ (ctx3 (ready (desc 6 [(16, 8, 1), (32, 4, 4112)])) (lostStore 257)).jobAt 3 .scan
      (ready (desc 6 [(16, 8, 1), (32, 4, 4112)]))
    ∧ Descriptor.key (desc 6 [(16, 8, 1), (32, 4, 4112)]) = 1 ∧ 257 = Descriptor.length (desc 6 [(16, 8, 1), (32, 4, 4112)]) / 16
    ∧ ((lostStore 255).index.entries.length < 256 ∧ indexLaw (lostStore 255).index.entries)
    ∧ ((∃ last, (lostStore 256).index.entries[255]? = some last ∧ ∀ t ∈ (lostStore 256).index.entries, t.key ≤ last.key)
      ∧ indexLaw (lostStore 256).index.entries)
    ∧ ((∃ last, (lostStore 257).index.entries[255]? = some last ∧ ∃ t ∈ (lostStore 257).index.entries, last.key < t.key)
      ∧ indexLaw (lostStore 257).index.entries) := by
  refine ⟨ready_at (by decide) rfl (by decide), ⟨by simp [store], by simp [store, indexCapacity]⟩, by decide, by decide,
    ready_at (by decide) rfl (by decide), ready_at (by decide) rfl (by decide), by decide, by decide,
    ⟨by simp [lostStore], lostStore_law (by decide)⟩, ⟨⟨_, rfl, fun t ht => ?_⟩, lostStore_law (by decide)⟩,
    ⟨⟨_, rfl, _, List.mem_map.mpr ⟨256, by simp, rfl⟩, by simp⟩, lostStore_law (by decide)⟩⟩
  obtain ⟨k, hk, rfl⟩ := List.mem_map.mp ht
  exact List.mem_range.mp hk

/-- A context that returns bytes. -/
def returningCtx (code ring : Nat) (w : ScanWork) : JobContext :=
  { state := .returning, ring := ring, descriptor := desc code [], scan := w, transfer := some (.store 64 (zeros 16)) }

theorem witness_AReturnedTransferCompletesItsJob :
    (ctx3 (returningCtx 2 1 {})).returningAt 3 .get (returningCtx 2 1 {}) 64 (zeros 16)
    ∧ (ctx3 (returningCtx 6 1 { ended := some 0 })).returningAt 3 .scan (returningCtx 6 1 { ended := some 0 }) 64 (zeros 16)
    ∧ (ctx3 (returningCtx 6 1 {})).returningAt 3 .scan (returningCtx 6 1 {}) 64 (zeros 16)
    ∧ (returningCtx 6 1 {}).scan.ended = none :=
  ⟨⟨rfl, by decide, rfl, rfl, by decide, rfl⟩, ⟨rfl, by decide, rfl, rfl, by decide, rfl⟩, ⟨rfl, by decide, rfl, rfl, by decide, rfl⟩, rfl⟩

/-- A DELETE in SPACE_WAIT, and a table with no segment to place in. -/
def waitingDelete : State :=
  ctx3 { state := .spaceWait, ring := 1, descriptor := desc 4 [(16, 8, 0x2A00)]
         grant := some { kind := .value, rseq := 48300, matched := false } } waiting.engine
def roomless : Engine := { waiting.engine with space := { waiting.engine.space with segs := table [] } }

/-- A PUT and a DELETE whose deadline comes; a waiter that is placed and one that is not; a reclaim that goes on and one
that does not. -/
theorem witness_TheWaitQueueIsServed :
    (waiting.supply = .on ∧ waiting.engine.state ≠ .halted ∧ waiting.engine.ctxs[3]? = some (waiting.engine.ctx 3)
      ∧ (waiting.engine.ctx 3).state = .spaceWait
      ∧ (waiting.engine.ctx 3).grant = some { kind := .value, rseq := 48300, matched := false }
      ∧ (waiting.engine.ctx 3).job = some .put)
    ∧ (waitingDelete.supply = .on ∧ waitingDelete.engine.state ≠ .halted
      ∧ waitingDelete.engine.ctxs[3]? = some (waitingDelete.engine.ctx 3)
      ∧ (waitingDelete.engine.ctx 3).state = .spaceWait
      ∧ (waitingDelete.engine.ctx 3).grant = some { kind := .value, rseq := 48300, matched := false }
      ∧ (waitingDelete.engine.ctx 3).job = some .delete)
    ∧ store.space.waitQueue = [] ∧ waiting.engine.space.waitQueue = { ctx := 3, deadline := 202000 } :: []
    ∧ (waiting.engine.placeHost (waiting.engine.ctx 3).recordCells).2.isSome = true
    ∧ (roomless.ctxs[3]? = some (roomless.ctx 3) ∧ (roomless.placeHost (roomless.ctx 3).recordCells).2 = none)
    ∧ (let k := ({ store with reclaim := { state := .paused, causes := { space := true } } } : Engine).spaceTest.serveWaitQueue
       k.reclaim.state = .paused ∧ k.reclaim.causes.stop = false ∧ k.reclaim.causes.readOnly = false ∧ k.format = none)
    ∧ store.spaceTest.serveWaitQueue.reclaim.state ≠ .paused := by
  refine ⟨⟨rfl, by decide, rfl, rfl, rfl, by decide⟩, ⟨rfl, by decide, rfl, rfl, rfl, by decide⟩, rfl, rfl, by decide +kernel,
    ⟨rfl, by decide +kernel⟩, by decide +kernel, by decide +kernel⟩

/-- A PUT or DELETE of key 2A00 with options. -/
def writeOf (code options expected : Nat) : JobContext :=
  ready (desc code [(3, 1, options), (16, 8, 0x2A00), (40, 6, expected)])

/-- For every check of R11 a write that fails it, one that passes all, with IF_RSEQ tested and without, one that finds the
key locked, and one that takes the last sequence. -/
theorem witness_AdmissionTakesTheLockAndASequence :
    let l : Location := { seg := 90, cell := 600, count := 3 }
    let p : PendingWrite := { ctx := 4, write := .put, rseq := 9, progress := .inFlight }
    (ctx3 (writeOf 1 0 0)).engine.ctxs[3]? = some (writeOf 1 0 0) ∧ (writeOf 1 0 0).job = some .put
    ∧ (writeOf 4 0 0).job = some .delete ∧ (writeOf 1 0 0).key = 0x2A00
    ∧ (∃ t, (holding (.value l 5 0) (some p)).entry 0x2A00 = some t ∧ t.pending = some p)
    ∧ (∀ t, store.entry 0x2A00 = some t → t.pending = none) ∧ readOnlyStore.readOnly = true
    ∧ ({ store with index := { store.index with writeSeq := 2 ^ 48 } } : Engine).index.writeSeq = 2 ^ 48
    ∧ store.readOnly = false ∧ store.index.writeSeq + 1 ≠ 2 ^ 48
    ∧ admissionKind (store.lookup 0x2A00) = .value ∧ admissionKind ((holding (.deleted l 5)).lookup 0x2A00) = .deleted
    ∧ Descriptor.createOnly (writeOf 1 1 0).descriptor = true ∧ Descriptor.replaceOnly (writeOf 1 2 0).descriptor = true
    ∧ Descriptor.ifRseq (writeOf 1 4 47911).descriptor = true ∧ 47912 ≠ Descriptor.expected (writeOf 1 4 47911).descriptor
    ∧ (Descriptor.ifRseq (writeOf 1 4 47912).descriptor = true ∧ 47912 = Descriptor.expected (writeOf 1 4 47912).descriptor
      ∧ ((store.lookup 0x2A00).map EntryBody.rseq).getD 0 = 47912)
    ∧ (let e : Engine := { store with index := { store.index with writeSeq := 2 ^ 48 - 1 } }
       e.readOnly = false ∧ e.index.writeSeq ≠ 2 ^ 48 ∧ e.index.writeSeq + 1 = 2 ^ 48 ∧ e.state ≠ .mounting)
    ∧ ({ store with index := {} } : Engine).entry 0x2A00 = none := by
  refine ⟨rfl, by decide, by decide, by decide, ⟨_, rfl, rfl⟩, ?_, by decide, rfl, by decide, by decide, by decide, by decide,
    by decide, by decide, by decide, by decide, by decide, by decide, rfl⟩
  intro t h; cases h; rfl

/-- An index of `n` entries, all of another key. -/
def crowded (n : Nat) : Engine := { store with index := { entries := List.replicate n { key := 1, body := .nascent } } }

theorem crowded_holds (n : Nat) : (crowded n).entry 0x2A00 = none ∧ n ≤ (crowded n).index.entries.length := by
  refine ⟨findEntry_none.mpr fun h => ?_, Nat.le_of_eq List.length_replicate.symm⟩
  obtain ⟨t, ht, hk⟩ := List.mem_map.mp h
  rw [(List.mem_replicate.mp ht).2] at hk
  exact absurd hk (by decide)

/-- The index is full, for a PUT with CREATE_ONLY too, and one entry short of it. -/
theorem witness_AdmissionTakesTheLockAndASequence_index_full :
    (crowded 65536).entry 0x2A00 = none ∧ 65536 ≤ (crowded 65536).index.entries.length
    ∧ (crowded 65535).entry 0x2A00 = none ∧ (crowded 65535).index.entries.length < 65536
    ∧ Descriptor.replaceOnly (writeOf 1 1 0).descriptor = false ∧ Descriptor.ifRseq (writeOf 1 1 0).descriptor = false :=
  ⟨(crowded_holds 65536).1, (crowded_holds 65536).2, (crowded_holds 65535).1,
    by show (List.replicate 65535 _).length < 65536; rw [List.length_replicate]; decide, by decide, by decide⟩

/-- A placement of a context whose write has been admitted. -/
def placed (code : Nat) : JobContext :=
  { ready (desc code [(16, 8, 0x2A00), (32, 4, 200)]) with grant := some { kind := .value, rseq := 48300, matched := false } }

/-- The head of bank 2 has room for 5 cells, and for 1,235, but not for 1,236; with no head and nothing FREE, nothing can be
reclaimed of an empty table, and the erase of a segment under way can; a head is opened in bank 0, and none for want of
sequences, of 3 FREE segments, or of one in the bank. -/
theorem witness_APlacementReservesAtTheHead :
    (ctx3 (placed 1)).engine.ctxs[3]? = some (placed 1) ∧ (placed 1).recordCells = 5
    ∧ 2 = (store.space.rotation + 1) % 4 ∧ store.headOf .host (some 2) = some 301 ∧ (store.seg 301).writePtr + 5 ≤ 2047
    ∧ (store.seg 301).writePtr + 1235 ≤ 2047 ∧ 2047 < (store.seg 301).writePtr + 1236
    ∧ (store.placeHost 5).2.isSome = true
    ∧ (let e : Engine := { store with space := { segs := table [] } }
       (e.placeHost 5).2 = none ∧ (e.placeHost 5).1.canReclaim = false)
    ∧ (let e : Engine := { store with space := { segs := table [(5, { state := .erasing })] } }
       (e.placeHost 5).2 = none ∧ (e.placeHost 5).1.canReclaim = true)
    ∧ (placed 1).grant = some { kind := .value, rseq := 48300, matched := false }
    ∧ store.headOf .host (some 0) = none
    ∧ (let e : Engine := { store with space := { segs :=
         [{ state := .free, eraseCount := 3 }, { state := .free, eraseCount := 2 }, { state := .free, eraseCount := 2 }] } }
       e.space.segSeq ≠ 2 ^ 32 ∧ 3 ≤ e.freeCount ∧ e.space.segs[1]? = some { state := .free, eraseCount := 2 } ∧ 1 / 128 = 0
       ∧ (∀ m, m < 3 → ∀ h ∈ e.space.segs[m]?, m ≠ 1 → 2 < h.eraseCount ∨ (2 = h.eraseCount ∧ 1 < m))
       ∧ ∀ n, n < 3 → n / 128 ≠ 1)
    ∧ ({ store with space := { segSeq := 2 ^ 32 } } : Engine).space.segSeq = 2 ^ 32 ∧ store.freeCount < 3 := by
  refine ⟨rfl, by decide, by decide, by decide +kernel, by decide +kernel, by decide +kernel, by decide +kernel,
    by decide +kernel, ⟨by decide +kernel, by decide +kernel⟩, ⟨by decide +kernel, by decide +kernel⟩, rfl, by decide +kernel,
    by decide +kernel, rfl, by decide +kernel⟩

theorem witness_APassedWriteRepointsItsEntry :
    let e := programming.engine
    e.ctxs[3]? = some (e.ctx 3) ∧ (e.ctx 3).grant = some { kind := .value, rseq := 48300, matched := false }
    ∧ (e.ctx 3).job = some .put
    ∧ (∃ t p, e.entry (e.ctx 3).key = some t ∧ t.pending = some p ∧ p.ctx = 3) ∧ 301 < e.space.segs.length :=
  ⟨rfl, rfl, by decide, ⟨_, _, rfl, rfl, rfl⟩, by decide +kernel⟩

/-- A lock held by context 3 and not by 4; an entry that is removed, one that stays, and waiters that are admitted and
refused. -/
theorem witness_AReleasedLockIsHandedOn :
    let l : Location := { seg := 90, cell := 600, count := 3 }
    let w := writeOf 1 0 0
    (posting.engine.ctxs[3]? = some (posting.engine.ctx 3)
      ∧ (∃ t p, posting.engine.entry (posting.engine.ctx 3).key = some t ∧ t.pending = some p ∧ p.ctx = 3 ∧ p.ctx ≠ 4))
    ∧ ((∃ t, (holding .nascent).entry 0x2A00 = some t ∧ t.pending = none ∧ t.body = .nascent)
      ∧ (∃ t, (holding (.deleted l 5)).entry 0x2A00 = some t ∧ t.pending = none ∧ (∃ m r, t.body = .deleted m r) ∧ t.stale = 0)
      ∧ ∃ t, (holding (.deleted l 5) none 1).entry 0x2A00 = some t ∧ t.pending = none ∧ t.body ≠ .nascent ∧ t.stale ≠ 0)
    ∧ ((ctx3 w).engine.ctxs[3]? = some w ∧ w.key = 0x2A00
      ∧ refusal w.writeKind w.descriptor false (some (.value l 5 0)) = none
      ∧ refusal w.writeKind w.descriptor true (some (.value l 5 0)) = some .readOnly) :=
  ⟨⟨rfl, _, _, rfl, rfl, rfl, by decide⟩, ⟨⟨_, rfl, rfl, rfl⟩, ⟨_, rfl, rfl, ⟨_, _, rfl⟩, rfl⟩, _, rfl, rfl,
    by decide, by decide⟩, rfl, by decide, by decide, by decide⟩

/-- The chain of ring 1: context 3 has ended at position 1, and context 4 waits for it with a condition, or a failed
check. -/
def chained (condition : Nat) (verdict : Option Status) (f : OutcomeFlags) : Engine :=
  let done : JobContext := { state := .posting, ring := 1, position := 1, outcome := { flags := f } }
  let next : JobContext :=
    { state := .linkWait, ring := 1, position := 2, predecessor := some 3, verdict := verdict
      descriptor := desc 1 [(2, 1, condition)] }
  { store with ctxs := (store.ctxs.set 3 done).set 4 next }

theorem witness_AChainGoesOn :
    let e := chained 1 none {}
    (e.ctxs[3]? = some (e.ctx 3) ∧ e.rings[(e.ctx 3).ring]? = some ring1 ∧ 1 ≤ (e.ctx 3).position ∧ ring1.state ≠ .faulted)
    ∧ ({} : JobContext).position = 0 ∧ ({ ring1 with state := .faulted } : RingContext).state = .faulted
    ∧ (∀ y ∈ store.ctxs, y.state = .linkWait → y.predecessor ≠ some 3)
    ∧ (e.ctxs[4]? = some (e.ctx 4) ∧ (e.ctx 4).state = .linkWait ∧ (e.ctx 4).predecessor = some 3
      ∧ (e.ctx 4).ring = (e.ctx 3).ring ∧ (∀ v, v < 4 → (e.ctx v).state ≠ .linkWait))
    ∧ (Descriptor.condition (e.ctx 4).descriptor = 1 ∧ (e.ctx 4).verdict = none)
    ∧ ((chained 1 (some .badChain) {}).ctx 4).verdict = some .badChain
    ∧ (((chained 1 none { succeeded := true }).ctx 3).outcome.flags.succeeded = true
      ∧ (e.ctx 3).outcome.flags.succeeded = false) := by
  refine ⟨⟨rfl, rfl, by decide, by decide⟩, rfl, rfl, by decide, ⟨rfl, rfl, rfl, rfl, by decide⟩, by decide, rfl, by decide⟩

/-- The program of `programming` fails with a second record into its segment queued behind it; a record and its counts. -/
theorem witness_AFailedProgramIsPlacedAfresh :
    let e := programming.engine
    let q := programOp.request
    (e.space.segs[301]? = some head301 ∧ e.banks[2]? = some (e.bank 2) ∧ head301.state = .head ∧ q.kind = .hostRecord)
    ∧ ({ q with kind := .retireCell, requester := .space } : Request).requester = .space
    ∧ (q.requester = .ctx 3 ∧ e.ctxs[3]? = some (e.ctx 3)
      ∧ (e.ctx 3).grant = some { kind := .value, rseq := 48300, matched := false } ∧ (e.ctx 3).job = some .put
      ∧ 2 ≤ ({ q with failures := 2 } : Request).failures ∧ ({ q with failures := 1 } : Request).failures < 2)
    ∧ (waitingDelete.engine.ctxs[3]? = some (waitingDelete.engine.ctx 3) ∧ (waitingDelete.engine.ctx 3).job = some .delete)
    ∧ (({ q with kind := .reclaimRecord, requester := .reclaim } : Request).kind = .reclaimRecord
      ∧ (({ store with space := { segs := table [(7, { state := .free })] } } : Engine).placeReclaim 5).2.isSome = true
      ∧ (roomless.placeReclaim 5).2 = none) := by
  refine ⟨⟨by decide +kernel, rfl, rfl, rfl⟩, rfl, ⟨rfl, rfl, rfl, by decide, by decide, by decide⟩, ⟨rfl, by decide⟩, rfl,
    by decide +kernel, by decide +kernel⟩

/-- A refresh list, a FAILED_CLOSED segment, and FULL segments with and without dead cells. -/
theorem witness_TheVictimIsTheFirstRulesChoice :
    ({ store with reclaim := { refresh := [410, 37] } } : Engine).reclaim.refresh = 410 :: [37] ∧ store.reclaim.refresh = []
    ∧ (let e : Engine := { store with space := { segs := [{}, { state := .failedClosed }] } }
       1 < e.space.segs.length ∧ (e.seg 1).state = .failedClosed ∧ ∀ q, q < 1 → (e.seg q).state ≠ .failedClosed)
    ∧ (let e : Engine := { store with space := { segs := [{ state := .full, writePtr := 3 }] } }
       (∀ q, q < e.space.segs.length → (e.seg q).state ≠ .failedClosed) ∧ e.chooseVictim true = some 0) := by
  decide +kernel

/-- The Reclaim Unit at the program of a record of key 2A00 at 90/600. -/
def claiming (what : Written) (e : Engine := store) : Engine :=
  { e with reclaim := { step := .program what 0x2A00 { seg := 90, cell := 600, count := 3 } } }

/-- DELETED with stale 1 is removed, VALUE is lowered, and a key without an entry is left; an entry at the original, in the
segment of the new record and in another, and one elsewhere. -/
theorem witness_AClaimSettlesItsKeyAlone :
    let l : Location := { seg := 90, cell := 600, count := 3 }
    let m : Location := { seg := 90, cell := 700, count := 3 }
    (store.entry 5 = none ∧ (∃ t, (holding (.deleted l 5) none 1).entry 0x2A00 = some t ∧ t.stale ≤ 1 ∧ t.pending = none
        ∧ ∃ k r, t.body = .deleted k r)
      ∧ ∃ t, (holding (.value l 5 1) none 2).entry 0x2A00 = some t ∧ ¬ ∃ k r, t.body = .deleted k r)
    ∧ ((claiming .valueCopy).reclaim.step = .program .valueCopy 0x2A00 l
      ∧ (∃ t, (claiming .valueCopy).entry 0x2A00 = some t ∧ t.body.loc? = some l)
      ∧ 301 < (claiming .valueCopy).space.segs.length ∧ l.seg ≠ 301 ∧ l.seg = 90
      ∧ (∀ t, (claiming .valueCopy (holding (.deleted m 5))).entry 0x2A00 = some t → t.body.loc? ≠ some l)
      ∧ (∃ t, (claiming .valueCopy (holding (.deleted m 5))).entry 0x2A00 = some t ∧ (∃ k r, t.body = .deleted k r) ∧ t.stale = 0
        ∧ t.pending = none)
      ∧ ∃ t, (claiming .valueCopy (holding (.value m 5 1))).entry 0x2A00 = some t ∧ ¬ ∃ k r, t.body = .deleted k r) := by
  refine ⟨⟨rfl, ⟨_, rfl, Nat.le_refl 1, rfl, _, _, rfl⟩, _, rfl, by rintro ⟨k, r, h⟩; cases h⟩, rfl, ⟨_, rfl, rfl⟩,
    by decide +kernel, by decide, rfl, fun t h => ?_, ⟨_, rfl, ⟨_, _, rfl⟩, rfl, rfl⟩, _, rfl, by rintro ⟨k, r, h⟩; cases h⟩
  cases h; decide

/-- Segment 90 a victim with its cursor at a cell. -/
def reclaiming (p : Nat) (u : ReclaimUnit := {}) (e : Engine := store) : Engine :=
  { e with reclaim := { u with state := .stepping, victim := some 90, cursor := some p } }

/-- The last cell of the walk and the one after it, each verdict on a header of one cell and of more, a current and a stale
record of each kind, and a victim with and without live cells. -/
theorem witness_TheReclaimCursorSettlesItsRecord :
    let l : Location := { seg := 90, cell := 600, count := 1 }
    ((reclaiming 600).reclaim.victim = some 90 ∧ (reclaiming 600).reclaim.cursor = some 600
      ∧ (reclaiming 600).space.segs[90]? = some { state := .full, writePtr := 2047, progPtr := 2047, live := 1210 })
    ∧ ((reclaiming 2046 { causes := { stop := true } }).reclaim.causes.any = true
      ∧ (reclaiming 2046).reclaim.causes.any = false ∧ (reclaiming 2046).formatEnding = false
      ∧ (reclaiming 2046).reclaim.sweep = none ∧ 2046 < 2047 ∧ 2047 ≤ 2047
      ∧ ({ reclaiming 600 with format := some { ctx := 3 } } : Engine).formatEnding = true)
    ∧ ((reclaiming 600 { step := .header }).reclaim.step = .header ∧ headerVerdict 600 .blank = .blank
      ∧ headerVerdict 600 .uncorrectable = .invalid
      ∧ headerVerdict 600 (.good (.header (headerOf .tombstone 0)) 0) = .valid (headerOf .tombstone 0)
      ∧ (headerOf .tombstone 0).cells = 1
      ∧ headerVerdict 600 (.good (.header (headerOf .value 200)) 0) = .valid (headerOf .value 200)
      ∧ (headerOf .value 200).cells ≠ 1
      ∧ (reclaiming 600 { step := .values (headerOf .value 200) }).reclaim.step = .values (headerOf .value 200))
    ∧ ((∃ t, (reclaiming 600 {} (holding (.deleted l 5))).entry (headerOf .tombstone 0).key = some t ∧ t.body.loc? = some l)
      ∧ (∃ t, (reclaiming 600 {} (holding (.lost l 5 .marker))).entry (headerOf .loss 0).key = some t ∧ t.body.loc? = some l)
      ∧ (∃ t, (reclaiming 600 {} (holding (.value l 5 0))).entry (headerOf .value 0).key = some t ∧ t.body.loc? = some l)
      ∧ valueVerdict (headerOf .value 0) [] = .intact ∧ valueVerdict (headerOf .value 64) [.blank] = .torn
      ∧ valueVerdict (headerOf .value 64) [.uncorrectable] = .damaged
      ∧ ¬ ∃ t, ({ store with index := {} } : Engine).entry (headerOf .value 0).key = some t)
    ∧ ((store.placeReclaim 1).2 = none
      ∧ (({ store with space := { segs := table [(7, { state := .free })] } } : Engine).placeReclaim 1).2.isSome = true)
    ∧ (0 < (store.seg 90).live ∧ ({} : SegRecord).live = 0
      ∧ (∃ t, store.index.entries[0]? = some t ∧ 0 ≤ t.key ∧ t.body.loc? = some { seg := 90, cell := 600, count := 3 })
      ∧ ∀ t ∈ store.index.entries, ∀ m, t.body.loc? = some m → m.seg ≠ 91)
    ∧ ((reclaiming 600).reclaim.requester = none
      ∧ (reclaiming 600 { requester := some 3 }).reclaim.requester = some 3
      ∧ (reclaiming 600).ctxs[3]? = some ({} : JobContext) ∧ (reclaiming 600).rings[0]? = some ({} : RingContext)) := by
  refine ⟨⟨rfl, rfl, by decide +kernel⟩, ⟨rfl, rfl, rfl, rfl, by decide, by decide, rfl⟩,
    ⟨rfl, rfl, rfl, by decide, by decide, by decide, by decide, rfl⟩,
    ⟨⟨_, rfl, rfl⟩, ⟨_, rfl, rfl⟩, ⟨_, rfl, rfl⟩, by decide, by decide, by decide, by rintro ⟨t, h⟩; cases h⟩,
    ⟨by decide +kernel, by decide +kernel⟩, ⟨by decide +kernel, rfl, ⟨_, rfl, by decide, rfl⟩, by decide⟩, rfl, rfl, rfl, rfl⟩

/-- A released victim with no pins and no entry in it, with and without the program failed mark, and one with a pin. -/
theorem witness_AReleasedVictimLeaves :
    let g : SegRecord := { state := .reclaiming }
    let e (k : SegRecord) : Engine := { store with
      space := { segs := table [(7, k)], released := some 7 }
      reclaim := { state := .released, victim := some 7, requester := some 3 } }
    ((e g).space.segs[7]? = some g ∧ (e g).space.released = some 7 ∧ g.pins = 0 ∧ g.progFailed = false
      ∧ ∀ t ∈ (e g).index.entries, ∀ l, t.body.loc? = some l → l.seg ≠ 7)
    ∧ ({ g with progFailed := true } : SegRecord).progFailed = true ∧ ({ g with pins := 1 } : SegRecord).pins ≠ 0
    ∧ (1 < ({ g with pins := 2 } : SegRecord).pins ∧ ({ g with pins := 1 } : SegRecord).pins ≤ 1
      ∧ (e g).space.pinWait = [])
    ∧ ((e g).format = none ∧ ({ g with state := .erasing } : SegRecord).state = .erasing ∧ g.state ≠ .erasing)
    ∧ ((∀ n, n ∈ [47, 48] → ({ store with space := { segs := { state := .free } :: List.replicate n { state := .retired } } }
          : Engine).retiredCount = n)
      ∧ 48 = 47 + (if g.state = .retired then 0 else 1) ∧ 1 ≠ 48)
    ∧ ((e g).reclaim.state = .released ∧ (e g).reclaim.victim = some 7 ∧ (e g).reclaim.requester = some 3
      ∧ store.reclaim.state ≠ .released ∧ store.reclaim.requester = none) := by
  refine ⟨⟨by decide +kernel, rfl, rfl, rfl, by decide⟩, rfl, by decide, ⟨by decide, by decide, rfl⟩, ⟨rfl, rfl, by decide⟩,
    ⟨by decide +kernel, by decide, by decide⟩, rfl, rfl, rfl, by decide, rfl⟩

/-- A mount of three segments, one of them in use, in a phase at a segment and a cell. -/
def mountAt (phase : MountPhase) (seg cell : Nat) (m : MountUnit := {}) : Engine :=
  { mountingStore with
    mount := { m with phase := phase, seg := seg, cursor := cell }
    space := { segs := [{ state := .free }, { state := .full, writePtr := 2047 }, {}] } }

/-- The survey at the first and the last segment, with a VALID format cell and without; with and without segments to be
blank-checked; and the last blank check and one before it. -/
theorem witness_TheSurveyClassifiesEverySegment :
    ((mountAt .survey 1 0).state = .mounting ∧ (mountAt .survey 1 0).mount.phase = .survey
      ∧ (mountAt .survey 1 0).space.segs[1]? = some ({ state := .full, writePtr := 2047 } : SegRecord)
      ∧ (∃ m, CellOutcome.good (.format 5 true) 0 = .good (.format 5 true) m)
      ∧ (∀ count est, ¬ ∃ m, CellOutcome.blank = .good (.format count est) m) ∧ 0 ≠ 2047 ∧ 510 < 511 ∧ 511 ≤ 511)
    ∧ ((List.range (mountAt .survey 1 0).space.segs.length).filter
        (fun n => ((mountAt .survey 1 0).seg n).state == .unclassified) ≠ []
      ∧ (List.range ({ mountAt .survey 1 0 with space := { segs := [] } } : Engine).space.segs.length).filter
        (fun n => (({ mountAt .survey 1 0 with space := { segs := [] } } : Engine).seg n).state == .unclassified) = [])
    ∧ ((mountAt .survey 0 0 { blankChecks := 1 }).mount.blankChecks ≤ 1
      ∧ 1 < (mountAt .survey 0 0 { blankChecks := 2 }).mount.blankChecks)
    ∧ ({ kind := .formatCell, seg := 1, requester := .mount } : Request).seg = 1 := by
  refine ⟨⟨rfl, rfl, by decide, ⟨_, rfl⟩, ?_, by decide, by decide, by decide⟩, ⟨by decide, by decide⟩, by decide, rfl⟩
  rintro count est ⟨m, h⟩; cases h

/-- Pass A at segment 1, of the in-use segments and of the others, at the first cell and past it; the verdicts on headers
and values; what it walks next; and records that rank above an entry and below it, by each of the three tests. -/
theorem witness_PassATakesTheRecordsThatRank :
    let l : Location := { seg := 1, cell := 600, count := 1 }
    let m : Location := { seg := 1, cell := 601, count := 1 }
    let e := mountAt .passA 1 600
    (e.state = .mounting ∧ e.mount.phase = .passA ∧ e.mount.others = false ∧ e.mount.header = none
      ∧ e.space.segs[1]? = some (e.seg 1) ∧ (e.seg 1).state = .full
      ∧ (mountAt .passA 1 600 { others := true }).mount.others = true ∧ (mountAt .passA 1 2).mount.cursor = 2
      ∧ (mountAt .passA 1 600 { header := some (headerOf .value 64) }).mount.header = some (headerOf .value 64)
      ∧ 2047 ≤ 2046 + 1 ∧ 2045 + 1 < 2047)
    ∧ (headerVerdict 600 .blank = .blank ∧ headerVerdict 600 .uncorrectable = .invalid
      ∧ headerVerdict 600 (.good (.header (headerOf .loss 0)) 0) = .valid (headerOf .loss 0) ∧ (headerOf .loss 0).cells = 1
      ∧ headerVerdict 600 (.good (.header (headerOf .value 64)) 0) = .valid (headerOf .value 64)
      ∧ (headerOf .value 64).cells ≠ 1)
    ∧ (valueVerdict (headerOf .value 0) [] = .intact ∧ valueVerdict (headerOf .value 64) [.uncorrectable] = .damaged
      ∧ valueVerdict (headerOf .value 64) [.blank] = .torn)
    ∧ ((∀ n, n < 3 → n < 1 → (e.seg n).state ≠ .full) ∧ (∀ n, n < 3 → 2 ≤ n → (e.seg n).state ≠ .full)
      ∧ (∀ n, n < 3 → (e.seg n).state ≠ .dirty ∧ (e.seg n).state ≠ .retired)
      ∧ (({ e with space := { segs := [{ state := .dirty }] } } : Engine).seg 0).state = .dirty)
    ∧ ((EntryBody.value l 5 0).loc? = some l ∧ ({ e with index := {} } : Engine).entry 0x2A00 = none
      ∧ ({ e with index := {} } : Engine).index.entries.length < 65536
      ∧ (∃ t, (holding (.lost l 5 .damaged)).entry 0x2A00 = some t ∧ t.body.loc? = some l)
      ∧ 5 < (EntryBody.value m 6 0).rseq ∧ ¬ 5 < (EntryBody.value m 4 0).rseq
      ∧ (EntryBody.lost l 5 .damaged).rank < (EntryBody.lost m 5 .marker).rank
      ∧ (EntryBody.lost l 5 .damaged).rank = (EntryBody.lost m 5 .damaged).rank ∧ l.cell < m.cell) := by
  refine ⟨⟨rfl, rfl, rfl, rfl, by decide, by decide, rfl, rfl, rfl, by decide, by decide⟩,
    ⟨rfl, rfl, by decide, by decide, by decide, by decide⟩, by decide,
    ⟨by decide, by decide, by decide, by decide⟩, rfl, rfl, by decide, ⟨_, rfl, rfl⟩, by decide,
    by decide, by decide, by decide, by decide⟩

/-- Pass B at segment 1 before the end of its walk and at it; tombstones newer than an entry, older, and of its
sequence. -/
theorem witness_PassBJudgesTheTombstones :
    let l : Location := { seg := 1, cell := 600, count := 1 }
    let e := mountAt .passB 1 600
    (e.state = .mounting ∧ e.mount.phase = .passB ∧ e.space.segs[1]? = some (e.seg 1) ∧ (e.seg 1).state = .full
      ∧ (e.seg 1).writePtr ≤ 600 + 1447 ∧ 600 + 1446 < (e.seg 1).writePtr)
    ∧ (headerVerdict 600 .blank = .blank ∧ headerVerdict 600 .uncorrectable = .invalid
      ∧ headerVerdict 600 (.good (.header (headerOf .tombstone 0)) 0) = .valid (headerOf .tombstone 0)
      ∧ headerVerdict 600 (.good (.header (headerOf .loss 0)) 0) = .valid (headerOf .loss 0))
    ∧ ((∀ n, n < 3 → n < 1 → (e.seg n).state ≠ .full) ∧ ∀ n, n < 3 → 2 ≤ n → (e.seg n).state ≠ .full)
    ∧ (({ e with index := {} } : Engine).entry (headerOf .tombstone 0).key = none
      ∧ (∃ t, (holding (.value l 4 0)).entry (headerOf .tombstone 0).key = some t ∧ t.body.rseq < (headerOf .tombstone 0).rseq)
      ∧ (∃ t, (holding (.value l 6 0)).entry (headerOf .tombstone 0).key = some t ∧ (headerOf .tombstone 0).rseq < t.body.rseq)
      ∧ (∃ t, (holding (.value l 5 0)).entry (headerOf .tombstone 0).key = some t ∧ t.body.rseq = (headerOf .tombstone 0).rseq
        ∧ ∀ m, t.body ≠ .deleted m (headerOf .tombstone 0).rseq)
      ∧ ∃ t, (holding (.deleted l 5)).entry (headerOf .tombstone 0).key = some t
        ∧ t.body = .deleted l (headerOf .tombstone 0).rseq) := by
  refine ⟨⟨rfl, rfl, by decide, by decide, by decide, by decide⟩,
    ⟨rfl, rfl, by decide, by decide⟩, ⟨by decide, by decide⟩, rfl, ⟨_, rfl, by decide⟩, ⟨_, rfl, by decide⟩,
    ⟨_, rfl, by decide, fun m h => by cases h⟩, _, rfl, rfl⟩

theorem witness_AFinishedMountRebuildsTheTables :
    store.state ≠ .mounting ∧ mountingStore.state = .mounting ∧ 511 < mountingStore.space.segs.length
    ∧ ({ mountingStore with space := { segs := table [(511, { state := .dirty })] } } : Engine).seg 511 = { state := .dirty }
    ∧ mountingStore.space.low = false ∧ (∀ l ∈ mountingStore.locations, (mountingStore.seg l.seg).state = .full) := by
  decide +kernel

/-- An OPEN_RING with every parameter at the top of its range, one out of it, and ring numbers 0, 1, 7 and 8. -/
def openOf (ring size priority : Nat) : List Byte :=
  desc 0x10 [(16, 1, ring), (17, 1, priority), (18, 1, 8), (20, 4, size), (24, 8, 64), (32, 8, 64)]

def closeOf (ring : Nat) : List Byte := desc 0x11 [(16, 1, ring)]

theorem witness_AnOpenOrCloseRingFollowsItsState :
    ((ctx3 (admin (openOf 7 1024 3)) adminStore).jobAt 3 .openRing (admin (openOf 7 1024 3)) ∧ adminStore.rings.length = 8
      ∧ Descriptor.ringNumber (openOf 0 1024 3) = 0 ∧ 7 < Descriptor.ringNumber (openOf 8 1024 3)
      ∧ Descriptor.ringNumber (openOf 7 1024 3) ≤ 7 ∧ (adminStore.ring 7).state = .closed ∧ adminStore.format = none
      ∧ (adminStore.ring 1).state ≠ .closed
      ∧ (Descriptor.ringSize (openOf 7 1024 3) ∈ [16, 32, 64, 128, 256, 512, 1024] ∧ Descriptor.priority (openOf 7 1024 3) ≤ 3
        ∧ Descriptor.vector (openOf 7 1024 3) ≤ 8 ∧ Descriptor.ringBase (openOf 7 1024 3) % 64 = 0
        ∧ Descriptor.doneBase (openOf 7 1024 3) % 64 = 0)
      ∧ ¬ Descriptor.priority (openOf 7 1024 4) ≤ 3)
    ∧ ((ctx3 (admin (closeOf 1)) adminStore).jobAt 3 .closeRing (admin (closeOf 1)) ∧ 1 = Descriptor.ringNumber (closeOf 1)
      ∧ 8 = Descriptor.ringNumber (closeOf 8) ∧ adminStore.rings[7]? = some ({} : RingContext) ∧ ({} : RingContext).state = .closed
      ∧ adminStore.rings[1]? = some ring1 ∧ ring1.state = .opened
      ∧ ({ adminStore with rings := adminStore.rings.set 1 { ring1 with state := .draining, closer := some 4 } } : Engine).rings[1]?
        = some { ring1 with state := .draining, closer := some 4 }) :=
  ⟨⟨admin_at (by decide) rfl (by decide), rfl, by decide, by decide, by decide, rfl, rfl, by decide, by decide, by decide⟩,
    admin_at (by decide) rfl (by decide), by decide, by decide, rfl, rfl, rfl, rfl, rfl⟩

def noticeOf (size vector : Nat) : List Byte := desc 0x12 [(18, 1, vector), (20, 4, size), (24, 8, 64)]

theorem witness_ASetNoticeReplacesTheRing :
    (ctx3 (admin (noticeOf 1024 8)) adminStore).jobAt 3 .setNotice (admin (noticeOf 1024 8))
    ∧ (Descriptor.ringSize (noticeOf 1024 8) ∈ [0, 16, 32, 64, 128, 256, 512, 1024] ∧ Descriptor.vector (noticeOf 1024 8) ≤ 8
      ∧ Descriptor.ringBase (noticeOf 1024 8) % 64 = 0)
    ∧ ¬ Descriptor.vector (noticeOf 0 9) ≤ 8 ∧ adminStore.notices.writing = false
    ∧ noticing.engine.notices.writing = true :=
  ⟨admin_at (by decide) rfl (by decide), by decide, by decide, rfl, rfl⟩

def limitsOf (low wait quantum threshold : Nat) : List Byte :=
  desc 0x13 [(16, 2, low), (18, 2, threshold), (20, 4, wait), (24, 4, quantum)]

/-- The lowest and the highest values in range, one value out of it, and the low watermark kept; with the low watermark
24, 24 and 28 FREE segments at either side of the gap, 25 and 29 beyond them. -/
theorem witness_ASetLimitsTakesAllOrNone :
    let e (n : Nat) (low : Bool) : Engine := { store with space := { segs := List.replicate n { state := .free }, low := low } }
    (ctx3 (admin (limitsOf 64 2000 5000 4)) adminStore).jobAt 3 .setLimits (admin (limitsOf 64 2000 5000 4))
    ∧ (∀ d ∈ [limitsOf 64 2000 5000 4, limitsOf 8 10 200 1, limitsOf 0 0 0 0],
      (Descriptor.lowWater d = 0 ∨ (8 ≤ Descriptor.lowWater d ∧ Descriptor.lowWater d ≤ 64))
      ∧ (Descriptor.spaceWait d = 0 ∨ (10 ≤ Descriptor.spaceWait d ∧ Descriptor.spaceWait d ≤ 2000))
      ∧ (Descriptor.eraseQuantum d = 0 ∨ (200 ≤ Descriptor.eraseQuantum d ∧ Descriptor.eraseQuantum d ≤ 5000))
      ∧ (Descriptor.threshold d = 0 ∨ (1 ≤ Descriptor.threshold d ∧ Descriptor.threshold d ≤ 4)))
    ∧ Descriptor.lowWater (limitsOf 0 0 0 0) = 0 ∧ Descriptor.threshold (limitsOf 0 0 0 5) = 5
    ∧ (24 = (e 24 false).freeCount ∧ 25 = (e 25 false).freeCount ∧ 28 = (e 28 true).freeCount ∧ 29 = (e 29 true).freeCount)
    ∧ 24 = (e 24 false).control.limits.lowWater ∧ (e 24 false).state ≠ .mounting ∧ mountingStore.state = .mounting :=
  ⟨admin_at (by decide) rfl (by decide), by decide, by decide, by decide, by decide +kernel, rfl, by decide, rfl⟩

theorem witness_AQuerySendsItsReport :
    (ctx3 (admin (desc 0x14 [])) adminStore).jobAt 3 .queryEngine (admin (desc 0x14 []))
    ∧ (ctx3 (admin (desc 0x15 [(20, 2, 511)])) adminStore).jobAt 3 .querySegment (admin (desc 0x15 [(20, 2, 511)]))
    ∧ 511 = Descriptor.segment (desc 0x15 [(20, 2, 511)]) ∧ 511 < Descriptor.segment (desc 0x15 [(20, 2, 512)])
    ∧ (ctx3 (admin (desc 0x15 [])) mountingStore).jobAt 3 .querySegment (admin (desc 0x15 [])) ∧ mountingStore.state = .mounting
    ∧ (ctx3 (returningCtx 0x15 0 {})).returningAt 3 .querySegment (returningCtx 0x15 0 {}) 64 (zeros 16)
    ∧ (ctx3 (returningCtx 0x14 0 {})).returningAt 3 .queryEngine (returningCtx 0x14 0 {}) 64 (zeros 16) :=
  ⟨admin_at (by decide) rfl (by decide), admin_at (by decide) rfl (by decide), by decide, by decide, admin_at (by decide) rfl (by decide),
    rfl, ⟨rfl, by decide, rfl, rfl, by decide, rfl⟩, ⟨rfl, by decide, rfl, rfl, by decide, rfl⟩⟩

def reclaimOf (n : Nat) : List Byte := desc 0x16 [(20, 2, n)]

/-- A victim that may be named, one that may not, the refusals, ANY with nothing to reclaim, and a start test that fails
and one that passes. -/
theorem witness_AReclaimStartsItsVictim :
    (ctx3 (admin (reclaimOf 90)) adminStore).jobAt 3 .reclaim (admin (reclaimOf 90)) ∧ 90 = Descriptor.segment (reclaimOf 90)
    ∧ (90 < 512 ∧ (adminStore.seg 90).state = .full) ∧ (adminStore.seg 511).state = .unclassified
    ∧ 0xFFFF = Descriptor.segment (reclaimOf 0xFFFF) ∧ mountingStore.state = .mounting ∧ readOnlyStore.readOnly = true
    ∧ adminStore.readOnly = false ∧ adminStore.reclaim.state = .idle ∧ adminStore.format = none
    ∧ ({ adminStore with reclaim := { state := .paused } } : Engine).reclaim.state ≠ .idle
    ∧ ({ adminStore with space := {} } : Engine).chooseVictim true = none
    ∧ ¬ (adminStore.seg 90).live + 63 ≤ adminStore.headRoom 90 + 2045 * adminStore.freeCount
    ∧ (let e : Engine := { adminStore with space := { segs := table [(90, { state := .head, live := 1982 }), (7, { state := .free })] } }
       (e.seg 90).live + 63 ≤ e.headRoom 90 + 2045 * e.freeCount ∧ (e.seg 90).state = .head) := by
  refine ⟨admin_at (by decide) rfl (by decide), by decide, by decide +kernel, by decide +kernel, by decide, rfl, by decide,
    by decide, rfl, rfl, by decide +kernel, by decide +kernel, by decide +kernel, by decide +kernel⟩

theorem witness_AScrubReadsFromTheFirstCell :
    (ctx3 (admin (desc 0x17 [(20, 2, 90)])) adminStore).jobAt 3 .scrub (admin (desc 0x17 [(20, 2, 90)]))
    ∧ 90 = Descriptor.segment (desc 0x17 [(20, 2, 90)]) ∧ (90 < 512 ∧ (adminStore.seg 90).state = .full)
    ∧ 2 < (adminStore.seg 90).progPtr ∧ (adminStore.seg 511).state = .unclassified
    ∧ ({ adminStore with space := { segs := table [(90, { state := .full })] } } : Engine).seg 90 = { state := .full, progPtr := 2 }
    ∧ mountingStore.state = .mounting := by
  refine ⟨admin_at (by decide) rfl (by decide), by decide, by decide +kernel, by decide +kernel, by decide +kernel,
    by decide +kernel, rfl⟩

/-- A data ring that is open and none; 47 and 48 RETIRED segments, at either side of the limit. -/
theorem witness_AFormatNeedsClosedDataRings :
    let e (n : Nat) : Engine := { readOnlyStore with space := { segs := List.replicate n { state := .retired } } }
    (ctx3 (admin (desc 0x18 [])) adminStore).jobAt 3 .format (admin (desc 0x18 [])) ∧ adminStore.rings.length = 8
    ∧ (∃ r, 1 ≤ r ∧ r ≤ 7 ∧ (adminStore.ring r).state ≠ .closed) ∧ adminStore.format = none
    ∧ (∀ r, r < 8 → 1 ≤ r → (({ adminStore with rings := adminStore.rings.set 1 {} } : Engine).ring r).state = .closed)
    ∧ mountingStore.state = .mounting
    ∧ ((e 47).retiredCount = 47 ∧ (e 48).retiredCount = 48 ∧ (e 47).readOnly = true ∧ store.readOnly = false) :=
  ⟨admin_at (by decide) rfl (by decide), rfl, ⟨1, by decide, by decide, by decide⟩, rfl, by decide, rfl, by decide +kernel⟩

/-! ### The same for what the statements say beside their commands -/

/-- The last read of pass B, of segment 1 at cell 600, under way at bank 0. -/
def mountEnd : State :=
  let read : Request := { kind := .read, seg := 1, cell := 600, requester := .mount }
  { engine := { mountAt .passB 1 600 with banks := [{ state := .active, active := some { request := read } }, {}, {}, {}] }
    pending := [.readDone 0 []] }

/-- A STOP that ends in STOPPED, and the end of the last read of pass B, which ends the mount. -/
theorem witness_TheEngineStateFollowsItsEvents_mount_and_stop :
    (∃ t, step ({ engine := store, pending := [.stop] } : State) = .next t ∧ t.engine.state = .stopped)
    ∧ store.state ≠ .stopped ∧ mountEnd.engine.state = .mounting
    ∧ ∃ t, step mountEnd = .next t ∧ t.engine.state = .running :=
  ⟨⟨_, rfl, by decide +kernel⟩, by decide, rfl, _, rfl, by decide +kernel⟩

/-- The store with a notice to write, and a notice ring of 16 with the last free place and with none. -/
def noticed (writeIndex : Nat) : Engine :=
  { store with notices := { queue := [{ number := 5, body := .halted .indexParity }]
                            ring := some { base := 64, size := 16, vector := 8, writeIndex := writeIndex } } }

theorem witness_ACalmEngineSettlesUnchanged_blocks :
    haltedStore.state = .halted ∧ store.state ≠ .halted ∧ store.rings[1]? = some ring1
    ∧ ((noticed 14).notices.queue = { number := 5, body := .halted .indexParity } :: [] ∧ (noticed 14).notices.writing = false
      ∧ (noticed 14).notices.ring = some { base := 64, size := 16, vector := 8, writeIndex := 14 }
      ∧ (14 + 16 - 0) % 16 < 16 - 1)
    ∧ (∀ g, (noticed 15).notices.ring = some g → g.size - 1 ≤ (g.writeIndex + g.size - g.head) % g.size)
    ∧ (let e : Engine := { store with control := { engine := .stopping } }
       e.state = .stopping ∧ e.quiescent = true ∧ ({ e with ctxs := [{ state := .taken }] } : Engine).quiescent = false) := by
  refine ⟨rfl, by decide, rfl, ⟨rfl, rfl, rfl, by decide⟩, fun g h => ?_, by decide +kernel⟩
  cases h; decide

/-- A record's pass into a head, outside a mount and in one, and into a segment not in use; a cell of every other kind. -/
theorem witness_AProgramEndReachesOnlyItsCells_by_kind :
    let q := programOp.request
    (programming.engine.space.segs[q.seg]? = some head301 ∧ programming.engine.state ≠ .mounting ∧ head301.state = .head
      ∧ q.kind = .hostRecord ∧ q.requester = .ctx 3)
    ∧ mountingStore.state = .mounting ∧ ({} : SegRecord).state ∉ [.head, .full, .failedClosed, .reclaiming]
    ∧ ∀ k, ({ q with kind := k } : Request).kind = k :=
  ⟨⟨by decide +kernel, by decide, rfl, rfl, rfl⟩, rfl, by decide, fun _ => rfl⟩

theorem witness_ASuspensionPushesItsOperation_ends : programOp.op = .program ∧ eraseOp.op = .erase := ⟨rfl, rfl⟩

/-- An operation of each kind; an arrival at an IDLE bank, at a SUSPENDING one, at an ACTIVE one that suspends for it with
its count one below the limit, and at one that does not with its count at it; an operation's end in HALTED and out of it. -/
theorem witness_TheBankSelectsInOrder_arrivals :
    let read : Request := { kind := .read, seg := 300, requester := .reclaim }
    (programOp.op = .program ∧ eraseOp.op = .erase ∧ readOp.op = .read ∧ checkOp.op = .blankCheck)
    ∧ ({} : Bank).state = .idle ∧ ({ state := .suspending } : Bank).state = .suspending
    ∧ (let k : Bank := { state := .active, active := some { programOp with suspends := 3 } }
       k.state = .active ∧ k.quantumEnd = none ∧ ({ programOp with suspends := 3 } : Operation).op = .program
        ∧ read.kind = .read ∧ ({ programOp with suspends := 3 } : Operation).suspends < 4)
    ∧ ¬ ({ programOp with suspends := 4 } : Operation).suspends < 4 ∧ ¬ ({ eraseOp with suspends := 32 } : Operation).suspends < 32
    ∧ store.state ≠ .halted ∧ haltedStore.state = .halted := by decide

/-- A descriptor at chain position 16 and at 17, of no job, a data job and an admin job; a context that waits, one that failed
a check, one whose condition holds and one whose does not; a ring that is FAULTED and one that is not. -/
theorem witness_AFetchedDescriptorIsTaken_checks :
    (16 < 17 ∧ 16 ≤ 16 ∧ Descriptor.job (desc 0 []) = none ∧ Descriptor.job (desc 1 []) = some .put
      ∧ Descriptor.job (desc 0x18 []) = some .format)
    ∧ ((chained 1 none {}).ctxs[4]? = some ((chained 1 none {}).ctx 4) ∧ ((chained 1 none {}).ctx 4).predecessor = some 3)
    ∧ (let x : JobContext := { ready (desc 1 [(2, 1, 1)]) with position := 2 }
       x.predecessor = none ∧ x.verdict = none ∧ Descriptor.condition x.descriptor = 1 ∧ (store.ring x.ring).chain.flags.succeeded = false
        ∧ ({ x with verdict := some .badKey } : JobContext).verdict = some .badKey ∧ x.position = 2
        ∧ ({ x with position := 1 } : JobContext).position < 2)
    ∧ store.rings[1]? = some ring1 ∧ ring1.state ≠ .faulted ∧ ({ ring1 with state := .faulted } : RingContext).state = .faulted := by
  decide +kernel

/-- A context of a FORMAT and one of none; an armed ring and one that is not; a FAULTED ring with a record that is not being
written, with one that is, and with none behind it. -/
theorem witness_AWrittenRecordFreesItsContext_discards :
    let f : FormatRun := { ctx := 3 }
    let g : RingContext := { ring1 with state := .faulted, posting := [3, 4] }
    (store.ctxs[3]? = some ({} : JobContext) ∧ store.format = none ∧ ({ store with format := some f } : Engine).format = some f
      ∧ f.ctx = 3)
    ∧ (store.rings[1]? = some ring1 ∧ ring1.armed = true ∧ ring1.state ≠ .faulted ∧ ({} : RingContext).armed = false)
    ∧ (({ store with rings := {} :: [g] } : Engine).rings[1]? = some g ∧ g.state = .faulted
      ∧ (if g.writing then g.posting.tail else g.posting) = 3 :: [4]
      ∧ ({ g with writing := true } : RingContext).posting.tail = 4 :: []
      ∧ ∀ q h, q < 1 → ({ store with rings := {} :: [g] } : Engine).rings[q]? = some h → h.state ≠ .faulted)
    ∧ ∀ h ∈ store.rings, h.state ≠ .faulted := by
  refine ⟨by decide, by decide, ⟨rfl, rfl, rfl, rfl, fun q h hq hr => ?_⟩, by decide⟩
  cases q with
  | zero => cases hr; decide
  | succ q => omega

/-- The reclaim head with room for 5 cells and for 1,235 and not for 1,236, none, and none that can be opened; the cause of a
change of mode in a mount, in READ_ONLY and in WRITABLE. -/
theorem witness_APlacementReservesAtTheHead_reclaim :
    let head : SegRecord := { state := .head, role := some .reclaim, sseq := some 9, writePtr := 812, progPtr := 812 }
    let e : Engine := { store with space := { segs := table [(7, head)] } }
    (e.headOf .reclaim none = some 7 ∧ (e.seg 7).writePtr + 5 ≤ 2047 ∧ (e.seg 7).writePtr + 1235 ≤ 2047
      ∧ 2047 < (e.seg 7).writePtr + 1236)
    ∧ store.headOf .reclaim none = none ∧ (∀ g ∈ store.space.segs, g.state ≠ .free)
    ∧ (let k : Engine := { store with space := { segs :=
         [{ state := .free, eraseCount := 3 }, { state := .free, eraseCount := 2 }, { state := .free, eraseCount := 2 }] } }
       k.space.segSeq ≠ 2 ^ 32 ∧ k.space.segs[1]? = some { state := .free, eraseCount := 2 }
       ∧ ∀ m, m < 3 → ∀ h ∈ k.space.segs[m]?, m ≠ 1 → 2 < h.eraseCount ∨ (2 = h.eraseCount ∧ 1 < m))
    ∧ (mountingStore.state = .mounting ∧ readOnlyStore.state ≠ .mounting ∧ readOnlyStore.readOnly = true
      ∧ store.state ≠ .mounting ∧ store.readOnly = false) := by
  decide +kernel

/-- A waiter's statuses, and an entry that holds a value or a loss and one that does not. -/
theorem witness_AReleasedLockIsHandedOn_refusals :
    let l : Location := { seg := 90, cell := 600, count := 3 }
    (EntryBody.value l 5 0).kind = .value ∧ (EntryBody.lost l 5 .marker).kind = .lost
    ∧ (EntryBody.deleted l 5).kind ∉ [KeyKind.value, .lost] ∧ EntryBody.nascent.kind ∉ [KeyKind.value, .lost]
    ∧ Status.exists ∉ [Status.ok, .noSpace, .mediaError] := by decide

/-- A format cell that fails in ERASING and out of it, and one of a mount. -/
theorem witness_AFailedProgramIsPlacedAfresh_format_cell :
    let q : Request := { kind := .formatCell, seg := 300, requester := .space }
    q.kind = .formatCell ∧ q.requester ≠ .mount ∧ (erasing300.engine.seg q.seg).state = .erasing
    ∧ (store.seg q.seg).state ≠ .erasing ∧ ({ q with requester := .mount } : Request).requester = .mount := by decide +kernel

/-- The ranks and the VALUE records of pass A. -/
theorem witness_PassATakesTheRecordsThatRank_ranks :
    (∀ b : EntryBody, b.rank = match b with
      | .value .. => 2
      | .lost _ _ .marker => 1
      | _ => 0)
    ∧ ∃ value : EntryBody → Bool, ∀ b, value b = match b with
      | .value .. => true
      | .lost _ _ .damaged => true
      | _ => false := by
  refine ⟨fun b => ?_, _, fun _ => rfl⟩
  rcases b with _ | _ | _ | ⟨_, _, f⟩ <;> try rfl
  cases f <;> rfl

/-- A ring that a CLOSE_RING waits on, with nothing in flight and with one job, and one that none waits on. -/
theorem witness_AnOpenOrCloseRingFollowsItsState_closing :
    let g : RingContext := { ring1 with state := .draining, inFlight := 0, closer := some 4 }
    ({ store with rings := {} :: [g] } : Engine).rings[1]? = some g ∧ g.state = .draining ∧ g.inFlight = 0 ∧ g.closer = some 4
    ∧ ({ g with state := .faulted } : RingContext).state = .faulted ∧ 0 < ({ g with inFlight := 1 } : RingContext).inFlight
    ∧ ring1.closer = none := by decide

theorem witness_ASetNoticeReplacesTheRing_setters :
    store.ctxs[3]? = some ({} : JobContext) ∧ store.notices.writing = false ∧ noticing.engine.notices.writing = true :=
  ⟨rfl, rfl, rfl⟩

/-- A choice to make with a victim that starts, one whose start test fails, none to take, and none to make; a grant with equal
pointers, with unequal ones, of a segment on the refresh list with a weak segment to join it and with none, and on a list
that stays full. -/
theorem witness_AReclaimStartsItsVictim_choice_and_grant :
    let u : ReclaimUnit := { choiceDue := true, continuous := true }
    let e (free : Nat) : Engine := { store with
      reclaim := u, space := { segs := { state := .full, writePtr := 2047, progPtr := 2047, live := 1982 } :: List.replicate free { state := .free } } }
    let w (refresh : List Nat) (weak : Bool) : Engine := { store with
      reclaim := { state := .grantWait, victim := some 0, refresh := refresh }
      space := { segs := { state := .full } :: List.replicate 9 { state := .full, weak := weak } } }
    (u.choiceDue = true ∧ (e 1).reclaim.state = .idle ∧ (e 1).state = .running ∧ (e 1).readOnly = false ∧ (e 1).format = none
      ∧ (e 1).reclaim.continuous = true ∧ (e 1).chooseVictim true = some 0 ∧ (e 1).headOf .reclaim none = none
      ∧ ((e 1).seg 0).live + 63 ≤ (e 1).headRoom 0 + 2045 * (e 1).freeCount
      ∧ ¬ ((e 0).seg 0).live + 63 ≤ (e 0).headRoom 0 + 2045 * (e 0).freeCount)
    ∧ ({ e 1 with space := {} } : Engine).chooseVictim true = none ∧ store.reclaim.choiceDue = false
    ∧ ((w [0] true).reclaim.victim = some 0 ∧ (w [0] true).reclaim.state = .grantWait
      ∧ (w [0] true).space.segs[0]? = some ({ state := .full } : SegRecord)
      ∧ ({ state := .full, writePtr := 3 } : SegRecord).progPtr ≠ ({ state := .full, writePtr := 3 } : SegRecord).writePtr)
    ∧ 0 ∉ (w [] true).reclaim.refresh
    ∧ (0 ∈ (w [0] true).reclaim.refresh ∧ ([0].filter (· != 0)).length < 8
      ∧ ∃ h, (w [0] true).space.segs[1]? = some h ∧ h.weak = true ∧ h.state = .full)
    ∧ (∀ m, m < 10 → ((w [0] false).seg m).weak = false)
    ∧ 8 ≤ (([0, 1, 2, 3, 4, 5, 6, 7, 8] : List Nat).filter (· != 0)).length := by
  decide +kernel

/-- A SCRUB's walk of a segment at a cell, with a limit. -/
def scrubbing (cursor limit : Nat) (header : Option RecordHeader := none) : Engine :=
  { store with ctxs := store.ctxs.set 3 { state := .media, descriptor := desc 0x17 [(20, 2, 90)]
                                          scrub := { seg := 90, cursor := cursor, limit := limit, header := header } } }

/-- The verdicts on a header of one cell and of more, the end of a value; a walk at its limit, at cell 2046 and at 2047; and a
segment in use and one not. -/
theorem witness_AScrubReadsFromTheFirstCell_walk :
    ((scrubbing 600 700).ctxs[3]? = some ((scrubbing 600 700).ctx 3) ∧ ((scrubbing 600 700).ctx 3).job = some .scrub
      ∧ (scrubbing 600 700).space.segs[90]? = some (store.seg 90) ∧ ((scrubbing 600 700).ctx 3).scrub.seg = 90
      ∧ ((scrubbing 600 700).ctx 3).scrub.header = none
      ∧ ((scrubbing 600 700 (some (headerOf .value 64))).ctx 3).scrub.header = some (headerOf .value 64))
    ∧ (headerVerdict 600 .blank = .blank ∧ headerVerdict 600 .uncorrectable = .invalid
      ∧ headerVerdict 600 (.good (.header (headerOf .loss 0)) 0) = .valid (headerOf .loss 0) ∧ (headerOf .loss 0).cells = 1
      ∧ headerVerdict 600 (.good (.header (headerOf .value 64)) 0) = .valid (headerOf .value 64)
      ∧ (headerOf .value 64).cells ≠ 1)
    ∧ (700 ≤ ((scrubbing 700 700).ctx 3).scrub.cursor ∧ ((scrubbing 2046 2047).ctx 3).scrub.cursor < 2047
      ∧ 2047 ≤ ((scrubbing 2047 2048).ctx 3).scrub.cursor)
    ∧ (store.seg 90).state = .full ∧ (store.seg 91).state = .unclassified := by decide +kernel

/-- A FORMAT in its stages, with a reclaim that it waits for and one that it ends, with a requester and without; with a
segment in ERASING, a released victim, and neither; and a segment of its count and another. -/
theorem witness_AFormatNeedsClosedDataRings_stages :
    let f : FormatRun := { ctx := 3, segs := [7] }
    let e (stage : FormatStage) (st : ReclaimState) : Engine := { store with
      format := some { f with stage := stage }, reclaim := { state := st, requester := some 4 } }
    (store.format = none ∧ (e .ending .stepping).format = some f ∧ f.stage = .ending
      ∧ (e .ending .stepping).reclaim.state = .stepping ∧ (e .ending .paused).reclaim.state = .paused
      ∧ (e .ending .paused).reclaim.requester = some 4 ∧ store.reclaim.requester = none ∧ store.reclaim.state = .idle)
    ∧ ((e .erasing .idle).format = some { f with stage := .erasing } ∧ (∀ g ∈ store.space.segs, g.state ≠ .erasing)
      ∧ store.space.released = none ∧ (∃ g ∈ erasing300.engine.space.segs, g.state = .erasing)
      ∧ ({ store with space := { released := some 7 } } : Engine).space.released ≠ none)
    ∧ 7 ∈ f.segs ∧ 8 ∉ f.segs := by decide +kernel

/-- A request of each kind in an array of canonical form; contents of one cell and of two, with their first and last; a cell
before an erased segment, its first and last, and the first after it; one outside a program and one outside a retire. -/
theorem witness_AResetStartsAFreshMount_cuts :
    let q (k : RequestKind) (cs : List CellData) : Request := { kind := k, seg := 300, cell := 2, requester := .space, contents := cs }
    let two : List CellData := [.header (headerOf .value 64), .value []]
    reading.array.wf ∧ (q .read []).kind = .read ∧ (q .erase []).kind = .erase ∧ (q .retireCell [.retire]).kind = .retireCell
    ∧ (q .hostRecord two).kind ∈ [RequestKind.hostRecord, .reclaimRecord, .hostOpen, .reclaimOpen, .formatCell]
    ∧ (q .hostRecord two).contents[0]? = some (.header (headerOf .value 64)) ∧ (q .hostRecord two).contents[1]? = some (.value [])
    ∧ 2 ≤ (q .hostRecord two).contents.length ∧ (q .formatCell [.format 5 false]).contents.length = 1
    ∧ 2048 * 300 - 1 < 2048 * 300 ∧ 2048 * (300 + 1) ≤ 2048 * 301 ∧ 2048 * 300 + 2047 ≠ 2048 * 300
    ∧ 2048 * 300 + 2 + 2 ≤ 2048 * 300 + 4 ∧ 2048 * 300 + 3 ≠ 2048 * 300 + 2
    ∧ programming.engine.startedOps ≠ [] := by
  exact ⟨List.pairwise_singleton _ _, by decide⟩

/-- A store whose contexts are all FREE, and one in which ring 1 holds 16 of them; contexts 0, 1 and 31 free. -/
theorem witness_TheFetchArbiterChoosesInOrder_contexts :
    (0 < 32 ∧ (store.ctx 0).state = .free ∧ (store.ctx 0).held = false)
    ∧ (31 < 32 ∧ (store.ctx 31).state = .free ∧ (store.ctx 31).held = false ∧ ¬ 32 < 32)
    ∧ store.ctxs.countP (fun x => x.state != .free && x.ring == 1) = 0
    ∧ ({ store with ctxs := List.replicate 16 {} ++ List.replicate 16 { state := .taken, ring := 1 } } : Engine).ctxs.countP
      (fun x => x.state != .free && x.ring == 1) = 16 := by decide +kernel

/-- A passed DELETE, with an entry of each body that it supersedes. -/
theorem witness_APassedWriteRepointsItsEntry_delete :
    let l : Location := { seg := 90, cell := 600, count := 3 }
    let p : PendingWrite := { ctx := 3, rseq := 48300, write := .delete, progress := .inFlight }
    let e (b : EntryBody) : Engine := { holding b (some p) with ctxs := store.ctxs.set 3 { ready (desc 4 [(16, 8, 0x2A00)]) with
      grant := some { kind := b.kind, rseq := 48300, matched := false } } }
    ∀ b ∈ [EntryBody.value l 5 1, .lost l 5 .damaged, .lost l 5 .marker],
      ((e b).ctx 3).job = some .delete ∧ ((e b).ctx 3).key = 0x2A00 ∧ ((e b).ctx 3).grant = some { kind := b.kind, rseq := 48300, matched := false }
      ∧ ∃ t, (e b).entry 0x2A00 = some t ∧ t.pending = some p ∧ p.ctx = 3 ∧ t.body = b := by
  intro l p e b hb
  simp only [List.mem_cons, List.not_mem_nil, or_false] at hb
  rcases hb with rfl | rfl | rfl <;> exact ⟨by decide, by decide, rfl, _, rfl, rfl, rfl, rfl⟩

/-- A walk with a sweep and one without; a PAUSED unit with no cause, with a cause and during a FORMAT that ends it, and one
that is not PAUSED; a read of the walk that is weak and one that is not. -/
theorem witness_TheReclaimCursorSettlesItsRecord_boundaries :
    (reclaiming 2046).reclaim.sweep = none ∧ (reclaiming 2047 { sweep := some 5 }).reclaim.sweep = some 5
    ∧ (let e (u : ReclaimUnit) : Engine := { reclaiming 600 with reclaim := { u with victim := some 90, cursor := some 600 } }
      (e { state := .paused }).reclaim.state = .paused ∧ (e { state := .paused }).reclaim.causes.any = false
      ∧ (e { state := .paused }).formatEnding = false ∧ (e { state := .idle }).reclaim.state ≠ .paused
      ∧ (e { state := .paused, causes := { readOnly := true } }).reclaim.causes.any = true)
    ∧ readOp.request.requester = .reclaim ∧ weakRead 3 [.good .retire 3, .blank] = true
    ∧ weakRead 3 [.good .retire 2, .blank] = false := by decide

theorem witness_TheSurveyClassifiesEverySegment_read :
    ({ kind := .read, seg := 1, requester := .mount } : Request).requester = .mount := rfl

/-- A FULL segment with pins and the program failed mark before the mount finishes. -/
theorem witness_AFinishedMountRebuildsTheTables_full :
    let e : Engine := { mountingStore with space := { segs := table [(511, { state := .full, pins := 2, progFailed := true })] } }
    e.state = .mounting ∧ 511 < e.space.segs.length ∧ (e.seg 511).state = .full ∧ (e.seg 511).pins = 2
    ∧ (e.seg 511).progFailed = true := by decide +kernel

/-- A PUT with a grant whose staging holds its 200 bytes, one of no bytes, the last value cell's number, and a DELETE. -/
theorem witness_APlacementReservesAtTheHead_record :
    let x : JobContext := { placed 1 with staging := List.replicate 200 7 }
    x.job = some .put ∧ (∃ g, x.grant = some g) ∧ x.staging.length = Descriptor.length x.descriptor ∧ 3 < (200 + 63) / 64
    ∧ JobContext.job { ready (desc 1 [(16, 8, 0x2A00)]) with grant := (placed 1).grant } = some .put
    ∧ Descriptor.length (desc 1 [(16, 8, 0x2A00)]) = 0
    ∧ JobContext.job { ready (desc 4 [(16, 8, 0x2A00)]) with grant := (placed 1).grant } = some .delete := by
  refine ⟨by decide, ⟨_, rfl⟩, by decide +kernel, by decide, by decide, by decide, by decide⟩

/-- A value of 65 bytes in two cells, read with 4 bits corrected in one; and one of no bytes. -/
theorem witness_AReadClassifiesItsCells_value :
    let v : List Byte := List.replicate 65 7
    let cells : List CellOutcome := [.good (.value (v.take 64)) 0, .good (.value (v.drop 64)) 4]
    cells.length = 2 ∧ v.length ≤ 64 * 2 ∧ valueCells 2 v = [.value (v.take 64), .value (v.drop 64)]
    ∧ ([] : List Byte).length ≤ 64 * 0 ∧ valueCells 0 [] = [] := by decide

/-- A walk that goes on at key 3 of a store of 300 LOST keys, with 1 to 256 entries left and 257; and one past its last key. -/
theorem witness_AScanListsKeysInOrder_resumed :
    let x (next left : Nat) : JobContext := { scan := { next := next, left := left, count := 256, written := 4096 } }
    (ctx3 (x 3 257) (lostStore 300)).engine.ctxs[3]? = some (x 3 257) ∧ indexLaw (lostStore 300).index.entries
    ∧ (x 3 256).scan.left ≤ 256 ∧ 256 < (x 3 257).scan.left ∧ (x 0x2A01 257).scan.next = 0x2A01
    ∧ store.index.entries.filter (fun t => 0x2A01 ≤ t.key && t.body.reportable) = [] := by
  refine ⟨rfl, lostStore_law (by decide), by decide, by decide, rfl, by decide⟩

/-- Both bodies of a scan entry, and those that are none. -/
theorem witness_AScanListsKeysInOrder_entries :
    let l : Location := { seg := 90, cell := 600, count := 3 }
    (EntryBody.value l 5 4032).kind = .value ∧ (EntryBody.lost l 5 .marker).kind = .lost
    ∧ (EntryBody.deleted l 5).reportable = false ∧ EntryBody.nascent.reportable = false := by decide

/-- A waiter whose placement finds room and one whose does not. -/
theorem witness_TheWaitQueueIsServed_retry :
    (ctx3 (placed 1)).engine.ctxs[3]? = some (placed 1)
    ∧ ((ctx3 (placed 1)).engine.placeHost (placed 1).recordCells).2.isSome = true
    ∧ (roomless.placeHost (placed 1).recordCells).2 = none := by
  refine ⟨rfl, by decide +kernel, by decide +kernel⟩

/-- A queue of notices that is not full and one that is. -/
theorem witness_AWrittenNoticeLeavesTheQueue_raise :
    store.notices.queue.length < 16
    ∧ 16 ≤ ({ queue := List.replicate 16 { number := 0, body := .halted .indexParity } } : NoticeUnit).queue.length := by decide

end Sys2Proof.Tests
end

section
/-! PROOFS. The data jobs and the chains (chapter 2): one reasoning rule per operation of theirs, then the statements about
an outcome that joins its ring, the loads, GET, PROBE, MATCH, the returned transfers, and the chain that goes on. -/

namespace Sys2Proof.Machine.DataJobs

open Sys2Proof

/-! ### One context or segment record in its place -/

section Contexts

variable {e : Engine} {c : Nat} {x : JobContext}

theorem withCtx_get (h : e.ctxs[c]? = some x) (y : JobContext) : (e.withCtx c y).ctxs[c]? = some y := set_there h y

theorem withCtx_withCtx (e : Engine) (c : Nat) (y z : JobContext) : (e.withCtx c y).withCtx c z = e.withCtx c z := by
  simp [Engine.withCtx]

theorem modCtx_eq_withCtx (h : e.ctxs[c]? = some x) (f : JobContext → JobContext) : e.modCtx c f = e.withCtx c (f x) :=
  Engine.modCtx_set h f

/-- A completion overwrites what a change of the same context made of its state, its readiness and its transfer. -/
theorem complete_withCtx (h : e.ctxs[c]? = some x) (st : CtxState) (ready : Bool) (t : Option Transfer) (o : JobOutcome) :
    (e.withCtx c { x with state := st, ready := ready, transfer := t }).complete c o = e.complete c o := by
  rw [Engine.complete_set (withCtx_get h _), Engine.complete_set h]
  simp [Engine.withCtx]

theorem complete_eq_set (h : e.ctxs[c]? = some x) {g : RingContext} (hg : e.rings[x.ring]? = some g) (o : JobOutcome) :
    e.complete c o = { e with
      ctxs := e.ctxs.set c { x with state := .posting, ready := false, transfer := none, outcome := o }
      rings := e.rings.set x.ring { g with posting := g.posting ++ [c] } } := by
  rw [Engine.complete_set h, updAt_set hg]

theorem seg_of {n : Nat} {g : SegRecord} (h : e.space.segs[n]? = some g) : e.seg n = g := by
  unfold Engine.seg; rw [List.getD_eq_getElem?_getD, h]; rfl

theorem modSeg_eq_withSeg {n : Nat} {g : SegRecord} (h : e.space.segs[n]? = some g) (f : SegRecord → SegRecord) :
    e.modSeg n f = e.withSeg n (f g) := by
  unfold Engine.modSeg; rw [updAt_set h]; rfl

end Contexts

/-- Settles O32, from the rules for one item of a table. -/
theorem anOutcomeJoinsItsRing : Obligations.AnOutcomeJoinsItsRing :=
  ⟨fun _ _ _ _ o hx hg => complete_eq_set hx hg o,
    fun _ _ => ⟨List.getD_eq_getElem?_getD .., List.getD_eq_getElem?_getD .., List.getD_eq_getElem?_getD ..,
      List.getD_eq_getElem?_getD .., fun _ => rfl⟩,
    updAt_get, updAt_get, updAt_get, updAt_get⟩

/-! ### The steps of jobs that stand ready -/

section Steps

variable {s : State} {c : Nat} {x : JobContext}

theorem jobAt_ctxs {j : Job} (h : s.jobAt c j x) : s.engine.ctxs[c]? = some x := by
  obtain ⟨_, _, hx, _⟩ := h
  exact hx

theorem exec_put (h : s.jobAt c .put x) :
    exec (.put c) s = .next { s with engine := (s.engine.putStep c).settle } := congrArg Host.Outcome.next (h.step _)

theorem exec_get (h : s.jobAt c .get x) :
    exec (.get c) s = .next { s with engine := (s.engine.getLookup c).settle } := congrArg Host.Outcome.next (h.step _)

theorem exec_probe (h : s.jobAt c .probe x) :
    exec (.probe c) s = .next { s with engine := (s.engine.probeStep c).settle } := congrArg Host.Outcome.next (h.step _)

theorem exec_delete (h : s.jobAt c .delete x) :
    exec (.delete c) s = .next { s with engine := (s.engine.deleteStep c).settle } := congrArg Host.Outcome.next (h.step _)

theorem exec_matchValue (h : s.jobAt c .matchValue x) :
    exec (.matchValue c) s = .next { s with engine := (s.engine.matchStep c).settle } :=
  congrArg Host.Outcome.next (h.step _)

end Steps

/-! ### The write mode and the loads (R31, R38, R39) -/

section Loads

variable {e : Engine} {c : Nat} {x : JobContext}

theorem loadNothing_eq (h : e.ctxs[c]? = some x) :
    e.loadNothing c = e.withCtx c { x with state := .loading, ready := false, staging := [] } := modCtx_eq_withCtx h _

theorem beginTransfer_eq (h : e.ctxs[c]? = some x) (st : CtxState) (t : Transfer) :
    e.beginTransfer c st t = e.withCtx c { x with state := st, ready := false, transfer := some t } :=
  modCtx_eq_withCtx h _

theorem putStep_readOnly (hm : e.readOnly = true) : e.putStep c = e.complete c { status := .readOnly } := by
  simp [Engine.putStep, hm]

theorem putStep_empty (h : e.ctxs[c]? = some x) (hm : e.readOnly = false) (h0 : Descriptor.length x.descriptor = 0) :
    e.putStep c = (e.withCtx c { x with state := .loading, ready := false, staging := [] }).askAdmission c := by
  simp [Engine.putStep, hm, Engine.ctx_of h, h0, loadNothing_eq h]

theorem putStep_load (h : e.ctxs[c]? = some x) (hm : e.readOnly = false) (h0 : 0 < Descriptor.length x.descriptor) :
    e.putStep c = e.withCtx c { x with
      state := .loading, ready := false
      transfer := some (.load (Descriptor.buffer x.descriptor) (Descriptor.length x.descriptor)) } := by
  simp [Engine.putStep, hm, Engine.ctx_of h, Nat.ne_of_gt h0, beginTransfer_eq h]

theorem deleteStep_readOnly (hm : e.readOnly = true) : e.deleteStep c = e.complete c { status := .readOnly } := by
  simp [Engine.deleteStep, hm]

theorem deleteStep_writable (hm : e.readOnly = false) : e.deleteStep c = e.askAdmission c := by
  simp [Engine.deleteStep, hm]

theorem matchStep_empty (h : e.ctxs[c]? = some x) (h0 : Descriptor.length x.descriptor = 0) :
    e.matchStep c = (e.withCtx c { x with state := .loading, ready := false, staging := [] }).matchLookup c := by
  simp [Engine.matchStep, Engine.ctx_of h, h0, loadNothing_eq h]

theorem matchStep_load (h : e.ctxs[c]? = some x) (h0 : 0 < Descriptor.length x.descriptor) :
    e.matchStep c = e.withCtx c { x with
      state := .loading, ready := false
      transfer := some (.load (Descriptor.buffer x.descriptor) (Descriptor.length x.descriptor)) } := by
  simp [Engine.matchStep, Engine.ctx_of h, Nat.ne_of_gt h0, beginTransfer_eq h]

end Loads

/-! ### The ends of transfers (R31, R36, R39, R41 to R43) -/

section Transfers

variable {e : Engine} {s : State} {c : Nat} {x : JobContext}

theorem transferEnded_eq (h : e.ctxs[c]? = some x) : e.transferEnded c = e.withCtx c { x with transfer := none } :=
  modCtx_eq_withCtx h _

theorem complete_transferEnded (h : e.ctxs[c]? = some x) (o : JobOutcome) :
    (e.transferEnded c).complete c o = e.complete c o := by
  rw [transferEnded_eq h]
  exact complete_withCtx h x.state x.ready none o

/-- Outside HALTED what follows a transfer's end is done, and the step settles. -/
theorem afterTransfer_eq (h : e.state ≠ .halted) (f : Engine → Engine) : e.afterTransfer f = (f e).settle := by
  unfold Engine.afterTransfer
  split
  · next hs => exact absurd hs h
  · rfl

theorem exec_loadingDone (hon : s.supply = .on) (hh : s.engine.state ≠ .halted) (h : s.engine.ctxs[c]? = some x)
    (hs : x.state = .loading) {a n : Nat} (ht : x.transfer = some (.load a n)) (data : Option (List Byte)) :
    exec (.loadingDone c data) s =
      .next { s with engine := ((s.engine.transferEnded c).loaded c n data).settle } := by
  have hl : s.engine.loadEvent c data = ((s.engine.transferEnded c).loaded c n data).settle := by
    simp only [Engine.loadEvent, Engine.ctx_of h, hs, ht]
    exact afterTransfer_eq (e := s.engine.transferEnded c) hh _
  rw [← hl]
  exact congrArg Host.Outcome.next (State.withEngine_on _ _ hon)

theorem fitBytes_exact (bytes : List Byte) : fitBytes bytes.length bytes = bytes := by simp [fitBytes]

/-- The engine after a value has been read into staging, before its job goes on. -/
theorem staged_eq (h : e.ctxs[c]? = some x) (bytes : List Byte) :
    ((e.transferEnded c).modCtx c fun y => { y with staging := bytes }) =
      e.withCtx c { x with transfer := none, staging := bytes } := by
  rw [transferEnded_eq h, modCtx_eq_withCtx (withCtx_get h _), withCtx_withCtx]

theorem job_transferEnded (h : e.ctxs[c]? = some x) : ((e.transferEnded c).ctx c).job = x.job := by
  rw [transferEnded_eq h, Engine.ctx_of (withCtx_get h _)]
  rfl

theorem loaded_put (h : e.ctxs[c]? = some x) (hj : x.job = some .put) (bytes : List Byte) :
    (e.transferEnded c).loaded c bytes.length (some bytes) =
      (e.withCtx c { x with transfer := none, staging := bytes }).askAdmission c := by
  simp [Engine.loaded, job_transferEnded h, hj, fitBytes_exact, staged_eq h]

theorem loaded_match (h : e.ctxs[c]? = some x) (hj : x.job = some .matchValue) (bytes : List Byte) :
    (e.transferEnded c).loaded c bytes.length (some bytes) =
      (e.withCtx c { x with transfer := none, staging := bytes }).matchLookup c := by
  simp [Engine.loaded, job_transferEnded h, hj, fitBytes_exact, staged_eq h]

/-- The end of a transfer to host memory of a job that the event is for. -/
theorem returnEvent_eq {j : Job} {a : Nat} {bytes : List Byte} (h : s.returningAt c j x a bytes) {mine : Job → Bool}
    (hm : mine j = true) (ok : Bool) (f : Nat → Engine → Engine) :
    s.withEngine (fun e => e.returnEvent c mine ok f) =
      { s with engine := (f bytes.length (s.engine.sent c a bytes ok)).settle } := by
  obtain ⟨hon, hh, hx, hs, hj, ht⟩ := h
  rw [State.withEngine_on _ _ hon]
  simp only [Engine.returnEvent, Engine.ctx_of hx, hs, ht, hj, hm, if_true]
  rw [afterTransfer_eq (e := s.engine.sent c a bytes ok) hh]

theorem exec_returningDone {a : Nat} {bytes : List Byte} (h : s.returningAt c .get x a bytes) (ok : Bool) :
    exec (.returningDone c ok) s =
      .next { s with engine := ((s.engine.sent c a bytes ok).getReturned c ok).settle } :=
  congrArg Host.Outcome.next (returnEvent_eq h rfl ok _)

theorem exec_scanBatchDone {a : Nat} {bytes : List Byte} (h : s.returningAt c .scan x a bytes) (ok : Bool) :
    exec (.scanBatchDone c ok) s =
      .next { s with engine := ((s.engine.sent c a bytes ok).scanReturned c ok bytes.length).settle } :=
  congrArg Host.Outcome.next (returnEvent_eq h rfl ok _)

/-- What a transfer's end leaves: its bytes among the output, and a context without the transfer. -/
theorem sent_eq (h : e.ctxs[c]? = some x) (a : Nat) (bytes : List Byte) (ok : Bool) :
    e.sent c a bytes ok = (e.emit (if ok then .memory a bytes else .maybeMemory a bytes)).withCtx c
      { x with transfer := none } := by
  unfold Engine.sent
  rw [transferEnded_eq h]
  rfl

theorem sent_ctx (h : e.ctxs[c]? = some x) (a : Nat) (bytes : List Byte) (ok : Bool) :
    (e.sent c a bytes ok).ctxs[c]? = some { x with transfer := none } := by
  rw [sent_eq h]
  exact withCtx_get (e := e.emit _) h _

theorem complete_sent (h : e.ctxs[c]? = some x) (a : Nat) (bytes : List Byte) (ok : Bool) (o : JobOutcome) :
    (e.sent c a bytes ok).complete c o =
      (e.emit (if ok then .memory a bytes else .maybeMemory a bytes)).complete c o := by
  rw [sent_eq h]
  exact complete_withCtx (e := e.emit _) h x.state x.ready none o

theorem getReturned_sent (h : e.ctxs[c]? = some x) (a : Nat) (bytes : List Byte) (ok : Bool) :
    (e.sent c a bytes ok).getReturned c ok =
      (e.emit (if ok then .memory a bytes else .maybeMemory a bytes)).complete c
        (getOutcome (if ok then .ok else .hostError) x.found) := by
  unfold Engine.getReturned
  rw [Engine.ctx_of (sent_ctx h a bytes ok), complete_sent h]

theorem scanReturned_failed (h : e.ctxs[c]? = some x) (a : Nat) (bytes : List Byte) :
    (e.sent c a bytes false).scanReturned c false bytes.length =
      (e.emit (.maybeMemory a bytes)).complete c { status := .hostError } :=
  complete_sent h a bytes false _

theorem scanReturned_ended (h : e.ctxs[c]? = some x) (a : Nat) (bytes : List Byte) {k : Nat} (hk : x.scan.ended = some k) :
    (e.sent c a bytes true).scanReturned c true bytes.length =
      ((e.emit (.memory a bytes)).withCtx c { x with
        transfer := none, scan := { x.scan with written := x.scan.written + bytes.length } }).complete c
        { status := .ok, flags := { succeeded := true, found := 1 ≤ x.scan.count }, results := .scan k x.scan.count } := by
  simp only [Engine.scanReturned, if_true, Engine.ctx_of (sent_ctx h a bytes true), hk,
    modCtx_eq_withCtx (sent_ctx h a bytes true)]
  rw [sent_eq h, withCtx_withCtx]
  rfl

theorem scanReturned_resumes (h : e.ctxs[c]? = some x) (a : Nat) (bytes : List Byte) (hk : x.scan.ended = none) :
    (e.sent c a bytes true).scanReturned c true bytes.length =
      ((e.emit (.memory a bytes)).withCtx c { x with
        state := .taken, transfer := none
        scan := { x.scan with written := x.scan.written + bytes.length } }).scanStep c := by
  have hx := sent_ctx h a bytes true
  simp only [Engine.scanReturned, if_true, Engine.ctx_of hx, hk, modCtx_eq_withCtx hx,
    modCtx_eq_withCtx (withCtx_get hx _), withCtx_withCtx]
  rw [sent_eq h, withCtx_withCtx]
  rfl

end Transfers

/-- Settles O33: the write mode and the length decide each step, and the loaded value lets its job go on. -/
theorem aHostValueIsLoadedFirst : Obligations.AHostValueIsLoadedFirst := by
  refine ⟨fun s c x => ⟨fun h hm => ?_, fun h hm h0 => ?_, fun h hm h0 => ?_, fun h hm => ?_, fun h hm => ?_⟩,
    fun s c x h => ⟨fun h0 => ?_, fun h0 => ?_⟩,
    fun s c a n x bytes hon hh hx hs ht hn => ⟨fun hj => ?_, fun hj => ?_, ?_⟩⟩
  · rw [exec_put h, putStep_readOnly hm]
  · rw [exec_put h, putStep_empty (jobAt_ctxs h) hm h0]; rfl
  · rw [exec_put h, putStep_load (jobAt_ctxs h) hm h0]; rfl
  · rw [exec_delete h, deleteStep_readOnly hm]
  · rw [exec_delete h, deleteStep_writable hm]
  · rw [exec_matchValue h, matchStep_empty (jobAt_ctxs h) h0]; rfl
  · rw [exec_matchValue h, matchStep_load (jobAt_ctxs h) h0]; rfl
  · rw [exec_loadingDone hon hh hx hs ht, ← hn, loaded_put hx hj]; rfl
  · rw [exec_loadingDone hon hh hx hs ht, ← hn, loaded_match hx hj]; rfl
  · rw [exec_loadingDone hon hh hx hs ht, Engine.loaded, complete_transferEnded hx]

/-- Settles O38: each end of a transfer, for a GET by its success and for a SCAN by its success and its walk's end. -/
theorem aReturnedTransferCompletesItsJob : Obligations.AReturnedTransferCompletesItsJob := by
  intro s c x a bytes
  refine ⟨fun h => ?_, fun h => ?_⟩
  · obtain ⟨-, -, hx, -⟩ := id h
    constructor
    · rw [exec_returningDone h, getReturned_sent hx]; rfl
    · rw [exec_returningDone h, getReturned_sent hx]; rfl
  · obtain ⟨-, -, hx, -⟩ := id h
    refine ⟨?_, fun k hk => ?_, fun hk => ?_⟩
    · rw [exec_scanBatchDone h, scanReturned_failed hx]; rfl
    · rw [exec_scanBatchDone h, scanReturned_ended hx a bytes hk]; rfl
    · rw [exec_scanBatchDone h, scanReturned_resumes hx a bytes hk]; rfl

/-! ### Lookups (R17, R35, R37, R39) -/

section Lookups

variable {e : Engine} {c : Nat} {x : JobContext}

theorem noteLookup_eq (h : e.ctxs[c]? = some x) (b : Option EntryBody) :
    e.noteLookup c b = e.withCtx c { x with found := b } := modCtx_eq_withCtx h _

/-- A read of a location after the lookup that found it: the context in MEDIA, the pin, and the READ sent to its bank. -/
theorem readLocation_noteLookup (h : e.ctxs[c]? = some x) (b : Option EntryBody) (l : Location) :
    (e.noteLookup c b).readLocation c l =
      ({ e.withCtx c { x with found := b, state := .media, ready := false } with
        space := { e.space with segs := updAt e.space.segs l.seg fun g => { g with pins := g.pins + 1 } } } :
          Engine).enqueue
        { kind := .read, seg := l.seg, cell := l.cell, count := l.count, requester := .ctx c } := by
  unfold Engine.readLocation
  rw [noteLookup_eq h, modCtx_eq_withCtx (withCtx_get h _), withCtx_withCtx]
  rfl

theorem getLookup_notFound (h : e.ctxs[c]? = some x) (hb : (bodyKind (e.lookup x.key)).holds = false) :
    e.getLookup c =
      (e.withCtx c { x with found := e.lookup x.key }).complete c (getOutcome .notFound (e.lookup x.key)) := by
  simp only [Engine.getLookup, Engine.ctx_of h, noteLookup_eq h]
  split
  · next hv => rw [hv] at hb; cases hb
  · next hv => rw [hv] at hb; cases hb
  · rfl

theorem getLookup_lost (h : e.ctxs[c]? = some x) {l : Location} {r : Nat} {f : LossForm}
    (hb : e.lookup x.key = some (.lost l r f)) :
    e.getLookup c =
      (e.withCtx c { x with found := some (.lost l r f) }).complete c (getOutcome .damaged (some (.lost l r f))) := by
  simp only [Engine.getLookup, Engine.ctx_of h, hb, noteLookup_eq h]

section Value

variable {l : Location} {r len : Nat} (hb : e.lookup x.key = some (.value l r len))
include hb

theorem getLookup_short (h : e.ctxs[c]? = some x) (hl : Descriptor.length x.descriptor < len) :
    e.getLookup c =
      (e.withCtx c { x with found := some (.value l r len) }).complete c (getOutcome .shortBuffer (some (.value l r len))) := by
  simp [Engine.getLookup, Engine.ctx_of h, hb, noteLookup_eq h, hl]

theorem getLookup_empty (h : e.ctxs[c]? = some x) (hl : len = 0) :
    e.getLookup c =
      (e.withCtx c { x with found := some (.value l r len) }).complete c (getOutcome .ok (some (.value l r len))) := by
  simp [Engine.getLookup, Engine.ctx_of h, hb, noteLookup_eq h, hl]

theorem getLookup_reads (h : e.ctxs[c]? = some x) (h1 : 1 ≤ len) (hl : len ≤ Descriptor.length x.descriptor) :
    e.getLookup c = (e.noteLookup c (some (.value l r len))).readLocation c l := by
  have h0 : len ≠ 0 := Nat.one_le_iff_ne_zero.mp h1
  simp [Engine.getLookup, Engine.ctx_of h, hb, Nat.not_lt.mpr hl, h0]

theorem matchLookup_otherLength (h : e.ctxs[c]? = some x) (hl : len ≠ Descriptor.length x.descriptor) :
    e.matchLookup c =
      (e.withCtx c { x with found := some (.value l r len) }).complete c (matchOutcome .ok (some (.value l r len)) false) := by
  simp [Engine.matchLookup, Engine.ctx_of h, hb, noteLookup_eq h, hl]

theorem matchLookup_empty (h : e.ctxs[c]? = some x) (hl : len = Descriptor.length x.descriptor) (h0 : len = 0) :
    e.matchLookup c =
      (e.withCtx c { x with found := some (.value l r len) }).complete c (matchOutcome .ok (some (.value l r len)) true) := by
  simp [Engine.matchLookup, Engine.ctx_of h, hb, noteLookup_eq h, ← hl, h0]

theorem matchLookup_reads (h : e.ctxs[c]? = some x) (hl : len = Descriptor.length x.descriptor) (h1 : 1 ≤ len) :
    e.matchLookup c = (e.noteLookup c (some (.value l r len))).readLocation c l := by
  have h0 : len ≠ 0 := Nat.one_le_iff_ne_zero.mp h1
  simp [Engine.matchLookup, Engine.ctx_of h, hb, ← hl, h0]

end Value

theorem matchLookup_notFound (h : e.ctxs[c]? = some x) (hb : (bodyKind (e.lookup x.key)).holds = false) :
    e.matchLookup c =
      (e.withCtx c { x with found := e.lookup x.key }).complete c (matchOutcome .notFound (e.lookup x.key) false) := by
  simp only [Engine.matchLookup, Engine.ctx_of h, noteLookup_eq h]
  split
  · next hv => rw [hv] at hb; cases hb
  · next hv => rw [hv] at hb; cases hb
  · rfl

theorem matchLookup_lost (h : e.ctxs[c]? = some x) {l : Location} {r : Nat} {f : LossForm}
    (hb : e.lookup x.key = some (.lost l r f)) :
    e.matchLookup c =
      (e.withCtx c { x with found := some (.lost l r f) }).complete c
        (matchOutcome .damaged (some (.lost l r f)) false) := by
  simp only [Engine.matchLookup, Engine.ctx_of h, hb, noteLookup_eq h]

theorem entry_eq_none_iff (e : Engine) (key : Nat) : e.entry key = none ↔ ∀ t ∈ e.index.entries, t.key ≠ key := by
  simp [Engine.entry, findEntry]

theorem entry_mem {key : Nat} {t : Entry} (h : e.entry key = some t) : t ∈ e.index.entries ∧ t.key = key :=
  ⟨List.mem_of_find?_eq_some h, by simpa using List.find?_some h⟩

theorem keyKind_holds_iff (k : KeyKind) : k.holds = true ↔ k = .value ∨ k = .lost := by
  cases k <;> simp [KeyKind.holds]

end Lookups

/-- Settles O34, by the kind that the lookup returns. -/
theorem aGetReadsTheRecordItFound : Obligations.AGetReadsTheRecordItFound := by
  refine ⟨fun s c x h => ⟨_, rfl, fun hb => ?_, fun hb => ?_, fun l n hb => ?_, fun l n f hb => ?_, fun l n k hb =>
      ⟨fun hl => ?_, fun hk => ?_, fun h1 hl => ?_⟩⟩,
    fun e key => ⟨rfl, entry_eq_none_iff e key, fun _ => entry_mem⟩,
    fun l r n f b => ⟨⟨rfl, rfl, rfl, rfl⟩, ⟨rfl, rfl, rfl, rfl⟩, ⟨rfl, rfl, rfl, rfl⟩, ⟨rfl, rfl, rfl, rfl⟩, rfl, rfl, rfl,
      rfl⟩⟩
  all_goals
    have hx := jobAt_ctxs h
    rw [exec_get h]
  · rw [getLookup_notFound hx (by rw [hb]; rfl), hb]; rfl
  · rw [getLookup_notFound hx (by rw [hb]; rfl), hb]; rfl
  · rw [getLookup_notFound hx (by rw [hb]; rfl), hb]; rfl
  · rw [getLookup_lost hx hb, hb]; rfl
  · rw [getLookup_short hb hx hl, hb]; rfl
  · rw [getLookup_empty hb hx hk, hb, hk]; rfl
  · rw [getLookup_reads hb hx h1 hl, readLocation_noteLookup hx]; rfl

/-- Settles O35: a PROBE's outcome is the kind, the sequence and the length of its lookup. -/
theorem aProbeReportsItsLookup : Obligations.AProbeReportsItsLookup := by
  intro s c x h
  have hp : ∃ n k, lookupResults (s.engine.lookup x.key) = .record n k
      ∧ (s.engine.entry x.key = none → n = 0 ∧ k = 0)
      ∧ ∀ t, s.engine.entry x.key = some t → n = t.body.rseq ∧ k = t.body.len := by
    unfold Engine.lookup
    cases s.engine.entry x.key with
    | none => exact ⟨0, 0, rfl, fun _ => ⟨rfl, rfl⟩, nofun⟩
    | some t => exact ⟨t.body.rseq, t.body.len, rfl, nofun, fun u hu => by cases hu; exact ⟨rfl, rfl⟩⟩
  obtain ⟨n, k, hr, hnone, hsome⟩ := hp
  refine ⟨(bodyKind (s.engine.lookup x.key)).holds, bodyKind (s.engine.lookup x.key), n, k, ?_, keyKind_holds_iff _,
    fun ht => ?_, fun t ht => ?_⟩
  · rw [exec_probe h]
    simp only [Engine.probeStep, h.ctx, hr]
    rfl
  · exact ⟨by simp [Engine.lookup, ht, bodyKind], hnone ht⟩
  · have hk : bodyKind (s.engine.lookup x.key) = t.body.kind := by simp [Engine.lookup, ht, bodyKind]
    obtain ⟨rfl, rfl⟩ := hsome t ht
    rw [hk]
    refine ⟨fun hb => ?_, fun l r len hb => ?_, fun l r hb => ?_, fun l r f hb => ?_⟩ <;>
      exact hb ▸ ⟨rfl, rfl, rfl⟩

/-! ### What a read says (R99 to R102) -/

theorem headerVerdict_eq_valid_iff (cell : Nat) (o : CellOutcome) (h : RecordHeader) :
    headerVerdict cell o = .valid h ↔ ∃ d m, o = .good d m ∧ d.asHeader = some h ∧ h.inRange cell = true := by
  cases o with
  | blank => simp [headerVerdict]
  | uncorrectable => simp [headerVerdict]
  | good d m =>
    cases hd : d.asHeader with
    | none => simp [headerVerdict, hd]
    | some g =>
      have hv : headerVerdict cell (.good d m) = if g.inRange cell then .valid g else .invalid := by
        simp only [headerVerdict, hd]
      rw [hv]
      constructor
      · intro hg
        split at hg
        · next hr => cases hg; exact ⟨d, m, rfl, hd, hr⟩
        · cases hg
      · rintro ⟨d', m', hdm, hd', hr⟩
        cases hdm
        cases hd.symm.trans hd'
        exact if_pos hr

theorem isBlank_iff (o : CellOutcome) : o.isBlank = true ↔ o = .blank := by
  cases o <;> simp [CellOutcome.isBlank]

theorem isUncorrectable_iff (o : CellOutcome) : o.isUncorrectable = true ↔ o = .uncorrectable := by
  cases o <;> simp [CellOutcome.isUncorrectable]

/-- A value is INTACT exactly when it has no bytes, or every cell was read and the value check holds (R100). -/
theorem valueVerdict_eq_intact_iff (h : RecordHeader) (cells : List CellOutcome) :
    valueVerdict h cells = .intact ↔
      h.len = 0 ∨ (.blank ∉ cells ∧ .uncorrectable ∉ cells ∧ h.checks (valueBytes h.len cells) = true) := by
  have hb : cells.any CellOutcome.isBlank = true ↔ .blank ∈ cells := by simp [isBlank_iff]
  have hu : cells.any CellOutcome.isUncorrectable = true ↔ .uncorrectable ∈ cells := by simp [isUncorrectable_iff]
  simp only [valueVerdict, hb, hu]
  split
  · next h0 => simp [h0]
  · next h0 =>
    split
    · next hm => simp [h0, hm]
    · next hm =>
      split
      · next hn => simp [h0, hn]
      · next hn => simp [h0, hm, hn]

/-- READABLE, spelt out (R101). -/
theorem locationReadable_iff (l : Location) (key r len : Nat) (cells : List CellOutcome) :
    locationReadable l key r len cells = true ↔
      ∃ h d m rest, cells = .good d m :: rest ∧ d.asHeader = some h ∧ h.inRange l.cell = true ∧ h.kind = .value
        ∧ h.key = key ∧ h.rseq = r ∧ h.len = len ∧ h.cells = l.count
        ∧ (len = 0 ∨ (.blank ∉ rest ∧ .uncorrectable ∉ rest ∧ h.checks (valueBytes len rest) = true)) := by
  unfold locationReadable
  constructor
  · intro hr
    split at hr
    · next h hv =>
      simp only [Bool.and_eq_true, beq_iff_eq, valueVerdict_eq_intact_iff] at hr
      obtain ⟨⟨⟨⟨⟨hkind, hkey⟩, hseq⟩, hlen⟩, hcount⟩, hval⟩ := hr
      obtain ⟨d, m, hd, hh, hin⟩ := (headerVerdict_eq_valid_iff ..).mp hv
      cases cells with
      | nil => cases hd
      | cons o rest =>
        cases hd
        exact ⟨h, d, m, rest, rfl, hh, hin, hkind, hkey, hseq, hlen, hcount, hlen ▸ hval⟩
    · cases hr
  · rintro ⟨h, d, m, rest, rfl, hh, hin, hkind, hkey, hseq, rfl, hcount, hval⟩
    have hv : headerVerdict l.cell (.good d m) = .valid h := (headerVerdict_eq_valid_iff ..).mpr ⟨d, m, rfl, hh, hin⟩
    simp [hv, hkind, hkey, hseq, hcount, (valueVerdict_eq_intact_iff h rest).mpr hval]

/-- A read marks its segment weak by a cell that is UNCORRECTABLE, or CORRECTED at or above the threshold (R102). -/
theorem weakRead_iff (threshold : Nat) (cells : List CellOutcome) :
    weakRead threshold cells = true ↔
      .uncorrectable ∈ cells ∨ ∃ d m, .good d m ∈ cells ∧ 1 ≤ m ∧ threshold ≤ m := by
  simp only [weakRead, List.any_eq_true, Bool.or_eq_true, Bool.and_eq_true, decide_eq_true_eq, isUncorrectable_iff]
  constructor
  · rintro ⟨o, ho, rfl | ⟨h1, ht⟩⟩
    · exact .inl ho
    · cases o with
      | good d m => exact .inr ⟨d, m, ho, h1, ht⟩
      | blank => cases h1
      | uncorrectable => cases h1
  · rintro (ho | ⟨d, m, ho, h1, ht⟩)
    · exact ⟨_, ho, .inl rfl⟩
    · exact ⟨_, ho, .inr ⟨h1, ht⟩⟩

/-! ### Weak marks (R102, R109) -/

theorem inUse_iff (st : SegState) : st.inUse = true ↔ st.eligible = true ∨ st = .reclaiming := by
  simp [SegState.inUse]

theorem eligible_iff (st : SegState) : st.eligible = true ↔ st = .head ∨ st = .full ∨ st = .failedClosed := by
  cases st <;> simp [SegState.eligible]

/-- Whether a weak mark appends its segment to the refresh list (R109). -/
def joinsRefresh (e : Engine) (n : Nat) : Bool :=
  e.state != .mounting && (e.seg n).state.eligible && !e.reclaim.refresh.contains n
    && e.reclaim.refresh.length < refreshPlaces

theorem joinsRefresh_iff (e : Engine) (n : Nat) :
    joinsRefresh e n = true ↔
      e.state ≠ .mounting ∧ (e.seg n).state.eligible = true ∧ n ∉ e.reclaim.refresh ∧ e.reclaim.refresh.length < 8 := by
  simp [joinsRefresh, and_assoc, refreshPlaces]

/-- A weak mark is a change of its segment's record and a change of the Reclaim Unit, each made or not. -/
theorem weakMark_eq (e : Engine) (n : Nat) :
    e.weakMark n =
      { (if (e.seg n).state.inUse then e.modSeg n fun g => { g with weak := true } else e) with
        reclaim := if joinsRefresh e n then { e.reclaim with refresh := e.reclaim.refresh ++ [n], choiceDue := true }
          else e.reclaim } := by
  have hd : e.weakMark n =
      let e1 := if (e.seg n).state.inUse then e.modSeg n fun g => { g with weak := true } else e
      if joinsRefresh e n then
        { e1 with reclaim := { e1.reclaim with refresh := e1.reclaim.refresh ++ [n] } }.wantChoice
      else e1 := rfl
  rw [hd]
  cases (e.seg n).state.inUse <;> cases joinsRefresh e n <;> rfl

theorem weakMark_ctxs (e : Engine) (n : Nat) : (e.weakMark n).ctxs = e.ctxs := by
  rw [weakMark_eq]
  dsimp only
  split <;> rfl

theorem weakMark_requester (e : Engine) (n : Nat) : (e.weakMark n).reclaim.requester = e.reclaim.requester := by
  rw [weakMark_eq]
  dsimp only
  split <;> rfl

theorem markWeak_ctxs (e : Engine) (n : Nat) (weak : Bool) : (e.markWeak n weak).ctxs = e.ctxs := by
  cases weak
  · rfl
  · exact weakMark_ctxs e n

theorem markWeak_requester (e : Engine) (n : Nat) (weak : Bool) :
    (e.markWeak n weak).reclaim.requester = e.reclaim.requester := by
  cases weak
  · rfl
  · exact weakMark_requester e n

/-! ### An unpin answers the reclaim's requester at most (R64, R67, R69, R73, R130) -/

section Unpin

theorem addCause_ctxs (e : Engine) (cause : ModeCause) : (e.addCause cause).ctxs = e.ctxs := by
  unfold Engine.addCause
  split
  · rfl
  · dsimp only
    split <;> rfl

theorem addCause_requester (e : Engine) (cause : ModeCause) :
    (e.addCause cause).reclaim.requester = e.reclaim.requester := by
  unfold Engine.addCause
  split
  · rfl
  · dsimp only
    split <;> rfl

theorem formatCounts_ctxs (e : Engine) (n : Nat) (retired : Bool) : (e.formatCounts n retired).ctxs = e.ctxs := by
  unfold Engine.formatCounts
  split
  · dsimp only
    split <;> rfl
  · rfl

theorem formatCounts_requester (e : Engine) (n : Nat) (retired : Bool) :
    (e.formatCounts n retired).reclaim.requester = e.reclaim.requester := by
  unfold Engine.formatCounts
  split
  · dsimp only
    split <;> rfl
  · rfl

theorem complete_ctxs_ne (e : Engine) {c d : Nat} (h : c ≠ d) (o : JobOutcome) : (e.complete d o).ctxs[c]? = e.ctxs[c]? :=
  (updAt_get e.ctxs d c _).trans (if_neg h)

variable {e : Engine} {c : Nat}

theorem answerRequester_ctxs (hr : e.reclaim.requester ≠ some c) (st : Status) (ended : ReclaimEnd) :
    (e.answerRequester st ended).ctxs[c]? = e.ctxs[c]? := by
  unfold Engine.answerRequester
  split
  · rfl
  · next d hd =>
    have hcd : c ≠ d := by
      rintro rfl
      exact hr hd
    exact complete_ctxs_ne e hcd _

theorem victimEnded_ctxs (hr : e.reclaim.requester ≠ some c) (n : Nat) (ended : ReclaimEnd) :
    (e.victimEnded n ended).ctxs[c]? = e.ctxs[c]? := by
  unfold Engine.victimEnded
  split
  · exact answerRequester_ctxs hr .ok ended
  · rfl

theorem retireSegment_ctxs (hr : e.reclaim.requester ≠ some c) (n : Nat) (cause : RetireCause) (by_ : Requester) :
    (e.retireSegment n cause by_).ctxs[c]? = e.ctxs[c]? := by
  unfold Engine.retireSegment
  dsimp only
  rw [victimEnded_ctxs]
  · rw [formatCounts_ctxs]
    split
    · rw [addCause_ctxs]
      rfl
    · rfl
  · rw [formatCounts_requester]
    split
    · rw [addCause_requester]; exact hr
    · exact hr

theorem settleReleased_ctxs (hr : e.reclaim.requester ≠ some c) : e.settleReleased.ctxs[c]? = e.ctxs[c]? := by
  unfold Engine.settleReleased
  split
  · rfl
  · split
    · dsimp only
      split
      · exact retireSegment_ctxs (e := { e with space := { e.space with released := none } }) hr _ _ _
      · rfl
    · rfl

theorem queueErases_ctxs (e : Engine) (l : List Nat) : (l.foldl Engine.queueErase e).ctxs = e.ctxs := by
  induction l generalizing e with
  | nil => rfl
  | cons n l ih => exact ih (e.queueErase n)

theorem settlePinWait_ctxs (e : Engine) : e.settlePinWait.ctxs = e.ctxs := queueErases_ctxs _ _

/-- An unpin may release a victim or an erase that waited for it; of the contexts only the reclaim's requester can change. -/
theorem unpin_ctxs (hr : e.reclaim.requester ≠ some c) (n : Nat) : (e.unpin n).ctxs[c]? = e.ctxs[c]? := by
  unfold Engine.unpin
  dsimp only
  split
  · rw [settlePinWait_ctxs]
    exact settleReleased_ctxs (e := e.modSeg n fun g => { g with pins := g.pins - 1 }) hr
  · rfl

end Unpin

/-! ### The read of a GET or a MATCH (R36, R40, R104) -/

section Reads

variable {e : Engine} {c n len : Nat} {x : JobContext} {l : Location} {cells : List CellOutcome}

theorem readable_eq (hf : x.found = some (.value l n len)) :
    x.readable cells = locationReadable l x.key n len cells := by
  simp only [JobContext.readable, hf]

theorem foundLen_eq (hf : x.found = some (.value l n len)) : x.foundLen = len := by
  simp [JobContext.foundLen, hf, EntryBody.len]

/-- The report of a READ that a GET or a MATCH asked for: the weak mark, the unpin, then the job. -/
theorem readReported_of_ctx (h : e.ctxs[c]? = some x) (hj : x.job = some .get ∨ x.job = some .matchValue) {q : Request}
    (hq : q.requester = .ctx c) :
    e.readReported q cells =
      ((e.markWeak q.seg (weakRead e.control.limits.threshold cells || !x.readable cells)).unpin q.seg).ctxReadDone
        c q cells := by
  have hu : x.unreadable cells = !x.readable cells := by
    rcases hj with hj | hj <;> simp [JobContext.unreadable, hj]
  simp only [Engine.readReported, hq, Engine.ctx_of h, hu]

theorem getReadDone_readable (h : e.ctxs[c]? = some x) (hr : x.readable cells = true) :
    e.getReadDone c cells = e.withCtx c { x with
      staging := valueBytes x.foundLen cells.tail, state := .returning, ready := false
      transfer := some (.store (Descriptor.buffer x.descriptor) (valueBytes x.foundLen cells.tail)) } := by
  simp only [Engine.getReadDone, Engine.ctx_of h, hr, if_true]
  rw [modCtx_eq_withCtx h, beginTransfer_eq (withCtx_get h _), withCtx_withCtx]

theorem getReadDone_unreadable (h : e.ctxs[c]? = some x) (hr : x.readable cells = false) :
    e.getReadDone c cells = e.complete c (getOutcome .mediaError x.found) := by
  simp [Engine.getReadDone, Engine.ctx_of h, hr]

theorem matchReadDone_readable (h : e.ctxs[c]? = some x) (hr : x.readable cells = true) :
    e.matchReadDone c cells =
      e.complete c (matchOutcome .ok x.found (decide (valueBytes x.foundLen cells.tail = x.staging))) := by
  have hb : (valueBytes x.foundLen cells.tail == x.staging) = decide (valueBytes x.foundLen cells.tail = x.staging) := by
    rw [Bool.eq_iff_iff, beq_iff_eq, decide_eq_true_iff]
  simp [Engine.matchReadDone, Engine.ctx_of h, hr, hb]

theorem matchReadDone_unreadable (h : e.ctxs[c]? = some x) (hr : x.readable cells = false) :
    e.matchReadDone c cells = e.complete c (matchOutcome .mediaError x.found false) := by
  simp [Engine.matchReadDone, Engine.ctx_of h, hr]

theorem ctxReadDone_get (h : e.ctxs[c]? = some x) (hj : x.job = some .get) (q : Request) :
    e.ctxReadDone c q cells = e.getReadDone c cells := by
  simp only [Engine.ctxReadDone, Engine.ctx_of h, hj]

theorem ctxReadDone_match (h : e.ctxs[c]? = some x) (hj : x.job = some .matchValue) (q : Request) :
    e.ctxReadDone c q cells = e.matchReadDone c cells := by
  simp only [Engine.ctxReadDone, Engine.ctx_of h, hj]

end Reads

/-- Settles O36: the lookup of a MATCH by its kind; the read of a GET or MATCH through the weak mark and the unpin, which
leave its context alone; and the weak mark itself. -/
theorem aGetOrMatchTakesItsRead : Obligations.AGetOrMatchTakesItsRead := by
  refine ⟨fun e k c x hx hk => ?_, fun e c n len x q cells l ok hx hj hf hq hr hok => ?_,
    fun e n g eligible joins hg he hjoin => ?_⟩
  · subst hk
    refine ⟨fun hb => ?_, fun hb => ?_, fun l n hb => ?_, fun l n f hb => ?_, fun l n len hb =>
      ⟨fun hl => ?_, fun hl h0 => ?_, fun hl h1 => ?_⟩⟩
    · rw [matchLookup_notFound hx (by rw [hb]; rfl), hb]; rfl
    · rw [matchLookup_notFound hx (by rw [hb]; rfl), hb]; rfl
    · rw [matchLookup_notFound hx (by rw [hb]; rfl), hb]; rfl
    · rw [matchLookup_lost hx hb, hb]; rfl
    · rw [matchLookup_otherLength hb hx hl, hb]; rfl
    · rw [matchLookup_empty hb hx hl h0, hb, h0]; rfl
    · rw [matchLookup_reads hb hx hl h1, readLocation_noteLookup hx]
  · have hread : x.readable cells = ok := by
      rw [Bool.eq_iff_iff, hok, readable_eq hf, locationReadable_iff]
    have hweak : (weakRead e.control.limits.threshold cells || !ok) = true ↔ ok = false ∨ .uncorrectable ∈ cells
        ∨ ∃ d m, .good d m ∈ cells ∧ 1 ≤ m ∧ e.control.limits.threshold ≤ m := by
      rw [Bool.or_eq_true, weakRead_iff, Bool.not_eq_true', or_comm]
    have hrep := readReported_of_ctx (cells := cells) hx hj hq
    rw [hread] at hrep
    have hkx : ((e.markWeak q.seg (weakRead e.control.limits.threshold cells || !ok)).unpin q.seg).ctxs[c]? = some x := by
      rw [unpin_ctxs (by rw [markWeak_requester]; exact hr), markWeak_ctxs, hx]
    refine ⟨_, _, _, hweak, rfl, hkx, rfl, fun hg ht => ?_, fun hm ht => ?_, fun ht => ?_⟩
    · rw [hrep, ctxReadDone_get hkx hg, getReadDone_readable hkx (hread.trans ht), foundLen_eq hf]
      rfl
    · rw [hrep, ctxReadDone_match hkx hm, matchReadDone_readable hkx (hread.trans ht), foundLen_eq hf, hf]
      rfl
    · rcases hj with hg | hm
      · rw [hrep, ctxReadDone_get hkx hg, getReadDone_unreadable hkx (hread.trans ht), hf]
        rfl
      · rw [hrep, ctxReadDone_match hkx hm, matchReadDone_unreadable hkx (hread.trans ht), hf]
        rfl
  · have hs : (e.seg n).state = g.state := by rw [seg_of hg]
    have hel : eligible = (e.seg n).state.eligible := by rw [Bool.eq_iff_iff, he, hs, eligible_iff]
    have hjo : joins = joinsRefresh e n := by rw [Bool.eq_iff_iff, hjoin, joinsRefresh_iff, hel]
    rw [weakMark_eq, modSeg_eq_withSeg hg, hel, hjo, hs]
    simp only [inUse_iff]

/-! ### Chains (R47 to R49) -/

section Chains

variable {e : Engine} {c w : Nat} {x y : JobContext}

theorem proceed_verdict (h : e.ctxs[w]? = some y) {st : Status} (hv : y.verdict = some st) :
    e.proceed w = e.complete w { status := st } := by
  simp only [Engine.proceed, Engine.ctx_of h, hv]

/-- Whether a job's condition lets it run: it is no follower, or its condition holds of the chain flags (R48). -/
def mayRun (y : JobContext) (flags : OutcomeFlags) : Bool :=
  y.position < 2 || conditionPasses (Descriptor.condition y.descriptor) flags

theorem not_mayRun (y : JobContext) (flags : OutcomeFlags) :
    (2 ≤ y.position && !conditionPasses (Descriptor.condition y.descriptor) flags) = !mayRun y flags := by
  rw [mayRun, Bool.not_or, ← decide_not]
  simp only [Nat.not_lt]

theorem proceed_runs (h : e.ctxs[w]? = some y) (hv : y.verdict = none)
    (hp : mayRun y (e.ring y.ring).chain.flags = true) :
    e.proceed w = e.withCtx w { y with state := .taken, ready := true, predecessor := none } := by
  rw [← modCtx_eq_withCtx h fun y => { y with state := .taken, ready := true, predecessor := none }]
  simp only [Engine.proceed, Engine.ctx_of h, hv, not_mayRun, hp]
  rfl

theorem proceed_skips (h : e.ctxs[w]? = some y) (hv : y.verdict = none)
    (hp : mayRun y (e.ring y.ring).chain.flags = false) :
    e.proceed w = e.complete w { status := .skipped } := by
  simp only [Engine.proceed, Engine.ctx_of h, hv, not_mayRun, hp]
  rfl

theorem waiterOn_eq_none (h : ∀ y ∈ e.ctxs, y.state = .linkWait → y.predecessor ≠ some c) : e.waiterOn c = none := by
  rw [Engine.waiterOn, Option.map_eq_none_iff, List.find?_eq_none]
  rintro ⟨y, i⟩ hy
  have hm : y ∈ e.ctxs := List.fst_mem_of_mem_zipIdx hy
  simpa using h y hm

/-- The context that waits is the lowest-numbered one in LINK_WAIT with this predecessor. -/
theorem waiterOn_eq_some (hy : e.ctxs[w]? = some y) (hs : y.state = .linkWait) (hp : y.predecessor = some c)
    (first : ∀ v z, v < w → e.ctxs[v]? = some z → z.state = .linkWait → z.predecessor ≠ some c) :
    e.waiterOn c = some w := by
  obtain ⟨hw, hyw⟩ := List.getElem?_eq_some_iff.mp hy
  have hfind : e.ctxs.zipIdx.find? (fun p => p.1.state == .linkWait && p.1.predecessor == some c) = some (y, w) := by
    rw [List.find?_eq_some_iff_getElem]
    refine ⟨by simp [hs, hp], w, by simpa using hw, by simp [hyw], fun v hv => ?_⟩
    have hz := first v (e.ctxs[v]'(Nat.lt_trans hv hw)) hv (List.getElem?_eq_getElem _)
    rw [List.getElem_zipIdx, Bool.not_eq_true', Bool.and_eq_false_imp]
    exact fun hs => beq_eq_false_iff_ne.mpr (hz (eq_of_beq hs))
  rw [Engine.waiterOn, hfind]
  rfl

/-- The engine with the chain state of ring `r`, which is `g`, after the done record of the job in context `c` with outcome
`o` (R47). -/
def chainMoved (e : Engine) (r : Nat) (g : RingContext) (c : Nat) (o : JobOutcome) : Engine :=
  { e with rings := e.rings.set r { g with chain := { g.chain with
      flags := chainFlagsAfter o g.chain.flags
      predecessor := if g.chain.predecessor = some c then none else g.chain.predecessor } } }

theorem chainMoved_flags {r : Nat} {g : RingContext} (hg : e.rings[r]? = some g) (o : JobOutcome) :
    ((chainMoved e r g c o).ring r).chain.flags = chainFlagsAfter o g.chain.flags := by
  rw [Engine.ring_of (e := chainMoved e r g c o) (set_there hg _)]

variable {g : RingContext} (h : e.ctxs[c]? = some x) (hg : e.rings[x.ring]? = some g)
include h hg

theorem chainWritten_still (hp : x.position = 0 ∨ g.state = .faulted) : e.chainWritten c = e := by
  simp only [Engine.chainWritten, Engine.ctx_of h, Engine.ring_of hg]
  exact if_pos (by simpa using hp)

/-- The ring's chain state changes, and the job that waits, if there is one, goes on. -/
theorem chainWritten_moves (hp : 1 ≤ x.position) (hf : g.state ≠ .faulted) :
    e.chainWritten c = ((chainMoved e x.ring g c x.outcome).waiterOn c).elim (chainMoved e x.ring g c x.outcome)
      (chainMoved e x.ring g c x.outcome).proceed := by
  have hn : ¬ (x.position = 0 || g.state == .faulted) = true := by simpa using ⟨Nat.one_le_iff_ne_zero.mp hp, hf⟩
  have hm : (e.modRing x.ring fun g => { g with chain := { g.chain with
      flags := chainFlagsAfter x.outcome g.chain.flags
      predecessor := if g.chain.predecessor = some c then none else g.chain.predecessor } }) =
      chainMoved e x.ring g c x.outcome := Engine.modRing_set hg _
  simp only [Engine.chainWritten, Engine.ctx_of h, Engine.ring_of hg, if_neg hn, hm]
  cases (chainMoved e x.ring g c x.outcome).waiterOn c <;> rfl

theorem chainWritten_alone (hp : 1 ≤ x.position) (hf : g.state ≠ .faulted)
    (hno : ∀ y ∈ e.ctxs, y.state = .linkWait → y.predecessor ≠ some c) :
    e.chainWritten c = chainMoved e x.ring g c x.outcome := by
  rw [chainWritten_moves h hg hp hf, waiterOn_eq_none (e := chainMoved e x.ring g c x.outcome) hno]
  rfl

theorem chainWritten_releases (hp : 1 ≤ x.position) (hf : g.state ≠ .faulted)
    (hy : e.ctxs[w]? = some y) (hs : y.state = .linkWait) (hpr : y.predecessor = some c)
    (first : ∀ v z, v < w → e.ctxs[v]? = some z → z.state = .linkWait → z.predecessor ≠ some c) :
    e.chainWritten c = (chainMoved e x.ring g c x.outcome).proceed w := by
  rw [chainWritten_moves h hg hp hf, waiterOn_eq_some (e := chainMoved e x.ring g c x.outcome) hy hs hpr first]
  rfl

end Chains

/-- Settles O44, by the context that waits for the job and what it may do. -/
theorem aChainGoesOn : Obligations.AChainGoesOn := by
  intro e c x g hx hg
  refine ⟨chainWritten_still hx hg, fun hp hf => ⟨chainFlagsAfter x.outcome g.chain.flags,
    chainMoved e x.ring g c x.outcome, rfl, rfl, chainWritten_alone hx hg hp hf, fun w y passes hy hs hpr hring first
    hpass => ?_⟩⟩
  have hky : (chainMoved e x.ring g c x.outcome).ctxs[w]? = some y := hy
  have hrun : passes = mayRun y ((chainMoved e x.ring g c x.outcome).ring y.ring).chain.flags := by
    rw [hpass, hring, chainMoved_flags hg, mayRun]
    congr 1
    generalize Descriptor.condition y.descriptor = n
    rcases n with _ | _ | _ | _ | _ | _ | _ | n <;> simp [conditionPasses]
  rw [chainWritten_releases hx hg hp hf hy hs hpr first]
  exact ⟨fun st hv => proceed_verdict hky hv, fun hv ht => proceed_runs hky hv (hrun.symm.trans ht),
    fun hv ht => proceed_skips hky hv (hrun.symm.trans ht)⟩

end Sys2Proof.Machine.DataJobs
end


section
/-! PROOFS. Segments and space (chapter 3): what a command can do to the cell array, then one reasoning rule per operation of
the Space Manager (placement, the wait queue, the failure of a program, retirement, release), and the statements made of
them. -/

-- One theorem at a time: see Laws/Moves.lean.
set_option Elab.async false

namespace Sys2Proof.Machine.SegmentSpace

open Sys2Proof

/-! ### What a command can do to the array (R54, R78, R86, R88, R96) -/

/-- The arrays that the end of a PROGRAM or an ERASE can leave. -/
def WorkEnded (s : State) (a : CellArray) : Prop :=
  ∃ (b : Nat) (o : Operation) (pass : Bool), a = (s.endProgram b o pass).array ∨ a = (s.endErase b o pass).array

/-- What a command can do to the array: nothing, the end of a PROGRAM or an ERASE, or the cut of a reset. -/
inductive ArrayEffect (c : Instr) (s : State) (a : CellArray) : Prop
  | kept (h : a = s.array)
  | worked (hc : c.endsWork = true) (h : WorkEnded s a)
  | cut (hc : c.isReset) (h : a = s.array.cutAll s.engine.draws s.engine.startedOps)

theorem endProgram_wf {s : State} (h : s.array.wf) (b : Nat) (o : Operation) (pass : Bool) :
    (s.endProgram b o pass).array.wf := by
  cases pass with
  | false => exact CellArray.failRequest_wf h _ _
  | true => exact CellArray.program_wf h _ _

theorem endErase_wf {s : State} (h : s.array.wf) (b : Nat) (o : Operation) (pass : Bool) :
    (s.endErase b o pass).array.wf := by
  cases pass with
  | false => exact CellArray.partialErase_wf h _ _
  | true => exact CellArray.erase_wf h _

theorem endOp_worked (s : State) (b : Nat) (o : Operation) (pass : Bool) : WorkEnded s (s.endOp b o pass).array := by
  unfold State.endOp
  split
  · exact ⟨b, o, pass, .inr rfl⟩
  · exact ⟨b, o, pass, .inl rfl⟩

/-- Whatever a command does to an array in canonical form, it stays in canonical form. -/
theorem ArrayEffect.wf {c : Instr} {s : State} {a : CellArray} (k : ArrayEffect c s a) (h : s.array.wf) : a.wf := by
  cases k with
  | kept ha => exact ha ▸ h
  | worked _ ha =>
    obtain ⟨b, o, pass, rfl | rfl⟩ := ha
    · exact endProgram_wf h b o pass
    · exact endErase_wf h b o pass
  | cut _ ha => exact ha ▸ CellArray.cutAll_wf h _ _

section Effects

variable {c : Instr} {s t : State}

theorem effect_of_withEngine {f : Engine → Engine}
    (h : (Host.Outcome.next (s.withEngine f) : Host.Outcome State Fault Refusal) = .next t) : ArrayEffect c s t.array := by
  cases h
  exact .kept (State.withEngine_array s f)

theorem effect_of_whenOn {f : State → State}
    (h : (Host.Outcome.next (s.whenOn f) : Host.Outcome State Fault Refusal) = .next t)
    (hf : ArrayEffect c s (f s).array) : ArrayEffect c s t.array := by
  cases h
  unfold State.whenOn
  split
  · exact hf
  · exact .kept rfl

theorem effect_of_onActive {b : Nat} {op : MediaOp} {f : Operation → State} (hf : ∀ o, ArrayEffect c s (f o).array) :
    ArrayEffect c s (s.onActive b op f).array := by
  obtain h | ⟨o, -, h⟩ := s.onActive_cases b op f
  · exact .kept (congrArg State.array h)
  · exact h ▸ hf o

theorem effect_of_suspendReported (b : Nat) (x : SuspendOutcome) :
    ArrayEffect (.suspendReport b x) s (s.suspendReported b x).array := by
  unfold State.suspendReported
  split
  · exact .kept rfl
  · next o _ =>
    cases x with
    | tookEffect => exact .kept rfl
    | endedWithPass => exact .worked rfl (endOp_worked s b o true)
    | endedWithFail => exact .worked rfl (endOp_worked s b o false)

/-- Of the register writes only one of CONTROL with ENGINE_RESET reaches the array. -/
theorem effect_of_writeRegister (offset width : Nat) (value : BitVec 32) :
    ArrayEffect (.registerWrite offset width value) s (s.writeRegister offset width value).array := by
  unfold State.writeRegister
  split
  · exact .kept rfl
  next hw =>
    split
    · next ho =>
      unfold State.writeControl
      split
      · next hb => exact .cut (.inr (.inr (.inr (.inr (.inr ⟨ho, Decidable.not_not.mp hw, hb⟩))))) rfl
      · split <;> exact .kept rfl
    · split
      · exact .kept rfl
      · split
        · exact .kept rfl
        · split <;> exact .kept rfl

/-- Of all commands only the ends of PROGRAMs and ERASEs, and the resets, reach the array. -/
theorem exec_arrayEffect (h : exec c s = .next t) : ArrayEffect c s t.array := by
  cases c with
  | engineReset => exact effect_of_whenOn h (.cut (.inl rfl) rfl)
  | linkReset => exact effect_of_whenOn h (.cut (.inr (.inl rfl)) rfl)
  | coldReset => cases h; exact .cut (.inr (.inr (.inl rfl))) rfl
  | powerLoss => cases h; exact .cut (.inr (.inr (.inr (.inr (.inl rfl))))) rfl
  | resetInputAsserted =>
    cases h
    split
    · exact .kept rfl
    · exact .cut (.inr (.inr (.inr (.inl rfl)))) rfl
  | registerWrite offset width value => exact effect_of_whenOn h (effect_of_writeRegister offset width value)
  | suspendReport b x => exact effect_of_whenOn h (effect_of_suspendReported b x)
  | readDone b flips => exact effect_of_whenOn h (effect_of_onActive fun _ => .kept rfl)
  | blankCheckDone b disturbed => exact effect_of_whenOn h (effect_of_onActive fun _ => .kept rfl)
  | programDone b pass => exact effect_of_whenOn h (effect_of_onActive fun o => .worked rfl ⟨b, o, pass, .inl rfl⟩)
  | programTimeout b => exact effect_of_whenOn h (effect_of_onActive fun o => .worked rfl ⟨b, o, false, .inl rfl⟩)
  | eraseDone b pass => exact effect_of_whenOn h (effect_of_onActive fun o => .worked rfl ⟨b, o, pass, .inr rfl⟩)
  | eraseTimeout b => exact effect_of_whenOn h (effect_of_onActive fun o => .worked rfl ⟨b, o, false, .inr rfl⟩)
  | _ => exact effect_of_withEngine h

end Effects

theorem tick_array (s : State) : s.tick.array = s.array := by
  unfold State.tick
  split <;> rfl

/-- Settles O5, from the one list of what a command can do to the array. -/
theorem everyStepKeepsTheArrayForm : Obligations.EveryStepKeepsTheArrayForm := by
  refine ⟨fun s t h hw => ?_, fun c s t h hc hr => ?_⟩
  · unfold step at h
    split at h
    · cases h
      exact (tick_array s).symm ▸ hw
    · exact (exec_arrayEffect h).wf hw
  · cases exec_arrayEffect h with
    | kept ha => exact ha
    | worked hc' _ => exact absurd hc' (hc ▸ Bool.false_ne_true)
    | cut hr' _ => exact absurd hr' hr

/-! ### The end of an ERASE (R68, R78, R88, R93) -/

/-- An operation that a bank is ACTIVE with is the one an end report of its kind finds. -/
theorem onActive_of_activeAt {s : State} {b : Nat} {op : MediaOp} {o : Operation} (h : s.activeAt b op o)
    (f : Operation → State) : s.onActive b op f = f o := by
  obtain ⟨-, -, hs, ha, ho⟩ := h
  simp [State.onActive, Engine.activeOp, hs, ha, ho]

section EraseEnds

variable {s : State} {b : Nat} {o : Operation}

theorem exec_eraseDone (h : s.activeAt b .erase o) (pass : Bool) :
    exec (.eraseDone b pass) s = .next (s.endErase b o pass) := by
  obtain ⟨hon, -⟩ := id h
  exact congrArg Host.Outcome.next ((State.whenOn_on s _ hon).trans (onActive_of_activeAt h _))

theorem exec_eraseTimeout : exec (.eraseTimeout b) s = exec (.eraseDone b false) s := rfl

theorem inSegment_iff (seg n : Nat) : inSegment seg n = true ↔ 2048 * seg ≤ n ∧ n < 2048 * (seg + 1) := by
  simp [inSegment, cellsPerSegment]

theorem inSegment_eq_false {seg n : Nat} (h : n < 2048 * seg ∨ 2048 * (seg + 1) ≤ n) : inSegment seg n = false := by
  rw [← Bool.not_eq_true, inSegment_iff]
  omega

end EraseEnds

/-- Settles O16, from what an erase that passed, and one that failed, leaves of each cell. -/
theorem anEraseEndReachesOnlyItsSegment : Obligations.AnEraseEndReachesOnlyItsSegment := by
  refine ⟨fun s b o h => ⟨_, exec_eraseDone h true, rfl, rfl, rfl, fun n hl hu => ?_, fun n hn => ?_⟩,
    fun s b o hw h => ⟨exec_eraseTimeout, _, exec_eraseDone h false, rfl, rfl, rfl, fun n hn => ?_, ?_⟩⟩
  · exact CellArray.get_erase_in _ n ((inSegment_iff _ n).mpr ⟨hl, hu⟩)
  · exact CellArray.get_erase_out _ n (inSegment_eq_false hn)
  · exact CellArray.get_partialErase_out _ _ n (inSegment_eq_false hn)
  · exact CellArray.partialErase_format hw _ _

/-! ### Choosing among the items of a table -/

/-- The first item of a table that a test picks, by its number. -/
theorem find?_zipIdx_eq_some_iff {α : Type} {l : List α} {p : α × Nat → Bool} {n : Nat} :
    (l.zipIdx.find? p).map (·.2) = some n ↔
      (∃ a, l[n]? = some a ∧ p (a, n) = true) ∧ ∀ m, m < n → ∀ a, l[m]? = some a → p (a, m) = false := by
  simp only [Option.map_eq_some_iff, List.find?_eq_some_iff_getElem, List.length_zipIdx, List.getElem_zipIdx,
    Nat.zero_add, Bool.not_eq_true']
  constructor
  · rintro ⟨a, ⟨hp, i, hi, rfl, hmin⟩, rfl⟩
    refine ⟨⟨l[i], List.getElem?_eq_getElem hi, hp⟩, fun m hm a ha => ?_⟩
    obtain ⟨_, rfl⟩ := List.getElem?_eq_some_iff.mp ha
    exact hmin m hm
  · rintro ⟨⟨a, ha, hp⟩, hmin⟩
    obtain ⟨hi, rfl⟩ := List.getElem?_eq_some_iff.mp ha
    exact ⟨(l[n], n), ⟨hp, n, hi, rfl, fun m hm => hmin m hm _ (List.getElem?_eq_getElem _)⟩, rfl⟩

/-- The best item so far, after one more. -/
def betterOf {α : Type} (better : α → α → Bool) (best : Option α) (a : α) : Option α :=
  match best with
  | none => some a
  | some b => if better a b then some a else some b

theorem bestOf_eq_foldl {α : Type} (better : α → α → Bool) (l : List α) :
    bestOf better l = l.foldl (betterOf better) none := rfl

section Best

variable {α : Type} {better : α → α → Bool} {a : α}

/-- An item that beats the best so far becomes it. -/
theorem betterOf_wins {best : Option α} (h : ∀ b ∈ best, b ≠ a → better a b = true) : betterOf better best a = some a := by
  cases best with
  | none => rfl
  | some b =>
    by_cases hb : b = a
    · subst hb; exact ite_self _
    · exact if_pos (h b rfl hb)

/-- The best after one more item is the best so far or that item. -/
theorem betterOf_mem {best : Option α} {x b : α} (h : b ∈ betterOf better best x) : b ∈ best ∨ b = x := by
  cases best with
  | none => exact .inr (Option.some.inj h).symm
  | some c =>
    simp only [betterOf] at h
    split at h
    · exact .inr (Option.some.inj h).symm
    · exact .inl h

/-- An item that beats every other one, and that none beats, is the best of what follows once it has come. -/
theorem foldl_betterOf {l : List α} {best : Option α}
    (hl : ∀ b ∈ l, b ≠ a → better a b = true ∧ better b a = false) (hbest : ∀ b ∈ best, b ≠ a → better a b = true)
    (hin : a ∈ l ∨ best = some a) : l.foldl (betterOf better) best = some a := by
  induction l generalizing best with
  | nil => exact hin.resolve_left List.not_mem_nil
  | cons x l ih =>
    have hx := hl x List.mem_cons_self
    refine ih (fun b hb => hl b (List.mem_cons_of_mem _ hb)) (fun b hb hne => ?_) ?_
    · rcases betterOf_mem hb with hb | rfl
      · exact hbest b hb hne
      · exact (hx hne).1
    · by_cases hxa : x = a
      · subst hxa; exact .inr (betterOf_wins hbest)
      · refine hin.imp (fun h => (List.mem_cons.mp h).resolve_left (Ne.symm hxa)) ?_
        rintro rfl
        exact if_neg (Bool.eq_false_iff.mp (hx hxa).2)

theorem bestOf_eq_some {l : List α} (ha : a ∈ l) (hb : ∀ b ∈ l, b ≠ a → better a b = true ∧ better b a = false) :
    bestOf better l = some a :=
  (bestOf_eq_foldl better l).trans (foldl_betterOf hb (fun _ h => nomatch h) (.inl ha))

end Best

/-! ### What a placement leaves alone -/

/-- What a job that asked for a placement reads after it, unchanged: the contexts, the clock and the limits. -/
structure Placing (e k : Engine) : Prop where
  ctxs : k.ctxs = e.ctxs := by rfl
  now : k.now = e.now := by rfl
  limits : k.control.limits = e.control.limits := by rfl

theorem Placing.trans {a b c : Engine} (h : Placing a b) (k : Placing b c) : Placing a c :=
  ⟨k.ctxs.trans h.ctxs, k.now.trans h.now, k.limits.trans h.limits⟩

section Level

variable (e : Engine)

theorem spaceTest_placing : Placing e e.spaceTest := by
  unfold Engine.spaceTest
  dsimp only
  split
  · exact {}
  · split <;> split <;> exact {}

theorem spaceTest_segs : e.spaceTest.space.segs = e.space.segs := by
  unfold Engine.spaceTest
  dsimp only
  split
  · rfl
  · split <;> split <;> rfl

theorem addCause_placing (cause : ModeCause) : Placing e (e.addCause cause) := by
  unfold Engine.addCause
  dsimp only
  split
  · exact {}
  · split <;> exact {}

theorem addCause_space (cause : ModeCause) : (e.addCause cause).space = e.space := by
  unfold Engine.addCause
  dsimp only
  split
  · rfl
  · split <;> rfl

end Level

/-! ### Heads (R58, R60, R62) -/

section Heads

variable {e : Engine} {n : Nat}

/-- A segment taken as a head: its record and the counter, its open-cell program, and the space event test (R5, R58). -/
def headOpened (e : Engine) (n : Nat) (g : SegRecord) (role : HeadRole) : Engine :=
  (({ e with space := { e.space with
      segs := e.space.segs.set n { g with state := .head, role := some role, sseq := some e.space.segSeq }
      segSeq := e.space.segSeq + 1 } } : Engine).enqueue
    { kind := role.openKind, seg := n, cell := 1, count := 1, requester := .space
      contents := [.opened e.space.segSeq] }).spaceTest

variable {g : SegRecord} (hg : e.space.segs[n]? = some g)
include hg

theorem openHead_eq (role : HeadRole) :
    e.openHead n role = if e.space.segSeq + 1 = 2 ^ 32 then (headOpened e n g role).addCause .segmentSequence
      else headOpened e n g role := by
  simp only [Engine.openHead, DataJobs.modSeg_eq_withSeg hg]
  rfl

theorem openHead_seg (role : HeadRole) :
    (e.openHead n role).space.segs[n]? = some { g with state := .head, role := some role, sseq := some e.space.segSeq } := by
  have ho : (headOpened e n g role).space.segs[n]? =
      some { g with state := .head, role := some role, sseq := some e.space.segSeq } := by
    unfold headOpened
    rw [spaceTest_segs]
    exact set_there hg _
  rw [openHead_eq hg]
  split
  · rw [addCause_space, ho]
  · exact ho

end Heads

theorem openHead_placing (e : Engine) (n : Nat) (role : HeadRole) : Placing e (e.openHead n role) := by
  unfold Engine.openHead
  dsimp only
  have ht {k : Engine} (h : Placing e k) : Placing e k.spaceTest := h.trans (spaceTest_placing k)
  split
  · exact (ht {}).trans (addCause_placing _ _)
  · exact ht {}

/-! ### The free pool (R57) -/

section Pool

variable {e : Engine}

/-- Whether a segment of the table is in the pool, and in the bank when one is given. -/
def inPool (bank : Option Nat) (p : SegRecord × Nat) : Bool := p.1.state == .free && bank.all (bankOf p.2 == ·)

theorem inPool_iff {bank : Option Nat} {g : SegRecord} {n : Nat} :
    inPool bank (g, n) = true ↔ g.state = .free ∧ ∀ b, bank = some b → n / 128 = b := by
  simp [inPool, bankOf, Option.all_eq_true]

theorem poolFirst_eq (e : Engine) (bank : Option Nat) :
    e.poolFirst bank = (bestOf poolBefore (e.segTable.filter (inPool bank))).map (·.2) := by
  cases bank <;> rfl

theorem poolFirst_eq_none {bank : Option Nat}
    (h : ∀ n g, e.space.segs[n]? = some g → g.state = .free → ∃ b, bank = some b ∧ n / 128 ≠ b) :
    e.poolFirst bank = none := by
  have hf : e.segTable.filter (inPool bank) = [] := by
    rw [List.filter_eq_nil_iff]
    rintro ⟨g, n⟩ hm hp
    obtain ⟨hs, hb⟩ := inPool_iff.mp hp
    obtain ⟨b, hbank, hne⟩ := h n g (List.mem_zipIdx_iff_getElem?.mp hm) hs
    exact hne (hb b hbank)
  rw [poolFirst_eq, hf]
  rfl

/-- Of two segments the pool puts the one with the lower erase count first, and of equal counts the lower number. -/
theorem poolBefore_iff (a b : SegRecord × Nat) :
    poolBefore a b = true ↔ a.1.eraseCount < b.1.eraseCount ∨ (a.1.eraseCount = b.1.eraseCount ∧ a.2 < b.2) := by
  simp [poolBefore]

/-- The first of the pool has the lowest erase count, and of those the lowest number (R57). -/
theorem poolFirst_eq_some {bank : Option Nat} {n : Nat} {g : SegRecord} (hg : e.space.segs[n]? = some g)
    (hs : g.state = .free) (hb : ∀ b, bank = some b → n / 128 = b)
    (first : ∀ m h, e.space.segs[m]? = some h → h.state = .free → (∀ b, bank = some b → m / 128 = b) → m ≠ n →
      g.eraseCount < h.eraseCount ∨ (g.eraseCount = h.eraseCount ∧ n < m)) :
    e.poolFirst bank = some n := by
  have hbest : bestOf poolBefore (e.segTable.filter (inPool bank)) = some (g, n) := by
    refine bestOf_eq_some (List.mem_filter.mpr ⟨List.mem_zipIdx_iff_getElem?.mpr hg, inPool_iff.mpr ⟨hs, hb⟩⟩) ?_
    rintro ⟨h, m⟩ hm hne
    obtain ⟨hm, hp⟩ := List.mem_filter.mp hm
    have hh : e.space.segs[m]? = some h := List.mem_zipIdx_iff_getElem?.mp hm
    obtain ⟨hf, hbm⟩ := inPool_iff.mp hp
    have hmn : m ≠ n := by
      rintro rfl
      exact hne (congrArg (·, m) (Option.some.inj (hh.symm.trans hg)))
    have hlt := first m h hh hf hbm hmn
    simp only [← Bool.not_eq_true (poolBefore (h, m) (g, n)), poolBefore_iff]
    omega
  rw [poolFirst_eq, hbest]
  rfl

end Pool

theorem headOf_eq_some_iff (e : Engine) (role : HeadRole) (bank : Option Nat) (n : Nat) :
    e.headOf role bank = some n ↔
      (∃ g, e.space.segs[n]? = some g ∧ g.state = .head ∧ g.role = some role ∧ ∀ b, bank = some b → n / 128 = b)
      ∧ ∀ m, m < n → ¬ ∃ g, e.space.segs[m]? = some g ∧ g.state = .head ∧ g.role = some role
        ∧ ∀ b, bank = some b → m / 128 = b := by
  unfold Engine.headOf Engine.segTable
  rw [find?_zipIdx_eq_some_iff]
  cases bank <;> simp [bankOf, and_assoc]

/-! ### Reserving cells (R59, R60) -/

section Placement

variable {e : Engine} {b k n : Nat}

theorem le_cellsLeft_iff (g : SegRecord) (hk : 1 ≤ k) : k ≤ g.cellsLeft ↔ g.writePtr + k ≤ 2047 := by
  show k ≤ 2047 - g.writePtr ↔ _
  omega

theorem reserve_placing (e : Engine) (n k : Nat) : Placing e (e.reserve n k).1 := {}

theorem placeInNewHead_placing (e : Engine) (b k : Nat) : Placing e (e.placeInNewHead b k).1 := by
  unfold Engine.placeInNewHead
  split
  · exact (openHead_placing _ _ _).trans (reserve_placing _ _ _)
  · exact {}

theorem placeInBank_placing (e : Engine) (b k : Nat) : Placing e (e.placeInBank b k).1 := by
  unfold Engine.placeInBank
  split
  · next n _ =>
    split
    · exact reserve_placing _ _ _
    · have hc : Placing e (e.closeHead n) := {}
      exact hc.trans (placeInNewHead_placing _ _ _)
  · exact placeInNewHead_placing _ _ _

theorem placeInBanks_placing (e : Engine) (k : Nat) (bs : List Nat) : Placing e (e.placeInBanks k bs).1 := by
  induction bs generalizing e with
  | nil => exact {}
  | cons b bs ih =>
    have hb := placeInBank_placing e b k
    unfold Engine.placeInBanks
    split
    · next h => rw [h] at hb; exact hb.trans {}
    · next h => rw [h] at hb; exact hb.trans (ih _)

theorem placeHost_placing {m : Engine} {l : Option Location} (h : e.placeHost k = (m, l)) : Placing e m := by
  have hp := placeInBanks_placing e k e.bankOrder
  rwa [show e.placeInBanks k e.bankOrder = (m, l) from h] at hp

theorem placeInBanks_none {bs : List Nat} {m : Engine} (h : e.placeInBank b k = (m, none)) :
    e.placeInBanks k (b :: bs) = m.placeInBanks k bs := by
  rw [Engine.placeInBanks, h]

theorem placeInBanks_some {bs : List Nat} {m : Engine} {l : Location} (h : e.placeInBank b k = (m, some l)) :
    e.placeInBanks k (b :: bs) = ({ m with space := { m.space with rotation := b } }, some l) := by
  rw [Engine.placeInBanks, h]

theorem placeInBank_room (hn : e.headOf .host (some b) = some n) (hr : k ≤ (e.seg n).cellsLeft) :
    e.placeInBank b k = ((e.reserve n k).1, some (e.reserve n k).2) := by
  simp only [Engine.placeInBank, hn, if_pos hr]

theorem placeInBank_full (hn : e.headOf .host (some b) = some n) (hr : ¬ k ≤ (e.seg n).cellsLeft) :
    e.placeInBank b k = (e.closeHead n).placeInNewHead b k := by
  simp only [Engine.placeInBank, hn, if_neg hr]

theorem placeInBank_noHead (hn : e.headOf .host (some b) = none) : e.placeInBank b k = e.placeInNewHead b k := by
  simp only [Engine.placeInBank, hn]

theorem placeReclaim_room (hn : e.headOf .reclaim none = some n) (hr : k ≤ (e.seg n).cellsLeft) :
    e.placeReclaim k = ((e.reserve n k).1, some (e.reserve n k).2) := by
  simp only [Engine.placeReclaim, hn, if_pos hr]

theorem placeReclaim_full (hn : e.headOf .reclaim none = some n) (hr : ¬ k ≤ (e.seg n).cellsLeft) :
    e.placeReclaim k = (e.closeHead n).placeInNewReclaimHead k := by
  simp only [Engine.placeReclaim, hn, if_neg hr]

theorem placeReclaim_noHead (hn : e.headOf .reclaim none = none) : e.placeReclaim k = e.placeInNewReclaimHead k := by
  simp only [Engine.placeReclaim, hn]

/-- No host head is opened in a bank while the counter is exhausted, with fewer than 3 segments FREE, or with none FREE in
it (R58). -/
theorem placeInNewHead_none (h : e.space.segSeq = 2 ^ 32 ∨ e.freeCount < 3
    ∨ ∀ n g, e.space.segs[n]? = some g → g.state = .free → n / 128 ≠ b) : e.placeInNewHead b k = (e, none) := by
  have hc : e.hostHeadCandidate b = none := by
    unfold Engine.hostHeadCandidate
    split
    · rfl
    · next hn =>
      simp only [Bool.or_eq_true, decide_eq_true_eq, not_or] at hn
      exact poolFirst_eq_none fun n g hg hs => ⟨b, rfl, (h.resolve_left hn.1).resolve_left hn.2 n g hg hs⟩
  simp only [Engine.placeInNewHead, hc]

theorem placeInNewReclaimHead_none (h : e.space.segSeq = 2 ^ 32 ∨ ∀ g ∈ e.space.segs, g.state ≠ .free) :
    e.placeInNewReclaimHead k = (e, none) := by
  have hc : e.reclaimHeadCandidate = none := by
    unfold Engine.reclaimHeadCandidate
    split
    · rfl
    · next hn =>
      exact poolFirst_eq_none fun n g hg hs => absurd hs (h.resolve_left hn g (List.mem_of_getElem? hg))
  simp only [Engine.placeInNewReclaimHead, hc]

/-- The first cells of a head that has just been opened. -/
theorem reserve_openHead {g : SegRecord} (hg : e.space.segs[n]? = some g) (role : HeadRole) (k : Nat) :
    (e.openHead n role).reserve n k =
      ((e.openHead n role).withSeg n { (e.openHead n role).seg n with writePtr := g.writePtr + k },
        { seg := n, cell := g.writePtr, count := k }) := by
  have ho := openHead_seg hg role
  rw [Engine.reserve, DataJobs.modSeg_eq_withSeg ho, DataJobs.seg_of ho]

/-- Opening a new head of a role, for a placement in a bank (R59, R60). -/
def placeInNew (e : Engine) (b k : Nat) : HeadRole → Engine × Option Location
  | .host => e.placeInNewHead b k
  | .reclaim => e.placeInNewReclaimHead k

theorem placeInNew_some {role : HeadRole} (hq : e.space.segSeq ≠ 2 ^ 32) (hf : role = .host → 3 ≤ e.freeCount)
    {g : SegRecord} (hg : e.space.segs[n]? = some g) (hs : g.state = .free) (hb : role = .host → n / 128 = b)
    (first : ∀ m h, e.space.segs[m]? = some h → h.state = .free → (role = .host → m / 128 = b) → m ≠ n →
      g.eraseCount < h.eraseCount ∨ (g.eraseCount = h.eraseCount ∧ n < m)) :
    placeInNew e b k role = ((e.openHead n role).withSeg n { (e.openHead n role).seg n with writePtr := g.writePtr + k },
      some { seg := n, cell := g.writePtr, count := k }) := by
  cases role with
  | host =>
    have hc : e.hostHeadCandidate b = some n := by
      have hno : ¬ (decide (e.space.segSeq = segSeqExhausted) || decide (e.freeCount < hostHeadFree)) = true := by
        simp only [Bool.or_eq_true, decide_eq_true_eq, not_or, Nat.not_lt]
        exact ⟨hq, hf rfl⟩
      rw [Engine.hostHeadCandidate, if_neg hno]
      exact poolFirst_eq_some hg hs (fun b' hb' => (hb rfl).trans (Option.some.inj hb'))
        fun m h hm hh hbm hne => first m h hm hh (fun _ => hbm b rfl) hne
    simp only [placeInNew, Engine.placeInNewHead, hc, reserve_openHead hg]
  | reclaim =>
    have hc : e.reclaimHeadCandidate = some n := by
      refine (if_neg hq).trans (poolFirst_eq_some hg hs (fun _ h => nomatch h) fun m h hm hh _ hne =>
        first m h hm hh (fun h => nomatch h) hne)
    simp only [placeInNew, Engine.placeInNewReclaimHead, hc, reserve_openHead hg]

end Placement

/-! ### The record an admitted write programs (R2, R32, R38, R97) -/

section Records

variable {x : JobContext} {n : Nat}

theorem writeKind_put (h : x.job = some .put) : x.writeKind = .put := by simp [JobContext.writeKind, h]

theorem writeKind_delete (h : x.job = some .delete) : x.writeKind = .delete := by simp [JobContext.writeKind, h]

theorem valueCells_length (n : Nat) (bytes : List Byte) : (valueCells n bytes).length = n := by
  induction n generalizing bytes with
  | zero => rfl
  | succ n ih => exact congrArg (· + 1) (ih _)

/-- Value cell `i` holds the 64 bytes from `64 * i` on. -/
theorem valueCells_getElem? {n i : Nat} (bytes : List Byte) (hi : i < n) :
    (valueCells n bytes)[i]? = some (.value ((bytes.drop (64 * i)).take 64)) := by
  induction n generalizing bytes i with
  | zero => exact absurd hi (Nat.not_lt_zero i)
  | succ n ih =>
    cases i with
    | zero => rfl
    | succ i =>
      have hd : 64 + 64 * i = 64 * (i + 1) := by omega
      rw [valueCells, List.getElem?_cons_succ, ih _ (Nat.lt_of_succ_lt_succ hi), List.drop_drop, hd]

theorem recordCells_put (h : x.job = some .put) (hn : Descriptor.length x.descriptor = n) :
    x.recordCells = 1 + (n + 63) / 64 := by
  simp only [JobContext.recordCells, writeKind_put h, hn, recordSize]

theorem recordCells_delete (h : x.job = some .delete) : x.recordCells = 1 := by
  simp only [JobContext.recordCells, writeKind_delete h]

theorem record_put (h : x.job = some .put) (hn : Descriptor.length x.descriptor = n) {g : Grant} (hg : x.grant = some g)
    (hs : x.staging.length = n) :
    x.record = .header { kind := .value, key := x.key, rseq := g.rseq, len := n, checked := x.staging }
      :: valueCells ((n + 63) / 64) x.staging := by
  have hf : fitBytes n x.staging = x.staging := by rw [← hs, DataJobs.fitBytes_exact]
  simp only [JobContext.record, writeKind_put h, hg, hn, hf, buildValue, hs]
  rfl

theorem record_delete (h : x.job = some .delete) {g : Grant} (hg : x.grant = some g) :
    x.record = [.header { kind := .tombstone, key := x.key, rseq := g.rseq, len := 0, checked := [] }] := by
  simp only [JobContext.record, writeKind_delete h, hg]
  rfl

end Records

/-! ### The end of an admitted write (R14, R29, R30, R34, R70) -/

section FailedWrites

variable {e : Engine} {c : Nat} {x : JobContext} {g : Grant}

/-- The engine in which the pending write that context `c` holds on a key is FAILED (R14). -/
def writeFailed (e : Engine) (c key : Nat) : Engine :=
  { e with index := { e.index with
    entries := e.index.entries.map fun t =>
      if t.key = key then
        { t with pending := t.pending.map fun p => if p.ctx = c then { p with progress := .failed } else p }
      else t } }

theorem failWrite_eq (h : e.ctxs[c]? = some x) (hg : x.grant = some g) (st : Status) :
    e.failWrite c st = (writeFailed e c x.key).complete c (writeOutcome x.writeKind g st 0) := by
  simp only [Engine.failWrite, Engine.ctx_of h, hg, Engine.changePending]
  rfl

/-- A write that ends NO_SPACE or MEDIA_ERROR was admitted: the flags and results that R29, R30 and R34 give it. -/
theorem writeOutcome_failed (x : JobContext) (g : Grant) {st : Status} (hst : st = .noSpace ∨ st = .mediaError) :
    (writeOutcome x.writeKind g st 0).status = st ∧ (writeOutcome x.writeKind g st 0).kind = g.kind
    ∧ (x.job = some .put → (writeOutcome x.writeKind g st 0).flags = { found := g.kind.holds, matched := g.matched }
      ∧ (writeOutcome x.writeKind g st 0).results = .record g.rseq 0)
    ∧ (x.job = some .delete → (writeOutcome x.writeKind g st 0).flags = { found := true }
      ∧ (writeOutcome x.writeKind g st 0).results = .record 0 0) := by
  refine ⟨rfl, rfl, fun hj => ?_, fun hj => ?_⟩
  · rw [writeKind_put hj]
    rcases hst with rfl | rfl <;> exact ⟨rfl, rfl⟩
  · rw [writeKind_delete hj]
    rcases hst with rfl | rfl <;> exact ⟨rfl, rfl⟩

end FailedWrites

/-! ### A host record asks for its placement (R32, R59, R70) -/

section PlaceWrite

variable {e m : Engine} {c : Nat} {x : JobContext}

theorem queueHostRecord_eq (h : e.ctxs[c]? = some x) (l : Location) :
    e.queueHostRecord c l = (e.withCtx c { x with state := .media, ready := false }).enqueue
      { kind := .hostRecord, seg := l.seg, cell := l.cell, count := l.count, requester := .ctx c
        failures := x.failures, contents := x.record } := by
  rw [Engine.queueHostRecord, Engine.ctx_of h, DataJobs.modCtx_eq_withCtx h]

theorem placeWrite_placed (h : e.ctxs[c]? = some x) {l : Location} (hp : e.placeHost x.recordCells = (m, some l)) :
    e.placeWrite c = (m.withCtx c { x with state := .media, ready := false }).enqueue
      { kind := .hostRecord, seg := l.seg, cell := l.cell, count := l.count, requester := .ctx c
        failures := x.failures, contents := x.record } := by
  have hm : m.ctxs[c]? = some x := by rw [(placeHost_placing hp).ctxs, h]
  rw [← queueHostRecord_eq hm l]
  simp only [Engine.placeWrite, Engine.ctx_of h, hp]

section NoPlace

variable (h : e.ctxs[c]? = some x) (hp : e.placeHost x.recordCells = (m, none))
include h hp

theorem placeWrite_waits (hc : m.canReclaim = true) :
    e.placeWrite c = { m.withCtx c { x with state := .spaceWait, ready := false } with
      space := { m.space with
        waitQueue := m.space.waitQueue ++ [{ ctx := c, deadline := e.now + 1000 * e.control.limits.spaceWait }] } } := by
  have hk := placeHost_placing hp
  have hm : m.ctxs[c]? = some x := by rw [hk.ctxs, h]
  simp only [Engine.placeWrite, Engine.ctx_of h, hp, hc, if_true, Engine.beginSpaceWait, DataJobs.modCtx_eq_withCtx hm,
    hk.now, hk.limits]
  rfl

theorem placeWrite_fails (hc : m.canReclaim = false) {g : Grant} (hg : x.grant = some g) :
    e.placeWrite c = (writeFailed m c x.key).complete c (writeOutcome x.writeKind g .noSpace 0) := by
  have hm : m.ctxs[c]? = some x := by rw [(placeHost_placing hp).ctxs, h]
  simp only [Engine.placeWrite, Engine.ctx_of h, hp, hc, Bool.false_eq_true, if_false]
  exact failWrite_eq hm hg _

end NoPlace

/-- The first bank tried has a head with room: the record goes there (R59). -/
theorem placeHost_room {b n k : Nat} (hb : b = (e.space.rotation + 1) % 4) (hn : e.headOf .host (some b) = some n)
    (hr : k ≤ (e.seg n).cellsLeft) :
    e.placeHost k = ({ e with space := { e.space with
      segs := updAt e.space.segs n fun g => { g with writePtr := g.writePtr + k }, rotation := b } },
      some { seg := n, cell := (e.seg n).writePtr, count := k }) := by
  subst hb
  exact placeInBanks_some (placeInBank_room hn hr)

end PlaceWrite

/-! ### Whether anything can be reclaimed, and the write mode (R115, R177) -/

theorem canReclaim_iff (e : Engine) :
    e.canReclaim = true ↔ (∃ g ∈ e.space.segs, g.state = .erasing) ∨ e.reclaim.state = .released
      ∨ ((e.reclaim.state = .grantWait ∨ e.reclaim.state = .stepping) ∧ e.reclaim.causes.readOnly = false)
      ∨ (e.reclaim.state = .paused ∧ e.reclaim.causes = { stop := true })
      ∨ (e.reclaim.state = .idle ∧ e.reclaim.causes.readOnly = false
        ∧ ∃ v, e.chooseVictim e.reclaim.continuous = some v ∧ (e.seg v).live + 63 ≤ e.headRoom v + 2045 * e.freeCount) := by
  have herase : decide (1 ≤ e.countSegs .erasing) = true ↔ ∃ g ∈ e.space.segs, g.state = .erasing := by
    simp [Engine.countSegs, Nat.one_le_iff_ne_zero]
  have hcauses (u : PauseCauses) : (u.stop && !u.readOnly && !u.space) = true ↔ u = { stop := true } := by
    obtain ⟨a, b, c⟩ := u
    revert a b c
    decide
  unfold Engine.canReclaim
  rw [Bool.or_eq_true, herase]
  refine or_congr_right ?_
  cases hs : e.reclaim.state with
  | idle =>
    cases e.chooseVictim e.reclaim.continuous <;> simp [Engine.startTest]
  | grantWait => simp
  | stepping => simp
  | paused => simpa using hcauses e.reclaim.causes
  | released => simp

theorem addCause_mounting {e : Engine} (h : e.state = .mounting) (cause : ModeCause) : e.addCause cause = e := by
  rw [Engine.addCause, if_pos h]

theorem addCause_readOnly {e : Engine} (h : e.state ≠ .mounting) (hr : e.readOnly = true) (cause : ModeCause) :
    e.addCause cause = { e with control := { e.control with causes := e.control.causes.add cause } } := by
  rw [Engine.addCause, if_neg h]
  exact if_pos hr

theorem addCause_writable {e : Engine} (h : e.state ≠ .mounting) (hr : e.readOnly = false) (cause : ModeCause) :
    e.addCause cause = { e with
      control := { e.control with causes := e.control.causes.add cause }
      notices := e.notices.raise (.writeMode (e.control.causes.add cause) cause)
      reclaim := { e.reclaim with causes := { e.reclaim.causes with readOnly := true } } } := by
  rw [Engine.addCause, if_neg h]
  exact if_neg (Bool.eq_false_iff.mp hr)

/-- Settles O41, clause by clause from the rules of placement. -/
theorem aPlacementReservesAtTheHead : Obligations.APlacementReservesAtTheHead := by
  refine ⟨fun e c k x hx hk => ?_, fun e k r hr => ?_, fun e b k hk => ⟨fun n hn hr => ?_, fun n hn hr => ?_, ?_, ?_⟩,
    fun e b k n g role hq hf hg hs hb first => ?_, fun e k hk => ⟨fun n hn hr => ?_, fun n hn hr => ?_, ?_, ?_⟩,
    fun e => ⟨fun role bank holds hh n => ?_, canReclaim_iff e, fun cause causes hc => ?_⟩, fun x n hn => ?_⟩
  · subst hk
    refine ⟨fun b n hb hn hr => ?_, fun m l hp => placeWrite_placed hx hp, fun m hp =>
      ⟨placeWrite_waits hx hp, fun hc g hg => ⟨_, rfl, placeWrite_fails hx hp hc hg⟩⟩⟩
    exact placeWrite_placed hx (placeHost_room hb hn (Nat.le_sub_of_add_le' hr))
  · subst hr
    exact ⟨rfl, fun b bs m => ⟨placeInBanks_none, fun l => placeInBanks_some⟩⟩
  · exact placeInBank_room hn ((le_cellsLeft_iff _ hk).mpr hr)
  · exact placeInBank_full hn (mt (le_cellsLeft_iff _ hk).mp (Nat.not_le.mpr hr))
  · exact placeInBank_noHead
  · exact placeInNewHead_none
  · have hp := placeInNew_some (k := k) hq hf hg hs hb first
    refine ⟨headOpened e n g role, e.openHead n role, ?_, openHead_eq hg role, ?_⟩
    · cases role <;> rfl
    · cases role <;> exact hp
  · exact placeReclaim_room hn ((le_cellsLeft_iff _ hk).mpr hr)
  · exact placeReclaim_full hn (mt (le_cellsLeft_iff _ hk).mp (Nat.not_le.mpr hr))
  · exact placeReclaim_noHead
  · exact placeInNewReclaimHead_none
  · simp only [headOf_eq_some_iff, hh]
  · have hadd : causes = e.control.causes.add cause := by rw [hc]; cases cause <;> rfl
    subst hadd
    exact ⟨fun h => addCause_mounting h cause, fun h hr => addCause_readOnly h hr cause,
      fun h hr => addCause_writable h hr cause⟩
  · refine ⟨rfl, rfl, fun hj => ⟨writeKind_put hj, recordCells_put hj hn.symm, fun g hg hs => ?_⟩,
      fun hj => ⟨writeKind_delete hj, recordCells_delete hj, fun g hg => record_delete hj hg⟩⟩
    rw [record_put hj hn.symm hg hs, recordCells_put hj hn.symm]
    refine ⟨?_, rfl, fun i hi => ?_⟩
    · rw [List.length_cons, valueCells_length, Nat.add_comm]
    · rw [List.getElem?_cons_succ]
      exact valueCells_getElem? _ hi

/-! ### The wait queue and the rise of the FREE count (R70, R71, R124) -/

section WaitQueue

variable {e k : Engine} {c : Nat} {x : JobContext}

theorem exec_spaceWaitExpiry {s : State} (hon : s.supply = .on) (hh : s.engine.state ≠ .halted)
    (hx : s.engine.ctxs[c]? = some x) (hs : x.state = .spaceWait) :
    exec (.spaceWaitExpiry c) s = .next { s with engine := (Engine.failWrite { s.engine with
      space := { s.engine.space with waitQueue := s.engine.space.waitQueue.filter (·.ctx != c) } } c .noSpace).settle } := by
  have he : (s.engine.state != .halted && (s.engine.ctx c).state == .spaceWait) = true := by
    rw [Engine.ctx_of hx]
    simp [hh, hs]
  refine congrArg Host.Outcome.next ((State.withEngine_on s _ hon).trans ?_)
  rw [Engine.expireWait, if_pos he]

theorem retryPlacement_placed {w : SpaceWaiter} (h : e.ctxs[w.ctx]? = some x) {l : Location}
    (hp : e.placeHost x.recordCells = (k, some l)) :
    e.retryPlacement w = ({ k.withCtx w.ctx { x with state := .media, ready := false } with
      space := { k.space with waitQueue := k.space.waitQueue.filter (·.ctx != w.ctx) } } : Engine).enqueue
      { kind := .hostRecord, seg := l.seg, cell := l.cell, count := l.count, requester := .ctx w.ctx
        failures := x.failures, contents := x.record } := by
  have hk : k.ctxs[w.ctx]? = some x := by rw [(placeHost_placing hp).ctxs, h]
  simp only [Engine.retryPlacement, Engine.ctx_of h, hp]
  exact queueHostRecord_eq (e := { k with space := { k.space with
    waitQueue := k.space.waitQueue.filter (·.ctx != w.ctx) } }) hk l

theorem retryPlacement_waits {w : SpaceWaiter} (h : e.ctxs[w.ctx]? = some x)
    (hp : e.placeHost x.recordCells = (k, none)) : e.retryPlacement w = k := by
  simp only [Engine.retryPlacement, Engine.ctx_of h, hp]

theorem serveWaitQueue_nil (h : e.space.waitQueue = []) : e.serveWaitQueue = e := by
  rw [Engine.serveWaitQueue, h]
  rfl

theorem serveWaitQueue_cons {w : SpaceWaiter} {rest : List SpaceWaiter} (h : e.space.waitQueue = w :: rest) :
    e.serveWaitQueue = rest.foldl Engine.retryPlacement (e.retryPlacement w) := by
  rw [Engine.serveWaitQueue, h]
  rfl

theorem formatEnding_eq_false_iff (e : Engine) :
    e.formatEnding = false ↔ ∀ f, e.format = some f → f.stage ≠ .ending := by
  unfold Engine.formatEnding
  cases e.format with
  | none => simp
  | some f => simp

theorem resumeReclaim_goesOn (hs : e.reclaim.state = .paused) (hm : e.mustPause = false) :
    e.resumeReclaim = Engine.beginStep { e with reclaim := { e.reclaim with state := .stepping } } := by
  simp only [Engine.resumeReclaim, hs, hm]
  rfl

theorem resumeReclaim_stays (h : ¬ (e.reclaim.state = .paused ∧ e.mustPause = false)) : e.resumeReclaim = e := by
  refine if_neg fun hb => h ?_
  simpa using hb

/-- The engine with the Reclaim Unit's cause SPACE cleared (R124). -/
def spaceCleared (k : Engine) : Engine :=
  { k with reclaim := { k.reclaim with causes := { k.reclaim.causes with space := false } } }

theorem spaceCleared_mustPause (k : Engine) :
    (spaceCleared k).mustPause = false ↔ k.reclaim.causes.stop = false ∧ k.reclaim.causes.readOnly = false
      ∧ ∀ f, k.format = some f → f.stage ≠ .ending := by
  rw [← formatEnding_eq_false_iff, ← and_assoc]
  simp [Engine.mustPause, PauseCauses.any, spaceCleared, Engine.formatEnding]

theorem freeRose_eq (hk : k = e.spaceTest.serveWaitQueue) :
    e.freeRose = (spaceCleared k).resumeReclaim.wantChoice := by
  rw [hk]
  rfl

end WaitQueue

/-- Settles O39, from the rules of placement and of the wait queue. -/
theorem theWaitQueueIsServed : Obligations.TheWaitQueueIsServed := by
  refine ⟨fun s c x g hon hh hx hs hg hj => ?_, fun e => rfl, fun e w x hx =>
    ⟨fun k l hp => retryPlacement_placed hx hp, fun k hp => retryPlacement_waits hx hp⟩,
    fun e => ⟨serveWaitQueue_nil, fun w rest x hw hx => ⟨fun k l hp => ?_, fun k hp => ?_⟩⟩,
    fun e k resumes hk hr => ?_⟩
  · obtain ⟨hst, hkind, hput, hdel⟩ := writeOutcome_failed x g (.inl rfl : Status.noSpace = .noSpace ∨ _)
    refine ⟨_, hst, hkind, hput, hdel, ?_⟩
    rw [exec_spaceWaitExpiry hon hh hx hs]
    congr 3
    exact failWrite_eq (e := { s.engine with space := { s.engine.space with
      waitQueue := s.engine.space.waitQueue.filter (·.ctx != c) } }) hx hg _
  · rw [serveWaitQueue_cons hw, retryPlacement_placed hx hp]
  · rw [serveWaitQueue_cons hw, retryPlacement_waits hx hp]
  · rw [← spaceCleared_mustPause] at hr
    rw [freeRose_eq hk]
    refine ⟨fun ht => ?_, fun hf => ?_⟩
    · obtain ⟨hs, hm⟩ := hr.mp ht
      rw [resumeReclaim_goesOn (e := spaceCleared k) hs hm]
      rfl
    · rw [resumeReclaim_stays fun h => Bool.eq_false_iff.mp hf (hr.mpr h)]
      rfl

/-! ### The failure of a program (R66, R91, R92, R123, R124) -/

section Failures

variable {e k : Engine} {b : Nat} {q : Request}

theorem recordOf_iff (seg : Nat) (p : Request) :
    Request.recordOf seg p = true ↔
      p.seg = seg ∧ p.kind ∈ [RequestKind.hostRecord, .hostOpen, .reclaimRecord, .reclaimOpen] := by
  unfold Request.recordOf
  cases p.kind <;> simp

/-- The bank after every queued program into a segment has been taken off its queues (R80, R91). -/
theorem withdraw_eq (a : Bank) (seg : Nat) :
    a.withdraw seg = { a with
      hostQ := a.hostQ.filter fun p => !Request.recordOf seg p
      reclaimQ := a.reclaimQ.filter fun p => !Request.recordOf seg p
      streak := if (∀ p ∈ a.reclaimQ, Request.recordOf seg p = true) ∧ a.reclaimQ ≠ [] then 0 else a.streak } := by
  have hc : ((a.reclaimQ.filter fun p => !Request.recordOf seg p).isEmpty && !a.reclaimQ.isEmpty) = true ↔
      (∀ p ∈ a.reclaimQ, Request.recordOf seg p = true) ∧ a.reclaimQ ≠ [] := by
    simp [List.filter_eq_nil_iff]
  simp only [Bank.withdraw, hc]

/-- A segment closed for a failed program: to FAILED_CLOSED when it was eligible, else it takes the mark alone (R66). -/
theorem closeFailed_eq {n : Nat} {g : SegRecord} (hg : e.space.segs[n]? = some g) :
    e.closeFailed n = { e.withSeg n { g with
        state := if g.state.eligible then .failedClosed else g.state, role := if g.state.eligible then none else g.role
        progFailed := true, progPtr := g.writePtr } with
      reclaim := { e.reclaim with choiceDue := g.state.eligible || e.reclaim.choiceDue } } := by
  unfold Engine.closeFailed
  rw [DataJobs.seg_of hg, DataJobs.modSeg_eq_withSeg hg, DataJobs.modSeg_eq_withSeg hg]
  cases g.state.eligible <;> rfl

theorem segmentFailed_eq {g : SegRecord} {a : Bank} {n : Nat} (hg : e.space.segs[n]? = some g)
    (ha : e.banks[b]? = some a) (failed : List Request) :
    e.segmentFailed b n failed =
      (failed ++ (a.hostQ.filter (Request.recordOf n) ++ a.reclaimQ.filter (Request.recordOf n))).foldl
        Engine.replaceRecord { e.withSeg n { g with
            state := if g.state.eligible then .failedClosed else g.state
            role := if g.state.eligible then none else g.role
            progFailed := true, progPtr := g.writePtr } with
          reclaim := { e.reclaim with choiceDue := g.state.eligible || e.reclaim.choiceDue }
          banks := e.banks.set b (a.withdraw n) } := by
  have hb : e.bank b = a := by
    unfold Engine.bank
    rw [List.getD_eq_getElem?_getD, ha]
    rfl
  unfold Engine.segmentFailed Engine.modBank
  rw [hb, closeFailed_eq hg]
  dsimp only [Engine.withSeg]
  rw [updAt_set ha]
  rfl

theorem programFailed_record (h : q.kind = .hostRecord ∨ q.kind = .reclaimRecord) :
    e.programFailed b q = e.segmentFailed b q.seg [{ q with failures := q.failures + 1 }] := by
  unfold Engine.programFailed
  rcases h with h | h <;> rw [h]

theorem programFailed_open (h : q.kind = .hostOpen ∨ q.kind = .reclaimOpen) :
    e.programFailed b q = e.segmentFailed b q.seg [] := by
  unfold Engine.programFailed
  rcases h with h | h <;> rw [h]

theorem programFailed_mount (h : q.kind = .formatCell ∨ q.kind = .retireCell) (hr : q.requester = .mount) :
    e.programFailed b q = e.mountProgramDone q false := by
  unfold Engine.programFailed
  rcases h with h | h <;> rw [h, hr]

theorem programFailed_formatCell (h : q.kind = .formatCell) (hr : q.requester ≠ .mount) :
    e.programFailed b q = e.eraseLost q.seg .formatFailed := by
  unfold Engine.programFailed
  rw [h]
  cases hq : q.requester with
  | mount => exact absurd hq hr
  | _ => rfl

theorem programFailed_retireCell (h : q.kind = .retireCell) (hr : q.requester = .space) : e.programFailed b q = e := by
  unfold Engine.programFailed
  rw [h, hr]

section HostRecord

variable {c : Nat} {x : JobContext} (hk : q.kind = .hostRecord) (hr : q.requester = .ctx c)
include hk hr

theorem replaceRecord_givenUp (hx : e.ctxs[c]? = some x) {g : Grant} (hg : x.grant = some g) (hf : 2 ≤ q.failures) :
    e.replaceRecord q = (writeFailed e c x.key).complete c (writeOutcome x.writeKind g .mediaError 0) := by
  simp only [Engine.replaceRecord, hk, hr, Engine.replaceHost, if_pos hf]
  exact failWrite_eq hx hg _

theorem replaceRecord_placedAfresh (hx : e.ctxs[c]? = some x) (hf : q.failures < 2) :
    e.replaceRecord q = (e.withCtx c { x with failures := q.failures }).placeWrite c := by
  simp only [Engine.replaceRecord, hk, hr, Engine.replaceHost, if_neg (Nat.not_le.mpr hf), DataJobs.modCtx_eq_withCtx hx]

end HostRecord

section ReclaimRecord

variable (hk : q.kind = .reclaimRecord)
include hk

theorem replaceRecord_stepRetried (hf : 2 ≤ q.failures) : e.replaceRecord q = e.beginStep := by
  simp only [Engine.replaceRecord, hk, Engine.replaceReclaim, if_pos hf]

theorem replaceRecord_placed (hf : q.failures < 2) {l : Location} (hp : e.placeReclaim q.count = (k, some l)) :
    e.replaceRecord q = k.queueReclaimRecord l q.contents q.failures := by
  simp only [Engine.replaceRecord, hk, Engine.replaceReclaim, if_neg (Nat.not_le.mpr hf), hp]

theorem replaceRecord_pauses (hf : q.failures < 2) (hp : e.placeReclaim q.count = (k, none)) :
    e.replaceRecord q = k.pauseForSpace := by
  simp only [Engine.replaceRecord, hk, Engine.replaceReclaim, if_neg (Nat.not_le.mpr hf), hp]

end ReclaimRecord

end Failures

/-- Settles O45, by the kind of the failed program and the failure count of each record of its segment. -/
theorem aFailedProgramIsPlacedAfresh : Obligations.AFailedProgramIsPlacedAfresh := by
  refine ⟨fun e k b q g a inUse mine hg ha hu hm hk => ?_, fun e b q => programFailed_retireCell,
    fun e b q => ⟨fun hq hr hs => ?_, fun hq hr hs => ?_, programFailed_mount⟩,
    fun e c x g q hq hr hx hg hj => ⟨fun hf => ?_, replaceRecord_placedAfresh hq hr hx⟩,
    fun e q hq => ⟨replaceRecord_stepRetried hq, fun hf =>
      ⟨fun k l hp => replaceRecord_placed hq hf hp, fun k hp => replaceRecord_pauses hq hf hp⟩⟩⟩
  · have hmine : mine = Request.recordOf q.seg := by
      funext p
      rw [Bool.eq_iff_iff, hm, recordOf_iff]
    have huse : inUse = g.state.eligible := by rw [Bool.eq_iff_iff, hu, DataJobs.eligible_iff]
    subst hmine huse
    rw [← withdraw_eq] at hk
    subst hk
    exact ⟨fun h => (programFailed_record h).trans (segmentFailed_eq hg ha _),
      fun h => (programFailed_open h).trans (segmentFailed_eq hg ha _)⟩
  · rw [programFailed_formatCell hq hr, Engine.eraseLost, if_pos hs]
  · rw [programFailed_formatCell hq hr, Engine.eraseLost, if_neg hs]
  · obtain ⟨hst, hkind, hput, hdel⟩ := writeOutcome_failed x g (.inr rfl : Status.mediaError = _ ∨ _)
    exact ⟨_, hst, hkind, hput, hdel, replaceRecord_givenUp hq hr hx hg hf⟩

/-! ### Retirement, and the end of a reclaim (R69, R122, R130, R177) -/

section Retirement

variable {e : Engine} {n : Nat} {g : SegRecord}

theorem victimEnded_other (h : e.reclaim.state ≠ .released ∨ e.reclaim.victim ≠ some n) (ended : ReclaimEnd) :
    e.victimEnded n ended = e := by
  refine if_neg fun hb => ?_
  obtain ⟨hs, hv⟩ := Bool.and_eq_true_iff.mp hb
  exact h.elim (· (of_decide_eq_true hs)) (· (of_decide_eq_true hv))

section Victim

variable (hs : e.reclaim.state = .released) (hv : e.reclaim.victim = some n)
include hs hv

theorem victimEnded_eq (ended : ReclaimEnd) :
    e.victimEnded n ended = { e.answerRequester .ok ended with reclaim := { (e.answerRequester .ok ended).reclaim with
      state := .idle, victim := none, cursor := none, tallies := {}, choiceDue := true } } := by
  simp only [Engine.victimEnded, hs, hv]
  rfl

theorem victimEnded_unasked (hr : e.reclaim.requester = none) (ended : ReclaimEnd) :
    e.victimEnded n ended = { e with reclaim := { e.reclaim with
      state := .idle, victim := none, cursor := none, tallies := {}, choiceDue := true } } := by
  have ha : e.answerRequester .ok ended = e := by simp only [Engine.answerRequester, hr]
  rw [victimEnded_eq hs hv, ha]

theorem victimEnded_asked {c : Nat} (hr : e.reclaim.requester = some c) (ended : ReclaimEnd) :
    e.victimEnded n ended = Engine.complete { e with reclaim := { e.reclaim with
      state := .idle, victim := none, cursor := none, tallies := {}, choiceDue := true, requester := none } } c
      { status := .ok, flags := { succeeded := true }, results := .reclaim (some n) ended 0 e.reclaim.tallies } := by
  rw [victimEnded_eq hs hv]
  simp only [Engine.answerRequester, hr, hv]
  rfl

end Victim

/-- The engine after a retirement has queued its retire cell and raised SEGMENT_RETIRED (R69). -/
def retired (e : Engine) (n : Nat) (g : SegRecord) (cause : RetireCause) (by_ : Requester) (count : Nat) : Engine :=
  ((e.withSeg n { g with state := .retired, role := none }).enqueue
    { kind := .retireCell, seg := n, cell := 2047, count := 1, requester := by_, contents := [.retire] }).raiseNotice
    (.segmentRetired n cause g.eraseCount count)

section Table

variable (hg : e.space.segs[n]? = some g)
include hg

/-- A segment that becomes RETIRED counts once (R69). -/
theorem retiredCount_withSeg {y : SegRecord} (hy : y.state = .retired) :
    (e.withSeg n y).retiredCount = e.retiredCount + if g.state = .retired then 0 else 1 := by
  obtain ⟨hn, rfl⟩ := List.getElem?_eq_some_iff.mp hg
  have hpos : e.space.segs[n].state = .retired → 0 < e.space.segs.countP fun g => decide (g.state = .retired) :=
    fun h => List.countP_pos_iff.mpr ⟨_, List.getElem_mem hn, decide_eq_true h⟩
  simp only [Engine.retiredCount, Engine.countSegs, Engine.withSeg, List.countP_set hn, hy, decide_true, if_true,
    decide_eq_true_eq]
  split
  · next h => have := hpos h; omega
  · rfl

section Counts

variable {count : Nat} (hc : count = e.retiredCount + if g.state = .retired then 0 else 1)
include hc

theorem retireSegment_eq (cause : RetireCause) (by_ : Requester) :
    e.retireSegment n cause by_ = ((if count = 48 ∧ e.retiredCount < 48 then
        (retired e n g cause by_ count).addCause .retiredLimit
      else retired e n g cause by_ count).formatCounts n true).victimEnded n .retired := by
  have hcount : (e.withSeg n { g with state := .retired, role := none }).retiredCount = count :=
    (retiredCount_withSeg hg rfl).trans hc.symm
  simp only [Engine.retireSegment, DataJobs.modSeg_eq_withSeg hg, DataJobs.seg_of hg, hcount, Bool.and_eq_true,
    decide_eq_true_eq]
  rfl

theorem retireSegment_atLimit (h : count = 48) (hr : e.retiredCount = 47) (cause : RetireCause) (by_ : Requester) :
    e.retireSegment n cause by_ =
      (((retired e n g cause by_ count).addCause .retiredLimit).formatCounts n true).victimEnded n .retired := by
  rw [retireSegment_eq hg hc, if_pos ⟨h, by omega⟩]

theorem retireSegment_offLimit (h : count ≠ 48 ∨ e.retiredCount = 48) (cause : RetireCause) (by_ : Requester) :
    e.retireSegment n cause by_ = ((retired e n g cause by_ count).formatCounts n true).victimEnded n .retired := by
  rw [retireSegment_eq hg hc, if_neg (by omega)]

end Counts

/-! ### Release, pins and the erase (R64, R67, R68, R73) -/

theorem mayLeave_iff : e.mayLeave n = true ↔ g.state = .reclaiming ∧ g.pins = 0
    ∧ ∀ t ∈ e.index.entries, ∀ l, t.body.loc? = some l → l.seg ≠ n := by
  simp [Engine.mayLeave, Engine.pointedInto, DataJobs.seg_of hg, and_assoc]

theorem settleReleased_erases (hr : e.space.released = some n) (hl : e.mayLeave n = true) (hp : g.progFailed = false) :
    e.settleReleased = ({ e with space := { e.space with
        segs := e.space.segs.set n { g with state := .erasing }, released := none } } : Engine).enqueue
      { kind := .erase, seg := n, cell := 0, count := 2048, requester := .space } := by
  have hg' : ({ e with space := { e.space with released := none } } : Engine).space.segs[n]? = some g := hg
  simp only [Engine.settleReleased, hr, if_pos hl, DataJobs.seg_of hg, hp, Bool.false_eq_true, if_false,
    DataJobs.modSeg_eq_withSeg hg']
  rfl

theorem settleReleased_retires (hr : e.space.released = some n) (hl : e.mayLeave n = true) (hp : g.progFailed = true) :
    e.settleReleased =
      Engine.retireSegment { e with space := { e.space with released := none } } n .programFailed .space := by
  simp only [Engine.settleReleased, hr, if_pos hl, DataJobs.seg_of hg, hp, if_true]

theorem unpin_held (h : 1 < g.pins) : e.unpin n = e.withSeg n { g with pins := g.pins - 1 } := by
  have hp : ¬ ((e.withSeg n { g with pins := g.pins - 1 }).seg n).pins = 0 := by
    rw [DataJobs.seg_of (set_there hg _)]
    exact Nat.sub_ne_zero_of_lt h
  simp only [Engine.unpin, DataJobs.modSeg_eq_withSeg hg, if_neg hp]

theorem unpin_last (h : g.pins ≤ 1) : e.unpin n = (e.withSeg n { g with pins := 0 }).settleReleased.settlePinWait := by
  have h0 : g.pins - 1 = 0 := Nat.sub_eq_zero_of_le h
  have hp : ((e.withSeg n { g with pins := 0 }).seg n).pins = 0 := by rw [DataJobs.seg_of (set_there hg _)]
  simp only [Engine.unpin, DataJobs.modSeg_eq_withSeg hg, h0, if_pos hp]

theorem formatCellPassed_freed (hs : g.state = .erasing) {q : Request} (hq : q.seg = n) {count : Nat} {est : Bool}
    (hc : q.contents = [.format count est]) :
    e.formatCellPassed q = ((e.withSeg n { state := .free, eraseCount := count, estimated := g.estimated }).formatCounts n
      false).freeRose.victimEnded n .free := by
  have hcount : q.eraseCount = count := by simp only [Request.eraseCount, hc]
  simp only [Engine.formatCellPassed, hq, DataJobs.seg_of hg, if_pos hs, DataJobs.modSeg_eq_withSeg hg,
    SegRecord.freed, hcount]

theorem formatCellPassed_other (hs : g.state ≠ .erasing) {q : Request} (hq : q.seg = n) : e.formatCellPassed q = e := by
  simp only [Engine.formatCellPassed, hq, DataJobs.seg_of hg, if_neg hs]

end Table

theorem settleReleased_waits (hr : e.space.released = some n) (hl : e.mayLeave n = false) : e.settleReleased = e := by
  simp only [Engine.settleReleased, hr, hl, Bool.false_eq_true, if_false]

theorem settlePinWait_nil (h : e.space.pinWait = []) : e.settlePinWait = e := by
  simp only [Engine.settlePinWait, h, List.filter_nil, List.foldl_nil]
  rw [← h]

end Retirement

/-- Settles O49, from the rules of release, pins, the format cell, retirement and the victim's end. -/
theorem aReleasedVictimLeaves : Obligations.AReleasedVictimLeaves := by
  refine fun e n g hg => ⟨fun leaves hr hl => ?_, unpin_held hg, unpin_last hg, settlePinWait_nil, rfl,
    fun q count est hq hc => ⟨fun hs => formatCellPassed_freed hg hs hq hc, fun hs => formatCellPassed_other hg hs hq⟩,
    fun cause by_ k count hc hk => ⟨retired e n g cause by_ count, hk ▸ rfl, fun h hr => ?_, fun h => ?_⟩,
    fun ended => ⟨fun h => victimEnded_other h ended, fun hs hv =>
      ⟨fun hr => victimEnded_unasked hs hv hr ended, fun c hr => victimEnded_asked hs hv hr ended⟩⟩⟩
  · have hleaves : leaves = e.mayLeave n := by rw [Bool.eq_iff_iff, hl, mayLeave_iff hg]
    subst hleaves
    exact ⟨settleReleased_erases hg hr, settleReleased_retires hg hr, settleReleased_waits hr⟩
  · exact retireSegment_atLimit hg hc h hr cause by_
  · exact retireSegment_offLimit hg hc h cause by_

end Sys2Proof.Machine.SegmentSpace
end


section
/-! PROOFS. The Bank Controllers (chapter 4) and the media under them: what a command can do to the engine, with the law of the
banks that every step keeps; the selection, the arrivals and the suspensions of a bank; and the ends of its operations. -/

namespace Sys2Proof.Machine.BankControllers

open Sys2Proof

/-! ### What a command can do to the engine (R171, R174 to R176) -/

/-- What a command can make of the engine: moves from it; moves after the change of engine state that a START, a STOP or a
parity error makes of it; or moves after a reset. -/
inductive EngineEffect (c : Instr) (s : State) (e : Engine) : Prop
  | moved (h : s.engine.Flow e)
  | started (hc : c.isStart) (hs : s.engine.state = .stopped) (h : (s.engine.setState .running).Flow e)
  | stopped (hc : c.isStop) (hs : s.engine.state = .running) (h : (s.engine.setState .stopping).Flow e)
  | halted (m : ParityMemory) (hc : c = .parityError m) (hs : s.engine.state ≠ .halted)
      (h : ({ s.engine with control := { s.engine.control with engine := .halted, halt := haltCauseOf m } } : Engine).Flow e)
  | reset (hc : c.isReset) (g : Registers) (h : (s.engine.fresh g).Flow e)

/-- Whatever a command does to lawful banks, they stay lawful. -/
theorem EngineEffect.banksLawful {c : Instr} {s : State} {e : Engine} (k : EngineEffect c s e)
    (h : s.engine.banksLawful) : e.banksLawful := by
  cases k with
  | moved hf => exact hf.banks_lawful h
  | started _ _ hf => exact hf.banks_lawful h
  | stopped _ _ hf => exact hf.banks_lawful h
  | halted _ _ _ hf => exact hf.banks_lawful h
  | reset _ g hf => exact hf.banks_lawful (s.engine.fresh_banksLawful g)

section Effects

variable {c : Instr} {s t : State}

theorem effect_of_withEngine {f : Engine → Engine}
    (h : (Host.Outcome.next (s.withEngine f) : Host.Outcome State Fault Refusal) = .next t)
    (hf : EngineEffect c s (f s.engine)) : EngineEffect c s t.engine := by
  cases h
  unfold State.withEngine State.whenOn
  split
  · exact hf
  · exact .moved (.refl _)

theorem effect_of_whenOn {f : State → State}
    (h : (Host.Outcome.next (s.whenOn f) : Host.Outcome State Fault Refusal) = .next t)
    (hf : EngineEffect c s (f s).engine) : EngineEffect c s t.engine := by
  cases h
  unfold State.whenOn
  split
  · exact hf
  · exact .moved (.refl _)

/-- Most commands are moves of the engine. -/
theorem effect_of_flow {f : Engine → Engine}
    (h : (Host.Outcome.next (s.withEngine f) : Host.Outcome State Fault Refusal) = .next t)
    (hf : s.engine.Flow (f s.engine)) : EngineEffect c s t.engine := effect_of_withEngine h (.moved hf)

/-- The step of a job is made of moves when its work is. -/
theorem effect_of_jobStep {n : Nat} {j : Job} {f : Engine → Engine}
    (h : (Host.Outcome.next (s.withEngine fun e => e.jobStep n j f) : Host.Outcome State Fault Refusal) = .next t)
    (hf : ∀ k, s.engine.Flow k → s.engine.Flow (f k)) : EngineEffect c s t.engine :=
  effect_of_flow h (Engine.Move.jobStep (.refl _) n j f hf)

theorem effect_of_onActive {b : Nat} {op : MediaOp} {f : Operation → State} (hf : ∀ o, s.engine.Flow (f o).engine) :
    EngineEffect c s (s.onActive b op f).engine := by
  obtain h | ⟨o, -, h⟩ := s.onActive_cases b op f
  · rw [h]
    exact .moved (.refl _)
  · rw [h]
    exact .moved (hf o)

theorem effect_of_start (hc : c.isStart) : EngineEffect c s s.engine.start := by
  by_cases hs : s.engine.state = .stopped
  · exact .started hc hs (Engine.Move.start_flow hs)
  · exact .moved (by rw [Engine.start, if_neg hs]; exact .refl _)

theorem effect_of_stop (hc : c.isStop) : EngineEffect c s s.engine.stop := by
  by_cases hs : s.engine.state = .running
  · exact .stopped hc hs (Engine.Move.stop_flow hs)
  · exact .moved (by rw [Engine.stop, if_neg hs]; exact .refl _)

theorem effect_of_halt {m : ParityMemory} (hc : c = .parityError m) : EngineEffect c s (s.engine.halt m) := by
  by_cases hs : s.engine.state = .halted
  · exact .moved (by rw [Engine.halt, if_pos hs]; exact .refl _)
  · exact .halted m hc hs (Engine.Move.halt_flow m hs)

/-- A reset and then a mount, whatever happens to the fresh engine in between. -/
theorem effect_of_mount (hc : c.isReset) (g : Registers) {k : Engine} (h : (s.engine.fresh g).Flow k) :
    EngineEffect c s k.startMount.settle := .reset hc g h.startMount.settle

theorem effect_of_engineReset (hc : c.isReset) : EngineEffect c s s.engineReset.engine := by
  rw [State.engineReset_engine]
  exact effect_of_mount hc _ (Engine.Move.refl _).initAdminRing

theorem effect_of_linkReset (hc : c.isReset) : EngineEffect c s s.linkReset.engine := by
  rw [State.linkReset_engine]
  exact effect_of_mount hc _ (.refl _)

theorem effect_of_coldReset (hc : c.isReset) : EngineEffect c s s.coldReset.engine := by
  rw [State.coldReset_engine]
  exact effect_of_mount hc _ (.refl _)

/-- The reset input and a loss of supply leave the engine fresh, with no mount started. -/
theorem effect_of_fresh (hc : c.isReset) : EngineEffect c s (s.engine.fresh {}) := .reset hc {} (.refl _)

/-- A write of CONTROL is an ENGINE_RESET, a START or a STOP, or nothing (R179). -/
theorem effect_of_writeControl {value : BitVec 32} :
    EngineEffect (.registerWrite 0x008 4 value) s (s.writeControl value).engine := by
  unfold State.writeControl
  split
  · next hr => exact effect_of_engineReset (.inr (.inr (.inr (.inr (.inr ⟨rfl, rfl, hr⟩)))))
  · next hr =>
    have hr : value.getLsbD 2 = false := Bool.eq_false_iff.mpr hr
    split
    · next h0 h1 => exact effect_of_start (.inr ⟨rfl, rfl, by simp_all [bitOf]⟩)
    · next h0 h1 => exact effect_of_stop (.inr ⟨rfl, rfl, by simp_all [bitOf]⟩)
    · exact .moved (.refl _)

theorem effect_of_writeRegister (offset width : Nat) (value : BitVec 32) :
    EngineEffect (.registerWrite offset width value) s (s.writeRegister offset width value).engine := by
  unfold State.writeRegister
  split
  · exact .moved (.refl _)
  next hw =>
    obtain rfl := Decidable.not_not.mp hw
    split
    · next ho => subst ho; exact effect_of_writeControl
    · split
      · exact .moved ((Engine.Move.refl _).writeAdminSize _).settle
      · split
        · exact .moved ((Engine.Move.refl _).post _ _).settle
        · split
          · exact .moved ((Engine.Move.refl _).ack _ _ _).settle
          · exact .moved ((Engine.Move.refl _).writeBase _ _)

/-- What each command can do to the engine. -/
theorem exec_engineEffect (h : exec c s = .next t) : EngineEffect c s t.engine := by
  cases c with
  | start => exact effect_of_withEngine h (effect_of_start (.inl rfl))
  | stop => exact effect_of_withEngine h (effect_of_stop (.inl rfl))
  | parityError m => exact effect_of_withEngine h (effect_of_halt rfl)
  | engineReset => exact effect_of_whenOn h (effect_of_engineReset (.inl rfl))
  | linkReset => exact effect_of_whenOn h (effect_of_linkReset (.inr (.inl rfl)))
  | coldReset => cases h; exact effect_of_coldReset (.inr (.inr (.inl rfl)))
  | powerLoss => cases h; exact effect_of_fresh (.inr (.inr (.inr (.inr (.inl rfl)))))
  | resetInputAsserted =>
    cases h
    split
    · exact .moved (.refl _)
    · exact effect_of_fresh (.inr (.inr (.inr (.inl rfl))))
  | registerWrite offset width value => exact effect_of_whenOn h (effect_of_writeRegister offset width value)
  | adminSizeWrite value => exact effect_of_flow h ((Engine.Move.refl _).writeAdminSize _).settle
  | post ring tail => exact effect_of_flow h ((Engine.Move.refl _).post _ _).settle
  | ack ring arm head => exact effect_of_flow h ((Engine.Move.refl _).ack _ _ _).settle
  | stateRead offset width => exact effect_of_flow h ((Engine.Move.refl _).readWindow _ _)
  | descriptorFetchDone descriptor => exact effect_of_flow h ((Engine.Move.refl _).fetchEvent _)
  | doneRecordWritten ring ok => exact effect_of_flow h ((Engine.Move.refl _).recordEvent _ _)
  | noticeWriteDone ok => exact effect_of_flow h ((Engine.Move.refl _).noticeEvent _)
  | put n => exact effect_of_jobStep h fun _ k => k.putStep n
  | get n => exact effect_of_jobStep h fun _ k => k.getLookup n
  | probe n => exact effect_of_jobStep h fun _ k => k.probeStep n
  | delete n => exact effect_of_jobStep h fun _ k => k.deleteStep n
  | matchValue n => exact effect_of_jobStep h fun _ k => k.matchStep n
  | scan n => exact effect_of_jobStep h fun _ k => k.scanBegin n
  | openRing n => exact effect_of_jobStep h fun _ k => k.openRingStep n
  | closeRing n => exact effect_of_jobStep h fun _ k => k.closeRingStep n
  | setNotice n => exact effect_of_jobStep h fun _ k => k.setNoticeStep n
  | setLimits n => exact effect_of_jobStep h fun _ k => k.setLimitsStep n
  | queryEngine n => exact effect_of_jobStep h fun _ k => k.queryEngineStep n
  | querySegment n => exact effect_of_jobStep h fun _ k => k.querySegmentStep n
  | reclaim n => exact effect_of_jobStep h fun _ k => k.reclaimStep n
  | scrub n => exact effect_of_jobStep h fun _ k => k.scrubStep n
  | format n => exact effect_of_jobStep h fun _ k => k.formatStep n
  | loadingDone n data => exact effect_of_flow h ((Engine.Move.refl _).loadEvent _ _)
  | returningDone n ok => exact effect_of_flow h ((Engine.Move.refl _).returnEvent _ _ _ _ fun _ _ k => k.getReturned n ok)
  | scanBatchDone n ok => exact effect_of_flow h ((Engine.Move.refl _).returnEvent _ _ _ _ fun i _ k => k.scanReturned n ok i)
  | reportWriteDone n ok => exact effect_of_flow h ((Engine.Move.refl _).returnEvent _ _ _ _ fun _ _ k => k.reportWritten n ok)
  | spaceWaitExpiry n => exact effect_of_flow h ((Engine.Move.refl _).expireWait _)
  | quantumExpiry b => exact effect_of_flow h ((Engine.Move.refl _).quantumEvent _)
  | suspendReport b x => exact effect_of_whenOn h (.moved (s.suspendReported_flow b x))
  | readDone b flips =>
    exact effect_of_whenOn h (effect_of_onActive fun _ => (Engine.Move.refl _).opEnded b _ fun _ k => k.readReported _ _)
  | blankCheckDone b disturbed =>
    exact effect_of_whenOn h (effect_of_onActive fun _ => (Engine.Move.refl _).opEnded b _ fun _ k => k.blankAnswer _ _)
  | programDone b pass => exact effect_of_whenOn h (effect_of_onActive fun o => s.endProgram_flow b o pass)
  | eraseDone b pass => exact effect_of_whenOn h (effect_of_onActive fun o => s.endErase_flow b o pass)
  | programTimeout b => exact effect_of_whenOn h (effect_of_onActive fun o => s.endProgram_flow b o false)
  | eraseTimeout b => exact effect_of_whenOn h (effect_of_onActive fun o => s.endErase_flow b o false)

end Effects

/-! ### A microsecond with no command (R82, R88) -/

section Ticks

variable {s : State}

theorem tick_off (h : s.supply ≠ .on) : s.tick = s := by
  unfold State.tick
  split
  · next hon => exact absurd hon h
  · rfl

theorem tick_on (h : s.supply = .on) :
    s.tick = { s with engine := { s.engine with now := s.engine.now + 1, banks := s.engine.banks.map Bank.tick } } := by
  simp only [State.tick, h]

theorem bank_tick_eq (k : Bank) :
    k.tick = if k.state = .active then
      { k with active := k.active.map fun o => { o with runTime := o.runTime + 1 } } else k := by
  unfold Bank.tick
  cases hk : k.state <;> rfl

theorem tick_banksLawful (h : s.engine.banksLawful) : s.tick.engine.banksLawful := by
  by_cases hon : s.supply = .on
  · rw [tick_on hon]
    intro k hk
    obtain ⟨k0, h0, rfl⟩ := List.mem_map.mp hk
    exact (h k0 h0).tick
  · rw [tick_off hon]
    exact h

end Ticks

theorem step_command {s : State} {c : Instr} {rest : List Instr} (h : s.pending = c :: rest) :
    step s = exec c { s with pending := rest } := by
  simp only [step, h]

theorem step_idle {s : State} (h : s.pending = []) : step s = .next s.tick := by
  simp only [step, h]

/-- Settles O7: a command changes the banks by lawful moves alone, and so does the passing of time. -/
theorem everyStepKeepsTheBankRules : Obligations.EveryStepKeepsTheBankRules := by
  intro s t h hl
  cases hp : s.pending with
  | nil =>
    cases (step_idle hp).symm.trans h
    exact tick_banksLawful hl
  | cons c rest => exact (exec_engineEffect ((step_command hp).symm.trans h)).banksLawful hl

/-- Settles O1, by whether a command waits. -/
theorem stepRunsTheFrontCommand : Obligations.StepRunsTheFrontCommand := by
  refine ⟨fun c rest s h => step_command h, fun s h => ⟨fun hoff => ?_, fun hon => ?_⟩⟩
  · rw [step_idle h, tick_off hoff]
  · refine ⟨s.engine.banks.map Bank.tick, ?_, List.length_map _, fun b k hk => ?_⟩
    · rw [step_idle h, tick_on hon]
    · rw [List.getElem?_map, hk, Option.map_some, bank_tick_eq]

/-! ### The kinds of operation (R76) -/

theorem op_eq_read_iff (o : Operation) : o.op = .read ↔ o.request.kind = .read := by
  cases hk : o.request.kind <;> simp [Operation.op, RequestKind.op, hk]

theorem op_eq_erase_iff (o : Operation) : o.op = .erase ↔ o.request.kind = .erase := by
  cases hk : o.request.kind <;> simp [Operation.op, RequestKind.op, hk]

theorem op_eq_blankCheck_iff (o : Operation) : o.op = .blankCheck ↔ o.request.kind = .blankCheck := by
  cases hk : o.request.kind <;> simp [Operation.op, RequestKind.op, hk]

theorem op_eq_program_iff (o : Operation) : o.op = .program ↔ o.request.kind ∈
    [RequestKind.hostRecord, .hostOpen, .reclaimRecord, .reclaimOpen, .formatCell, .retireCell] := by
  cases hk : o.request.kind <;> simp [Operation.op, RequestKind.op, hk]

theorem isHost_iff (r : RequestKind) : r.isHost = true ↔ r = .hostRecord ∨ r = .hostOpen := by
  cases r <;> simp [RequestKind.isHost]

/-! ### When an operation is suspended (R83 to R85) -/

section Suspension

variable {k : Bank} {o : Operation}

/-- R83: the quantum has expired, and the suspend count is below the limit of its kind. -/
theorem suspendable_iff (ha : k.active = some o) :
    k.suspendable = true ↔
      k.quantumEnd = none ∧ ((o.op = .program ∧ o.suspends < 4) ∨ (o.op = .erase ∧ o.suspends < 32)) := by
  cases ho : o.op <;> simp [Bank.suspendable, ha, ho, programSuspends, eraseSuspends]

/-- R84: a read for a program, a read or a host program for an erase. -/
theorem urgent_iff (ha : k.active = some o) (q : Request) :
    k.urgent q = true ↔ (o.op = .program ∧ q.kind = .read)
      ∨ (o.op = .erase ∧ (q.kind = .read ∨ q.kind = .hostRecord ∨ q.kind = .hostOpen)) := by
  cases ho : o.op <;> simp [Bank.urgent, Bank.activeOp, ha, ho, isHost_iff]

/-- R85: the same, for the requests that wait. -/
theorem hasWaiter_iff (ha : k.active = some o) :
    k.hasWaiter = true ↔ (o.op = .program ∧ k.readQ ≠ []) ∨ (o.op = .erase ∧ (k.readQ ≠ [] ∨ k.hostQ ≠ [])) := by
  cases ho : o.op <;> simp [Bank.hasWaiter, Bank.activeOp, ha, ho]

/-- Whether a request that arrives suspends the active operation (R83, R84). -/
def interrupts (k : Bank) (q : Request) : Bool := k.urgent q && k.suspendable

theorem interrupts_iff (q : Request) :
    interrupts k q = true ↔ k.quantumEnd = none ∧ ∃ o, k.active = some o
      ∧ ((o.op = .program ∧ q.kind = .read ∧ o.suspends < 4)
        ∨ (o.op = .erase ∧ (q.kind = .read ∨ q.kind = .hostRecord ∨ q.kind = .hostOpen) ∧ o.suspends < 32)) := by
  cases ha : k.active with
  | none => simp [interrupts, Bank.suspendable, ha]
  | some o =>
    simp only [interrupts, Bool.and_eq_true, urgent_iff ha, suspendable_iff ha, Option.some.injEq, exists_eq_left']
    cases ho : o.op <;> simp [and_comm, and_assoc]

theorem arrive_idle (h : k.state = .idle) (now quantum : Nat) (q : Request) :
    k.arrive now quantum q = (k.join q).select now quantum := by
  simp only [Bank.arrive, h]

theorem arrive_suspending (h : k.state = .suspending) (now quantum : Nat) (q : Request) :
    k.arrive now quantum q = k.join q := by
  simp only [Bank.arrive, h]

theorem arrive_active (h : k.state = .active) (now quantum : Nat) (q : Request) :
    k.arrive now quantum q = if interrupts k q then (k.join q).askSuspend else k.join q := by
  unfold Bank.arrive interrupts
  rw [h]

theorem arrive_active_state (h : k.state = .active) (now quantum : Nat) (q : Request) :
    (k.arrive now quantum q).state = .suspending ↔ interrupts k q = true := by
  obtain ⟨-, -, hj, -⟩ := k.join_rest q
  rw [arrive_active h]
  split
  · next hi => simp [hi, Bank.askSuspend]
  · next hi => simp [hi, hj, h]

/-- Whether the active operation is suspended at the expiry of its quantum (R85). -/
def yields (k : Bank) : Bool := k.hasWaiter && ({ k with quantumEnd := none } : Bank).suspendable

theorem yields_iff (ha : k.active = some o) :
    yields k = true ↔ (o.op = .program ∧ k.readQ ≠ [] ∧ o.suspends < 4)
      ∨ (o.op = .erase ∧ (k.readQ ≠ [] ∨ k.hostQ ≠ []) ∧ o.suspends < 32) := by
  have hs := suspendable_iff (k := { k with quantumEnd := none }) ha
  simp only [yields, Bool.and_eq_true, hasWaiter_iff ha, hs]
  cases ho : o.op <;> simp

theorem quantumExpired_eq (k : Bank) :
    k.quantumExpired = { k with quantumEnd := none, state := if yields k then .suspending else k.state } := by
  have hd : k.quantumExpired = if yields k then ({ k with quantumEnd := none } : Bank).askSuspend
      else { k with quantumEnd := none } := rfl
  rw [hd]
  split <;> rfl

end Suspension

/-! ### One bank in its place -/

section OneBank

variable {e : Engine} {b : Nat}

/-- A bank whose state is not that of an absent one is there. -/
theorem bank_there (h : (e.bank b).state ≠ .idle) : b < e.banks.length := by
  refine Nat.lt_of_not_le fun hb => ?_
  have : e.bank b = {} := by
    unfold Engine.bank
    rw [List.getD_eq_getElem?_getD, List.getElem?_eq_none hb, Option.getD_none]
  exact h (this ▸ rfl)

/-- Of a change only what it makes of the bank that is there matters. -/
theorem modBank_congr {f g : Bank → Bank} (h : f (e.bank b) = g (e.bank b)) : e.modBank b f = e.modBank b g := by
  unfold Engine.modBank
  cases hk : e.banks[b]? with
  | none => rw [updAt_absent hk, updAt_absent hk]
  | some k =>
    have hb : e.bank b = k := by unfold Engine.bank; rw [List.getD_eq_getElem?_getD, hk, Option.getD_some]
    rw [updAt_set hk, updAt_set hk, ← hb, h]

theorem updAt_updAt {α : Type} (l : List α) (i : Nat) (f g : α → α) :
    updAt (updAt l i f) i g = updAt l i fun x => g (f x) := by
  induction l generalizing i with
  | nil => rfl
  | cons a l ih =>
    cases i with
    | zero => rfl
    | succ i => exact congrArg (a :: ·) (ih i)

theorem modBank_modBank (e : Engine) (b : Nat) (f g : Bank → Bank) :
    (e.modBank b f).modBank b g = e.modBank b fun k => g (f k) := by
  simp only [Engine.modBank, updAt_updAt]

theorem quantumEvent_active {m : Nat} (hs : (e.bank b).state = .active) (hq : (e.bank b).quantumEnd = some m) :
    e.quantumEvent b = e.modBank b Bank.quantumExpired := by
  simp only [Engine.quantumEvent, hs, hq]

end OneBank

/-- Settles O20: at the expiry by what waits, at an arrival by what arrives. -/
theorem anExpiredQuantumSuspendsForWaiters : Obligations.AnExpiredQuantumSuspendsForWaiters := by
  refine ⟨fun s b o m hon hs ha hm hop => ⟨?_, fun k now quantum q hk hka hkq => ?_⟩, fun o =>
    ⟨op_eq_read_iff o, op_eq_erase_iff o, op_eq_blankCheck_iff o, op_eq_program_iff o⟩⟩
  · refine ⟨if yields (s.engine.bank b) then .suspending else .active, ?_, ?_, fun hp => ?_, fun he => ?_⟩
    · have hcongr : s.engine.quantumEvent b = s.engine.modBank b fun k =>
          { k with quantumEnd := none, state := if yields (s.engine.bank b) then .suspending else .active } := by
        rw [quantumEvent_active hs hm]
        exact modBank_congr (by rw [quantumExpired_eq, hs])
      exact congrArg Host.Outcome.next ((State.withEngine_on s _ hon).trans (by rw [hcongr]))
    · split
      · exact .inl rfl
      · exact .inr rfl
    · simp [yields_iff ha, hp]
    · simp [yields_iff ha, he]
  · have harr := arrive_active_state hk now quantum q
    exact ⟨fun hp => by simp [harr, interrupts_iff, hka, hkq, hp], fun he => by simp [harr, interrupts_iff, hka, hkq, he]⟩

/-! ### The selection (R79, R80) -/

section Selection

variable {k : Bank} {q : Request} {o : Operation} {rest : List Request} {below : List Operation}

/-- Step 1: a reclaim program ahead of every queue, once the host streak is 8. -/
theorem select_streak (hst : k.stack = []) (h8 : k.streak = 8) (hr : k.reclaimQ = q :: rest) (now quantum : Nat) :
    k.select now quantum = { k with reclaimQ := rest, streak := 0 }.start now quantum q := by
  simp only [Bank.select, hst, hr, h8, maxStreak, if_true, Bank.startReclaim]

theorem select_foreground (h : k.stack = [] → k.streak = 8 → k.reclaimQ = []) (now quantum : Nat) :
    k.select now quantum = k.selectForeground now quantum := by
  unfold Bank.select
  split
  · next hst hr => exact if_neg fun h8 => List.cons_ne_nil _ _ (hr.symm.trans (h hst h8))
  · rfl

/-- Step 2: the oldest read. -/
theorem foreground_read (hq : k.readQ = q :: rest) (now quantum : Nat) :
    k.selectForeground now quantum = { k with readQ := rest }.start now quantum q := by
  simp only [Bank.selectForeground, hq]

/-- Step 3: a suspended program. -/
theorem foreground_resume (hq : k.readQ = []) (hst : k.stack = o :: below) (ho : o.op = .program) (now quantum : Nat) :
    k.selectForeground now quantum = { k with stack := below }.run now quantum o := by
  simp only [Bank.selectForeground, hq, hst, ho, if_true]

/-- Step 4: the oldest host program, above nothing or an erase. -/
theorem foreground_host (hq : k.readQ = []) (hst : ∀ o ∈ k.stack.head?, o.op ≠ .program) (hh : k.hostQ = q :: rest)
    (now quantum : Nat) : k.selectForeground now quantum = k.startHost now quantum q rest := by
  cases hs : k.stack with
  | nil => simp only [Bank.selectForeground, hq, hs, hh]
  | cons o below =>
    have ho : o.op ≠ .program := hst o (by simp [hs])
    simp only [Bank.selectForeground, hq, hs, hh, if_neg ho]

/-- Steps 5 to 7, where no host program waits. -/
theorem foreground_background (hq : k.readQ = []) (hst : ∀ o ∈ k.stack.head?, o.op ≠ .program) (hh : k.hostQ = [])
    (now quantum : Nat) : k.selectForeground now quantum = k.selectBackground now quantum := by
  cases hs : k.stack with
  | nil => simp only [Bank.selectForeground, hq, hs, hh]
  | cons o below =>
    have ho : o.op ≠ .program := hst o (by simp [hs])
    simp only [Bank.selectForeground, hq, hs, hh, if_neg ho]

theorem startHost_eq (k : Bank) (now quantum : Nat) (q : Request) (rest : List Request) :
    k.startHost now quantum q rest = { k with
      hostQ := rest, streak := if k.reclaimQ = [] then k.streak else min 8 (k.streak + 1) }.start now quantum q := by
  simp only [Bank.startHost, List.isEmpty_iff, maxStreak]

/-- Step 5: a suspended erase. -/
theorem background_resume (hst : k.stack = o :: below) (now quantum : Nat) :
    k.selectBackground now quantum = { k with stack := below }.run now quantum o := by
  simp only [Bank.selectBackground, hst]

/-- Step 6: the oldest reclaim program. -/
theorem background_reclaim (hst : k.stack = []) (hr : k.reclaimQ = q :: rest) (now quantum : Nat) :
    k.selectBackground now quantum = { k with reclaimQ := rest, streak := 0 }.start now quantum q := by
  simp only [Bank.selectBackground, hst, hr, Bank.startReclaim]

/-- Step 7: the oldest erase or blank check. -/
theorem background_erase (hst : k.stack = []) (hr : k.reclaimQ = []) (he : k.eraseQ = q :: rest) (now quantum : Nat) :
    k.selectBackground now quantum = { k with eraseQ := rest }.start now quantum q := by
  simp only [Bank.selectBackground, hst, hr, he]

/-- No step applies: the bank becomes IDLE. -/
theorem background_none (hst : k.stack = []) (hr : k.reclaimQ = []) (he : k.eraseQ = []) (now quantum : Nat) :
    k.selectBackground now quantum = { k with state := .idle, active := none, quantumEnd := none } := by
  simp only [Bank.selectBackground, hst, hr, he]

end Selection

/-! ### Running, and the ends of operations (R79, R82, R95) -/

theorem run_eq (k : Bank) (now quantum : Nat) (o : Operation) :
    k.run now quantum o =
      { k with state := .active, active := some o, quantumEnd := quantumEndFor now quantum o.op } := rfl

section Ends

variable {e : Engine} {b : Nat}

theorem opEnded_running (h : e.state ≠ .halted) (report : Engine → Engine) :
    e.opEnded b report = ((report (e.modBank b Bank.ended)).selectBank b).settle := by
  unfold Engine.opEnded
  split
  · next hh => exact absurd hh h
  · rfl

theorem opEnded_halted (h : e.state = .halted) (report : Engine → Engine) :
    e.opEnded b report = (e.modBank b Bank.haltedIdle).settle := by
  simp only [Engine.opEnded, h]

/-- The end of an operation is the same whether its bank is ACTIVE with it or SUSPENDING it. -/
theorem opEnded_setActive (e : Engine) (b : Nat) (report : Engine → Engine) :
    (e.modBank b fun k => { k with state := .active }).opEnded b report = e.opEnded b report := by
  by_cases h : e.state = .halted
  · rw [opEnded_halted (e := e.modBank b _) h, opEnded_halted h, modBank_modBank]
    rfl
  · rw [opEnded_running (e := e.modBank b _) h, opEnded_running h, modBank_modBank]
    rfl

theorem suspended_running {o : Operation} (h : e.state ≠ .halted) (ha : (e.bank b).active = some o) :
    e.suspended b = ((e.modBank b fun k =>
      { k with
        state := .active, active := none, quantumEnd := none
        stack := { o with suspends := o.suspends + 1 } :: k.stack }).selectBank b).settle := by
  have hpush : e.modBank b Bank.pushActive = e.modBank b fun k =>
      { k with
        state := .active, active := none, quantumEnd := none
        stack := { o with suspends := o.suspends + 1 } :: k.stack } :=
    modBank_congr (by simp only [Bank.pushActive, ha]; rfl)
  unfold Engine.suspended
  split
  · next hh => exact absurd hh h
  · rw [hpush]

end Ends

section Reports

variable {s : State} {b : Nat} {o : Operation}

/-- The same state with the bank ACTIVE. -/
def resumedAt (s : State) (b : Nat) : State :=
  { s with engine := s.engine.modBank b fun k => { k with state := .active } }

theorem endProgram_resumedAt (s : State) (b : Nat) (o : Operation) (pass : Bool) :
    (resumedAt s b).endProgram b o pass = s.endProgram b o pass := by
  cases pass with
  | true => exact congrArg (fun k => ({ s with array := _, engine := k } : State)) (opEnded_setActive s.engine b _)
  | false => exact congrArg (fun k => ({ s with array := _, engine := k } : State)) (opEnded_setActive s.engine.draw b _)

theorem endErase_resumedAt (s : State) (b : Nat) (o : Operation) (pass : Bool) :
    (resumedAt s b).endErase b o pass = s.endErase b o pass := by
  cases pass with
  | true => exact congrArg (fun k => ({ s with array := _, engine := k } : State)) (opEnded_setActive s.engine b _)
  | false => exact congrArg (fun k => ({ s with array := _, engine := k } : State)) (opEnded_setActive s.engine.draw b _)

theorem resumedAt_activeAt {op : MediaOp} (hon : s.supply = .on) (hs : (s.engine.bank b).state = .suspending)
    (ha : (s.engine.bank b).active = some o) (ho : o.op = op) : (resumedAt s b).activeAt b op o := by
  have hb : b < s.engine.banks.length := bank_there (by simp [hs])
  have hbank : (resumedAt s b).engine.bank b = { s.engine.bank b with state := .active } :=
    Engine.modBank_bank_self _ _ _ hb
  exact ⟨hon, by simpa [resumedAt] using hb, by rw [hbank], by rw [hbank]; exact ha, ho⟩

theorem endOp_program (h : o.op = .program) (pass : Bool) : s.endOp b o pass = s.endProgram b o pass := by
  simp only [State.endOp, h]

theorem endOp_erase (h : o.op = .erase) (pass : Bool) : s.endOp b o pass = s.endErase b o pass := by
  simp only [State.endOp, h]

/-- An end report finds the operation that its bank is ACTIVE with. -/
theorem whenOn_onActive {op : MediaOp} (h : s.activeAt b op o) (f : State → Operation → State) :
    s.whenOn (fun t => t.onActive b op (f t)) = f s o := by
  obtain ⟨hon, -⟩ := id h
  rw [State.whenOn_on s _ hon, SegmentSpace.onActive_of_activeAt h]

theorem exec_programDone (h : s.activeAt b .program o) (pass : Bool) :
    exec (.programDone b pass) s = .next (s.endProgram b o pass) :=
  congrArg Host.Outcome.next (whenOn_onActive h fun t o => t.endProgram b o pass)

theorem exec_suspendReport (hon : s.supply = .on) (outcome : SuspendOutcome) :
    exec (.suspendReport b outcome) s = .next (s.suspendReported b outcome) :=
  congrArg Host.Outcome.next (State.whenOn_on s _ hon)

theorem suspendingOp_of (hs : (s.engine.bank b).state = .suspending) (ha : (s.engine.bank b).active = some o) :
    s.engine.suspendingOp b = some o := by
  simp only [Engine.suspendingOp, hs, ha]

end Reports

/-- Settles O19: a suspension that takes effect is a push and a selection, and one that ends first is the end that
PROGRAM_DONE or ERASE_DONE would be. -/
theorem aSuspensionPushesItsOperation : Obligations.ASuspensionPushesItsOperation := by
  intro s b o hon hrun hs ha
  have hop : s.engine.suspendingOp b = some o := suspendingOp_of hs ha
  refine ⟨?_, ?_, ?_, fun t ht => ⟨fun ho pass => ?_, fun ho pass => ?_⟩⟩
  · rw [exec_suspendReport hon, ← suspended_running hrun ha]
    simp only [State.suspendReported, hop]
  · rw [exec_suspendReport hon]
    simp only [State.suspendReported, hop]
  · rw [exec_suspendReport hon]
    simp only [State.suspendReported, hop]
  · obtain rfl : t = resumedAt s b := ht
    rw [exec_programDone (resumedAt_activeAt hon hs ha ho), endProgram_resumedAt, endOp_program ho]
  · obtain rfl : t = resumedAt s b := ht
    rw [SegmentSpace.exec_eraseDone (resumedAt_activeAt hon hs ha ho), endErase_resumedAt, endOp_erase ho]

/-- Settles O21: the steps of the selection in order, then running, arriving and ending. -/
theorem theBankSelectsInOrder : Obligations.TheBankSelectsInOrder := by
  refine ⟨fun k now quantum ha hq => ⟨fun q rest hst h8 hr => select_streak hst h8 hr now quantum, fun h => ?_⟩,
    fun k now quantum o q => ⟨rfl, fun ho => ?_, fun ho => ?_, fun ho => ?_, op_eq_read_iff o, op_eq_erase_iff o,
      op_eq_blankCheck_iff o⟩,
    fun k j now quantum q suspends hj hsus => ?_,
    fun e b q report => ⟨rfl, rfl, fun h => opEnded_running h report, fun h => opEnded_halted h report⟩⟩
  · have empty : k.stack = [] → ∀ o ∈ k.stack.head?, o.op ≠ .program := fun hst => by simp [hst]
    rw [select_foreground h]
    refine ⟨fun q rest hr => foreground_read hr now quantum,
      fun o below hr hst ho => foreground_resume hr hst ho now quantum,
      fun q rest hr hst hh => ?_, fun o below hr hh hst ho => ?_, fun q rest hr hh hst hc => ?_, fun q rest hr hh hst hc he => ?_,
      fun hr hh hst hc he => ?_⟩
    · have erases : ∀ o ∈ k.stack.head?, o.op ≠ .program := fun o ho => by simp [hst o (List.mem_of_mem_head? ho)]
      rw [foreground_host hr erases hh, startHost_eq]
    · rw [foreground_background hr (by simp [hst, ho]) hh, background_resume hst]
    · rw [foreground_background hr (empty hst) hh, background_reclaim hst hc]
    · rw [foreground_background hr (empty hst) hh, background_erase hst hc he]
    · rw [foreground_background hr (empty hst) hh, background_none hst hc he, ← ha, ← hq]
  · rw [run_eq, ho]; rfl
  · rw [run_eq, ho]; rfl
  · rcases ho with ho | ho <;> rw [run_eq, ho] <;> rfl
  · have hi : suspends = interrupts k q := by rw [Bool.eq_iff_iff, hsus, interrupts_iff]
    have hjoin : j = k.join q := by
      rw [hj]
      unfold Bank.join
      cases q.kind <;> rfl
    subst hi hjoin
    exact ⟨fun h => arrive_idle h now quantum q, fun h => arrive_suspending h now quantum q,
      fun h hn => (arrive_active h now quantum q).trans (if_neg (Bool.eq_false_iff.mp hn)),
      fun h hy => (arrive_active h now quantum q).trans (if_pos hy)⟩

/-! ### The end of a BLANK_CHECK (R78, R89) -/

theorem get_eq_none_iff (a : CellArray) (n : Nat) : a.get n = none ↔ ∀ p ∈ a, p.1 ≠ n := by
  induction a with
  | nil => simp [CellArray.get]
  | cons p l ih =>
    obtain ⟨m, d⟩ := p
    by_cases hm : m = n
    · simp [CellArray.get, hm]
    · simp [CellArray.get, hm, ih]

/-- A segment is blank exactly when each of its cells reads erased. -/
theorem blank_iff (a : CellArray) (seg : Nat) :
    a.blank seg = true ↔ ∀ n, 2048 * seg ≤ n → n < 2048 * (seg + 1) → a.get n = none := by
  have hb : a.blank seg = true ↔ ∀ p ∈ a, ¬ (2048 * seg ≤ p.1 ∧ p.1 < 2048 * (seg + 1)) := by
    simp only [CellArray.blank, List.all_eq_true, Bool.not_eq_true', ← Bool.not_eq_true, SegmentSpace.inSegment_iff]
  simp only [hb, get_eq_none_iff]
  exact ⟨fun h n hl hu p hp he => h p hp (he ▸ ⟨hl, hu⟩), fun h p hp hin => h p.1 hin.1 hin.2 p hp rfl⟩

section Ends

variable {s : State} {b : Nat} {o : Operation}

theorem exec_blankCheckDone (h : s.activeAt b .blankCheck o) (disturbed : Bool) :
    exec (.blankCheckDone b disturbed) s = .next (s.endBlankCheck b o disturbed) :=
  congrArg Host.Outcome.next (whenOn_onActive h fun t o => t.endBlankCheck b o disturbed)

theorem exec_readDone (h : s.activeAt b .read o) (flips : List Nat) :
    exec (.readDone b flips) s = .next (s.endRead b o flips) :=
  congrArg Host.Outcome.next (whenOn_onActive h fun t o => t.endRead b o flips)

theorem exec_programTimeout : exec (.programTimeout b) s = exec (.programDone b false) s := rfl

end Ends

/-- Settles O18: the answer is BLANK for a segment with every cell erased and none disturbed. -/
theorem aBlankCheckTestsEveryCell : Obligations.ABlankCheckTestsEveryCell := by
  intro s b disturbed o h
  refine ⟨_, exec_blankCheckDone h disturbed, ?_⟩
  rw [Bool.and_eq_true, Bool.not_eq_true', blank_iff]
  exact and_comm

/-! ### What a failed PROGRAM leaves of its cells (R88, R96, R147) -/

section FailedCells

variable {a : CellArray}

theorem get_failProgram_out (draw n : Nat) (ds : List CellData) (m : Nat) (h : m < n ∨ n + ds.length ≤ m) :
    (a.failProgram draw n ds).get m = a.get m := by
  induction ds generalizing a n with
  | nil => rfl
  | cons d ds ih =>
    simp only [List.length_cons] at h
    rw [CellArray.failProgram, ih _ (by omega), CellArray.get_set_ne _ m _ (by omega)]

theorem get_failProgram_in (h : a.wf) (draw n : Nat) (ds : List CellData) {i : Nat} {d : CellData}
    (hi : ds[i]? = some d) : (a.failProgram draw n ds).get (n + i) = (Config.tornCell draw (n + i)).contents d := by
  induction ds generalizing a n i with
  | nil => cases hi
  | cons c ds ih =>
    rw [CellArray.failProgram]
    cases i with
    | zero =>
      cases hi
      rw [get_failProgram_out _ _ _ _ (by omega)]
      exact CellArray.get_set_self h _ _
    | succ i =>
      rw [show n + (i + 1) = n + 1 + i by omega]
      exact ih (CellArray.set_wf h n _) (n + 1) hi

theorem contents_cases (d : CellData) (x : TornCell) :
    x.contents d = none ∨ x.contents d = some d ∨ ∃ tag, x.contents d = some (.stray tag) := by
  cases x with
  | blank => exact .inl rfl
  | whole => exact .inr (.inl rfl)
  | stray t => exact .inr (.inr ⟨t, rfl⟩)

theorem cutContents_cases (d : CellData) (draw : Nat) (whole : Bool) (x : TornCell) :
    x.cutContents d draw whole = none ∨ x.cutContents d draw whole = some d
      ∨ ∃ tag, x.cutContents d draw whole = some (.torn tag) := by
  cases x with
  | blank => exact .inl rfl
  | stray t => exact .inr (.inr ⟨t, rfl⟩)
  | whole =>
    cases whole with
    | true => exact .inr (.inl rfl)
    | false => exact .inr (.inr ⟨draw, rfl⟩)

/-- Each cell of a program cut short is erased, whole or torn. -/
theorem get_cutProgram_in (h : a.wf) (draw n : Nat) (ds : List CellData) {i : Nat} {d : CellData}
    (hi : ds[i]? = some d) :
    (a.cutProgram draw n ds).get (n + i) = none ∨ (a.cutProgram draw n ds).get (n + i) = some d
      ∨ ∃ tag, (a.cutProgram draw n ds).get (n + i) = some (.torn tag) := by
  have hcut : ∀ whole, (a.cutCells draw whole n ds).get (n + i) = none
      ∨ (a.cutCells draw whole n ds).get (n + i) = some d
      ∨ ∃ tag, (a.cutCells draw whole n ds).get (n + i) = some (.torn tag) := fun whole => by
    rw [CellArray.get_cutCells_in h draw whole n ds hi]
    exact cutContents_cases d draw whole _
  unfold CellArray.cutProgram
  dsimp only
  split
  · by_cases hm : n + i = n + ds.length - 1
    · rw [hm, CellArray.get_set_self (CellArray.cutCells_wf h _ _ _ _)]
      exact .inl rfl
    · rw [CellArray.get_set_ne _ _ _ hm]
      exact hcut _
  · exact hcut _

/-- The cells of a failed program are the only ones it changes. -/
theorem get_failRequest_out (draw : Nat) (q : Request) (m : Nat)
    (h : m < cellNumber q.seg q.cell ∨ cellNumber q.seg q.cell + q.contents.length ≤ m) :
    (a.failRequest draw q).get m = a.get m := by
  unfold CellArray.failRequest
  dsimp only
  split
  · exact CellArray.get_cutProgram_out _ _ _ m h
  · exact get_failProgram_out _ _ _ m h

/-- Each of them is erased, whole or neither. -/
theorem get_failRequest_in (h : a.wf) (draw : Nat) (q : Request) {first : Bool}
    (hfirst : first = true ↔ q.kind = .hostRecord ∧ q.failures = 0) {i : Nat} {d : CellData}
    (hi : q.contents[i]? = some d) {m : Nat} (hm : m = cellNumber q.seg q.cell + i) :
    (a.failRequest draw q).get m = none ∨ (a.failRequest draw q).get m = some d
      ∨ ∃ tag, (a.failRequest draw q).get m = some (if first then .torn tag else .stray tag) := by
  subst hm
  cases first with
  | true =>
    obtain ⟨hk, hf⟩ := hfirst.mp rfl
    rw [CellArray.failRequest_first a draw hk hf]
    exact get_cutProgram_in h draw _ _ hi
  | false =>
    have hother : ¬ (q.kind = .hostRecord ∧ q.failures = 0) := fun hq => Bool.false_ne_true (hfirst.mpr hq)
    rw [CellArray.failRequest_other a draw (Decidable.not_and_iff_not_or_not.mp hother), get_failProgram_in h _ _ _ hi]
    exact contents_cases d _

end FailedCells

/-! ### What the blocks take of a passed PROGRAM (R61, R90) -/

section Passed

variable {e : Engine} {q : Request} {g : SegRecord}

theorem inUse_iff (st : SegState) :
    st.inUse = true ↔ st = .head ∨ st = .full ∨ st = .failedClosed ∨ st = .reclaiming := by
  rw [DataJobs.inUse_iff, DataJobs.eligible_iff, or_assoc, or_assoc]

theorem recordPassed_taken (hg : e.space.segs[q.seg]? = some g) (hm : e.state ≠ .mounting) (hu : g.state.inUse = true)
    (take : Engine → Location → Engine) :
    e.recordPassed q take = take (e.withSeg q.seg { g with progPtr := g.progPtr + q.count }) q.location := by
  have hc : (e.state != .mounting && (e.seg q.seg).state.inUse) = true := by simp [hm, DataJobs.seg_of hg, hu]
  rw [Engine.recordPassed, if_pos hc, Engine.advanceProgrammed, DataJobs.modSeg_eq_withSeg hg]

theorem recordPassed_ignored (hg : e.space.segs[q.seg]? = some g) (h : e.state = .mounting ∨ g.state.inUse = false)
    (take : Engine → Location → Engine) : e.recordPassed q take = e := by
  have hc : ¬ (e.state != .mounting && (e.seg q.seg).state.inUse) = true := by
    rcases h with h | h <;> simp [DataJobs.seg_of hg, h]
  rw [Engine.recordPassed, if_neg hc]

theorem programPassed_hostRecord {c : Nat} (hk : q.kind = .hostRecord) (hr : q.requester = .ctx c) :
    e.programPassed q = e.recordPassed q fun k l => k.hostProgramPassed c l := by
  simp only [Engine.programPassed, hk, hr]

theorem programPassed_reclaimRecord (hk : q.kind = .reclaimRecord) :
    e.programPassed q = e.recordPassed q Engine.reclaimProgramPassed := by
  simp only [Engine.programPassed, hk]

theorem programPassed_open (hk : q.kind = .hostOpen ∨ q.kind = .reclaimOpen) : e.programPassed q = e := by
  rcases hk with hk | hk <;> simp only [Engine.programPassed, hk]

theorem programPassed_formatCell (hk : q.kind = .formatCell) :
    e.programPassed q = if q.requester = .mount then e.mountProgramDone q true else e.formatCellPassed q := by
  cases hr : q.requester <;> simp [Engine.programPassed, hk, hr]

theorem programPassed_retireCell (hk : q.kind = .retireCell) :
    e.programPassed q = if q.requester = .mount then e.mountProgramDone q true else e := by
  cases hr : q.requester <;> simp [Engine.programPassed, hk, hr]

/-- A record of a segment that is not in use, or during MOUNTING, is taken by no block. -/
theorem programPassed_ignored (hg : e.space.segs[q.seg]? = some g) (hk : q.kind = .hostRecord ∨ q.kind = .reclaimRecord)
    (h : e.state = .mounting ∨ g.state.inUse = false) : e.programPassed q = e := by
  rcases hk with hk | hk
  · cases hr : q.requester with
    | ctx c => rw [programPassed_hostRecord hk hr, recordPassed_ignored hg h]
    | reclaim => simp only [Engine.programPassed, hk, hr]
    | mount => simp only [Engine.programPassed, hk, hr]
    | space => simp only [Engine.programPassed, hk, hr]
  · rw [programPassed_reclaimRecord hk, recordPassed_ignored hg h]

end Passed

/-- Settles O15: what a PROGRAM that passed, and one that failed, leaves of each cell, and what the blocks take of a pass by
the kind of the request. -/
theorem aProgramEndReachesOnlyItsCells : Obligations.AProgramEndReachesOnlyItsCells := by
  refine ⟨fun s b o hw h => ⟨_, exec_programDone h true, rfl, rfl, rfl, fun i hi => ?_, fun n hn => ?_⟩,
    fun s b o hw h => ⟨exec_programTimeout, _, exec_programDone h false, rfl, rfl, rfl,
      fun first m hfirst hm => ⟨fun i d hi => ?_, fun hf => ?_⟩, fun n hn => ?_⟩,
    fun e k q g l hg hl hk => ⟨fun hm hu => ⟨fun c hq hr => ?_, fun hq => ?_⟩, fun hq hi => ?_, programPassed_open,
      programPassed_formatCell, programPassed_retireCell⟩⟩
  · exact CellArray.get_program_in hw _ i _ hi
  · exact CellArray.get_program_out _ n _ hn
  · exact get_failRequest_in hw _ o.request hfirst hi (by rw [hm])
  · obtain ⟨hq, hz⟩ := hfirst.mp hf
    have hcut : (s.endProgram b o false).array = s.array.cutProgram s.engine.draws m o.request.contents :=
      hm ▸ CellArray.failRequest_first s.array _ hq hz
    rw [hcut]
    exact CellArray.cutProgram_torn hw _ m _
  · exact get_failRequest_out _ o.request n hn
  · rw [programPassed_hostRecord hq hr, recordPassed_taken hg hm ((inUse_iff _).mpr hu), hk, hl, Request.location]
  · rw [programPassed_reclaimRecord hq, recordPassed_taken hg hm ((inUse_iff _).mpr hu), hk, hl, Request.location]
  · refine programPassed_ignored hg hq (hi.imp id fun hn => Bool.eq_false_iff.mpr fun hu => ?_)
    obtain ⟨hn1, hn2, hn3, hn4⟩ := hn
    rcases (inUse_iff _).mp hu with hu | hu | hu | hu <;> contradiction

/-! ### The end of a READ (R89, R97, R98) -/

theorem classify_blank : classify none 0 = .blank := rfl

theorem classify_disturbed {k : Nat} (h1 : 1 ≤ k) (h4 : k ≤ 4) : classify none k = .good (.stray 0) k := by
  rw [classify, if_neg (by omega), if_pos h4]

theorem classify_programmed {k : Nat} (h4 : k ≤ 4) (d : CellData) : classify (some d) k = .good d k := by
  rw [classify, if_pos h4]

theorem classify_uncorrectable {k : Nat} (h4 : 4 < k) (v : Option CellData) : classify v k = .uncorrectable := by
  have hk : ¬ k ≤ 4 := Nat.not_le.mpr h4
  cases v with
  | none => rw [classify, if_neg (by omega), if_neg hk]
  | some d => rw [classify, if_neg hk]

theorem readCells_length (a : CellArray) (n count : Nat) (flips : List Nat) :
    (readCells a n count flips).length = count := by
  induction count generalizing n flips with
  | zero => rfl
  | succ count ih => exact congrArg (· + 1) (ih (n + 1) flips.tail)

theorem readCells_get (a : CellArray) {n count i : Nat} {flips : List Nat} (h : i < count) :
    (readCells a n count flips)[i]? = some (classify (a.get (n + i)) (flips.getD i 0)) := by
  induction count generalizing n i flips with
  | zero => cases h
  | succ count ih =>
    cases i with
    | zero => cases flips <;> rfl
    | succ i =>
      have hf : flips.tail.getD i 0 = flips.getD (i + 1) 0 := by cases flips <;> rfl
      rw [readCells, List.getElem?_cons_succ, ih (Nat.lt_of_succ_lt_succ h), hf, Nat.add_right_comm, Nat.add_assoc]

/-! ### The verdicts (R99, R100, R102) -/

theorem headerVerdict_eq_blank_iff (cell : Nat) (x : CellOutcome) : headerVerdict cell x = .blank ↔ x = .blank := by
  cases x with
  | blank => simp [headerVerdict]
  | uncorrectable => simp [headerVerdict]
  | good d m =>
    cases hd : d.asHeader with
    | none => simp [headerVerdict, hd]
    | some h => by_cases hr : h.inRange cell = true <;> simp [headerVerdict, hd, hr]

/-- Equal bytes have equal CRCs, so a check holds exactly when the CRCs agree (R2). -/
theorem checks_iff (h : RecordHeader) (bytes : List Byte) :
    h.checks bytes = true ↔ Config.crc h.checked = Config.crc bytes := by
  simp only [RecordHeader.checks, Bool.or_eq_true, beq_iff_eq]
  exact ⟨fun hc => hc.elim (congrArg _) id, .inr⟩

theorem inRange_iff (h : RecordHeader) (cell : Nat) :
    h.inRange cell = true ↔ 1 ≤ h.key ∧ h.key < 2 ^ 64 ∧ 1 ≤ h.rseq ∧ h.rseq < 2 ^ 48 ∧ h.len ≤ 4032
      ∧ (h.kind = .value ∨ h.len = 0) ∧ (h.len = 0 → Config.crc h.checked = Config.crc []) ∧ cell + h.cells ≤ 2047 := by
  have hlen : (h.len ≠ 0 ∨ Config.crc h.checked = Config.crc []) ↔ (h.len = 0 → Config.crc h.checked = Config.crc []) :=
    Decidable.imp_iff_not_or.symm
  simp only [RecordHeader.inRange, Bool.and_eq_true, Bool.or_eq_true, decide_eq_true_eq, beq_iff_eq, bne_iff_ne,
    checks_iff, hlen, and_assoc] <;> rfl

/-- R100's tests on the value cells, in their order. -/
theorem valueVerdict_eq (h : RecordHeader) (cells : List CellOutcome) :
    valueVerdict h cells =
      if h.len = 0 then .intact
      else if .blank ∈ cells then .torn
      else if .uncorrectable ∈ cells then .damaged
      else if h.checks (valueBytes h.len cells) then .intact else .torn := by
  have hb : cells.any CellOutcome.isBlank = true ↔ .blank ∈ cells := by simp [DataJobs.isBlank_iff]
  have hu : cells.any CellOutcome.isUncorrectable = true ↔ .uncorrectable ∈ cells := by
    simp [DataJobs.isUncorrectable_iff]
  simp only [valueVerdict, hb, hu]

theorem valueVerdict_eq_damaged_iff (h : RecordHeader) (cells : List CellOutcome) :
    valueVerdict h cells = .damaged ↔ 1 ≤ h.len ∧ .blank ∉ cells ∧ .uncorrectable ∈ cells := by
  rw [valueVerdict_eq, Nat.one_le_iff_ne_zero]
  split
  · next h0 => simp [h0]
  · next h0 =>
    split
    · next hb => simp [hb]
    · next hb =>
      split
      · next hu => simp [h0, hb, hu]
      · next hu => split <;> simp [hu]

theorem valueVerdict_eq_torn_iff (h : RecordHeader) (cells : List CellOutcome) :
    valueVerdict h cells = .torn ↔ 1 ≤ h.len
      ∧ (.blank ∈ cells ∨ (.uncorrectable ∉ cells ∧ ¬ h.checks (valueBytes h.len cells) = true)) := by
  rw [valueVerdict_eq, Nat.one_le_iff_ne_zero]
  split
  · next h0 => simp [h0]
  · next h0 =>
    split
    · next hb => simp [h0, hb]
    · next hb =>
      split
      · next hu => simp [hb, hu]
      · next hu => cases hc : h.checks (valueBytes h.len cells) <;> simp [h0, hb, hu]

/-! ### The bytes of a value in its cells (R36, R97) -/

theorem valueCells_length (n : Nat) (bytes : List Byte) : (valueCells n bytes).length = n := by
  induction n generalizing bytes with
  | zero => rfl
  | succ n ih => exact congrArg (· + 1) (ih (bytes.drop 64))

theorem valueCells_get {n i : Nat} (h : i < n) (bytes : List Byte) :
    (valueCells n bytes)[i]? = some (.value ((bytes.drop (64 * i)).take 64)) := by
  induction n generalizing bytes i with
  | zero => cases h
  | succ n ih =>
    cases i with
    | zero => rfl
    | succ i =>
      rw [valueCells, List.getElem?_cons_succ, ih (Nat.lt_of_succ_lt_succ h), List.drop_drop, Nat.mul_succ, Nat.add_comm]

/-- The cells hold these contents, whatever bits were corrected in them. -/
def ReadAs (ds : List CellData) (cells : List CellOutcome) : Prop :=
  ∀ (i : Nat) (d : CellData), ds[i]? = some d → ∃ k : Nat, cells[i]? = some (CellOutcome.good d k)

theorem readAs_cons {d : CellData} {ds : List CellData} {x : CellOutcome} {xs : List CellOutcome}
    (h : ReadAs (d :: ds) (x :: xs)) : (∃ k, x = .good d k) ∧ ReadAs ds xs := by
  obtain ⟨k, hk⟩ := h 0 d rfl
  exact ⟨⟨k, Option.some.inj hk⟩, fun i d hi => h (i + 1) d hi⟩

/-- The value cells of a value, read in order, are its bytes, as far as the cells reach. -/
theorem flatMap_bytes_of_readAs {n : Nat} {bytes : List Byte} {cells : List CellOutcome} (hl : cells.length = n)
    (h : ReadAs (valueCells n bytes) cells) : cells.flatMap CellOutcome.bytes = bytes.take (64 * n) := by
  induction n generalizing bytes cells with
  | zero => rw [List.length_eq_zero_iff.mp hl]; rfl
  | succ n ih =>
    cases cells with
    | nil => cases hl
    | cons x xs =>
      obtain ⟨⟨k, rfl⟩, hrest⟩ := readAs_cons h
      rw [List.flatMap_cons, ih (Nat.succ.inj hl) hrest, Nat.mul_succ, Nat.add_comm, List.take_add]
      rfl

theorem valueBytes_of_readAs {n : Nat} {bytes : List Byte} {cells : List CellOutcome} (hl : cells.length = n)
    (hb : bytes.length ≤ 64 * n) (h : ReadAs (valueCells n bytes) cells) : valueBytes bytes.length cells = bytes := by
  rw [valueBytes, flatMap_bytes_of_readAs hl h, List.take_of_length_le hb, List.take_length]

/-- Settles O17, from what classifying a cell gives, the verdicts, and the bytes of a value in its cells. -/
theorem aReadClassifiesItsCells : Obligations.AReadClassifiesItsCells := by
  refine ⟨fun s b flips o h => ⟨_, readCells_length .., exec_readDone h flips, fun i hi => ⟨_, rfl, ?_⟩⟩,
    fun cell x h => ⟨headerVerdict_eq_blank_iff cell x, ?_, rfl, rfl, ?_, checks_iff h, fun _ => rfl⟩,
    fun _ _ _ => ⟨rfl, rfl, rfl⟩, fun h cells sound hs => ?_, DataJobs.weakRead_iff, fun _ _ => rfl, fun _ _ => rfl,
    fun n bytes => ⟨valueCells_length n bytes, fun i hi => valueCells_get hi bytes,
      fun cells hl hb h => valueBytes_of_readAs hl hb h⟩⟩
  · rw [readCells_get _ hi]
    refine ⟨fun hv h0 => ?_, fun hv h1 h4 => ?_, fun d hv h4 => ?_, fun h4 => ?_⟩
    · rw [hv, h0, classify_blank]
    · rw [hv, classify_disturbed h1 h4]
    · rw [hv, classify_programmed h4]
    · rw [classify_uncorrectable h4]
  · simp only [DataJobs.headerVerdict_eq_valid_iff, inRange_iff]
  · rw [DataJobs.headerVerdict_eq_valid_iff]
    exact ⟨fun hr => ⟨_, _, rfl, rfl, hr⟩, fun ⟨_, _, hx, hh, hr⟩ => by cases hx; cases hh; exact hr⟩
  · have hc : h.checks (valueBytes h.len cells) = true ↔ sound := (checks_iff h _).trans hs.symm
    rw [← hc]
    exact ⟨DataJobs.valueVerdict_eq_intact_iff h cells, valueVerdict_eq_damaged_iff h cells,
      valueVerdict_eq_torn_iff h cells⟩

end Sys2Proof.Machine.BankControllers
end

section
/-! PROOFS. The refresh list (chapter 5, R108 to R110). The law of the list speaks of three things only: the list, the states of
the segments on it, and whether a mount is under way. So an operation keeps the law when it leaves those alone, when the
segments it takes out of the eligible states are not on the list, or when it empties the list. One rule for each operation says
which of these it is, in the order of the model; the commands and the step follow. -/

-- The rules are many and small: elaborated side by side they ask for more threads than there are.
set_option Elab.async false

namespace Sys2Proof.Machine

open Sys2Proof

theorem Engine.seg_of_mem_segTable {e : Engine} {p : SegRecord × Nat} (h : p ∈ e.segTable) : e.seg p.2 = p.1 :=
  DataJobs.seg_of (List.mk_mem_zipIdx_iff_getElem?.mp h)

/-- A change of one segment that leaves it eligible leaves every segment eligible that was. -/
theorem Engine.modSeg_eligible (e : Engine) (n : Nat) {f : SegRecord → SegRecord}
    (hf : (e.seg n).state.eligible = true → (f (e.seg n)).state.eligible = true) {d : Nat}
    (hd : (e.seg d).state.eligible = true) : ((e.modSeg n f).seg d).state.eligible = true := by
  by_cases hdn : d = n
  · subst hdn
    by_cases hl : d < e.space.segs.length
    · rw [Engine.modSeg_seg_self e d f hl]
      exact hf hd
    · rw [Engine.modSeg, updAt_absent (List.getElem?_eq_none (Nat.le_of_not_lt hl))]
      exact hd
  · rw [Engine.modSeg_seg_ne e n d f hdn]
    exact hd

namespace Engine.refreshLaw

variable {e : Engine}

/-! ### When the law is kept -/

/-- An empty list keeps the law. -/
theorem of_nil (hr : e.reclaim.refresh = []) : e.refreshLaw := by
  refine ⟨?_, fun n hn => ?_, fun _ => hr⟩
  · rw [hr]
    exact ⟨Nat.zero_le _, List.nodup_nil⟩
  · rw [hr] at hn
    cases hn

theorem holds (h : e.refreshLaw) : refreshHolds e.reclaim.refresh := h.1

theorem eligible (h : e.refreshLaw) {n : Nat} (hn : n ∈ e.reclaim.refresh) : (e.seg n).state.eligible = true := h.2.1 n hn

/-- A mount has an empty list. -/
theorem nil_of_mounting (h : e.refreshLaw) (hs : e.state = .mounting) : e.reclaim.refresh = [] := h.2.2 hs

/-- The law is kept by a change that leaves the list alone, takes no segment on it out of the eligible states, and starts no
mount. -/
theorem of_eligible (h : e.refreshLaw) {k : Engine} (hr : k.reclaim.refresh = e.reclaim.refresh)
    (hg : ∀ n ∈ e.reclaim.refresh, (e.seg n).state.eligible = true → (k.seg n).state.eligible = true)
    (hs : k.state = .mounting → e.state = .mounting) : k.refreshLaw := by
  rw [Engine.refreshLaw, hr]
  exact ⟨h.holds, fun n hn => hg n hn (h.eligible hn), fun hk => h.nil_of_mounting (hs hk)⟩

/-- The law is kept by a change that leaves the list and the segments alone and starts no mount. -/
theorem same (h : e.refreshLaw) {k : Engine} (hr : k.reclaim.refresh = e.reclaim.refresh := by rfl)
    (hg : k.space.segs = e.space.segs := by rfl) (hs : k.state = .mounting → e.state = .mounting := by exact id) :
    k.refreshLaw :=
  h.of_eligible hr (fun n _ he => by rw [Engine.seg, hg]; exact he) hs

/-- A segment that is not in an eligible state is not on the list. -/
theorem unlisted (h : e.refreshLaw) {n : Nat} (hn : (e.seg n).state.eligible = false) : n ∉ e.reclaim.refresh := by
  intro hm
  rw [h.eligible hm] at hn
  cases hn

/-- A segment changes and stays eligible if it was. -/
theorem modSeg (h : e.refreshLaw) (n : Nat) (f : SegRecord → SegRecord)
    (hf : (e.seg n).state.eligible = true → (f (e.seg n)).state.eligible = true := by exact id) :
    (e.modSeg n f).refreshLaw :=
  h.of_eligible rfl (fun _ _ => e.modSeg_eligible n hf) id

/-- A segment that is not on the list changes, whatever becomes of it. -/
theorem modSeg_unlisted (h : e.refreshLaw) {n : Nat} (hn : n ∉ e.reclaim.refresh) (f : SegRecord → SegRecord) :
    (e.modSeg n f).refreshLaw := by
  refine h.of_eligible rfl (fun d hd he => ?_) id
  rw [e.modSeg_seg_ne n d f (ne_of_mem_of_not_mem hd hn)]
  exact he

/-- An eligible segment that is not on the list joins it while there is room, outside MOUNTING (R109, R110). -/
theorem join (h : e.refreshLaw) (hm : e.state ≠ .mounting) {n : Nat} (he : (e.seg n).state.eligible = true)
    (hn : n ∉ e.reclaim.refresh) (hl : e.reclaim.refresh.length < refreshPlaces) :
    ({ e with reclaim := { e.reclaim with refresh := e.reclaim.refresh ++ [n] } } : Engine).wantChoice.refreshLaw := by
  refine ⟨h.holds.append hn hl, fun d hd => ?_, fun hs => absurd hs hm⟩
  rcases List.mem_append.mp hd with hd | hd
  · exact h.eligible hd
  · cases List.mem_singleton.mp hd
    exact he

/-- A fold of operations that keep the law. -/
theorem foldl {α : Type} {f : Engine → α → Engine} (hf : ∀ {k : Engine} (x : α), k.refreshLaw → (f k x).refreshLaw)
    (h : e.refreshLaw) (l : List α) : (l.foldl f e).refreshLaw := by
  induction l generalizing e with
  | nil => exact h
  | cons x l ih => exact ih (hf x h)

/-! ### Updates that leave the list and the states of the segments alone -/

theorem modCtx (h : e.refreshLaw) (c : Nat) (f : JobContext → JobContext) : (e.modCtx c f).refreshLaw := h.same
theorem modRing (h : e.refreshLaw) (r : Nat) (f : RingContext → RingContext) : (e.modRing r f).refreshLaw := h.same
theorem modBank (h : e.refreshLaw) (b : Nat) (f : Bank → Bank) : (e.modBank b f).refreshLaw := h.same
theorem enqueue (h : e.refreshLaw) (q : Request) : (e.enqueue q).refreshLaw := h.same
theorem emit (h : e.refreshLaw) (o : HostOutput) : (e.emit o).refreshLaw := h.same
theorem raiseNotice (h : e.refreshLaw) (b : NoticeBody) : (e.raiseNotice b).refreshLaw := h.same
theorem complete (h : e.refreshLaw) (c : Nat) (o : JobOutcome) : (e.complete c o).refreshLaw := h.same
theorem changeEntry (h : e.refreshLaw) (key : Nat) (f : Entry → Entry) : (e.changeEntry key f).refreshLaw := h.same
theorem wantChoice (h : e.refreshLaw) : e.wantChoice.refreshLaw := h.same
theorem setMount (h : e.refreshLaw) (f : MountUnit → MountUnit) : (e.setMount f).refreshLaw := h.same
theorem draw (h : e.refreshLaw) : e.draw.refreshLaw := h.same
theorem pin (h : e.refreshLaw) (n : Nat) : (e.pin n).refreshLaw := h.modSeg n _

theorem setReclaim (h : e.refreshLaw) (f : ReclaimUnit → ReclaimUnit)
    (hf : (f e.reclaim).refresh = e.reclaim.refresh := by rfl) : (e.setReclaim f).refreshLaw := h.same hf

theorem setState (h : e.refreshLaw) {st : EngineState} (hs : st ≠ .mounting) : (e.setState st).refreshLaw :=
  h.same (hs := fun k => absurd k hs)

/-! ### The Space Manager (chapter 3) -/

theorem addCause (h : e.refreshLaw) (c : ModeCause) : (e.addCause c).refreshLaw := by
  unfold Engine.addCause
  dsimp only
  split
  · exact h
  · split <;> exact h.same

theorem spaceTest (h : e.refreshLaw) : e.spaceTest.refreshLaw := by
  unfold Engine.spaceTest
  dsimp only
  split
  · exact h
  · split <;> split <;> exact h.same

/-- A closed head is FULL, which is eligible as a head is. -/
theorem closeHead (h : e.refreshLaw) (n : Nat) : (e.closeHead n).refreshLaw := (h.modSeg n _ fun _ => rfl).wantChoice

theorem openHead (h : e.refreshLaw) (n : Nat) (role : HeadRole) : (e.openHead n role).refreshLaw := by
  have hn := h.modSeg n (fun g => { g with state := .head, role := some role, sseq := some e.space.segSeq }) fun _ => rfl
  unfold Engine.openHead
  dsimp only
  split
  · refine (spaceTest (enqueue ?_ _)).addCause _
    exact hn.same
  · refine spaceTest (enqueue ?_ _)
    exact hn.same

theorem reserve (h : e.refreshLaw) (n k : Nat) : (e.reserve n k).1.refreshLaw := h.modSeg n _

theorem placeInNewHead (h : e.refreshLaw) (b k : Nat) : (e.placeInNewHead b k).1.refreshLaw := by
  unfold Engine.placeInNewHead
  split
  · exact (h.openHead _ _).reserve _ _
  · exact h

theorem placeInBank (h : e.refreshLaw) (b k : Nat) : (e.placeInBank b k).1.refreshLaw := by
  unfold Engine.placeInBank
  split
  · split
    · exact h.reserve _ _
    · exact (h.closeHead _).placeInNewHead b k
  · exact h.placeInNewHead b k

theorem placeInBanks (h : e.refreshLaw) (k : Nat) (bs : List Nat) : (e.placeInBanks k bs).1.refreshLaw := by
  induction bs generalizing e with
  | nil => exact h
  | cons b bs ih =>
    have hb := h.placeInBank b k
    unfold Engine.placeInBanks
    split
    · next hp => rw [hp] at hb; exact hb.same
    · next hp => rw [hp] at hb; exact ih hb

/-- A placement of a host record keeps the law, whether or not it finds room (R59). -/
theorem placeHost (h : e.refreshLaw) {k : Nat} {m : Engine} {l : Option Location} (hp : e.placeHost k = (m, l)) :
    m.refreshLaw := by
  have hm : (e.placeHost k).1.refreshLaw := h.placeInBanks k e.bankOrder
  rwa [hp] at hm

theorem placeInNewReclaimHead (h : e.refreshLaw) (k : Nat) : (e.placeInNewReclaimHead k).1.refreshLaw := by
  unfold Engine.placeInNewReclaimHead
  split
  · exact (h.openHead _ _).reserve _ _
  · exact h

/-- A placement of a reclaim record keeps the law, whether or not it finds room (R60). -/
theorem placeReclaim (h : e.refreshLaw) {k : Nat} {m : Engine} {l : Option Location} (hp : e.placeReclaim k = (m, l)) :
    m.refreshLaw := by
  have hm : (e.placeReclaim k).1.refreshLaw := by
    unfold Engine.placeReclaim
    split
    · split
      · exact h.reserve _ _
      · exact (h.closeHead _).placeInNewReclaimHead k
    · exact h.placeInNewReclaimHead k
  rwa [hp] at hm

theorem lowerLive (h : e.refreshLaw) (l : Location) : (e.lowerLive l).refreshLaw := by
  have hl := h.modSeg l.seg fun g => { g with live := g.live - l.count }
  unfold Engine.lowerLive
  dsimp only
  split
  · exact hl.wantChoice
  · exact hl.wantChoice
  · exact hl

theorem moveLive (h : e.refreshLaw) (old : Option Location) (new : Location) : (e.moveLive old new).refreshLaw := by
  cases old with
  | none => exact h.modSeg new.seg _
  | some l => exact (h.lowerLive l).modSeg new.seg _

theorem dropEntry (h : e.refreshLaw) (key : Nat) : (e.dropEntry key).refreshLaw := by
  have hd : (e.setEntries (removeEntry e.index.entries key)).refreshLaw := h.same
  unfold Engine.dropEntry
  split
  · exact h
  · dsimp only
    split
    · exact hd.lowerLive _
    · exact hd

theorem removalTest (h : e.refreshLaw) (key : Nat) : (e.removalTest key).refreshLaw := by
  unfold Engine.removalTest
  split
  · split
    · exact h.dropEntry key
    · exact h
  · exact h

theorem decrementClaim (h : e.refreshLaw) (key : Nat) : (e.decrementClaim key).refreshLaw :=
  (h.changeEntry key _).removalTest key

/-- A weak mark puts only an eligible segment on the list, and none in MOUNTING (R102, R109). -/
theorem weakMark (h : e.refreshLaw) (n : Nat) : (e.weakMark n).refreshLaw := by
  unfold Engine.weakMark
  dsimp only
  split
  · next hj =>
    obtain ⟨hm, he, hn, hl⟩ := (DataJobs.joinsRefresh_iff e n).mp hj
    split
    · exact (h.modSeg n fun g => { g with weak := true }).join hm (e.modSeg_eligible n id he) hn hl
    · exact h.join hm he hn hl
  · split
    · exact h.modSeg n _
    · exact h

/-- A refill puts only an eligible segment on the list (R110). -/
theorem refill (h : e.refreshLaw) (hm : e.state ≠ .mounting) : e.refill.refreshLaw := by
  unfold Engine.refill
  split
  · next n hn =>
    split
    · next hl =>
      have he : (e.seg n).state.eligible = true := by
        obtain ⟨p, hp, rfl⟩ := Option.map_eq_some_iff.mp hn
        have hw := List.find?_some hp
        simp only [Bool.and_eq_true] at hw
        obtain ⟨⟨-, he⟩, -⟩ := hw
        rwa [Engine.seg_of_mem_segTable (List.mem_of_find?_eq_some hp)]
      exact h.join hm he (Engine.Move.refillCandidate_absent hn) hl
    · exact h
  · exact h

/-- A segment that leaves the list may go to any state, and the list is refilled (R65, R110). -/
theorem unlist_modSeg (h : e.refreshLaw) (n : Nat) (f : SegRecord → SegRecord) : ((e.modSeg n f).unlist n).refreshLaw := by
  unfold Engine.unlist
  split
  · next hc =>
    have hn : n ∈ e.reclaim.refresh := List.contains_iff_mem.mp hc
    have hm : e.state ≠ .mounting := fun hs => by rw [h.nil_of_mounting hs] at hn; cases hn
    refine refill ⟨h.holds.filter _, fun d hd => ?_, fun hs => absurd hs hm⟩ hm
    obtain ⟨hd, hdn⟩ := List.mem_filter.mp hd
    have hs : (e.modSeg n f).seg d = e.seg d := e.modSeg_seg_ne n d f (by simpa using hdn)
    exact hs ▸ h.eligible hd
  · next hc => exact h.modSeg_unlisted (fun hn => hc (List.contains_iff_mem.mpr hn)) f

theorem answerRequester (h : e.refreshLaw) (st : Status) (ended : ReclaimEnd) :
    (e.answerRequester st ended).refreshLaw := by
  unfold Engine.answerRequester
  split
  · exact h
  · exact h.same

theorem victimEnded (h : e.refreshLaw) (n : Nat) (ended : ReclaimEnd) : (e.victimEnded n ended).refreshLaw := by
  unfold Engine.victimEnded
  split
  · exact (h.answerRequester .ok ended).same
  · exact h

theorem formatCounts (h : e.refreshLaw) (n : Nat) (retired : Bool) : (e.formatCounts n retired).refreshLaw := by
  unfold Engine.formatCounts
  split
  · split
    · exact h.same
    · exact h
  · exact h

/-- A segment that is not on the list is retired. -/
theorem retireSegment (h : e.refreshLaw) {n : Nat} (hn : n ∉ e.reclaim.refresh) (cause : RetireCause) (r : Requester) :
    (e.retireSegment n cause r).refreshLaw := by
  have hs := h.modSeg_unlisted hn fun g => { g with state := .retired, role := none }
  unfold Engine.retireSegment
  refine victimEnded (formatCounts ?_ _ _) _ _
  split
  · exact ((hs.enqueue _).raiseNotice _).addCause _
  · exact (hs.enqueue _).raiseNotice _

/-- The released victim is RECLAIMING until its step is taken, and so not on the list (R67). -/
theorem settleReleased (h : e.refreshLaw) : e.settleReleased.refreshLaw := by
  unfold Engine.settleReleased
  split
  · exact h
  · next n _ =>
    split
    · next hm =>
      have hr : (e.seg n).state = .reclaiming := by
        simp only [Engine.mayLeave, Bool.and_eq_true, beq_iff_eq] at hm
        obtain ⟨⟨hr, -⟩, -⟩ := hm
        exact hr
      have hn : n ∉ e.reclaim.refresh := h.unlisted (by rw [hr]; rfl)
      have h1 : ({ e with space := { e.space with released := none } } : Engine).refreshLaw := h.same
      dsimp only
      split
      · exact h1.retireSegment hn _ _
      · exact (h1.modSeg_unlisted hn _).enqueue _
    · exact h

theorem settlePinWait (h : e.refreshLaw) : e.settlePinWait.refreshLaw :=
  foldl (fun _ hk => hk.enqueue _) h.same _

theorem unpin (h : e.refreshLaw) (n : Nat) : (e.unpin n).refreshLaw := by
  have hp := h.modSeg n fun g => { g with pins := g.pins - 1 }
  unfold Engine.unpin
  dsimp only
  split
  · exact hp.settleReleased.settlePinWait
  · exact hp

theorem eraseLost (h : e.refreshLaw) (n : Nat) (c : RetireCause) : (e.eraseLost n c).refreshLaw := by
  unfold Engine.eraseLost
  split
  · next hs => exact h.retireSegment (h.unlisted (by rw [hs]; rfl)) _ _
  · exact h

theorem closeFailed (h : e.refreshLaw) (n : Nat) : (e.closeFailed n).refreshLaw := by
  unfold Engine.closeFailed
  split
  · exact (h.modSeg n _ fun _ => rfl).wantChoice
  · exact h.modSeg n _

/-! ### The Reclaim Unit (chapter 6) -/

theorem pauseReclaim (h : e.refreshLaw) : e.pauseReclaim.refreshLaw := (h.setReclaim _).answerRequester _ _

theorem releaseVictim (h : e.refreshLaw) (n : Nat) : (e.releaseVictim n).refreshLaw := h.same

theorem pauseForSpace (h : e.refreshLaw) : e.pauseForSpace.refreshLaw := (h.setReclaim _).pauseReclaim

theorem placeStep (h : e.refreshLaw) (w : Written) (key : Nat) (l : Location) (ds : List CellData) :
    (e.placeStep w key l ds).refreshLaw := by
  unfold Engine.placeStep
  split
  · next hp => exact ((h.placeReclaim hp).setReclaim _).enqueue _
  · next hp => exact (h.placeReclaim hp).pauseForSpace

theorem sweepWrite (h : e.refreshLaw) (w : Written) (key : Nat) (l : Location) (ds : List CellData) :
    (e.sweepWrite w key l ds).refreshLaw := (h.setReclaim _).placeStep _ _ _ _

theorem sweepEntry (h : e.refreshLaw) (t : Entry) : (e.sweepEntry t).refreshLaw := by
  unfold Engine.sweepEntry
  split
  · exact h.setReclaim _
  all_goals exact h.sweepWrite _ _ _ _

theorem sweepFrom (h : e.refreshLaw) (n key : Nat) : (e.sweepFrom n key).refreshLaw := by
  unfold Engine.sweepFrom
  split
  · exact h.sweepEntry _
  · exact h.releaseVictim _

theorem walkEnd (h : e.refreshLaw) (n : Nat) : (e.walkEnd n).refreshLaw := by
  unfold Engine.walkEnd
  split
  · exact h.releaseVictim _
  · dsimp only
    split
    · exact (h.setReclaim _).pauseReclaim
    · exact (h.setReclaim _).sweepFrom _ _

theorem reclaimRead (h : e.refreshLaw) (n cell count : Nat) (st : ReclaimStep) :
    (e.reclaimRead n cell count st).refreshLaw := ((h.setReclaim _).pin n).enqueue _

theorem beginStep (h : e.refreshLaw) : e.beginStep.refreshLaw := by
  unfold Engine.beginStep
  split
  · exact h.sweepFrom _ _
  · split
    · exact h.walkEnd _
    · exact h.reclaimRead _ _ _ _
  · exact h

theorem recordBoundary (h : e.refreshLaw) : e.recordBoundary.refreshLaw := by
  unfold Engine.recordBoundary
  split
  · exact h.pauseReclaim
  · exact h.beginStep

theorem passCells (h : e.refreshLaw) (n : Nat) : (e.passCells n).refreshLaw := (h.setReclaim _).recordBoundary

theorem passRecord (h : e.refreshLaw) (key n : Nat) : (e.passRecord key n).refreshLaw := by
  unfold Engine.passRecord
  split
  · exact (h.setReclaim _).recordBoundary
  · exact h.passCells n

theorem tally (h : e.refreshLaw) (f : Tallies → Tallies) : (e.tally f).refreshLaw := h.setReclaim _

theorem settleStale (h : e.refreshLaw) (n : Nat) (r : RecordHeader) (v : ValueVerdict) :
    (e.settleStale n r v).refreshLaw := by
  unfold Engine.settleStale
  split
  · exact ((h.decrementClaim _).tally _).passCells _
  · exact (h.tally _).passCells _

theorem settleRecord (h : e.refreshLaw) (l : Location) (r : RecordHeader) (cells : List CellOutcome) :
    (e.settleRecord l r cells).refreshLaw := by
  unfold Engine.settleRecord
  dsimp only
  split
  · split
    · exact h.placeStep _ _ _ _
    · exact (h.tally _).passCells _
  · split
    · exact h.placeStep _ _ _ _
    · exact h.settleStale _ _ _
  · split
    · split <;> exact h.placeStep _ _ _ _
    · exact h.settleStale _ _ _

theorem reclaimReadDone (h : e.refreshLaw) (q : Request) (cells : List CellOutcome) :
    (e.reclaimReadDone q cells).refreshLaw := by
  unfold Engine.reclaimReadDone
  split
  · split
    · exact (h.setReclaim _).walkEnd _
    · exact (h.tally _).passCells _
    · dsimp only
      split
      · exact (h.setReclaim _).settleRecord _ _ _
      · exact (h.setReclaim _).reclaimRead _ _ _ _
  · exact (h.setReclaim _).settleRecord _ _ _
  · exact h

theorem repointDone (h : e.refreshLaw) (w : Written) (key : Nat) (b : EntryBody) (old new : Location) :
    (e.repointDone w key b old new).refreshLaw := by
  have hm := (h.changeEntry key fun t => { t with body := repointedBody w new t.body }).moveLive (some old) new
  unfold Engine.repointDone
  dsimp only
  split
  · exact (hm.tally _).raiseNotice _
  · exact hm

theorem repointChanged (h : e.refreshLaw) (w : Written) (key : Nat) : (e.repointChanged w key).refreshLaw := by
  unfold Engine.repointChanged
  split
  · exact ((h.changeEntry _ _).decrementClaim _).tally _
  · exact (h.decrementClaim _).tally _
  · exact h

theorem tallyCopy (h : e.refreshLaw) (w : Written) : (e.tallyCopy w).refreshLaw := by
  unfold Engine.tallyCopy
  split
  · exact h
  · exact h.tally _

theorem reclaimProgramPassed (h : e.refreshLaw) (l : Location) : (e.reclaimProgramPassed l).refreshLaw := by
  unfold Engine.reclaimProgramPassed
  split
  · next w key old _ =>
    have ht := h.tallyCopy w
    refine passRecord ?_ _ _
    split
    · split
      · exact ht.repointDone _ _ _ _ _
      · exact ht.repointChanged _ _
    · exact ht.repointChanged _ _
  · exact h

theorem startVictim (h : e.refreshLaw) (n : Nat) (r : Option Nat) : (e.startVictim n r).refreshLaw := by
  unfold Engine.startVictim
  dsimp only
  split
  · exact (h.setReclaim _).closeHead _
  · exact h.setReclaim _

/-- At the grant the victim enters RECLAIMING and leaves the list in one (R65, R110). -/
theorem grantVictim (h : e.refreshLaw) : e.grantVictim.refreshLaw := by
  unfold Engine.grantVictim
  split
  · split
    · exact ((h.unlist_modSeg _ _).setReclaim _).recordBoundary
    · exact h
  · exact h

theorem resumeReclaim (h : e.refreshLaw) : e.resumeReclaim.refreshLaw := by
  unfold Engine.resumeReclaim
  split
  · exact (h.setReclaim _).beginStep
  · exact h

theorem makeChoice (h : e.refreshLaw) : e.makeChoice.refreshLaw := by
  unfold Engine.makeChoice
  refine setReclaim ?_ _
  split
  · split
    · split
      · exact (h.startVictim _ _).grantVictim
      · exact h
    · exact h
  · exact h

/-! ### The Job Unit (chapter 2) -/

theorem failWrite (h : e.refreshLaw) (c : Nat) (st : Status) : (e.failWrite c st).refreshLaw := by
  unfold Engine.failWrite
  split
  · exact (h.changeEntry _ _).complete _ _
  · exact h

theorem queueHostRecord (h : e.refreshLaw) (c : Nat) (l : Location) : (e.queueHostRecord c l).refreshLaw := h.same

theorem placeWrite (h : e.refreshLaw) (c : Nat) : (e.placeWrite c).refreshLaw := by
  unfold Engine.placeWrite
  split
  · next hp => exact (h.placeHost hp).queueHostRecord _ _
  · next hp =>
    split
    · exact (h.placeHost hp).same
    · exact (h.placeHost hp).failWrite _ _

theorem retryPlacement (h : e.refreshLaw) (w : SpaceWaiter) : (e.retryPlacement w).refreshLaw := by
  unfold Engine.retryPlacement
  split
  · next hp => exact (h.placeHost hp).same
  · next hp => exact h.placeHost hp

theorem freeRose (h : e.refreshLaw) : e.freeRose.refreshLaw :=
  ((foldl (fun w hk => hk.retryPlacement w) h.spaceTest _).setReclaim _).resumeReclaim.wantChoice

theorem takeSequence (h : e.refreshLaw) : e.takeSequence.refreshLaw := by
  unfold Engine.takeSequence
  dsimp only
  split
  · refine addCause ?_ _
    exact h.same
  · exact h.same

theorem admitWrite (h : e.refreshLaw) (c : Nat) : (e.admitWrite c).refreshLaw := by
  unfold Engine.admitWrite
  refine placeWrite (modCtx (takeSequence (changeEntry ?_ _ _)) _ _) _
  split
  · exact h.same
  · exact h

theorem checkWrite (h : e.refreshLaw) (c : Nat) : (e.checkWrite c).1.refreshLaw := by
  unfold Engine.checkWrite
  dsimp only
  split
  · exact h.complete _ _
  · split
    · exact h.complete _ _
    · exact h.admitWrite c

theorem askAdmission (h : e.refreshLaw) (c : Nat) : (e.askAdmission c).refreshLaw := by
  unfold Engine.askAdmission
  dsimp only
  split
  · exact h.same
  · exact h.checkWrite c

theorem handOn (h : e.refreshLaw) (key : Nat) (ws : List Nat) : (e.handOn key ws).refreshLaw := by
  induction ws generalizing e with
  | nil =>
    unfold Engine.handOn
    split
    · exact h.dropEntry key
    · exact h.removalTest key
  | cons w ws ih =>
    have hw := (h.changeEntry key fun t => { t with waiters := ws }).checkWrite w
    unfold Engine.handOn
    split
    · next hp => rw [hp] at hw; exact hw
    · next hp => rw [hp] at hw; exact ih hw

theorem releaseLock (h : e.refreshLaw) (c : Nat) : (e.releaseLock c).refreshLaw := by
  unfold Engine.releaseLock
  dsimp only
  split
  · split
    · exact (h.changeEntry _ _).handOn _ _
    · exact h
  · exact h

theorem hostProgramPassed (h : e.refreshLaw) (c : Nat) (l : Location) : (e.hostProgramPassed c l).refreshLaw := by
  unfold Engine.hostProgramPassed
  dsimp only
  split
  · exact ((((h.changeEntry _ _).moveLive _ _).changeEntry _ _).removalTest _).complete _ _
  · exact h

theorem readLocation (h : e.refreshLaw) (c : Nat) (l : Location) : (e.readLocation c l).refreshLaw :=
  ((h.modCtx c _).pin l.seg).enqueue _

theorem getLookup (h : e.refreshLaw) (c : Nat) : (e.getLookup c).refreshLaw := by
  unfold Engine.getLookup
  dsimp only
  split
  · split
    · exact h.same
    · split
      · exact h.same
      · exact readLocation (h.modCtx _ _) _ _
  · exact h.same
  · exact h.same

theorem matchLookup (h : e.refreshLaw) (c : Nat) : (e.matchLookup c).refreshLaw := by
  unfold Engine.matchLookup
  dsimp only
  split
  · split
    · exact h.same
    · split
      · exact h.same
      · exact readLocation (h.modCtx _ _) _ _
  · exact h.same
  · exact h.same

theorem getReadDone (h : e.refreshLaw) (c : Nat) (cells : List CellOutcome) : (e.getReadDone c cells).refreshLaw := by
  unfold Engine.getReadDone
  dsimp only
  split <;> exact h.same

theorem matchReadDone (h : e.refreshLaw) (c : Nat) (cells : List CellOutcome) : (e.matchReadDone c cells).refreshLaw := by
  unfold Engine.matchReadDone
  dsimp only
  split <;> exact h.same

theorem scanStep (h : e.refreshLaw) (c : Nat) : (e.scanStep c).refreshLaw := by
  unfold Engine.scanStep
  dsimp only
  split <;> exact h.same

theorem proceed (h : e.refreshLaw) (c : Nat) : (e.proceed c).refreshLaw := by
  unfold Engine.proceed
  dsimp only
  split
  · exact h.complete _ _
  · split <;> exact h.same

theorem chainWritten (h : e.refreshLaw) (c : Nat) : (e.chainWritten c).refreshLaw := by
  unfold Engine.chainWritten
  dsimp only
  split
  · exact h
  · split
    · exact (h.modRing _ _).proceed _
    · exact h.modRing _ _

theorem freeCtx (h : e.refreshLaw) (c : Nat) : (e.freeCtx c).refreshLaw := by
  unfold Engine.freeCtx
  dsimp only
  split
  · split <;> exact h.same
  · exact h.modCtx _ _

theorem discard (h : e.refreshLaw) (r c : Nat) : (e.discard r c).refreshLaw := ((h.modRing r _).releaseLock c).freeCtx c

theorem discardAll (h : e.refreshLaw) (n : Nat) : (e.discardAll n).refreshLaw := by
  induction n generalizing e with
  | zero => exact h
  | succ n ih =>
    unfold Engine.discardAll
    split
    · exact ih (h.discard _ _)
    · exact h

/-! ### The Mount Unit (chapter 7)

A mount has an empty list, and it stays empty until the finish builds it, so that a segment may change in any way. The rules
take the empty list as their hypothesis; that the operations between leave it alone is true by unfolding them. -/

theorem eligible_of_mem_builtRefresh {n : Nat} (hn : n ∈ e.builtRefresh) : (e.seg n).state.eligible = true := by
  obtain ⟨p, hp, rfl⟩ := List.mem_map.mp (List.mem_of_mem_take hn)
  obtain ⟨hp, hw⟩ := List.mem_filter.mp hp
  rw [Engine.seg_of_mem_segTable hp]
  exact (Bool.and_eq_true_iff.mp hw).2

/-- The engine at the end of the finish, RUNNING, holds the list that the finish built (R110, R145). -/
theorem of_finishWork (e : Engine) : (e.finishWork.setState .running).refreshLaw := by
  refine ⟨builtRefresh_holds _, fun n hn => ?_, fun hs => ?_⟩
  · exact eligible_of_mem_builtRefresh (e := Engine.finishTables (e.setMount fun m =>
      { m with phase := .finish, stats := { m.stats with ms := (e.now - m.started) / 1000 } })) hn
  · cases hs

/-- Segments that are not on the list enter ERASING. -/
theorem eraseAll (h : e.refreshLaw) (l : List Nat) (hl : ∀ n ∈ l, n ∉ e.reclaim.refresh) :
    (l.foldl (fun k n => (k.modSeg n fun g => { g with state := .erasing }).queueErase n) e).refreshLaw := by
  induction l generalizing e with
  | nil => exact h
  | cons n l ih =>
    exact ih ((h.modSeg_unlisted (hl n List.mem_cons_self) _).enqueue _) fun d hd => hl d (List.mem_cons_of_mem n hd)

theorem eraseDirty (h : e.refreshLaw) : e.eraseDirty.refreshLaw := by
  refine h.eraseAll _ fun n hn => h.unlisted ?_
  obtain ⟨p, hp, rfl⟩ := List.mem_map.mp hn
  obtain ⟨hp, hd⟩ := List.mem_filter.mp hp
  rw [Engine.seg_of_mem_segTable hp, eq_of_beq hd]
  rfl

theorem finishMount (h : e.refreshLaw) : e.finishMount.refreshLaw := by
  unfold Engine.finishMount
  split
  · exact (of_finishWork e).eraseDirty.spaceTest.wantChoice
  · exact h

theorem judgeTombstone_reclaim (e : Engine) (l : Location) (x : RecordHeader) :
    (e.judgeTombstone l x).reclaim = e.reclaim := by
  unfold Engine.judgeTombstone
  split
  · rfl
  · split
    · rfl
    · split
      · split <;> rfl
      · rfl

theorem rankRecord_reclaim (e : Engine) (key : Nat) (b : EntryBody) : (e.rankRecord key b).reclaim = e.reclaim := by
  unfold Engine.rankRecord
  split <;> split <;> rfl

theorem takeRecord_reclaim (e : Engine) (l : Location) (x : RecordHeader) (v : ValueVerdict) :
    (e.takeRecord l x v).reclaim = e.reclaim := by
  unfold Engine.takeRecord
  split
  · exact rankRecord_reclaim e _ _
  · exact rankRecord_reclaim _ _ _
  · rfl
  · exact rankRecord_reclaim e _ _
  · rfl

theorem giveMean_reclaim (e : Engine) (mean : Nat) : (e.giveMean mean).reclaim = e.reclaim := by
  unfold Engine.giveMean
  generalize e.mount.unformatted = l
  induction l generalizing e with
  | nil => rfl
  | cons n l ih => exact ih (e.modSeg n _)

theorem noteFormat_reclaim (e : Engine) (n : Nat) (x : CellOutcome) : (e.noteFormat n x).reclaim = e.reclaim := by
  unfold Engine.noteFormat
  split <;> rfl

theorem noteOpen_reclaim (e : Engine) (n : Nat) (x : CellOutcome) : (e.noteOpen n x).reclaim = e.reclaim := by
  unfold Engine.noteOpen
  split <;> rfl

theorem markMounted_reclaim (e : Engine) (n : Nat) (weak : Bool) : (e.markMounted n weak).reclaim = e.reclaim := by
  unfold Engine.markMounted
  split <;> rfl

section Mount

variable (hr : e.reclaim.refresh = [])
include hr

theorem passBFrom (n : Nat) : (e.passBFrom n).refreshLaw := by
  unfold Engine.passBFrom
  split
  · exact of_nil hr
  · exact (of_nil hr).finishMount

theorem passBMove (n : Nat) : (e.passBMove n).refreshLaw := by
  unfold Engine.passBMove
  dsimp only
  split
  · exact passBFrom hr _
  · exact of_nil hr

theorem passBRead (cells : List CellOutcome) : (e.passBRead cells).refreshLaw := by
  unfold Engine.passBRead
  split
  · exact passBFrom hr _
  · exact passBMove hr _
  · refine passBMove ?_ _
    split
    · rw [judgeTombstone_reclaim, hr]
    · exact hr

theorem passAOthersFrom (n : Nat) : (e.passAOthersFrom n).refreshLaw := by
  unfold Engine.passAOthersFrom
  split
  · exact of_nil hr
  · exact passBFrom (e := e.setMount _) hr 0

theorem passAFrom (n : Nat) : (e.passAFrom n).refreshLaw := by
  unfold Engine.passAFrom
  split
  · exact of_nil hr
  · exact passAOthersFrom hr 0

theorem startPassA : e.startPassA.refreshLaw := passAFrom (e := e.setMount _) hr 0

theorem passASegEnd : e.passASegEnd.refreshLaw := by
  unfold Engine.passASegEnd
  dsimp only
  split
  · exact passAOthersFrom hr _
  · split
    · exact passAFrom (e := (e.modSeg _ _).countMount _) hr _
    · exact passAFrom (e := e.modSeg _ _) hr _

theorem passAMove (n : Nat) : (e.passAMove n).refreshLaw := by
  unfold Engine.passAMove
  dsimp only
  split
  · exact passASegEnd (e := e.setMount _) hr
  · exact of_nil hr

theorem passARecord (l : Location) (x : RecordHeader) (cells : List CellOutcome) :
    (e.passARecord l x cells).refreshLaw := by
  unfold Engine.passARecord
  refine passAMove ?_ _
  split
  · exact hr
  · rw [takeRecord_reclaim]
    exact hr

theorem passARead (cells : List CellOutcome) : (e.passARead cells).refreshLaw := by
  unfold Engine.passARead
  dsimp only
  split
  · exact passARecord hr _ _ _
  · split
    · exact passASegEnd hr
    · refine passAMove ?_ _
      split <;> exact hr
    · split
      · exact passARecord hr _ _ _
      · exact of_nil hr

theorem surveyEnd : e.surveyEnd.refreshLaw := by
  have hg (mean : Nat) : (e.giveMean mean).reclaim.refresh = [] := by rw [giveMean_reclaim, hr]
  unfold Engine.surveyEnd
  dsimp only
  split
  · exact startPassA (e := (e.giveMean _).setMount _) (hg _)
  · exact foldl (fun _ hk => hk.enqueue _) (setMount (of_nil (hg _)) _) _

theorem surveyFirst (n : Nat) (cells : List CellOutcome) (weak : Bool) : (e.surveyFirst n cells weak).refreshLaw := by
  have hn : ((e.noteFormat n (cells.headD .uncorrectable)).noteOpen n
      (cells.tail.headD .uncorrectable)).reclaim.refresh = [] := by rw [noteOpen_reclaim, noteFormat_reclaim, hr]
  exact of_nil hn

theorem surveySecond (n : Nat) (cells : List CellOutcome) (weak : Bool) : (e.surveySecond n cells weak).refreshLaw := by
  unfold Engine.surveySecond
  dsimp only
  split <;> split
  · exact of_nil hr
  · exact of_nil hr
  · exact surveyEnd (e := (e.modSeg _ _).countMount _) hr
  · exact surveyEnd (e := e.modSeg _ _) hr

theorem blankCheckEnded : e.blankCheckEnded.refreshLaw := by
  unfold Engine.blankCheckEnded
  dsimp only
  split
  · exact startPassA (e := e.setMount _) hr
  · exact of_nil hr

theorem formatEstimated (n : Nat) (pass : Bool) : (e.formatEstimated n pass).refreshLaw := by
  unfold Engine.formatEstimated
  split
  · exact blankCheckEnded (e := (e.modSeg _ _).countMount _) hr
  · exact (of_nil hr).retireSegment (hr ▸ List.not_mem_nil) _ _

end Mount

/-- At the survey the list is empty. -/
theorem nil_of_surveying (h : e.refreshLaw) (hs : e.surveying = true) : e.reclaim.refresh = [] :=
  h.nil_of_mounting (eq_of_beq (Bool.and_eq_true_iff.mp hs).1)

theorem blankAnswer (h : e.refreshLaw) (n : Nat) (blank : Bool) : (e.blankAnswer n blank).refreshLaw := by
  unfold Engine.blankAnswer
  split
  · exact h
  · next hs =>
    split
    · exact h.enqueue _
    · exact blankCheckEnded (e := (e.modSeg _ _).countMount _) (h.nil_of_surveying (by simpa using hs))

theorem mountProgramDone (h : e.refreshLaw) (q : Request) (pass : Bool) : (e.mountProgramDone q pass).refreshLaw := by
  unfold Engine.mountProgramDone
  split
  · next hs _ => exact formatEstimated (h.nil_of_surveying hs) _ _
  · next hs _ => exact blankCheckEnded (h.nil_of_surveying hs)
  · exact h

theorem mountReadDone (h : e.refreshLaw) (q : Request) (cells : List CellOutcome) : (e.mountReadDone q cells).refreshLaw := by
  have hm (hs : e.state = .mounting) (weak : Bool) : (e.markMounted q.seg weak).reclaim.refresh = [] := by
    rw [markMounted_reclaim, h.nil_of_mounting hs]
  unfold Engine.mountReadDone
  dsimp only
  split
  · next hs _ =>
    split
    · exact surveySecond (h.nil_of_mounting hs) _ _ _
    · exact surveyFirst (h.nil_of_mounting hs) _ _ _
  · next hs _ => exact passARead (hm hs _) _
  · next hs _ => exact passBRead (hm hs _) _
  · exact h

/-! ### The Ring Unit (chapter 8) -/

theorem issueFetch (h : e.refreshLaw) : e.issueFetch.refreshLaw := by
  have hn (r : Nat) : (e.noteServed r).refreshLaw := by
    unfold Engine.noteServed
    split
    · exact h
    · exact h.same
  unfold Engine.issueFetch
  split
  · split
    · exact (hn _).same
    · exact h
  · exact h

theorem takeDescriptor (h : e.refreshLaw) (r c : Nat) (d : Descriptor) : (e.takeDescriptor r c d).refreshLaw := by
  unfold Engine.takeDescriptor Engine.checked
  dsimp only
  split
  · exact h.same
  · refine proceed ?_ _
    exact h.same

theorem ringFault (h : e.refreshLaw) (r : Nat) (cause : FaultCause) (slot : Nat) : (e.ringFault r cause slot).refreshLaw := by
  unfold Engine.ringFault
  dsimp only
  split
  · exact h
  · exact (foldl (fun _ hk => hk.complete _ _) (h.modRing _ _) _).raiseNotice _

theorem fetchDone (h : e.refreshLaw) (r c : Nat) (d : Option Descriptor) : (e.fetchDone r c d).refreshLaw := by
  have hc : (e.fetchEnded c).refreshLaw := h.same
  unfold Engine.fetchDone
  dsimp only
  split
  · exact hc.takeDescriptor _ _ _
  · exact hc.takeDescriptor _ _ _
  · exact hc.modRing _ _
  · exact (hc.modRing _ _).ringFault _ _ _

theorem issueRecords (h : e.refreshLaw) : e.issueRecords.refreshLaw := h.same

theorem signalRing (h : e.refreshLaw) (r : Nat) : (e.signalRing r).refreshLaw := by
  unfold Engine.signalRing
  split
  · exact h.same
  · exact h

theorem recordWritten (h : e.refreshLaw) (r c : Nat) : (e.recordWritten r c).refreshLaw :=
  (((((h.emit _).modRing r _).releaseLock c).chainWritten c).freeCtx c).signalRing r

theorem recordFailed (h : e.refreshLaw) (r c : Nat) : (e.recordFailed r c).refreshLaw :=
  (((h.emit _).modRing r _).ringFault r _ _).discard r c

theorem post (h : e.refreshLaw) (r t : Nat) : (e.post r t).refreshLaw := by
  unfold Engine.post
  split <;> exact h.same

theorem ackRing (h : e.refreshLaw) (r : Nat) (arm : Bool) (n : Nat) : (e.ackRing r arm n).refreshLaw := by
  unfold Engine.ackRing
  dsimp only
  split <;> exact h.same

theorem ackNotice (h : e.refreshLaw) (g : NoticeRing) (arm : Bool) (n : Nat) : (e.ackNotice g arm n).refreshLaw := by
  unfold Engine.ackNotice
  dsimp only
  split <;> exact h.same

theorem ack (h : e.refreshLaw) (r : Nat) (arm : Bool) (n : Nat) : (e.ack r arm n).refreshLaw := by
  unfold Engine.ack
  dsimp only
  split
  · split
    · split
      · exact h.ackNotice _ _ _
      · exact h.same
    · exact h.same
  · split
    · exact h.ackRing _ _ _
    · exact h.same

theorem writeAdminSize (h : e.refreshLaw) (v : BitVec 32) : (e.writeAdminSize v).refreshLaw := by
  unfold Engine.writeAdminSize
  split <;> exact h.same

theorem closeRing (h : e.refreshLaw) (r : Nat) : (e.closeRing r).refreshLaw := by
  unfold Engine.closeRing
  split
  · exact h.same
  · exact h

theorem issueNotice (h : e.refreshLaw) : e.issueNotice.refreshLaw := by
  unfold Engine.issueNotice
  split
  · split
    · exact h.same
    · exact h
  · exact h

theorem noticeDone (h : e.refreshLaw) (ok : Bool) : (e.noticeDone ok).refreshLaw := by
  unfold Engine.noticeDone
  split
  · split
    · unfold Engine.noticeWritten
      dsimp only
      split <;> exact h.same
    · exact h.same
  · exact h

theorem applySetter (h : e.refreshLaw) (c : Nat) : (e.applySetter c).refreshLaw := h.same

theorem applySetters (h : e.refreshLaw) : e.applySetters.refreshLaw := by
  unfold Engine.applySetters
  split
  · exact h
  · exact foldl (fun c hk => hk.applySetter c) h _

/-! ### FORMAT, the end of a step and SCRUB (chapters 3, 9 and 10) -/

/-- A FORMAT that moves the segments to ERASING empties the list (R73, R110). -/
theorem formatBegin (h : e.refreshLaw) : e.formatBegin.refreshLaw := by
  unfold Engine.formatBegin
  split
  · split
    · exact foldl (fun _ hk => hk.enqueue _) (of_nil rfl) _
    · exact h
  · exact h

theorem recomputeMode (h : e.refreshLaw) : e.recomputeMode.refreshLaw := by
  unfold Engine.recomputeMode
  dsimp only
  split <;> exact h.same

theorem formatEnd (h : e.refreshLaw) : e.formatEnd.refreshLaw := by
  unfold Engine.formatEnd
  split
  · split
    · refine complete (raiseNotice (recomputeMode ?_) _) _ _
      exact h.same
    · exact h
  · exact h

theorem testQuiescence (h : e.refreshLaw) : e.testQuiescence.refreshLaw := by
  unfold Engine.testQuiescence
  split
  · exact h.setState (by decide)
  · exact h

theorem settleBlocks (h : e.refreshLaw) : e.settleBlocks.refreshLaw :=
  (foldl (fun r hk => hk.closeRing r)
    (h.discardAll _).grantVictim.formatBegin.settleReleased.settlePinWait.formatEnd.applySetters _).discardAll _

theorem settle (h : e.refreshLaw) : e.settle.refreshLaw := by
  unfold Engine.settle
  split
  · exact h.issueNotice
  · exact h.settleBlocks.makeChoice.issueRecords.issueFetch.issueNotice.testQuiescence

theorem scrubRead (h : e.refreshLaw) (c cell count : Nat) : (e.scrubRead c cell count).refreshLaw := by
  unfold Engine.scrubRead
  dsimp only
  split
  · exact (h.pin _).enqueue _
  · exact h.same

theorem scrubNext (h : e.refreshLaw) (c : Nat) : (e.scrubNext c).refreshLaw := by
  unfold Engine.scrubNext
  dsimp only
  split
  · exact h.same
  · exact h.scrubRead _ _ _

theorem scrubPass (h : e.refreshLaw) (c n : Nat) : (e.scrubPass c n).refreshLaw := (h.modCtx c _).scrubNext c

theorem scrubReadDone (h : e.refreshLaw) (c : Nat) (q : Request) (cells : List CellOutcome) :
    (e.scrubReadDone c q cells).refreshLaw := by
  have hn := h.modCtx c fun x => { x with scrub := x.scrub.noteRead cells }
  unfold Engine.scrubReadDone
  dsimp only
  split
  · exact scrubPass (hn.modCtx _ _) _ _
  · split
    · exact hn.same
    · exact scrubPass (hn.modCtx _ _) _ _
    · unfold Engine.scrubHeader
      dsimp only
      split
      · exact scrubPass (hn.modCtx _ _) _ _
      · exact scrubRead (hn.modCtx _ _) _ _ _

/-! ### The media's reports (chapter 4) -/

/-- A segment whose format cell is programmed is ERASING, and so not on the list (R68). -/
theorem formatCellPassed (h : e.refreshLaw) (q : Request) : (e.formatCellPassed q).refreshLaw := by
  unfold Engine.formatCellPassed
  split
  · next hs =>
    exact (((h.modSeg_unlisted (h.unlisted (by rw [hs]; rfl)) _).formatCounts _ _).freeRose).victimEnded _ _
  · exact h

theorem recordPassed (h : e.refreshLaw) (q : Request) {take : Engine → Location → Engine}
    (ht : ∀ {k : Engine} (l : Location), k.refreshLaw → (take k l).refreshLaw) : (e.recordPassed q take).refreshLaw := by
  unfold Engine.recordPassed
  split
  · exact ht _ (h.modSeg _ _)
  · exact h

theorem programPassed (h : e.refreshLaw) (q : Request) : (e.programPassed q).refreshLaw := by
  unfold Engine.programPassed
  split
  · exact h.recordPassed q fun l hk => hk.hostProgramPassed _ l
  · exact h.recordPassed q fun l hk => hk.reclaimProgramPassed l
  · exact h.mountProgramDone _ _
  · exact h.mountProgramDone _ _
  · exact h.formatCellPassed _
  · exact h

theorem replaceHost (h : e.refreshLaw) (c : Nat) (q : Request) : (e.replaceHost c q).refreshLaw := by
  unfold Engine.replaceHost
  split
  · exact h.failWrite _ _
  · exact (h.modCtx _ _).placeWrite _

theorem replaceReclaim (h : e.refreshLaw) (q : Request) : (e.replaceReclaim q).refreshLaw := by
  unfold Engine.replaceReclaim
  split
  · exact h.beginStep
  · split
    · next hp => exact (h.placeReclaim hp).enqueue _
    · next hp => exact (h.placeReclaim hp).pauseForSpace

theorem replaceRecord (h : e.refreshLaw) (q : Request) : (e.replaceRecord q).refreshLaw := by
  unfold Engine.replaceRecord
  split
  · exact h.replaceHost _ _
  · exact h.replaceReclaim _
  · exact h

theorem segmentFailed (h : e.refreshLaw) (b seg : Nat) (l : List Request) : (e.segmentFailed b seg l).refreshLaw :=
  foldl (fun q hk => hk.replaceRecord q) ((h.closeFailed seg).modBank b _) _

theorem programFailed (h : e.refreshLaw) (b : Nat) (q : Request) : (e.programFailed b q).refreshLaw := by
  unfold Engine.programFailed
  split
  · exact h.segmentFailed _ _ _
  · exact h.segmentFailed _ _ _
  · exact h.segmentFailed _ _ _
  · exact h.segmentFailed _ _ _
  · exact h.mountProgramDone _ _
  · exact h.mountProgramDone _ _
  · exact h.eraseLost _ _
  · exact h

theorem programEnded (h : e.refreshLaw) (b : Nat) (q : Request) (pass : Bool) : (e.programEnded b q pass).refreshLaw := by
  unfold Engine.programEnded
  split
  · exact h.programPassed _
  · exact h.programFailed _ _

theorem eraseEnded (h : e.refreshLaw) (q : Request) (pass : Bool) : (e.eraseEnded q pass).refreshLaw := by
  unfold Engine.eraseEnded
  split
  · exact (h.modSeg q.seg _).enqueue _
  · exact h.eraseLost _ _

theorem markWeak (h : e.refreshLaw) (n : Nat) (weak : Bool) : (e.markWeak n weak).refreshLaw := by
  unfold Engine.markWeak
  split
  · exact h.weakMark _
  · exact h

theorem ctxReadDone (h : e.refreshLaw) (c : Nat) (q : Request) (cells : List CellOutcome) :
    (e.ctxReadDone c q cells).refreshLaw := by
  unfold Engine.ctxReadDone
  split
  · exact h.getReadDone _ _
  · exact h.matchReadDone _ _
  · exact h.scrubReadDone _ _ _
  · exact h

theorem readReported (h : e.refreshLaw) (q : Request) (cells : List CellOutcome) : (e.readReported q cells).refreshLaw := by
  unfold Engine.readReported
  dsimp only
  split
  · exact ((h.markWeak _ _).unpin _).ctxReadDone _ _ _
  · exact ((h.markWeak _ _).unpin _).reclaimReadDone _ _
  · exact h.mountReadDone _ _
  · exact h

/-- The end of a bank's operation keeps the law when its report does. -/
theorem opEnded (h : e.refreshLaw) (b : Nat) {report : Engine → Engine}
    (hr : ∀ {k : Engine}, k.refreshLaw → (report k).refreshLaw) : (e.opEnded b report).refreshLaw := by
  unfold Engine.opEnded
  split
  · exact (h.modBank _ _).settle
  · exact ((hr (h.modBank _ _)).modBank _ _).settle

theorem suspended (h : e.refreshLaw) (b : Nat) : (e.suspended b).refreshLaw := by
  unfold Engine.suspended
  split
  · exact (h.modBank _ _).settle
  · exact ((h.modBank _ _).modBank _ _).settle

theorem quantumEvent (h : e.refreshLaw) (b : Nat) : (e.quantumEvent b).refreshLaw := by
  unfold Engine.quantumEvent
  split
  · exact h.modBank _ _
  · exact h

/-! ### Engine Control and the register window (chapter 9) -/

theorem start (h : e.refreshLaw) : e.start.refreshLaw := by
  unfold Engine.start
  split
  · exact ((h.setState (by decide)).setReclaim _).resumeReclaim.wantChoice.settle
  · exact h

theorem stop (h : e.refreshLaw) : e.stop.refreshLaw := by
  unfold Engine.stop
  split
  · exact ((h.setState (by decide)).setReclaim _).settle
  · exact h

/-- HALTED is no mount, so the list may stand as it is. -/
theorem halt (h : e.refreshLaw) (m : ParityMemory) : (e.halt m).refreshLaw := by
  unfold Engine.halt
  split
  · exact h
  · refine settle (raiseNotice ?_ _)
    exact h.same (hs := fun hk => nomatch hk)

theorem writeBase (h : e.refreshLaw) (offset : Nat) (v : BitVec 32) : (e.writeBase offset v).refreshLaw := by
  unfold Engine.writeBase
  split
  · exact h.same
  · split
    · exact h.same
    · exact h

/-! ### The events of the Ring Unit -/

theorem fetchEvent (h : e.refreshLaw) (d : Option (List Byte)) : (e.fetchEvent d).refreshLaw := by
  unfold Engine.fetchEvent
  split
  · exact h
  · exact h.same
  · exact (h.fetchDone _ _ _).settle

theorem recordEvent (h : e.refreshLaw) (r : Nat) (ok : Bool) : (e.recordEvent r ok).refreshLaw := by
  unfold Engine.recordEvent
  split
  · split
    · exact h.same
    · split
      · exact (h.recordWritten _ _).settle
      · exact (h.recordFailed _ _).settle
  · exact h

theorem noticeEvent (h : e.refreshLaw) (ok : Bool) : (e.noticeEvent ok).refreshLaw := by
  unfold Engine.noticeEvent
  split
  · exact (h.noticeDone _).settle
  · exact h

/-! ### The data jobs -/

theorem jobStep (h : e.refreshLaw) (c : Nat) (j : Job) {f : Engine → Engine} (hf : (f e).refreshLaw) :
    (e.jobStep c j f).refreshLaw := by
  unfold Engine.jobStep
  split
  · exact hf.settle
  · exact h

theorem putStep (h : e.refreshLaw) (c : Nat) : (e.putStep c).refreshLaw := by
  unfold Engine.putStep
  dsimp only
  split
  · exact h.same
  · split
    · exact askAdmission (h.modCtx _ _) _
    · exact h.same

theorem deleteStep (h : e.refreshLaw) (c : Nat) : (e.deleteStep c).refreshLaw := by
  unfold Engine.deleteStep
  split
  · exact h.same
  · exact h.askAdmission _

theorem matchStep (h : e.refreshLaw) (c : Nat) : (e.matchStep c).refreshLaw := by
  unfold Engine.matchStep
  dsimp only
  split
  · exact matchLookup (h.modCtx _ _) _
  · exact h.same

theorem loaded (h : e.refreshLaw) (c n : Nat) (d : Option (List Byte)) : (e.loaded c n d).refreshLaw := by
  unfold Engine.loaded
  split
  · exact h.same
  · dsimp only
    split
    · exact (h.modCtx _ _).matchLookup _
    · exact (h.modCtx _ _).askAdmission _

theorem afterTransfer (h : e.refreshLaw) {f : Engine → Engine} (hf : (f e).refreshLaw) : (e.afterTransfer f).refreshLaw := by
  unfold Engine.afterTransfer
  split
  · exact h
  · exact hf.settle

theorem loadEvent (h : e.refreshLaw) (c : Nat) (d : Option (List Byte)) : (e.loadEvent c d).refreshLaw := by
  have ht : (e.transferEnded c).refreshLaw := h.same
  unfold Engine.loadEvent
  split
  · exact ht.afterTransfer (ht.loaded _ _ _)
  · exact h

theorem returnEvent (h : e.refreshLaw) (c : Nat) (mine : Job → Bool) (ok : Bool) {f : Nat → Engine → Engine}
    (hf : ∀ (n : Nat) {k : Engine}, k.refreshLaw → (f n k).refreshLaw) : (e.returnEvent c mine ok f).refreshLaw := by
  have hs (address : Nat) (bytes : List Byte) : (e.sent c address bytes ok).refreshLaw := h.same
  unfold Engine.returnEvent
  split
  · split
    · exact (hs _ _).afterTransfer (hf _ (hs _ _))
    · exact h
  · exact h

theorem scanReturned (h : e.refreshLaw) (c : Nat) (ok : Bool) (n : Nat) : (e.scanReturned c ok n).refreshLaw := by
  unfold Engine.scanReturned
  dsimp only
  split
  · split
    · exact h.same
    · exact ((h.modCtx _ _).modCtx _ _).scanStep _
  · exact h.same

theorem expireWait (h : e.refreshLaw) (c : Nat) : (e.expireWait c).refreshLaw := by
  unfold Engine.expireWait
  split
  · refine settle (failWrite ?_ _ _)
    exact h.same
  · exact h

/-! ### The admin jobs (chapters 6, 8 and 10) -/

theorem openRingStep (h : e.refreshLaw) (c : Nat) : (e.openRingStep c).refreshLaw := by
  unfold Engine.openRingStep
  dsimp only
  split <;> exact h.same

theorem closeRingStep (h : e.refreshLaw) (c : Nat) : (e.closeRingStep c).refreshLaw := by
  unfold Engine.closeRingStep
  dsimp only
  split
  · exact h.same
  · split
    · exact h.same
    · exact h.same
    · exact h.same
    · split <;> exact h.same

theorem setNoticeStep (h : e.refreshLaw) (c : Nat) : (e.setNoticeStep c).refreshLaw := by
  unfold Engine.setNoticeStep
  split
  · exact h.same
  · split <;> exact h.same

theorem setLimitsStep (h : e.refreshLaw) (c : Nat) : (e.setLimitsStep c).refreshLaw := by
  unfold Engine.setLimitsStep
  dsimp only
  split
  · exact h.same
  · refine complete ?_ _ _
    split
    · exact h.same
    · refine spaceTest ?_
      exact h.same

theorem querySegmentStep (h : e.refreshLaw) (c : Nat) : (e.querySegmentStep c).refreshLaw := by
  unfold Engine.querySegmentStep
  dsimp only
  split
  · exact h.same
  · split <;> exact h.same

theorem reclaimStep (h : e.refreshLaw) (c : Nat) : (e.reclaimStep c).refreshLaw := by
  unfold Engine.reclaimStep
  dsimp only
  split
  · exact h.same
  · split
    · exact h.same
    · split
      · exact startVictim (h.modCtx _ _) _ _
      · exact h.same

theorem scrubStep (h : e.refreshLaw) (c : Nat) : (e.scrubStep c).refreshLaw := by
  unfold Engine.scrubStep
  dsimp only
  split
  · exact h.same
  · split
    · exact h.same
    · exact scrubNext (modCtx (h.modCtx _ _) _ _) _

theorem formatStep (h : e.refreshLaw) (c : Nat) : (e.formatStep c).refreshLaw := by
  unfold Engine.formatStep
  split
  · exact h.same
  · split
    · exact h.same
    · split <;> exact h.same

end Engine.refreshLaw

/-! ### Commands and steps -/

namespace RefreshList

variable {s t : State}

theorem endProgram_keeps (h : s.engine.refreshLaw) (b : Nat) (o : Operation) (pass : Bool) :
    (s.endProgram b o pass).engine.refreshLaw := by
  cases pass with
  | false =>
    rw [State.endProgram_failed]
    exact h.draw.opEnded b fun hk => hk.programEnded _ _ _
  | true =>
    rw [State.endProgram_passed]
    exact h.opEnded b fun hk => hk.programEnded _ _ _

theorem endErase_keeps (h : s.engine.refreshLaw) (b : Nat) (o : Operation) (pass : Bool) :
    (s.endErase b o pass).engine.refreshLaw := by
  cases pass with
  | false =>
    rw [State.endErase_failed]
    exact h.draw.opEnded b fun hk => hk.eraseEnded _ _
  | true =>
    rw [State.endErase_passed]
    exact h.opEnded b fun hk => hk.eraseEnded _ _

theorem suspendReported_keeps (h : s.engine.refreshLaw) (b : Nat) (x : SuspendOutcome) :
    (s.suspendReported b x).engine.refreshLaw := by
  have ho (o : Operation) (pass : Bool) : (s.endOp b o pass).engine.refreshLaw := by
    unfold State.endOp
    split
    · exact endErase_keeps h b o pass
    · exact endProgram_keeps h b o pass
  unfold State.suspendReported
  split
  · exact h
  · split
    · exact h.suspended b
    · exact ho _ _
    · exact ho _ _

theorem onActive_keeps (h : s.engine.refreshLaw) {b : Nat} {op : MediaOp} {f : Operation → State}
    (hf : ∀ o, (f o).engine.refreshLaw) : (s.onActive b op f).engine.refreshLaw := by
  obtain hs | ⟨o, -, hs⟩ := s.onActive_cases b op f
  · rw [hs]
    exact h
  · rw [hs]
    exact hf o

/-- A reset leaves the list empty, and its mount starts with it so (R110, R134). -/
theorem mount_fresh (e : Engine) (g : Registers) : (e.fresh g).startMount.settle.refreshLaw :=
  Engine.refreshLaw.settle (.of_nil rfl)

theorem engineReset_keeps (s : State) : s.engineReset.engine.refreshLaw := by
  rw [State.engineReset_engine]
  exact Engine.refreshLaw.settle (.of_nil rfl)

theorem writeControl_keeps (h : s.engine.refreshLaw) (v : BitVec 32) : (s.writeControl v).engine.refreshLaw := by
  unfold State.writeControl
  split
  · exact engineReset_keeps s
  · split
    · exact h.start
    · exact h.stop
    · exact h

theorem writeRegister_keeps (h : s.engine.refreshLaw) (offset width : Nat) (v : BitVec 32) :
    (s.writeRegister offset width v).engine.refreshLaw := by
  unfold State.writeRegister
  split
  · exact h
  · split
    · exact writeControl_keeps h v
    · split
      · exact (h.writeAdminSize v).settle
      · split
        · exact (h.post _ _).settle
        · split
          · exact (h.ack _ _ _).settle
          · exact h.writeBase _ _

theorem keeps_of_whenOn {f : State → State}
    (hn : (Host.Outcome.next (s.whenOn f) : Host.Outcome State Fault Refusal) = .next t) (h : s.engine.refreshLaw)
    (hf : (f s).engine.refreshLaw) : t.engine.refreshLaw := by
  cases hn
  unfold State.whenOn
  split
  · exact hf
  · exact h

theorem keeps_of_withEngine {f : Engine → Engine}
    (hn : (Host.Outcome.next (s.withEngine f) : Host.Outcome State Fault Refusal) = .next t) (h : s.engine.refreshLaw)
    (hf : (f s.engine).refreshLaw) : t.engine.refreshLaw := keeps_of_whenOn hn h hf

theorem keeps_of_jobStep {n : Nat} {j : Job} {f : Engine → Engine}
    (hn : (Host.Outcome.next (s.withEngine fun e => e.jobStep n j f) : Host.Outcome State Fault Refusal) = .next t)
    (h : s.engine.refreshLaw) (hf : (f s.engine).refreshLaw) : t.engine.refreshLaw :=
  keeps_of_withEngine hn h (h.jobStep n j hf)

/-- Every command keeps the law. -/
theorem exec_keeps {c : Instr} (hn : exec c s = .next t) (h : s.engine.refreshLaw) : t.engine.refreshLaw := by
  cases c with
  | start => exact keeps_of_withEngine hn h h.start
  | stop => exact keeps_of_withEngine hn h h.stop
  | parityError m => exact keeps_of_withEngine hn h (h.halt m)
  | engineReset => exact keeps_of_whenOn hn h (engineReset_keeps s)
  | linkReset => exact keeps_of_whenOn hn h (s.linkReset_engine ▸ mount_fresh _ _)
  | coldReset => cases hn; exact s.coldReset_engine ▸ mount_fresh _ _
  | powerLoss => cases hn; exact .of_nil rfl
  | resetInputAsserted =>
    cases hn
    split
    · exact h
    · exact .of_nil rfl
  | registerWrite offset width value => exact keeps_of_whenOn hn h (writeRegister_keeps h offset width value)
  | adminSizeWrite value => exact keeps_of_withEngine hn h (h.writeAdminSize value).settle
  | post ring tail => exact keeps_of_withEngine hn h (h.post _ _).settle
  | ack ring arm head => exact keeps_of_withEngine hn h (h.ack _ _ _).settle
  | stateRead offset width => exact keeps_of_withEngine hn h h.same
  | descriptorFetchDone descriptor => exact keeps_of_withEngine hn h (h.fetchEvent descriptor)
  | doneRecordWritten ring ok => exact keeps_of_withEngine hn h (h.recordEvent ring ok)
  | noticeWriteDone ok => exact keeps_of_withEngine hn h (h.noticeEvent ok)
  | put n => exact keeps_of_jobStep hn h (h.putStep n)
  | get n => exact keeps_of_jobStep hn h (h.getLookup n)
  | probe n => exact keeps_of_jobStep hn h h.same
  | delete n => exact keeps_of_jobStep hn h (h.deleteStep n)
  | matchValue n => exact keeps_of_jobStep hn h (h.matchStep n)
  | scan n => exact keeps_of_jobStep hn h ((h.modCtx n _).scanStep n)
  | openRing n => exact keeps_of_jobStep hn h (h.openRingStep n)
  | closeRing n => exact keeps_of_jobStep hn h (h.closeRingStep n)
  | setNotice n => exact keeps_of_jobStep hn h (h.setNoticeStep n)
  | setLimits n => exact keeps_of_jobStep hn h (h.setLimitsStep n)
  | queryEngine n => exact keeps_of_jobStep hn h h.same
  | querySegment n => exact keeps_of_jobStep hn h (h.querySegmentStep n)
  | reclaim n => exact keeps_of_jobStep hn h (h.reclaimStep n)
  | scrub n => exact keeps_of_jobStep hn h (h.scrubStep n)
  | format n => exact keeps_of_jobStep hn h (h.formatStep n)
  | loadingDone n data => exact keeps_of_withEngine hn h (h.loadEvent n data)
  | returningDone n ok => exact keeps_of_withEngine hn h (h.returnEvent n _ ok fun _ _ hk => hk.same)
  | scanBatchDone n ok => exact keeps_of_withEngine hn h (h.returnEvent n _ ok fun i _ hk => hk.scanReturned n ok i)
  | reportWriteDone n ok => exact keeps_of_withEngine hn h (h.returnEvent n _ ok fun _ _ hk => hk.same)
  | spaceWaitExpiry n => exact keeps_of_withEngine hn h (h.expireWait n)
  | quantumExpiry b => exact keeps_of_withEngine hn h (h.quantumEvent b)
  | suspendReport b x => exact keeps_of_whenOn hn h (suspendReported_keeps h b x)
  | readDone b flips =>
    exact keeps_of_whenOn hn h (onActive_keeps h fun _ => h.opEnded b fun hk => hk.readReported _ _)
  | blankCheckDone b disturbed =>
    exact keeps_of_whenOn hn h (onActive_keeps h fun _ => h.opEnded b fun hk => hk.blankAnswer _ _)
  | programDone b pass => exact keeps_of_whenOn hn h (onActive_keeps h fun o => endProgram_keeps h b o pass)
  | eraseDone b pass => exact keeps_of_whenOn hn h (onActive_keeps h fun o => endErase_keeps h b o pass)
  | programTimeout b => exact keeps_of_whenOn hn h (onActive_keeps h fun o => endProgram_keeps h b o false)
  | eraseTimeout b => exact keeps_of_whenOn hn h (onActive_keeps h fun o => endErase_keeps h b o false)

theorem tick_keeps (h : s.engine.refreshLaw) : s.tick.engine.refreshLaw := by
  unfold State.tick
  split
  · exact h.same
  · exact h

/-- Settles O9: whatever a command does, and whether or not one waits, the law of the list is kept. -/
theorem everyStepKeepsTheRefreshList : Obligations.EveryStepKeepsTheRefreshList := by
  intro s t hn h
  cases hp : s.pending with
  | nil =>
    cases (BankControllers.step_idle hp).symm.trans hn
    exact tick_keeps h
  | cons c rest => exact exec_keeps ((BankControllers.step_command hp).symm.trans hn) h

end RefreshList

end Sys2Proof.Machine
end

section
/-! PROOFS. Reclamation (chapter 6): the choice of a victim, its start and its grant, the walk of the cursor and the sweep after
it, and the walk of a SCRUB: one reasoning rule per operation of each, then the statements made of them. -/

namespace Sys2Proof.Machine.Reclamation

open Sys2Proof

/-! ### Choosing a victim (R113) -/

section Best

variable {α : Type} {better : α → α → Bool} {before : α → α → Prop}
  (trans : ∀ a b c, before a b → before b c → before a c)
include trans

/-- Where `better` says, of any two items of a list, whether the later one comes before the earlier, the search from the
best item so far ends with the item that comes before all others. -/
theorem foldl_betterOf_first {b : α} {l : List α}
    (h : (b :: l).Pairwise fun x y => if better y x then before y x else before x y) :
    ∃ a ∈ b :: l, l.foldl (SegmentSpace.betterOf better) (some b) = some a ∧ ∀ c ∈ b :: l, c ≠ a → before a c := by
  induction l generalizing b with
  | nil => exact ⟨b, List.mem_cons_self, rfl, fun c hc hne => absurd (List.mem_singleton.mp hc) hne⟩
  | cons x l ih =>
    obtain ⟨hb, hx, hl⟩ : _ ∧ _ ∧ _ := by simpa only [List.pairwise_cons] using h
    have hbx := hb x List.mem_cons_self
    rw [List.foldl_cons]
    by_cases hbetter : better x b = true
    · rw [if_pos hbetter] at hbx
      obtain ⟨a, ha, hfold, hfirst⟩ := ih (List.pairwise_cons.mpr ⟨hx, hl⟩)
      refine ⟨a, List.mem_cons_of_mem b ha, ?_, fun c hc hne => ?_⟩
      · rw [SegmentSpace.betterOf, if_pos hbetter, hfold]
      · rcases List.mem_cons.mp hc with rfl | hc
        · by_cases hax : x = a
          · exact hax ▸ hbx
          · exact trans _ _ _ (hfirst x List.mem_cons_self hax) hbx
        · exact hfirst c hc hne
    · rw [if_neg hbetter] at hbx
      obtain ⟨a, ha, hfold, hfirst⟩ := ih (List.pairwise_cons.mpr ⟨fun c hc => hb c (List.mem_cons_of_mem x hc), hl⟩)
      refine ⟨a, ?_, ?_, fun c hc hne => ?_⟩
      · exact List.mem_cons.mpr ((List.mem_cons.mp ha).imp_right (List.mem_cons_of_mem x))
      · rw [SegmentSpace.betterOf, if_neg hbetter, hfold]
      · rcases List.mem_cons.mp hc with rfl | hc
        · exact hfirst c List.mem_cons_self hne
        · rcases List.mem_cons.mp hc with rfl | hc
          · by_cases hab : b = a
            · exact hab ▸ hbx
            · exact trans _ _ _ (hfirst b List.mem_cons_self hab) hbx
          · exact hfirst c (List.mem_cons_of_mem b hc) hne

theorem bestOf_first {l : List α} (hne : l ≠ [])
    (h : l.Pairwise fun x y => if better y x then before y x else before x y) :
    ∃ a ∈ l, bestOf better l = some a ∧ ∀ c ∈ l, c ≠ a → before a c := by
  cases l with
  | nil => exact absurd rfl hne
  | cons b l => exact foldl_betterOf_first trans h

end Best

/-- The whole order of rule 3: more dead cells, then the lower erase count, then the lower number (R113). -/
def takenBefore (a b : SegRecord × Nat) : Prop :=
  b.1.dead < a.1.dead ∨ (a.1.dead = b.1.dead
    ∧ (a.1.eraseCount < b.1.eraseCount ∨ (a.1.eraseCount = b.1.eraseCount ∧ a.2 < b.2)))

theorem takenBefore_trans (a b c : SegRecord × Nat) : takenBefore a b → takenBefore b c → takenBefore a c := by
  unfold takenBefore
  omega

theorem deadBefore_iff (a b : SegRecord × Nat) :
    deadBefore a b = true ↔
      b.1.dead < a.1.dead ∨ (a.1.dead = b.1.dead ∧ a.1.eraseCount < b.1.eraseCount) := by
  simp [deadBefore]

/-- Of two segments in the order of their numbers the later is taken first exactly when it is better. -/
theorem takenBefore_of_lt {a b : SegRecord × Nat} (h : a.2 < b.2) :
    if deadBefore b a then takenBefore b a else takenBefore a b := by
  simp only [deadBefore_iff, takenBefore]
  split <;> omega

section Victim

variable {e : Engine} {n q : Nat}

theorem getElem?_seg (hq : q < e.space.segs.length) : e.space.segs[q]? = some (e.seg q) := by
  rw [Engine.seg, List.getD_eq_getElem?_getD, List.getElem?_eq_getElem hq]
  rfl

theorem lt_of_getElem?_segs {g : SegRecord} (hg : e.space.segs[n]? = some g) : n < e.space.segs.length :=
  (List.getElem?_eq_some_iff.mp hg).1

theorem segTable_ascending (e : Engine) : e.segTable.Pairwise fun a b => a.2 < b.2 := by
  have h : (e.segTable.map (·.2)).Pairwise (· < ·) := by
    rw [Engine.segTable, List.zipIdx_map_snd]
    exact List.pairwise_lt_range'
  exact List.pairwise_map.mp h

/-- The segments that rule 3 chooses among, with their numbers (R113). -/
def deadCandidates (e : Engine) : List (SegRecord × Nat) := e.segTable.filter fun p => p.1.state == .full && 1 ≤ p.1.dead

theorem mem_deadCandidates_iff {p : SegRecord × Nat} :
    p ∈ deadCandidates e ↔
      p.2 < e.space.segs.length ∧ p.1 = e.seg p.2 ∧ (e.seg p.2).state = .full ∧ 1 ≤ (e.seg p.2).dead := by
  obtain ⟨g, q⟩ := p
  simp only [deadCandidates, List.mem_filter, Engine.segTable, List.mk_mem_zipIdx_iff_getElem?, Bool.and_eq_true,
    beq_iff_eq, decide_eq_true_eq]
  constructor
  · rintro ⟨hg, hs, hd⟩
    obtain rfl := DataJobs.seg_of hg
    exact ⟨lt_of_getElem?_segs hg, rfl, hs, hd⟩
  · rintro ⟨hq, rfl, hs, hd⟩
    exact ⟨getElem?_seg hq, hs, hd⟩

theorem deadCandidates_eq_nil_iff :
    deadCandidates e = [] ↔ ∀ q, q < e.space.segs.length → (e.seg q).state = .full → (e.seg q).dead = 0 := by
  simp only [List.eq_nil_iff_forall_not_mem, mem_deadCandidates_iff]
  constructor
  · intro h q hq hs
    exact Nat.lt_one_iff.mp (Nat.not_le.mp fun hd => h (e.seg q, q) ⟨hq, rfl, hs, hd⟩)
  · rintro h p ⟨hq, -, hs, hd⟩
    exact Nat.not_le.mpr (Nat.lt_one_iff.mpr (h p.2 hq hs)) hd

/-- Rule 3 takes the candidate that is taken before all others (R113). -/
theorem mostDead_first (h : deadCandidates e ≠ []) :
    ∃ p ∈ deadCandidates e, e.mostDead = some p.2 ∧ ∀ r ∈ deadCandidates e, r ≠ p → takenBefore p r := by
  have hall : (deadCandidates e).Pairwise fun a b => if deadBefore b a then takenBefore b a else takenBefore a b :=
    ((segTable_ascending e).filter _).imp takenBefore_of_lt
  obtain ⟨p, hp, hbest, hfirst⟩ := bestOf_first takenBefore_trans h hall
  exact ⟨p, hp, congrArg (Option.map Prod.snd) hbest, hfirst⟩

theorem mostDead_eq_none_iff : e.mostDead = none ↔ deadCandidates e = [] := by
  refine ⟨fun h => ?_, fun h => ?_⟩
  · refine Classical.byContradiction fun hne => ?_
    obtain ⟨p, -, hp, -⟩ := mostDead_first hne
    rw [hp] at h
    cases h
  · show (bestOf deadBefore (deadCandidates e)).map (·.2) = none
    rw [h]
    rfl

theorem mostDead_spec (h : e.mostDead = some n) :
    n < e.space.segs.length ∧ (e.seg n).state = .full ∧ 1 ≤ (e.seg n).dead
      ∧ ∀ q, q < e.space.segs.length → (e.seg q).state = .full → q ≠ n →
        (e.seg q).dead < (e.seg n).dead
        ∨ ((e.seg q).dead = (e.seg n).dead
          ∧ ((e.seg n).eraseCount < (e.seg q).eraseCount
            ∨ ((e.seg n).eraseCount = (e.seg q).eraseCount ∧ n < q))) := by
  have hne : deadCandidates e ≠ [] := fun hnil => by rw [mostDead_eq_none_iff.mpr hnil] at h; cases h
  obtain ⟨⟨g, m⟩, hp, hm, hfirst⟩ := mostDead_first hne
  obtain rfl : m = n := Option.some.inj (hm.symm.trans h)
  obtain ⟨hlt, rfl : g = e.seg m, hs, hd⟩ := mem_deadCandidates_iff.mp hp
  refine ⟨hlt, hs, hd, fun q hq hqs hqm => ?_⟩
  rcases Nat.eq_zero_or_pos (e.seg q).dead with h0 | hpos
  · exact .inl (h0 ▸ hd)
  · have hb := hfirst (e.seg q, q) (mem_deadCandidates_iff.mpr ⟨hq, rfl, hqs, hpos⟩) fun hqp => hqm (congrArg Prod.snd hqp)
    simp only [takenBefore] at hb
    omega

theorem chooseVictim_refresh {rest : List Nat} (h : e.reclaim.refresh = n :: rest) (dead : Bool) :
    e.chooseVictim dead = some n := by
  simp only [Engine.chooseVictim, h]

section NoRefresh

variable (h : e.reclaim.refresh = [])
include h

theorem chooseVictim_failedClosed (hn : n < e.space.segs.length) (hs : (e.seg n).state = .failedClosed)
    (first : ∀ q, q < n → (e.seg q).state ≠ .failedClosed) (dead : Bool) : e.chooseVictim dead = some n := by
  have hf : (e.segTable.find? fun p => p.1.state == .failedClosed).map (·.2) = some n := by
    refine SegmentSpace.find?_zipIdx_eq_some_iff.mpr ⟨⟨_, getElem?_seg hn, beq_iff_eq.mpr hs⟩, fun m hm g hg => ?_⟩
    rw [← DataJobs.seg_of hg]
    exact beq_eq_false_iff_ne.mpr (first m hm)
  obtain ⟨p, hp, hpn⟩ := Option.map_eq_some_iff.mp hf
  simp only [Engine.chooseVictim, h, hp, hpn]

theorem chooseVictim_dead (hs : ∀ q, q < e.space.segs.length → (e.seg q).state ≠ .failedClosed) (dead : Bool) :
    e.chooseVictim dead = if dead then e.mostDead else none := by
  have hf : e.segTable.find? (fun p => p.1.state == .failedClosed) = none := by
    refine List.find?_eq_none.mpr fun p hp => ?_
    have hg := List.mk_mem_zipIdx_iff_getElem?.mp hp
    rw [beq_iff_eq, ← DataJobs.seg_of hg]
    exact hs _ (lt_of_getElem?_segs hg)
  simp only [Engine.chooseVictim, h, hf]

end NoRefresh

end Victim

/-- Settles O46, by the three rules in their order. -/
theorem theVictimIsTheFirstRulesChoice : Obligations.TheVictimIsTheFirstRulesChoice := by
  refine fun e dead => ⟨fun n rest h => chooseVictim_refresh h dead,
    fun h n hn hs first => chooseVictim_failedClosed h hn hs first dead, fun h hs => ?_⟩
  rw [chooseVictim_dead h hs]
  refine ⟨fun hd => if_neg (Bool.eq_false_iff.mp hd), fun hd => ?_⟩
  rw [if_pos hd]
  exact ⟨mostDead_eq_none_iff.trans deadCandidates_eq_nil_iff, fun n => mostDead_spec⟩

/-! ### Starting a victim (R62, R112, R114, R129) -/

section Start

variable {e : Engine} {c n v : Nat} {x : JobContext}

theorem startTest_iff : e.startTest v = true ↔ (e.seg v).live + 63 ≤ e.headRoom v + 2045 * e.freeCount :=
  decide_eq_true_iff

theorem formatting_eq_true_iff : e.formatting = true ↔ e.format ≠ none := Option.isSome_iff_ne_none

/-- Whether a RECLAIM names a segment it may take, or ANY (R129). -/
def reclaimNames (e : Engine) (n : Nat) : Prop := n = 0xFFFF ∨ (n < 512 ∧ (e.seg n).state.eligible = true)

/-- The test that a command makes of the segment it names: its number and its state. -/
theorem notTaken_iff (n : Nat) (fits : Bool) : (segmentCount ≤ n || !fits) = true ↔ ¬ (n < 512 ∧ fits = true) := by
  rw [Classical.not_and_iff_not_or_not, Bool.or_eq_true, decide_eq_true_iff, Bool.not_eq_true', Bool.not_eq_true,
    Nat.not_lt]

theorem not_reclaimNames_iff :
    ¬ reclaimNames e n ↔ (n != anySegment && (segmentCount ≤ n || !(e.seg n).state.eligible)) = true := by
  rw [reclaimNames, not_or, Bool.and_eq_true, bne_iff_ne, notTaken_iff]
  exact Iff.rfl

theorem reclaimStep_refused (h : e.ctxs[c]? = some x) (hn : n = Descriptor.segment x.descriptor) {st : Status}
    (hr : e.reclaimRefusal n = some st) : e.reclaimStep c = e.answer c st := by
  subst hn
  simp only [Engine.reclaimStep, Engine.ctx_of h, hr]

theorem reclaimRefusal_mounting (hm : e.state = .mounting) : e.reclaimRefusal n = some .notMounted := if_pos hm

section Refusals

variable (hm : e.state ≠ .mounting)
include hm

theorem reclaimRefusal_badParam (hn : ¬ reclaimNames e n) : e.reclaimRefusal n = some .badParam := by
  rw [Engine.reclaimRefusal, if_neg hm, if_pos (not_reclaimNames_iff.mp hn)]

theorem reclaimRefusal_named (hn : reclaimNames e n) :
    e.reclaimRefusal n = if e.readOnly then some .readOnly
      else if e.reclaim.state != .idle || e.formatting then some .busy else none := by
  rw [Engine.reclaimRefusal, if_neg hm, if_neg fun h => not_reclaimNames_iff.mpr h hn]

variable (hn : reclaimNames e n)
include hn

theorem reclaimRefusal_readOnly (hr : e.readOnly = true) : e.reclaimRefusal n = some .readOnly := by
  rw [reclaimRefusal_named hm hn, if_pos hr]

variable (hr : e.readOnly = false)
include hr

theorem reclaimRefusal_busy (hb : e.reclaim.state ≠ .idle ∨ e.format ≠ none) : e.reclaimRefusal n = some .busy := by
  have hb' : (e.reclaim.state != .idle || e.formatting) = true := by
    rw [Bool.or_eq_true, bne_iff_ne, formatting_eq_true_iff]
    exact hb
  rw [reclaimRefusal_named hm hn, if_neg (Bool.eq_false_iff.mp hr), if_pos hb']

theorem reclaimRefusal_none (hs : e.reclaim.state = .idle) (hf : e.format = none) : e.reclaimRefusal n = none := by
  simp [reclaimRefusal_named hm hn, hr, hs, hf, Engine.formatting]

end Refusals

/-- A victim that is started: the unit waits for its grant, and a HEAD is closed to FULL, which is an event of R112. -/
theorem startVictim_eq (e : Engine) (v : Nat) (requester : Option Nat) :
    e.startVictim v requester = { e with
      space := if (e.seg v).state = .head then { e.space with
        segs := updAt e.space.segs v fun g => { g with state := .full, role := none } } else e.space
      reclaim := { e.reclaim with
        state := .grantWait, victim := some v, cursor := none, requester := requester, step := .none, sweep := none
        choiceDue := decide ((e.seg v).state = .head) || e.reclaim.choiceDue } } := by
  unfold Engine.startVictim
  by_cases hs : (e.seg v).state = .head
  · simp only [hs, decide_true, Bool.true_or]
    rfl
  · simp only [hs, decide_false, Bool.false_or]
    rfl

/-- The start of a victim of the unit's own choice: an event of R112 has been taken already, so that the close of a HEAD
leaves the mark as it is. -/
theorem startVictim_due {g : SegRecord} (hg : e.space.segs[v]? = some g) (hd : e.reclaim.choiceDue = true)
    (requester : Option Nat) :
    e.startVictim v requester = { (if g.state = .head then e.withSeg v { g with state := .full, role := none } else e) with
      reclaim := { e.reclaim with
        state := .grantWait, victim := some v, cursor := none, requester := requester, step := .none
        sweep := none } } := by
  rw [startVictim_eq, DataJobs.seg_of hg, updAt_set hg, hd, Bool.or_true, ← hd]
  split <;> rfl

section Accepted

variable (h : e.ctxs[c]? = some x) (hn : n = Descriptor.segment x.descriptor) (hr : e.reclaimRefusal n = none)
include h hn hr

theorem reclaimStep_nothing (hv : e.reclaimChoice n = none) :
    e.reclaimStep c = e.answer c .ok (.reclaim none .none 0 {}) := by
  subst hn
  simp only [Engine.reclaimStep, Engine.ctx_of h, hr, hv]

theorem reclaimStep_chosen (hv : e.reclaimChoice n = some v) :
    e.reclaimStep c = if e.startTest v then (e.waitInMedia c).startVictim v (some c) else e.answer c .noSpace := by
  subst hn
  simp only [Engine.reclaimStep, Engine.ctx_of h, hr, hv]

end Accepted

theorem waitInMedia_eq (h : e.ctxs[c]? = some x) :
    e.waitInMedia c = e.withCtx c { x with state := .media, ready := false } := DataJobs.modCtx_eq_withCtx h _

theorem exec_reclaim {s : State} (h : s.jobAt c .reclaim x) :
    exec (.reclaim c) s = .next { s with engine := (s.engine.reclaimStep c).settle } :=
  congrArg Host.Outcome.next (h.step _)

theorem headRoom_noHead (h : e.headOf .reclaim none = none) : e.headRoom v = 0 := by
  simp only [Engine.headRoom, h]

theorem headRoom_head (h : e.headOf .reclaim none = some n) :
    e.headRoom v = if n = v then 0 else 2047 - (e.seg n).writePtr := by
  simp only [Engine.headRoom, h, SegRecord.cellsLeft]

/-- The conditions of R112. -/
theorem mayChoose_iff :
    e.mayChoose = true ↔ e.reclaim.state = .idle ∧ e.state = .running ∧ e.readOnly = false ∧ e.format = none
      ∧ (e.reclaim.refresh ≠ [] ∨ (∃ g ∈ e.space.segs, g.state = .failedClosed) ∨ e.reclaim.continuous = true) := by
  have hf : 1 ≤ e.countSegs .failedClosed ↔ ∃ g ∈ e.space.segs, g.state = .failedClosed := by
    simp [Engine.countSegs, Nat.one_le_iff_ne_zero]
  simp [Engine.mayChoose, Engine.reclaimWanted, Engine.formatting, and_assoc, or_assoc, hf]

/-- The mark of an event of R112 is cleared at the end of the step (assumption 12). -/
def choiceMade (e : Engine) : Engine := { e with reclaim := { e.reclaim with choiceDue := false } }

theorem makeChoice_none (h : (e.reclaim.choiceDue && e.mayChoose) = false ∨ e.chooseVictim e.reclaim.continuous = none) :
    e.makeChoice = choiceMade e := by
  unfold Engine.makeChoice
  rcases h with h | h
  · rw [h]; rfl
  · simp only [h, ite_self]; rfl

section Chosen

variable (hc : (e.reclaim.choiceDue && e.mayChoose) = true) (hv : e.chooseVictim e.reclaim.continuous = some v)
include hc hv

theorem makeChoice_noSpace (ht : e.startTest v = false) : e.makeChoice = choiceMade e := by
  simp only [Engine.makeChoice, if_pos hc, hv, ht]
  rfl

theorem makeChoice_starts (ht : e.startTest v = true) :
    e.makeChoice = choiceMade (e.startVictim v none).grantVictim := by
  simp only [Engine.makeChoice, if_pos hc, hv, if_pos ht]
  rfl

end Chosen

end Start

/-! ### The grant (R65, R110) -/

section Grant

variable {e : Engine} {n m : Nat} {g : SegRecord}

/-- Whether a segment may refill the refresh list (R110). -/
def refills (e : Engine) (m : Nat) : Prop :=
  m ∉ e.reclaim.refresh ∧ ∃ h, e.space.segs[m]? = some h ∧ h.weak = true ∧ h.state.eligible = true

theorem refills_iff {h : SegRecord} (hm : e.space.segs[m]? = some h) :
    refills e m ↔ (h.weak && h.state.eligible && !e.reclaim.refresh.contains m) = true := by
  simp [refills, hm, and_comm]

theorem refillCandidate_eq_some_iff : e.refillCandidate = some m ↔ refills e m ∧ ∀ q, q < m → ¬ refills e q := by
  unfold Engine.refillCandidate Engine.segTable
  rw [SegmentSpace.find?_zipIdx_eq_some_iff]
  refine and_congr ⟨fun ⟨h, hm, hp⟩ => (refills_iff hm).mpr hp, fun hr => ?_⟩
    (forall₂_congr fun q _ => ⟨fun hno hr => ?_, fun hno h hq => ?_⟩)
  · obtain ⟨-, h, hm, -⟩ := id hr
    exact ⟨h, hm, (refills_iff hm).mp hr⟩
  · obtain ⟨-, h, hq, -⟩ := id hr
    exact Bool.eq_false_iff.mp (hno h hq) ((refills_iff hq).mp hr)
  · exact Bool.eq_false_iff.mpr (mt (refills_iff hq).mpr hno)

theorem refillCandidate_eq_none_iff : e.refillCandidate = none ↔ ∀ m, ¬ refills e m := by
  refine ⟨fun hnone m hr => ?_, fun h => Option.eq_none_iff_forall_not_mem.mpr fun m hm => ?_⟩
  · obtain ⟨-, h, hm, -⟩ := id hr
    rw [Engine.refillCandidate, Option.map_eq_none_iff, List.find?_eq_none] at hnone
    exact hnone (h, m) (List.mk_mem_zipIdx_iff_getElem?.mpr hm) ((refills_iff hm).mp hr)
  · obtain ⟨hr, -⟩ := refillCandidate_eq_some_iff.mp hm
    exact h m hr

/-- The engine with a segment off the refresh list, before the list is refilled. -/
def offList (e : Engine) (n : Nat) : Engine :=
  { e with reclaim := { e.reclaim with refresh := e.reclaim.refresh.filter (· != n) } }

theorem unlist_absent (h : n ∉ e.reclaim.refresh) : e.unlist n = e := by
  simp [Engine.unlist, h]

section Listed

variable (h : n ∈ e.reclaim.refresh)
include h

theorem unlist_listed : e.unlist n = (offList e n).refill := by
  simp only [Engine.unlist, List.contains_iff_mem.mpr h, if_true]
  rfl

theorem unlist_unfilled (hr : 8 ≤ (offList e n).reclaim.refresh.length ∨ ∀ m, ¬ refills (offList e n) m) :
    e.unlist n = offList e n := by
  rw [unlist_listed h, Engine.refill]
  rcases hr with hr | hr
  · split
    · exact if_neg (Nat.not_lt.mpr hr)
    · rfl
  · simp only [refillCandidate_eq_none_iff.mpr hr]

theorem unlist_refilled (hl : (offList e n).reclaim.refresh.length < 8) (hm : refills (offList e n) m)
    (first : ∀ q, q < m → ¬ refills (offList e n) q) :
    e.unlist n = { e with reclaim := { e.reclaim with
      refresh := e.reclaim.refresh.filter (· != n) ++ [m], choiceDue := true } } := by
  rw [unlist_listed h, Engine.refill]
  simp only [refillCandidate_eq_some_iff.mpr ⟨hm, first⟩]
  exact if_pos hl

end Listed

/-- The unit as a grant leaves it, at its first record boundary (R114). -/
def granted (e : Engine) : Engine :=
  Engine.recordBoundary { e with reclaim := { e.reclaim with
    state := .stepping, cursor := some 2, tallies := {}, step := .none, sweep := none } }

theorem grantVictim_waits (hg : e.space.segs[n]? = some g) (hv : e.reclaim.victim = some n)
    (h : e.reclaim.state ≠ .grantWait ∨ g.progPtr ≠ g.writePtr) : e.grantVictim = e := by
  unfold Engine.grantVictim
  split
  · next m hs hm =>
    obtain rfl : n = m := Option.some.inj (hv.symm.trans hm)
    rw [DataJobs.seg_of hg]
    exact if_neg (h.resolve_left (not_not_intro hs))
  · rfl

/-- The victim enters RECLAIMING (R65). -/
def reclaimed (e : Engine) (n : Nat) (g : SegRecord) : Engine := e.withSeg n { g with state := .reclaiming, role := none }

theorem grantVictim_granted (hg : e.space.segs[n]? = some g) (hv : e.reclaim.victim = some n)
    (hs : e.reclaim.state = .grantWait) (hp : g.progPtr = g.writePtr) :
    e.grantVictim = granted ((reclaimed e n g).unlist n) := by
  simp only [Engine.grantVictim, hs, hv, DataJobs.seg_of hg, if_pos hp, DataJobs.modSeg_eq_withSeg hg]
  rfl

/-- The victim itself does not refill the list, since it is RECLAIMING (R110). -/
theorem refills_reclaimed_iff (hg : e.space.segs[n]? = some g) :
    refills (offList (reclaimed e n g) n) m ↔ m ≠ n ∧ m ∉ e.reclaim.refresh.filter (· != n)
      ∧ ∃ h, e.space.segs[m]? = some h ∧ h.weak = true ∧ h.state.eligible = true := by
  by_cases hm : m = n
  · subst hm
    have hst : (offList (reclaimed e m g) m).space.segs[m]? = some { g with state := .reclaiming, role := none } :=
      set_there hg _
    simp [refills_iff hst, SegState.eligible]
  · have hst : (offList (reclaimed e n g) n).space.segs[m]? = e.space.segs[m]? := List.getElem?_set_ne (Ne.symm hm)
    simp only [refills, hst, ne_eq, hm, not_false_eq_true, true_and]
    rfl

end Grant

/-- Settles O58: the refusals in their order, the start of the victim, the unit's own choice, and the grant. -/
theorem aReclaimStartsItsVictim : Obligations.AReclaimStartsItsVictim := by
  refine ⟨fun s c n x h hn => ?_, fun e v => ⟨headRoom_noHead, fun m => headRoom_head⟩, fun e chooses hc => ?_,
    fun e n g refresh rest due hg hv hrest => ⟨grantVictim_waits hg hv, fun hs hp joins hj habs hunf hfill => ?_⟩⟩
  · have hx := DataJobs.jobAt_ctxs h
    rw [exec_reclaim h]
    refine ⟨fun hm => ?_, fun hm named hnamed => ?_⟩
    · rw [reclaimStep_refused hx hn (reclaimRefusal_mounting hm)]; rfl
    · replace hnamed : named ↔ reclaimNames s.engine n := by
        rw [hnamed, reclaimNames, DataJobs.eligible_iff]
      refine ⟨fun hno => ?_, fun hyes hr => ?_, fun hyes hr hb => ?_, fun hyes hr hs hf => ?_⟩
      · rw [reclaimStep_refused hx hn (reclaimRefusal_badParam hm (mt hnamed.mpr hno))]; rfl
      · rw [reclaimStep_refused hx hn (reclaimRefusal_readOnly hm (hnamed.mp hyes) hr)]; rfl
      · rw [reclaimStep_refused hx hn (reclaimRefusal_busy hm (hnamed.mp hyes) hr hb)]; rfl
      · have hnone := reclaimRefusal_none hm (hnamed.mp hyes) hr hs hf
        refine ⟨fun hany hv => ?_, fun v hv => ⟨fun ht => ?_, fun ht => ⟨_, decide_eq_true_iff, ?_⟩⟩⟩
        · rw [reclaimStep_nothing hx hn hnone ((if_pos hany).trans hv)]; rfl
        · rw [reclaimStep_chosen hx hn hnone hv, if_neg (mt startTest_iff.mp ht)]; rfl
        · rw [reclaimStep_chosen hx hn hnone hv, if_pos (startTest_iff.mpr ht), startVictim_eq, waitInMedia_eq hx]
          simp only [decide_eq_true_eq]
          rfl
  · obtain rfl : chooses = (e.reclaim.choiceDue && e.mayChoose) := by
      rw [Bool.eq_iff_iff, hc, Bool.and_eq_true, mayChoose_iff]
    refine ⟨makeChoice_none, fun v g hch hv hg => ?_⟩
    obtain ⟨hdue, -⟩ := Bool.and_eq_true_iff.mp hch
    have ht : e.startTest v = true ↔ g.live + 63 ≤ e.headRoom v + 2045 * e.freeCount := by
      rw [startTest_iff, DataJobs.seg_of hg]
    refine ⟨fun hno => makeChoice_noSpace hch hv (Bool.eq_false_iff.mpr (mt ht.mp hno)), fun hyes => ⟨_, rfl, ?_⟩⟩
    rw [makeChoice_starts hch hv (ht.mpr hyes), startVictim_due hg hdue]
    rfl
  · subst hrest
    have hjoins (m : Nat) : refills (offList (reclaimed e n g) n) m ↔ joins m := by
      rw [refills_reclaimed_iff hg, hj]
      simp only [DataJobs.eligible_iff]
    rw [grantVictim_granted hg hv hs hp]
    by_cases hn : n ∈ e.reclaim.refresh
    · have hk : n ∈ (reclaimed e n g).reclaim.refresh := hn
      cases hc : (offList (reclaimed e n g) n).refillCandidate with
      | none =>
        have hno := refillCandidate_eq_none_iff.mp hc
        obtain ⟨rfl, rfl⟩ := hunf hn (.inr fun m => mt (hjoins m).mpr (hno m))
        rw [unlist_unfilled hk (.inr hno)]
        rfl
      | some m =>
        obtain ⟨hm, first⟩ := refillCandidate_eq_some_iff.mp hc
        by_cases hl : (e.reclaim.refresh.filter (· != n)).length < 8
        · obtain ⟨rfl, rfl⟩ := hfill hn hl m ((hjoins m).mp hm) fun q hq => mt (hjoins q).mpr (first q hq)
          rw [unlist_refilled hk hl hm first]
          rfl
        · obtain ⟨rfl, rfl⟩ := hunf hn (.inl (Nat.not_lt.mp hl))
          rw [unlist_unfilled hk (.inl (Nat.not_lt.mp hl))]
          rfl
    · obtain ⟨rfl, rfl⟩ := habs hn
      rw [unlist_absent (e := reclaimed e n g) hn]
      rfl

/-! ### Record boundaries (R116, R121, R124, R125) -/

theorem mustPause_iff (e : Engine) : e.mustPause = true ↔ e.reclaim.causes.any = true ∨ e.formatEnding = true :=
  Bool.or_eq_true_iff

theorem mustPause_eq_false_iff (e : Engine) :
    e.mustPause = false ↔ e.reclaim.causes.any = false ∧ e.formatEnding = false := Bool.or_eq_false_iff

theorem formatEnding_iff (e : Engine) : e.formatEnding = true ↔ ∃ f, e.format = some f ∧ f.stage = .ending := by
  unfold Engine.formatEnding
  cases e.format <;> simp

section Boundary

variable {e : Engine} {n p key : Nat} {g : SegRecord}

theorem recordBoundary_pauses (h : e.mustPause = true) : e.recordBoundary = e.pauseReclaim := if_pos h

theorem recordBoundary_begins (h : e.mustPause = false) : e.recordBoundary = e.beginStep :=
  if_neg (Bool.eq_false_iff.mp h)

theorem reclaimRead_eq (hg : e.space.segs[n]? = some g) (cell count : Nat) (step : ReclaimStep) :
    e.reclaimRead n cell count step = { e.withSeg n { g with pins := g.pins + 1 } with
      reclaim := { e.reclaim with step := step } }.enqueue
        { kind := .read, seg := n, cell := cell, count := count, requester := .reclaim } := by
  rw [Engine.reclaimRead, Engine.pin, DataJobs.modSeg_eq_withSeg (e := e.setReclaim _) hg]
  rfl

section Victim

variable (hv : e.reclaim.victim = some n)
include hv

theorem beginStep_sweeps (hs : e.reclaim.sweep = some key) : e.beginStep = e.sweepFrom n key := by
  simp only [Engine.beginStep, hv, hs]

variable (hc : e.reclaim.cursor = some p)
include hc

theorem beginStep_walks (hs : e.reclaim.sweep = none) :
    e.beginStep = if 2047 ≤ p then e.walkEnd n else e.reclaimRead n p 1 .header := by
  simp only [Engine.beginStep, hv, hc, hs]

end Victim

theorem passCells_eq (hc : e.reclaim.cursor = some p) (count : Nat) :
    e.passCells count =
      { e with reclaim := { e.reclaim with cursor := some (p + count), step := .none } }.recordBoundary := by
  simp only [Engine.passCells, Engine.setReclaim, hc, Option.map_some]

theorem passRecord_walk (hs : e.reclaim.sweep = none) (count : Nat) : e.passRecord key count = e.passCells count := by
  simp only [Engine.passRecord, hs]

theorem passRecord_sweep {at_ : Nat} (hs : e.reclaim.sweep = some at_) (count : Nat) :
    e.passRecord key count =
      { e with reclaim := { e.reclaim with sweep := some (key + 1), step := .none } }.recordBoundary := by
  simp only [Engine.passRecord, hs]
  rfl

end Boundary

/-! ### Reads of the walk (R64, R102, R105, R116) -/

section Reads

variable {e : Engine} {n p : Nat} {q : Request} {x : CellOutcome} {h : RecordHeader}

theorem readReported_reclaim (hq : q.requester = .reclaim) (cells : List CellOutcome) :
    e.readReported q cells =
      ((e.markWeak q.seg (weakRead e.control.limits.threshold cells)).unpin q.seg).reclaimReadDone q cells := by
  simp only [Engine.readReported, hq]

section Header

variable (hs : e.reclaim.step = .header)
include hs

theorem reclaimReadDone_blank (hx : headerVerdict q.cell x = .blank) :
    e.reclaimReadDone q [x] = (e.setReclaim fun u => { u with step := .none }).walkEnd q.seg := by
  simp only [Engine.reclaimReadDone, hs, List.headD_cons, hx]

theorem reclaimReadDone_invalid (hx : headerVerdict q.cell x = .invalid) :
    e.reclaimReadDone q [x] = (e.tally fun t => { t with resync := t.resync + 1 }).passCells 1 := by
  simp only [Engine.reclaimReadDone, hs, List.headD_cons, hx]

/-- The unit with the header of the step's record in the reclaim buffer (R116). -/
def headerHeld (e : Engine) (h : RecordHeader) : Engine := e.setReclaim fun u => { u with buffer := [.header h] }

theorem reclaimReadDone_valid (hx : headerVerdict q.cell x = .valid h) :
    e.reclaimReadDone q [x] = if h.cells = 1 then
        (headerHeld e h).settleRecord { seg := q.seg, cell := q.cell, count := 1 } h []
      else (headerHeld e h).reclaimRead q.seg (q.cell + 1) (h.cells - 1) (.values h) := by
  simp only [Engine.reclaimReadDone, hs, List.headD_cons, hx]
  rfl

end Header

theorem reclaimReadDone_values (hs : e.reclaim.step = .values h) (cells : List CellOutcome) :
    e.reclaimReadDone q cells =
      (e.fillBuffer h cells).settleRecord { seg := q.seg, cell := q.cell - 1, count := h.cells } h cells := by
  simp only [Engine.reclaimReadDone, hs]

end Reads

/-! ### Settling a record (R117 to R120) -/

section Settle

variable {e k : Engine} {key : Nat} {l : Location} {h : RecordHeader} {cells : List CellOutcome}

theorem isCurrent_iff : e.isCurrent key l = true ↔ ∃ t, e.entry key = some t ∧ t.body.loc? = some l := by
  unfold Engine.isCurrent Engine.lookup
  cases e.entry key <;> simp

theorem isDamaged_eq_false_iff :
    e.isDamaged key = false ↔ ∀ t m r, e.entry key = some t → t.body ≠ .lost m r .damaged := by
  unfold Engine.isDamaged Engine.lookup
  cases e.entry key with
  | none => simp
  | some t =>
    have ht : (∀ u m r, some t = some u → u.body ≠ .lost m r .damaged) ↔ ∀ m r, t.body ≠ .lost m r .damaged :=
      ⟨fun h m r => h t m r rfl, fun h u m r hu => Option.some.inj hu ▸ h m r⟩
    rw [ht, Option.map_some]
    rcases t.body with _ | _ | _ | ⟨_, _, _ | _⟩ <;> simp

/-- A one-cell record's copy has no value bytes. -/
theorem buildCopy_nil (h : RecordHeader) : buildCopy h [] = .header h :: valueCells (h.cells - 1) [] := by
  simp [buildCopy, valueBytes]

section Current

variable (hc : e.isCurrent h.key l = true)
include hc

theorem settleRecord_tombstone (hk : h.kind = .tombstone) :
    e.settleRecord l h cells = e.placeStep .tombstone h.key l (.header h :: valueCells (h.cells - 1) []) := by
  simp only [Engine.settleRecord, hk, hc, if_true, buildCopy_nil]

theorem settleRecord_loss (hk : h.kind = .loss) :
    e.settleRecord l h cells = e.placeStep .lossCopy h.key l (.header h :: valueCells (h.cells - 1) []) := by
  simp only [Engine.settleRecord, hk, hc, if_true, buildCopy_nil]

/-- A current VALUE is copied when it is INTACT and its entry is not LOST already; else a LOSS marker replaces it. -/
theorem settleRecord_value (hk : h.kind = .value) :
    e.settleRecord l h cells = if valueVerdict h cells = .intact && !e.isDamaged h.key then
        e.placeStep .valueCopy h.key l (buildCopy h cells)
      else e.placeStep .lossMarker h.key l (buildMark .loss h.key h.rseq) := by
  simp only [Engine.settleRecord, hk, hc, if_true]

end Current

section Stale

variable (hc : e.isCurrent h.key l = false)
include hc

theorem settleRecord_stale (hk : h.kind = .value) (ht : valueVerdict h cells ≠ .torn)
    (hp : (e.seg l.seg).progFailed = false) :
    e.settleRecord l h cells =
      ((e.decrementClaim h.key).tally fun t => { t with stalePassed := t.stalePassed + 1 }).passCells h.cells := by
  simp [Engine.settleRecord, Engine.settleStale, hk, hc, ht, hp]

theorem settleRecord_dropped (hd : h.kind ≠ .value ∨ valueVerdict h cells = .torn ∨ (e.seg l.seg).progFailed = true) :
    e.settleRecord l h cells = (e.tally fun t => { t with dropped := t.dropped + 1 }).passCells h.cells := by
  have hs : e.settleStale l.seg h (valueVerdict h cells) =
      (e.tally fun t => { t with dropped := t.dropped + 1 }).passCells h.cells := by
    refine if_neg fun hb => ?_
    simp only [Bool.and_eq_true, decide_eq_true_eq, bne_iff_ne, Bool.not_eq_true'] at hb
    obtain ⟨⟨hk, ht⟩, hp⟩ := hb
    exact hd.elim (· hk) fun h => h.elim ht (Bool.eq_false_iff.mp hp)
  cases hk : h.kind <;> simp only [Engine.settleRecord, hk, hc, Bool.false_eq_true, if_false, hs]

end Stale

theorem placeStep_placed {new : Location} {contents : List CellData}
    (hp : e.placeReclaim contents.length = (k, some new)) (what : Written) :
    e.placeStep what key l contents = { k with
      reclaim := { k.reclaim with step := .program what key l, buffer := contents } }.enqueue
        { kind := .reclaimRecord, seg := new.seg, cell := new.cell, count := new.count, requester := .reclaim
          contents := contents } := by
  simp only [Engine.placeStep, hp]
  rfl

theorem placeStep_pauses {contents : List CellData} (hp : e.placeReclaim contents.length = (k, none)) (what : Written) :
    e.placeStep what key l contents = k.pauseForSpace := by
  simp only [Engine.placeStep, hp]

end Settle

/-! ### The end of a walk, and the sweep (R121, R122) -/

section Sweep

variable {e : Engine} {n key : Nat} {g : SegRecord}

theorem walkEnd_released (hg : e.space.segs[n]? = some g) (hl : g.live = 0) : e.walkEnd n = e.releaseVictim n := by
  rw [Engine.walkEnd, DataJobs.seg_of hg, if_pos hl]

theorem walkEnd_live (hg : e.space.segs[n]? = some g) (hl : 0 < g.live) :
    e.walkEnd n = if e.mustPause then (e.setReclaim fun u => { u with sweep := some 0 }).pauseReclaim
      else (e.setReclaim fun u => { u with sweep := some 0 }).sweepFrom n 0 := by
  rw [Engine.walkEnd, DataJobs.seg_of hg, if_neg (Nat.ne_of_gt hl)]
  rfl

/-- Whether the sweep from a key on settles an entry: whether it points into the victim (R121). -/
def swept (key n : Nat) (t : Entry) : Bool := key ≤ t.key && t.body.loc?.any (·.seg == n)

theorem swept_iff {t : Entry} : swept key n t = true ↔ key ≤ t.key ∧ ∃ l, t.body.loc? = some l ∧ l.seg = n := by
  simp [swept, Option.any_eq_true]

theorem swept_eq_false_iff {t : Entry} :
    swept key n t = false ↔ (key ≤ t.key → ∀ l, t.body.loc? = some l → l.seg ≠ n) := by
  simp [← Bool.not_eq_true, swept_iff]

theorem sweepNext_eq (entries : List Entry) (key n : Nat) : sweepNext entries key n = entries.find? (swept key n) := by
  unfold sweepNext
  congr 1
  funext t
  unfold swept
  cases t.body.loc? <;> rfl

theorem sweepFrom_released (h : ∀ t ∈ e.index.entries, swept key n t = false) : e.sweepFrom n key = e.releaseVictim n := by
  have hnone : sweepNext e.index.entries key n = none := by
    rw [sweepNext_eq, List.find?_eq_none]
    exact fun t ht => Bool.eq_false_iff.mp (h t ht)
  simp only [Engine.sweepFrom, hnone]

/-- The sweep goes on with the first entry, in key order, that points into the victim (R121). -/
theorem sweepFrom_entry {i : Nat} {t : Entry} (ht : e.index.entries[i]? = some t) (hs : swept key n t = true)
    (first : ∀ j u, j < i → e.index.entries[j]? = some u → swept key n u = false) : e.sweepFrom n key = e.sweepEntry t := by
  obtain ⟨hi, rfl⟩ := List.getElem?_eq_some_iff.mp ht
  have hsome : sweepNext e.index.entries key n = some e.index.entries[i] := by
    rw [sweepNext_eq, List.find?_eq_some_iff_getElem]
    exact ⟨hs, i, hi, rfl, fun j hj => by rw [first j _ hj (List.getElem?_eq_getElem _)]; rfl⟩
  simp only [Engine.sweepFrom, hsome]

/-- The unit with a record of the sweep built in the reclaim buffer, from its entry alone (R121). -/
def sweepBuilt (e : Engine) (kind : RecordKind) (t : Entry) : Engine :=
  e.setReclaim fun u => { u with sweep := some t.key, buffer := buildMark kind t.key t.body.rseq }

/-- A DELETED entry is swept with a TOMBSTONE, any other with a LOSS record, which is a copy for a LOST entry of loss form
MARKER (R121). -/
theorem sweepEntry_builds (e : Engine) {t : Entry} {l : Location} (hl : t.body.loc? = some l) :
    ∃ what kind, e.sweepEntry t = (sweepBuilt e kind t).placeStep what t.key l (buildMark kind t.key t.body.rseq)
      ∧ (kind = .tombstone ↔ t.body.kind = .deleted) ∧ (kind ≠ .tombstone → kind = .loss)
      ∧ (what = .tombstone ↔ t.body.kind = .deleted) ∧ (what = .lossCopy ↔ ∃ r, t.body = .lost l r .marker)
      ∧ what ≠ .valueCopy := by
  obtain ⟨key, body, stale, pending, waiters⟩ := t
  cases body with
  | nascent => cases hl
  | value m r len => cases hl; exact ⟨.lossMarker, .loss, rfl, by simp [EntryBody.kind]⟩
  | deleted m r => cases hl; exact ⟨.tombstone, .tombstone, rfl, by simp [EntryBody.kind]⟩
  | lost m r form =>
    cases hl
    cases form with
    | marker => exact ⟨.lossCopy, .loss, rfl, by simp [EntryBody.kind]⟩
    | damaged => exact ⟨.lossMarker, .loss, rfl, by simp [EntryBody.kind]⟩

end Sweep

/-! ### The requester at a pause (R125, R130) -/

section Requester

variable {e : Engine} {c n p : Nat} {x : JobContext} {r : RingContext}

theorem answerRequester_unasked (h : e.reclaim.requester = none) (st : Status) (ended : ReclaimEnd) :
    e.answerRequester st ended = e := by
  simp only [Engine.answerRequester, h]

theorem answerRequester_held (hv : e.reclaim.victim = some n) (hp : e.reclaim.cursor = some p)
    (hr : e.reclaim.requester = some c) (hx : e.ctxs[c]? = some x) (hg : e.rings[x.ring]? = some r) :
    e.answerRequester .busy .held = { (e.withCtx c { x with
      state := .posting, ready := false, transfer := none
      outcome := { status := .busy, results := .reclaim (some n) .held p e.reclaim.tallies } }) with
        rings := e.rings.set x.ring { r with posting := r.posting ++ [c] }
        reclaim := { e.reclaim with requester := none } } := by
  simp only [Engine.answerRequester, hr, hv, hp, DataJobs.complete_eq_set hx hg]
  rfl

end Requester

/-- Settles O48, from the rules of the record boundary, the reads, the settling of a record, the sweep and the pause. -/
theorem theReclaimCursorSettlesItsRecord : Obligations.TheReclaimCursorSettlesItsRecord := by
  refine ⟨fun e n p g hv hc hg => ⟨?_, ?_, ?_, ?_, ?_, ?_, ?_, ?_, ?_, ?_⟩, formatEnding_iff⟩
  · refine ⟨fun h => ?_, fun h hf => ?_, fun hs hp => ?_, fun hs hp => ?_, fun key => beginStep_sweeps hv,
      fun hs h hf => ?_, fun h => ?_⟩
    · rw [recordBoundary_pauses ((mustPause_iff e).mpr h)]; rfl
    · exact recordBoundary_begins ((mustPause_eq_false_iff e).mpr ⟨h, hf⟩)
    · rw [beginStep_walks hv hc hs, if_neg (Nat.not_le.mpr hp), reclaimRead_eq hg]
    · rw [beginStep_walks hv hc hs, if_pos hp]
    · exact SegmentSpace.resumeReclaim_goesOn hs ((mustPause_eq_false_iff e).mpr ⟨h, hf⟩)
    · refine SegmentSpace.resumeReclaim_stays fun ⟨hs, hm⟩ => ?_
      rcases h with h | h
      · exact h hs
      · exact Bool.eq_false_iff.mp hm ((mustPause_iff e).mpr h)
  · exact passCells_eq hc
  · exact fun key count => ⟨fun hs => passRecord_walk hs count, fun at_ hs => passRecord_sweep hs count⟩
  · rintro q cells weak hq rfl
    exact readReported_reclaim hq cells
  · rintro q x hs rfl rfl
    refine ⟨reclaimReadDone_blank hs, reclaimReadDone_invalid hs, fun h hx => ⟨fun h1 => ?_, fun h1 => ?_⟩⟩
    · rw [reclaimReadDone_valid hs hx, if_pos h1]; rfl
    · rw [reclaimReadDone_valid hs hx, if_neg h1, reclaimRead_eq (e := headerHeld e h) hg]; rfl
  · rintro q cells h hs rfl hq
    rw [reclaimReadDone_values hs, hq]
    rfl
  · rintro l h cells current rfl hcur
    rw [← isCurrent_iff] at hcur
    refine ⟨fun hy => settleRecord_tombstone (hcur.mp hy), fun hy => settleRecord_loss (hcur.mp hy),
      fun hy hk ok hok => ?_, fun hn hk ht hp => ?_, fun hn hd => ?_⟩
    · have hb : (valueVerdict h cells = .intact && !e.isDamaged h.key) = ok := by
        rw [Bool.eq_iff_iff, hok, ← isDamaged_eq_false_iff]
        simp
      rw [settleRecord_value (hcur.mp hy) hk, hb]
      exact ⟨fun ht => by rw [if_pos ht]; rfl, fun hf => by rw [if_neg (Bool.eq_false_iff.mp hf)]; rfl⟩
    · exact settleRecord_stale (Bool.eq_false_iff.mpr (mt hcur.mpr hn)) hk ht ((DataJobs.seg_of hg).symm ▸ hp)
    · exact settleRecord_dropped (Bool.eq_false_iff.mpr (mt hcur.mpr hn)) ((DataJobs.seg_of hg).symm ▸ hd)
  · exact fun what key l cells k =>
      ⟨fun new hp => placeStep_placed hp what, fun hp => placeStep_pauses hp what⟩
  · rintro k rfl
    refine ⟨walkEnd_released hg, fun hl h hf => ?_, fun hl h => ?_, fun key => ⟨fun h => ?_,
      fun i t l ht hk hl hn first => ?_⟩⟩
    · rw [walkEnd_live hg hl, (mustPause_eq_false_iff e).mpr ⟨h, hf⟩]; rfl
    · rw [walkEnd_live hg hl, (mustPause_iff e).mpr h]; rfl
    · exact sweepFrom_released fun t ht => swept_eq_false_iff.mpr (h t ht)
    · rw [sweepFrom_entry ht (swept_iff.mpr ⟨hk, l, hl, hn⟩) fun j u hj hu =>
        swept_eq_false_iff.mpr fun hku m => first j u m hj hu hku]
      exact sweepEntry_builds e hl
  · exact ⟨fun h => answerRequester_unasked h _ _, fun c x r => answerRequester_held hv hc⟩

/-! ### What an unpin leaves of a context's job (R64, R67, R73, R130) -/

section Jobs

/-- Two engines whose contexts hold the same descriptors, whatever else became of the contexts. -/
def SameJobs (e k : Engine) : Prop := k.ctxs.map (·.descriptor) = e.ctxs.map (·.descriptor)

variable {e k m : Engine}

theorem SameJobs.of_ctxs (h : k.ctxs = e.ctxs) : SameJobs e k := congrArg _ h

theorem SameJobs.trans (h : SameJobs e k) (hm : SameJobs k m) : SameJobs e m := Eq.trans hm h

theorem SameJobs.job (h : SameJobs e k) (c : Nat) : (k.ctx c).job = (e.ctx c).job := by
  have hd (a : Engine) : (a.ctx c).descriptor = (a.ctxs.map (·.descriptor)).getD c [] := by
    rw [Engine.ctx, List.getD_eq_getElem?_getD, List.getD_eq_getElem?_getD, List.getElem?_map]
    cases a.ctxs[c]? <;> rfl
  rw [JobContext.job, hd, h, ← hd]
  rfl

theorem complete_sameJobs (e : Engine) (c : Nat) (o : JobOutcome) : SameJobs e (e.complete c o) := by
  refine List.ext_getElem? fun i => ?_
  show ((updAt e.ctxs c _).map _)[i]? = _
  rw [List.getElem?_map, List.getElem?_map, updAt_get]
  split
  · cases e.ctxs[i]? <;> rfl
  · rfl

theorem answerRequester_sameJobs (e : Engine) (st : Status) (ended : ReclaimEnd) :
    SameJobs e (e.answerRequester st ended) := by
  unfold Engine.answerRequester
  split
  · exact .of_ctxs rfl
  · exact complete_sameJobs _ _ _

theorem victimEnded_sameJobs (e : Engine) (n : Nat) (ended : ReclaimEnd) : SameJobs e (e.victimEnded n ended) := by
  unfold Engine.victimEnded
  split
  · exact answerRequester_sameJobs _ _ _
  · exact .of_ctxs rfl

theorem retireSegment_sameJobs (e : Engine) (n : Nat) (cause : RetireCause) (by_ : Requester) :
    SameJobs e (e.retireSegment n cause by_) := by
  unfold Engine.retireSegment
  refine SameJobs.trans (.of_ctxs ?_) (victimEnded_sameJobs _ _ _)
  rw [DataJobs.formatCounts_ctxs]
  split
  · rw [DataJobs.addCause_ctxs]; rfl
  · rfl

theorem settleReleased_sameJobs (e : Engine) : SameJobs e e.settleReleased := by
  unfold Engine.settleReleased
  split
  · exact .of_ctxs rfl
  · split
    · dsimp only
      split
      · exact SameJobs.trans (k := { e with space := { e.space with released := none } }) (.of_ctxs rfl)
          (retireSegment_sameJobs _ _ _ _)
      · exact .of_ctxs rfl
    · exact .of_ctxs rfl

theorem unpin_sameJobs (e : Engine) (n : Nat) : SameJobs e (e.unpin n) := by
  unfold Engine.unpin
  dsimp only
  split
  · exact (settleReleased_sameJobs (e.modSeg n _)).trans (.of_ctxs (DataJobs.settlePinWait_ctxs _))
  · exact .of_ctxs rfl

end Jobs

/-! ### The walk of a SCRUB (R106, R132, R133) -/

section Walk

variable {e : Engine} {c n : Nat} {x : JobContext} {w : ScrubWork} {g : SegRecord} {q : Request} {cells : List CellOutcome}

/-- The read of a SCRUB is no location read, and marks its segment weak by its cells alone (R102). -/
theorem readReported_scrub (hx : e.ctxs[c]? = some x) (hj : x.job = some .scrub) (hq : q.requester = .ctx c) :
    e.readReported q cells =
      ((e.markWeak q.seg (weakRead e.control.limits.threshold cells)).unpin q.seg).scrubReadDone c q cells := by
  have hu : x.unreadable cells = false := by simp [JobContext.unreadable, hj]
  have hjob (weak : Bool) : (((e.markWeak q.seg weak).unpin q.seg).ctx c).job = some .scrub := by
    rw [((SameJobs.of_ctxs (DataJobs.markWeak_ctxs e q.seg weak)).trans (unpin_sameJobs _ _)).job, Engine.ctx_of hx, hj]
  simp only [Engine.readReported, hq, Engine.ctx_of hx, hu, Bool.or_false, Engine.ctxReadDone, hjob]

/-- The engine with the walk of the SCRUB in context `c`, which is `x`, standing at `w`. -/
def walking (e : Engine) (c : Nat) (x : JobContext) (w : ScrubWork) : Engine := e.withCtx c { x with scrub := w }

theorem inUse_iff (st : SegState) :
    st.inUse = true ↔ st = .head ∨ st = .full ∨ st = .failedClosed ∨ st = .reclaiming := by
  rw [DataJobs.inUse_iff, DataJobs.eligible_iff, or_assoc, or_assoc]

theorem foldl_max_correctedBits (m : Nat) (cells : List CellOutcome) :
    cells.foldl (fun m o => max m o.correctedBits) m = max m (largestCorrected cells) := by
  unfold largestCorrected
  induction cells generalizing m with
  | nil => exact (Nat.max_zero m).symm
  | cons o cells ih =>
    rw [List.foldl_cons, List.foldl_cons, ih, ih (max 0 _), Nat.zero_max, Nat.max_assoc]

/-- What a read adds to the counts, in the words of R106. -/
theorem noteRead_eq (w : ScrubWork) (cells : List CellOutcome) :
    w.noteRead cells = { w with
      corrected := w.corrected + cells.countP fun o => 1 ≤ o.correctedBits
      maxBits := cells.foldl (fun m o => max m o.correctedBits) w.maxBits } := by
  rw [foldl_max_correctedBits]
  rfl

theorem noteLost_eq (w : ScrubWork) (b : Bool) :
    w.noteLost b = { w with uncorrectable := w.uncorrectable + if b then 1 else 0 } := by
  cases b <;> rfl

/-- The walk after its cursor has passed a record (R132). -/
def passed (w : ScrubWork) (count : Nat) : ScrubWork := { w with cursor := w.cursor + count, header := none }

/-- The walk with a VALID header counted and held for the read of its value cells (R106). -/
def counted (w : ScrubWork) (h : RecordHeader) : ScrubWork := { w with records := w.records + 1, header := some h }

theorem passed_eq {count : Nat} (hw : w.header = none) : passed w count = { w with cursor := w.cursor + count } := by
  rw [passed, ← hw]

theorem passed_noteLost {count : Nat} (hw : w.header = none) (b : Bool) :
    passed (w.noteLost b) count = { w with
      cursor := w.cursor + count, uncorrectable := w.uncorrectable + if b then 1 else 0 } := by
  rw [noteLost_eq]
  exact passed_eq (w := { w with uncorrectable := _ }) hw

theorem passed_counted {count : Nat} (hw : w.header = none) (h : RecordHeader) :
    passed (counted w h) count = { w with cursor := w.cursor + count, records := w.records + 1 } :=
  passed_eq (w := { w with records := w.records + 1 }) hw

section There

variable (hx : e.ctxs[c]? = some x)
include hx

theorem walking_there (y : JobContext) (w : ScrubWork) : (walking e c y w).ctxs[c]? = some { y with scrub := w } :=
  DataJobs.withCtx_get hx _

theorem setScrub_eq (f : ScrubWork → ScrubWork) : e.setScrub c f = walking e c x (f x.scrub) :=
  DataJobs.modCtx_eq_withCtx hx _

theorem setScrub_walking (w : ScrubWork) (f : ScrubWork → ScrubWork) :
    (walking e c x w).setScrub c f = walking e c x (f w) := by
  rw [setScrub_eq (walking_there hx x w)]
  exact DataJobs.withCtx_withCtx e c _ _

theorem scrubPass_walking (w : ScrubWork) (count : Nat) :
    (walking e c x w).scrubPass c count = (walking e c x (passed w count)).scrubNext c := by
  rw [Engine.scrubPass, setScrub_walking hx]
  rfl

theorem scrubEnd_eq (ended : ScrubEnd) :
    e.scrubEnd c ended = e.complete c
      { status := .ok, flags := { succeeded := true }
        results := .scrub x.scrub.seg ended x.scrub.maxBits (x.scrub.cursor - 2) x.scrub.records x.scrub.corrected
          x.scrub.uncorrectable } := by
  simp only [Engine.scrubEnd, Engine.ctx_of hx]
  rfl

theorem scrubNext_limit (h : x.scrub.limit ≤ x.scrub.cursor ∨ 2047 ≤ x.scrub.cursor) :
    e.scrubNext c = e.scrubEnd c .limit := by
  simp only [Engine.scrubNext, Engine.ctx_of hx]
  exact if_pos (by simpa using h)

theorem scrubNext_reads (hl : x.scrub.cursor < x.scrub.limit) (hc : x.scrub.cursor < 2047) :
    e.scrubNext c = e.scrubRead c x.scrub.cursor 1 := by
  simp only [Engine.scrubNext, Engine.ctx_of hx]
  exact if_neg (by simpa using ⟨hl, hc⟩)

theorem scrubRead_inUse (hu : (e.seg x.scrub.seg).state.inUse = true) (cell count : Nat) :
    e.scrubRead c cell count = (e.pin x.scrub.seg).enqueue
      { kind := .read, seg := x.scrub.seg, cell := cell, count := count, requester := .ctx c } := by
  simp only [Engine.scrubRead, Engine.ctx_of hx, if_pos hu]

theorem scrubRead_ends (hu : (e.seg x.scrub.seg).state.inUse = false) (cell count : Nat) :
    e.scrubRead c cell count = e.scrubEnd c .state := by
  simp only [Engine.scrubRead, Engine.ctx_of hx, hu, Bool.false_eq_true, if_false]

theorem scrubReadDone_values {h : RecordHeader} (hh : x.scrub.header = some h) :
    e.scrubReadDone c q cells = (walking e c x (passed ((x.scrub.noteRead cells).noteLost
      (valueVerdict h cells == .damaged)) h.cells)).scrubNext c := by
  simp only [Engine.scrubReadDone, Engine.ctx_of hx, hh]
  rw [setScrub_eq hx, setScrub_walking hx, scrubPass_walking hx]

section Header

variable {o : CellOutcome} (hh : x.scrub.header = none)
include hh

theorem scrubReadDone_blank (ho : headerVerdict q.cell o = .blank) :
    e.scrubReadDone c q [o] = (walking e c x (x.scrub.noteRead [o])).scrubEnd c .blank := by
  simp only [Engine.scrubReadDone, Engine.ctx_of hx, hh, List.headD_cons, ho, setScrub_eq hx]

theorem scrubReadDone_invalid (ho : headerVerdict q.cell o = .invalid) :
    e.scrubReadDone c q [o] =
      (walking e c x (passed ((x.scrub.noteRead [o]).noteLost o.isUncorrectable) 1)).scrubNext c := by
  simp only [Engine.scrubReadDone, Engine.ctx_of hx, hh, List.headD_cons, ho]
  rw [setScrub_eq hx, setScrub_walking hx, scrubPass_walking hx]

theorem scrubReadDone_valid {h : RecordHeader} (ho : headerVerdict q.cell o = .valid h) :
    e.scrubReadDone c q [o] = if h.cells = 1 then
        (walking e c x (passed (counted (x.scrub.noteRead [o]) h) 1)).scrubNext c
      else (walking e c x (counted (x.scrub.noteRead [o]) h)).scrubRead c (q.cell + 1) (h.cells - 1) := by
  simp only [Engine.scrubReadDone, Engine.ctx_of hx, hh, List.headD_cons, ho, Engine.scrubHeader]
  rw [setScrub_eq hx, setScrub_walking hx, scrubPass_walking hx]
  rfl

end Header

end There

/-! ### The start of a SCRUB (R132) -/

theorem scrubStep_mounting (hm : e.state = .mounting) : e.scrubStep c = e.answer c .notMounted := if_pos hm

section Mounted

variable (hx : e.ctxs[c]? = some x) (hn : n = Descriptor.segment x.descriptor) (hm : e.state ≠ .mounting)
include hx hn hm

theorem scrubStep_badParam (hu : ¬ (n < 512 ∧ (e.seg n).state.inUse = true)) : e.scrubStep c = e.answer c .badParam := by
  subst hn
  rw [Engine.scrubStep, Engine.ctx_of hx, if_neg hm]
  exact if_pos ((notTaken_iff _ _).mpr hu)

theorem scrubStep_starts (hu : n < 512 ∧ (e.seg n).state.inUse = true) :
    e.scrubStep c =
      (walking e c { x with state := .media, ready := false } (scrubStart n (e.seg n).progPtr)).scrubNext c := by
  subst hn
  rw [Engine.scrubStep, Engine.ctx_of hx, if_neg hm, waitInMedia_eq hx,
    DataJobs.modCtx_eq_withCtx (DataJobs.withCtx_get hx _), DataJobs.withCtx_withCtx]
  exact if_neg fun h => (notTaken_iff _ _).mp h hu

end Mounted

theorem exec_scrub {s : State} (h : s.jobAt c .scrub x) :
    exec (.scrub c) s = .next { s with engine := (s.engine.scrubStep c).settle } :=
  congrArg Host.Outcome.next (h.step _)

end Walk

/-- Settles O59, from the rules of the start, the reads and the end of the walk. -/
theorem aScrubReadsFromTheFirstCell : Obligations.AScrubReadsFromTheFirstCell := by
  refine ⟨fun s c n x h hn => ?_, fun e c p x w g hx hw hp hg => ?_⟩
  · have hx := DataJobs.jobAt_ctxs h
    rw [exec_scrub h]
    refine ⟨fun hm => ?_, fun hm inUse hu => ?_⟩
    · rw [scrubStep_mounting hm]; rfl
    · rw [← inUse_iff] at hu
      refine ⟨fun hno => ?_, ?_⟩
      · rw [scrubStep_badParam hx hn hm (mt hu.mpr hno)]; rfl
      · rintro hyes y rfl
        obtain ⟨h512, hin⟩ := hu.mp hyes
        rw [scrubStep_starts hx hn hm ⟨h512, hin⟩]
        have hy := walking_there hx { x with state := .media, ready := false }
          (scrubStart n (s.engine.seg n).progPtr)
        refine ⟨fun hl => ?_, fun hl => ?_⟩
        · rw [scrubNext_limit hy (.inl hl), scrubEnd_eq hy]
          rfl
        · rw [scrubNext_reads hy hl (show 2 < 2047 by decide), scrubRead_inUse hy hin]; rfl
  · subst hw hp
    refine ⟨?_, ?_, scrubNext_limit hx, scrubNext_reads hx, ?_, scrubEnd_eq hx⟩
    · rintro q cells weak hj hq hs rfl
      rw [readReported_scrub hx hj hq, hs]
      rfl
    · rintro q cells bits y hbits hy
      obtain rfl : bits = CellOutcome.correctedBits := funext fun o => by rw [hbits]; cases o <;> rfl
      rw [← noteRead_eq] at hy
      subst hy
      refine ⟨fun h hh => ?_, ?_⟩
      · rw [scrubReadDone_values hx hh, noteLost_eq]
        simp only [beq_iff_eq]
        rfl
      · rintro o hh rfl hq
        have hy : (x.scrub.noteRead [o]).header = none := hh
        refine ⟨fun ho => ?_, fun ho => ?_, fun h ho => ⟨fun h1 => ?_, fun h1 => ?_⟩⟩
        · rw [scrubReadDone_blank hx hh (hq.symm ▸ ho)]; rfl
        · rw [scrubReadDone_invalid hx hh (hq.symm ▸ ho), passed_noteLost hy]
          simp only [DataJobs.isUncorrectable_iff]
          rfl
        · rw [scrubReadDone_valid hx hh (hq.symm ▸ ho), if_pos h1, passed_counted hy]
          rfl
        · rw [scrubReadDone_valid hx hh (hq.symm ▸ ho), if_neg h1, hq]; rfl
    · intro cell count inUse hu
      rw [← inUse_iff, ← DataJobs.seg_of hg] at hu
      refine ⟨fun ht => ?_, fun hf => ?_⟩
      · rw [scrubRead_inUse hx (hu.mp ht), Engine.pin, DataJobs.modSeg_eq_withSeg hg]
      · exact scrubRead_ends hx (Bool.eq_false_iff.mpr (mt hu.mpr (Bool.eq_false_iff.mp hf))) cell count

end Sys2Proof.Machine.Reclamation
end

section
/-! PROOFS. Mounting (chapter 7): one reasoning rule per operation of the Mount Unit, in the order of a mount, then the
statements made of them. -/

-- One theorem at a time: see Laws/Moves.lean.
set_option Elab.async false

namespace Sys2Proof.Machine.Mounting

open Sys2Proof

/-! ### The segment table and the mount's own fields -/

section Table

variable {e : Engine} {n : Nat} {g : SegRecord}

theorem withSeg_self (hg : e.space.segs[n]? = some g) : e.withSeg n g = e := by
  obtain ⟨hn, rfl⟩ := List.getElem?_eq_some_iff.mp hg
  rw [Engine.withSeg, List.set_getElem_self]

theorem segTable_eq_map (e : Engine) : e.segTable = (List.range e.space.segs.length).map fun n => (e.seg n, n) := by
  refine List.ext_getElem (by simp [Engine.segTable]) fun i hi _ => ?_
  have hs : i < e.space.segs.length := by simpa [Engine.segTable] using hi
  simp [Engine.segTable, Engine.seg, hs]

/-- The numbers of the segments that a test picks, in ascending order. -/
theorem segTable_filter (e : Engine) (p : SegRecord → Bool) :
    (e.segTable.filter fun q => p q.1).map (·.2) = (List.range e.space.segs.length).filter fun n => p (e.seg n) := by
  rw [segTable_eq_map, List.filter_map, List.map_map]
  exact List.map_id _

theorem segs_eq_map (e : Engine) : e.space.segs = (List.range e.space.segs.length).map e.seg :=
  List.ext_getElem (by simp) fun i hi _ => by simp [Engine.seg, hi]

theorem countSegs_eq (e : Engine) (st : SegState) :
    e.countSegs st = (List.range e.space.segs.length).countP fun n => (e.seg n).state = st :=
  (congrArg (List.countP _) (segs_eq_map e)).trans List.countP_map

variable {from_ : Nat} {p : SegState → Bool}

theorem segFrom_eq_some (hn : from_ ≤ n) (hg : e.space.segs[n]? = some g) (hp : p g.state = true)
    (hb : ∀ m h, from_ ≤ m → m < n → e.space.segs[m]? = some h → p h.state = false) :
    e.segFrom from_ p = some n := by
  refine SegmentSpace.find?_zipIdx_eq_some_iff.mpr ⟨⟨g, hg, by simp [hn, hp]⟩, fun m hm h hh => ?_⟩
  by_cases hf : from_ ≤ m
  · simp [hb m h hf hm hh]
  · simp [hf]

theorem segFrom_eq_none (hb : ∀ m h, from_ ≤ m → e.space.segs[m]? = some h → p h.state = false) :
    e.segFrom from_ p = none := by
  refine Option.map_eq_none_iff.mpr (List.find?_eq_none.mpr fun q hq => ?_)
  by_cases hf : from_ ≤ q.2
  · simp [hb q.2 q.1 hf (List.mk_mem_zipIdx_iff_getElem?.mp hq)]
  · simp [hf]

/-- Steps that each make the same change of one segment, a change that made twice is made once, change the segments they
name and no others. -/
theorem seg_foldl {step : Engine → Nat → Engine} {f : SegRecord → SegRecord}
    (hstep : ∀ k m, (step k m).space = (k.modSeg m f).space) (hf : ∀ g, f (f g) = f g) (l : List Nat) (e : Engine)
    (hn : n < e.space.segs.length) : (l.foldl step e).seg n = if n ∈ l then f (e.seg n) else e.seg n := by
  induction l generalizing e with
  | nil => rfl
  | cons m l ih =>
    have hseg : (step e m).seg n = (e.modSeg m f).seg n := by rw [Engine.seg, hstep]; rfl
    rw [List.foldl_cons, ih (step e m) (by simpa [hstep] using hn), hseg]
    by_cases hm : n = m
    · subst hm
      simp [Engine.modSeg_seg_self e n f hn, hf]
    · simp [Engine.modSeg_seg_ne e m n f hm, hm]

end Table

/-- What the requests of a list leave of the banks hangs on the banks, the clock and the limits alone. -/
theorem foldl_enqueue_banks (request : Nat → Request) (l : List Nat) {a b : Engine} (hb : a.banks = b.banks)
    (hn : a.now = b.now) (hl : a.control.limits = b.control.limits) :
    (l.foldl (fun k n => k.enqueue (request n)) a).banks = (l.foldl (fun k n => k.enqueue (request n)) b).banks := by
  induction l generalizing a b with
  | nil => exact hb
  | cons n l ih => exact ih (by simp [Engine.enqueue, hb, hn, hl]) hn hl

/-! ### The survey (R135, R136) -/

section Survey

variable {e : Engine} {n : Nat} {g : SegRecord}

/-- The count and mark of a VALID format cell (R54). -/
def formatOf : CellOutcome → Option (Nat × Bool)
  | .good (.format count est) _ => some (count, est)
  | _ => none

/-- The sequence of a VALID open cell (R54). -/
def openOf : CellOutcome → Option Nat
  | .good (.opened sseq) _ => some sseq
  | _ => none

theorem formatOf_eq_some_iff (x : CellOutcome) (count : Nat) (est : Bool) :
    formatOf x = some (count, est) ↔ ∃ m, x = .good (.format count est) m := by
  unfold formatOf
  split
  · simp
  · rename_i hx
    exact iff_of_false nofun fun ⟨m, h⟩ => hx count est m h

theorem openOf_eq_some_iff (x : CellOutcome) (sseq : Nat) : openOf x = some sseq ↔ ∃ m, x = .good (.opened sseq) m := by
  unfold openOf
  split <;> simp_all

theorem controlVerdict_isFormat (x : CellOutcome) : controlVerdict CellData.isFormat x =
    if x = .blank then .blank else if (formatOf x).isSome then .valid else .invalid := by
  cases x with
  | good d m => cases d <;> rfl
  | blank => rfl
  | uncorrectable => rfl

theorem controlVerdict_isOpened (x : CellOutcome) : controlVerdict CellData.isOpened x =
    if x = .blank then .blank else if (openOf x).isSome then .valid else .invalid := by
  cases x with
  | good d m => cases d <;> rfl
  | blank => rfl
  | uncorrectable => rfl

theorem noteFormat_invalid {x : CellOutcome} (hx : formatOf x = none) :
    e.noteFormat n x = e.setMount fun m => { m with unformatted := m.unformatted ++ [n] } := by
  unfold Engine.noteFormat
  split
  · cases hx
  · rfl

theorem noteFormat_eq (hg : e.space.segs[n]? = some g) (x : CellOutcome) :
    e.noteFormat n x = { (e.withSeg n { g with
        eraseCount := ((formatOf x).map (·.1)).getD g.eraseCount
        estimated := ((formatOf x).map (·.2)).getD g.estimated }) with
      mount := { e.mount with
        eraseSum := e.mount.eraseSum + ((formatOf x).map (·.1)).getD 0
        formatCells := e.mount.formatCells + (if (formatOf x).isSome then 1 else 0)
        unformatted := if (formatOf x).isSome then e.mount.unformatted else e.mount.unformatted ++ [n] } } := by
  cases hx : formatOf x with
  | some p =>
    obtain ⟨m, rfl⟩ := (formatOf_eq_some_iff x p.1 p.2).mp hx
    rw [Engine.noteFormat, DataJobs.modSeg_eq_withSeg hg]
    rfl
  | none =>
    rw [noteFormat_invalid hx]
    exact congrArg (Engine.setMount · _) (withSeg_self hg).symm

theorem noteOpen_invalid {x : CellOutcome} (hx : openOf x = none) : e.noteOpen n x = e := by
  unfold Engine.noteOpen
  split
  · cases hx
  · rfl

theorem noteOpen_eq (hg : e.space.segs[n]? = some g) (x : CellOutcome) :
    e.noteOpen n x = { (e.withSeg n { g with sseq := if (openOf x).isSome then openOf x else g.sseq }) with
      mount := { e.mount with maxSseq := max e.mount.maxSseq ((openOf x).getD 0) } } := by
  cases hx : openOf x with
  | some sseq =>
    obtain ⟨m, rfl⟩ := (openOf_eq_some_iff x sseq).mp hx
    rw [Engine.noteOpen, DataJobs.modSeg_eq_withSeg hg]
    rfl
  | none =>
    rw [noteOpen_invalid hx, Option.getD_none, Nat.max_zero]
    exact (withSeg_self hg).symm

theorem surveyFirst_eq (hg : e.space.segs[n]? = some g) (x y : CellOutcome) (weak : Bool) :
    e.surveyFirst n [x, y] weak = { (e.withSeg n { g with
        eraseCount := ((formatOf x).map (·.1)).getD g.eraseCount
        estimated := ((formatOf x).map (·.2)).getD g.estimated
        sseq := if (openOf y).isSome then openOf y else g.sseq }) with
      mount := { e.mount with
        eraseSum := e.mount.eraseSum + ((formatOf x).map (·.1)).getD 0
        formatCells := e.mount.formatCells + (if (formatOf x).isSome then 1 else 0)
        unformatted := if (formatOf x).isSome then e.mount.unformatted else e.mount.unformatted ++ [n]
        maxSseq := max e.mount.maxSseq ((openOf y).getD 0)
        format := if x = .blank then .blank else if (formatOf x).isSome then .valid else .invalid
        opened := if y = .blank then .blank else if (openOf y).isSome then .valid else .invalid
        heldWeak := weak } : Engine }.enqueue { kind := .read, seg := n, cell := 2047, count := 1, requester := .mount } := by
  rw [← controlVerdict_isFormat, ← controlVerdict_isOpened, Engine.surveyFirst]
  simp only [List.headD_cons, List.tail_cons]
  rw [noteFormat_eq hg, noteOpen_eq (set_there hg _)]
  simp only [Engine.withSeg, List.set_set]
  rfl

/-- The table of R136, from the outcome of cell 2047. -/
theorem surveyClass_retireCell (x : CellOutcome) (format opened : ControlVerdict) :
    surveyClass (controlVerdict CellData.isRetire x) format opened = match x, format, opened with
      | .good .retire _, _, _ => .retired
      | .good _ _, _, _ => .dirty
      | .uncorrectable, _, _ => .dirty
      | .blank, .valid, .valid => .full
      | .blank, .valid, .blank => .free
      | .blank, .valid, .invalid => .dirty
      | .blank, .blank, _ => .unclassified
      | .blank, .invalid, _ => .dirty := by
  cases x with
  | good d m => cases d <;> rfl
  | uncorrectable => rfl
  | blank => cases format <;> cases opened <;> rfl

/-- A segment classified by its second survey read, and counted when it is DIRTY (R136, R146). -/
def classified (e : Engine) (n : Nat) (g : SegRecord) (st : SegState) (weak : Bool) : Engine :=
  (e.withSeg n { g with state := st, weak := st == .full && (e.mount.heldWeak || weak) }).counted fun t =>
    if st = .dirty then { t with dirty := t.dirty + 1 } else t

theorem surveySecond_eq (hg : e.space.segs[n]? = some g) (x : CellOutcome) (weak : Bool) {st : SegState}
    (hst : st = surveyClass (controlVerdict CellData.isRetire x) e.mount.format e.mount.opened) :
    e.surveySecond n [x] weak = if n + 1 < 512
      then ((classified e n g st weak).setMount fun m => { m with seg := n + 1 }).mountRead (n + 1) 0 2
      else (classified e n g st weak).surveyEnd := by
  have hk : (if st = .dirty
      then (e.modSeg n fun g => { g with state := st, weak := st == .full && (e.mount.heldWeak || weak) }).countMount
        fun s => { s with dirty := s.dirty + 1 }
      else e.modSeg n fun g => { g with state := st, weak := st == .full && (e.mount.heldWeak || weak) }) =
      classified e n g st weak := by
    rw [DataJobs.modSeg_eq_withSeg hg, classified]
    split <;> rfl
  rw [← hk, hst]
  rfl

theorem mountReadDone_survey (hm : e.state = .mounting) (hp : e.mount.phase = .survey) (q : Request)
    (cells : List CellOutcome) : e.mountReadDone q cells = if q.cell = 2047
      then e.surveySecond q.seg cells (weakRead e.control.limits.threshold cells)
      else e.surveyFirst q.seg cells (weakRead e.control.limits.threshold cells) := by
  simp only [Engine.mountReadDone, hm, hp]

/-! ### The mean and the blank checks (R136, R137) -/

theorem giveMean_eq (e : Engine) (mean : Nat) :
    e.giveMean mean = { e with space := { e.space with segs := (e.giveMean mean).space.segs } } := by
  unfold Engine.giveMean
  generalize e.mount.unformatted = l
  induction l generalizing e with
  | nil => rfl
  | cons n l ih => exact ih (e.modSeg n _)

theorem giveMean_seg (mean : Nat) (hn : n < e.space.segs.length) : (e.giveMean mean).seg n =
    if n ∈ e.mount.unformatted then { e.seg n with eraseCount := mean, estimated := true } else e.seg n :=
  seg_foldl (f := fun g => { g with eraseCount := mean, estimated := true }) (fun _ _ => rfl) (fun _ => rfl) _ e hn

/-- The engine at the end of the survey reads: the mean computed and given, the blank checks counted (R137). -/
def surveyed (e : Engine) (mean : Nat) (blanks : List Nat) : Engine :=
  (e.giveMean mean).setMount fun m => { m with mean := mean, blankChecks := blanks.length }

theorem surveyEnd_eq (e : Engine) {mean : Nat} {blanks : List Nat} (hm : mean = e.mount.eraseSum / e.mount.formatCells)
    (hb : blanks = (List.range e.space.segs.length).filter fun n => (e.seg n).state == .unclassified) :
    e.surveyEnd = if blanks.isEmpty then (surveyed e mean blanks).startPassA
      else blanks.foldl (fun k n => k.enqueue
        { kind := .blankCheck, seg := n, cell := 0, count := 2048, requester := .mount }) (surveyed e mean blanks) := by
  rw [hm, hb, ← segTable_filter e fun g => g.state == .unclassified]
  rfl

theorem surveyed_mount (mean : Nat) (blanks : List Nat) :
    (surveyed e mean blanks).mount = { e.mount with mean := mean, blankChecks := blanks.length } := by
  rw [surveyed, giveMean_eq]
  rfl

theorem surveyed_eq (mean : Nat) (blanks : List Nat) : surveyed e mean blanks =
    { e with space := { e.space with segs := (surveyed e mean blanks).space.segs }
             mount := (surveyed e mean blanks).mount } := by
  rw [surveyed, giveMean_eq]
  rfl

theorem blankCheckEnded_last (h : e.mount.blankChecks ≤ 1) :
    e.blankCheckEnded = { e with mount := { e.mount with blankChecks := 0 } }.startPassA := by
  have h0 : e.mount.blankChecks - 1 = 0 := Nat.sub_eq_zero_of_le h
  simp [Engine.blankCheckEnded, Engine.setMount, h0]

theorem blankCheckEnded_more (h : 1 < e.mount.blankChecks) :
    e.blankCheckEnded = { e with mount := { e.mount with blankChecks := e.mount.blankChecks - 1 } } :=
  if_neg (Nat.sub_ne_zero_of_lt h)

theorem surveying_eq_true (hm : e.state = .mounting) (hp : e.mount.phase = .survey) : e.surveying = true := by
  simp [Engine.surveying, hm, hp]

theorem blankAnswer_blank (hs : e.surveying = true) : e.blankAnswer n true = e.enqueue
    { kind := .formatCell, seg := n, cell := 0, count := 1, requester := .mount, contents := [.format e.mount.mean true] } := by
  simp [Engine.blankAnswer, hs]

theorem blankAnswer_notBlank (hs : e.surveying = true) (hg : e.space.segs[n]? = some g) : e.blankAnswer n false =
    ((e.withSeg n { g with state := .dirty }).counted fun t => { t with dirty := t.dirty + 1 }).blankCheckEnded := by
  rw [Engine.blankAnswer, hs, DataJobs.modSeg_eq_withSeg hg]
  rfl

theorem formatEstimated_passed (hg : e.space.segs[n]? = some g) : e.formatEstimated n true =
    ((e.withSeg n { state := .free, eraseCount := e.mount.mean, estimated := true }).counted fun t =>
      { t with estimated := t.estimated + 1 }).blankCheckEnded := by
  rw [Engine.formatEstimated, DataJobs.modSeg_eq_withSeg hg]
  rfl

theorem mountProgramDone_formatCell (hs : e.surveying = true) {q : Request} (hq : q.kind = .formatCell) (pass : Bool) :
    e.mountProgramDone q pass = e.formatEstimated q.seg pass := by
  simp only [Engine.mountProgramDone, hs, hq]

theorem mountProgramDone_retireCell (hs : e.surveying = true) {q : Request} (hq : q.kind = .retireCell) (pass : Bool) :
    e.mountProgramDone q pass = e.blankCheckEnded := by
  simp only [Engine.mountProgramDone, hs, hq]

end Survey

/-- Settles O50, from the rules of the two survey reads, the mean and the blank checks. -/
theorem theSurveyClassifiesEverySegment : Obligations.TheSurveyClassifiesEverySegment := by
  refine ⟨fun e q cells hq => ?_, ?_, fun e mean blanks hm hb => ?_, fun e m n g hs hp hg => ?_⟩
  · simp only [Engine.readReported, hq]
  · rintro e q _ g x y weak hs hp rfl hg
    refine ⟨?_, ?_⟩
    · rintro hc rfl
      refine ⟨formatOf x, openOf y, formatOf_eq_some_iff x, openOf_eq_some_iff y, ?_⟩
      rw [mountReadDone_survey hs hp, if_neg hc, surveyFirst_eq hg]
    · rintro hc rfl st hst
      rw [mountReadDone_survey hs hp, if_pos hc, surveySecond_eq hg x _ (hst.trans (surveyClass_retireCell ..).symm)]
      exact ⟨_, rfl, fun hn => if_pos (Nat.succ_lt_succ hn), fun hn => if_neg (Nat.not_lt.mpr (Nat.succ_le_succ hn))⟩
  · refine ⟨surveyed e mean blanks, surveyed_mount mean blanks, surveyed_eq mean blanks,
      fun n hn => giveMean_seg mean hn, fun h => ?_, fun h => ?_⟩
    · rw [surveyEnd_eq e hm hb, if_pos (List.isEmpty_iff.mpr h)]
    · rw [surveyEnd_eq e hm hb, if_neg (mt List.isEmpty_iff.mp h)]
  · have hv := surveying_eq_true hs hp
    refine ⟨blankCheckEnded_last, blankCheckEnded_more, blankAnswer_blank hv, blankAnswer_notBlank hv hg, ?_⟩
    rintro q rfl
    refine ⟨fun hk => ⟨?_, ?_⟩, fun hk => mountProgramDone_retireCell hv hk⟩
    · rw [mountProgramDone_formatCell hv hk, formatEstimated_passed hg]
    · rw [mountProgramDone_formatCell hv hk]
      rfl

/-! ### The passes' reads (R135, R138, R143) -/

section Walks

variable {e : Engine} {n : Nat} {g : SegRecord}

theorem markMounted_eq (hg : e.space.segs[n]? = some g) (weak : Bool) : e.markMounted n weak =
    if weak = true ∧ g.state = .full then e.withSeg n { g with weak := true } else e := by
  simp only [Engine.markMounted, DataJobs.seg_of hg, DataJobs.modSeg_eq_withSeg hg, Bool.and_eq_true, beq_iff_eq]

theorem mountReadDone_passA (hm : e.state = .mounting) (hp : e.mount.phase = .passA) (q : Request)
    (cells : List CellOutcome) :
    e.mountReadDone q cells = (e.markMounted q.seg (weakRead e.control.limits.threshold cells)).passARead cells := by
  simp only [Engine.mountReadDone, hm, hp]

theorem mountReadDone_passB (hm : e.state = .mounting) (hp : e.mount.phase = .passB) (q : Request)
    (cells : List CellOutcome) :
    e.mountReadDone q cells = (e.markMounted q.seg (weakRead e.control.limits.threshold cells)).passBRead cells := by
  simp only [Engine.mountReadDone, hm, hp]

/-! ### The walk of pass A (R138, R142) -/

theorem passARead_values {h : RecordHeader} (hh : e.mount.header = some h) (cells : List CellOutcome) :
    e.passARead cells = e.passARecord { seg := e.mount.seg, cell := e.mount.cursor, count := h.cells } h cells := by
  simp only [Engine.passARead, hh]

section Header

variable {x : CellOutcome} (hh : e.mount.header = none)
include hh

theorem passARead_blank (hx : headerVerdict e.mount.cursor x = .blank) : e.passARead [x] = e.passASegEnd := by
  simp only [Engine.passARead, hh, List.headD_cons, hx]

theorem passARead_invalid (hx : headerVerdict e.mount.cursor x = .invalid) : e.passARead [x] =
    (if e.mount.others then e else e.counted fun t => { t with resync := t.resync + 1 }).passAMove 1 := by
  simp only [Engine.passARead, hh, List.headD_cons, hx]
  rfl

theorem passARead_valid {h : RecordHeader} (hx : headerVerdict e.mount.cursor x = .valid h) : e.passARead [x] =
    if h.cells = 1 then e.passARecord { seg := e.mount.seg, cell := e.mount.cursor, count := 1 } h []
    else (e.setMount fun m => { m with header := some h }).mountRead e.mount.seg (e.mount.cursor + 1) (h.cells - 1) := by
  simp only [Engine.passARead, hh, List.headD_cons, hx]

end Header

theorem passAMove_ends {count : Nat} (hc : 2047 ≤ e.mount.cursor + count) : e.passAMove count =
    { e with mount := { e.mount with cursor := e.mount.cursor + count, header := none } }.passASegEnd := if_pos hc

theorem passAMove_reads {count : Nat} (hc : e.mount.cursor + count < 2047) : e.passAMove count =
    { e with mount := { e.mount with cursor := e.mount.cursor + count, header := none } }.enqueue
      { kind := .read, seg := e.mount.seg, cell := e.mount.cursor + count, count := 1, requester := .mount } :=
  if_neg (Nat.not_le.mpr hc)

theorem passASegEnd_others (ho : e.mount.others = true) : e.passASegEnd = e.passAOthersFrom (e.mount.seg + 1) := by
  simp only [Engine.passASegEnd, ho, if_true]

theorem passASegEnd_empty (hg : e.space.segs[e.mount.seg]? = some g) (ho : e.mount.others = false)
    (hc : e.mount.cursor = 2) : e.passASegEnd =
      ((e.withSeg e.mount.seg { g with state := .dirty, weak := false, writePtr := 2, progPtr := 2 }).counted fun t =>
        { t with dirty := t.dirty + 1 }).passAFrom (e.mount.seg + 1) := by
  simp only [Engine.passASegEnd, ho, Bool.false_eq_true, if_false, hc, if_true, DataJobs.modSeg_eq_withSeg hg]
  rfl

theorem passASegEnd_inUse (hg : e.space.segs[e.mount.seg]? = some g) (ho : e.mount.others = false)
    (hc : e.mount.cursor ≠ 2) : e.passASegEnd =
      (e.withSeg e.mount.seg { g with writePtr := e.mount.cursor, progPtr := e.mount.cursor }).passAFrom
        (e.mount.seg + 1) := by
  simp only [Engine.passASegEnd, ho, Bool.false_eq_true, if_false, hc, DataJobs.modSeg_eq_withSeg hg]

theorem passAFrom_some {from_ : Nat} (h : e.segFrom from_ (· == .full) = some n) : e.passAFrom from_ =
    { e with mount := { e.mount with seg := n, cursor := 2, header := none } }.enqueue
      { kind := .read, seg := n, cell := 2, count := 1, requester := .mount } := by
  rw [Engine.passAFrom, h]
  rfl

theorem passAFrom_none {from_ : Nat} (h : e.segFrom from_ (· == .full) = none) :
    e.passAFrom from_ = e.passAOthersFrom 0 := by
  rw [Engine.passAFrom, h]

theorem passAOthersFrom_some {from_ : Nat} (h : e.segFrom from_ (fun s => s == .dirty || s == .retired) = some n) :
    e.passAOthersFrom from_ =
      { e with mount := { e.mount with others := true, seg := n, cursor := 2, header := none } }.enqueue
        { kind := .read, seg := n, cell := 2, count := 1, requester := .mount } := by
  rw [Engine.passAOthersFrom, h]
  rfl

theorem passAOthersFrom_none {from_ : Nat} (h : e.segFrom from_ (fun s => s == .dirty || s == .retired) = none) :
    e.passAOthersFrom from_ = e.startPassB := by
  rw [Engine.passAOthersFrom, h]

end Walks

/-! ### Taking a record (R139) -/

section Records

variable {e : Engine} {h : RecordHeader}

theorem passARecord_others (ho : e.mount.others = true) (l : Location) (cells : List CellOutcome) :
    e.passARecord l h cells = (e.noteRseq h).passAMove h.cells := by
  simp only [Engine.passARecord, ho, if_true]

theorem passARecord_inUse (ho : e.mount.others = false) (l : Location) (cells : List CellOutcome) :
    e.passARecord l h cells = (((e.noteRseq h).counted fun t => { t with records := t.records + 1 }).takeRecord l h
      (valueVerdict h cells)).passAMove h.cells := by
  simp only [Engine.passARecord, ho, Bool.false_eq_true, if_false]
  rfl

theorem takeRecord_intact (hk : h.kind = .value) (l : Location) :
    e.takeRecord l h .intact = e.rankRecord h.key (.value l h.rseq h.len) := by
  simp only [Engine.takeRecord, hk]

theorem takeRecord_damaged (hk : h.kind = .value) (l : Location) : e.takeRecord l h .damaged =
    (e.counted fun t => { t with damaged := t.damaged + 1 }).rankRecord h.key (.lost l h.rseq .damaged) := by
  simp only [Engine.takeRecord, hk]
  rfl

theorem takeRecord_torn (hk : h.kind = .value) (l : Location) :
    e.takeRecord l h .torn = e.counted fun t => { t with torn := t.torn + 1 } := by
  simp only [Engine.takeRecord, hk]
  rfl

theorem takeRecord_loss (hk : h.kind = .loss) (l : Location) (v : ValueVerdict) :
    e.takeRecord l h v = e.rankRecord h.key (.lost l h.rseq .marker) := by
  simp only [Engine.takeRecord, hk]

theorem takeRecord_tombstone (hk : h.kind = .tombstone) (l : Location) (v : ValueVerdict) : e.takeRecord l h v = e := by
  simp only [Engine.takeRecord, hk]

end Records

/-! ### Entries added and changed -/

theorem findEntry_insertEntry_self (l : List Entry) (t : Entry) (h : findEntry l t.key = none) :
    findEntry (insertEntry l t) t.key = some t := by
  unfold findEntry at *
  induction l with
  | nil => simp [insertEntry]
  | cons u l ih =>
    have hu : (u.key == t.key) = false := by simpa using List.find?_eq_none.mp h u List.mem_cons_self
    have hl : l.find? (fun s => s.key == t.key) = none := by rwa [List.find?_cons, hu] at h
    unfold insertEntry
    split
    · simp
    · rw [List.find?_cons, hu, ih hl]

theorem findEntry_insertEntry_ne (l : List Entry) (t : Entry) {other : Nat} (h : other ≠ t.key) :
    findEntry (insertEntry l t) other = findEntry l other := by
  have ht : (t.key == other) = false := by simp [Ne.symm h]
  unfold findEntry
  induction l with
  | nil => simp [insertEntry, ht]
  | cons u l ih =>
    unfold insertEntry
    split
    · rw [List.find?_cons, ht]
    · rw [List.find?_cons, List.find?_cons, ih]

section Entries

variable {e : Engine} {key : Nat} {t : Entry}

theorem lookup_none (h : e.entry key = none) : e.lookup key = none := by rw [Engine.lookup, h]; rfl

theorem lookup_some (h : e.entry key = some t) : e.lookup key = some t.body := by rw [Engine.lookup, h]; rfl

theorem entry_changeEntry (h : e.entry key = some t) (f : Entry → Entry) :
    (e.changeEntry key f).entry key = some { f t with key := t.key } := by
  have hf := findEntry_changeEntry_self e.index.entries key f
  rwa [show findEntry e.index.entries key = some t from h] at hf

theorem changeEntry_sameEntriesBut (e : Engine) (key : Nat) (f : Entry → Entry) :
    (e.changeEntry key f).sameEntriesBut e key := fun other h => findEntry_changeEntry_ne _ key other f h

theorem laterPlace_iff (a b : Location) : e.laterPlace a b = true ↔
    if a.seg = b.seg then b.cell < a.cell else (e.seg b.seg).sseq.getD 0 < (e.seg a.seg).sseq.getD 0 := by
  unfold Engine.laterPlace
  split <;> exact decide_eq_true_iff

/-! ### Ranking a record (R140, R141) -/

theorem outranks_iff {new old : EntryBody} {a b : Location} (ha : new.loc? = some a) (hb : old.loc? = some b) :
    e.outranks new old = true ↔ old.rseq < new.rseq ∨ (new.rseq = old.rseq
      ∧ (old.rank < new.rank ∨ (old.rank = new.rank ∧ e.laterPlace a b = true))) := by
  simp only [Engine.outranks, ha, hb, Bool.or_eq_true, Bool.and_eq_true, beq_iff_eq, decide_eq_true_eq]

theorem rankRecord_added (h : e.entry key = none) (hl : e.index.entries.length < 65536) (new : EntryBody) :
    e.rankRecord key new = e.setEntries (insertEntry e.index.entries { key := key, body := new }) := by
  simp only [Engine.rankRecord, lookup_none h, if_pos hl]

theorem rankRecord_overflow (h : e.entry key = none) (hl : 65536 ≤ e.index.entries.length) (new : EntryBody) :
    e.rankRecord key new = e.counted fun t => { t with overflow := t.overflow + 1 } := by
  simp only [Engine.rankRecord, lookup_none h, if_neg (Nat.not_lt.mpr hl)]
  rfl

theorem rankRecord_above {new : EntryBody} (h : e.entry key = some t) (ha : e.outranks new t.body = true) :
    e.rankRecord key new = e.changeEntry key fun t =>
      { t with body := new, stale := if t.body.supersedesValue then t.stale + 1 else t.stale } := by
  simp only [Engine.rankRecord, lookup_some h, if_pos ha]

theorem rankRecord_below {new : EntryBody} (h : e.entry key = some t) (ha : ¬ e.outranks new t.body = true) :
    e.rankRecord key new = e.changeEntry key fun t =>
      { t with stale := if new.supersedesValue then t.stale + 1 else t.stale } := by
  simp only [Engine.rankRecord, lookup_some h, if_neg ha]

theorem rankRecord_sameEntriesBut (h : e.entry key = some t) (new : EntryBody) :
    (e.rankRecord key new).sameEntriesBut e key := by
  by_cases ha : e.outranks new t.body = true
  · rw [rankRecord_above h ha]; exact changeEntry_sameEntriesBut e key _
  · rw [rankRecord_below h ha]; exact changeEntry_sameEntriesBut e key _

theorem stale_rise (b : Bool) (n : Nat) : (if b then n + 1 else n) = n + if b then 1 else 0 := by
  cases b <;> rfl

end Entries

/-- Settles O51, from the rules of the walk, of the taking of a record and of its rank. -/
theorem passATakesTheRecordsThatRank : Obligations.PassATakesTheRecordsThatRank := by
  refine ⟨?_,
    fun e from_ => ⟨rfl, fun n g hn hg hs hb => ?_, fun hb => ?_, fun n g hn hg hs hb => ?_, fun hb => ?_⟩, ?_⟩
  · rintro e _ _ g _ rfl rfl rfl hg
    refine ⟨?_, fun x hh => ⟨passARead_blank hh, passARead_invalid hh, fun h hx => ⟨fun h1 => ?_, fun h1 => ?_⟩⟩,
      fun cells h hh => passARead_values hh cells, fun count => ⟨_, rfl, passAMove_ends, passAMove_reads⟩,
      passASegEnd_others, passASegEnd_empty hg, passASegEnd_inUse hg, ?_⟩
    · rintro q cells _ hs hp hq rfl
      rw [mountReadDone_passA hs hp, hq, markMounted_eq hg]
    · rw [passARead_valid hh hx, if_pos h1]
    · rw [passARead_valid hh hx, if_neg h1]
      rfl
    · rintro l h cells v _ _ hv rfl rfl
      refine ⟨fun ho => passARecord_others ho l cells, fun ho => ?_⟩
      rw [passARecord_inUse ho, ← hv]
      refine ⟨?_, ?_, ?_, fun hk => ?_, fun hk => ?_⟩
      · rintro hk rfl
        rw [takeRecord_intact hk]
        rfl
      · rintro hk rfl
        rw [takeRecord_damaged hk]
        rfl
      · rintro hk rfl
        rw [takeRecord_torn hk]
        rfl
      · rw [takeRecord_loss hk]
        rfl
      · rw [takeRecord_tombstone hk]
        rfl
  · exact passAFrom_some (segFrom_eq_some hn hg (by simp [hs]) fun m h hm hl hh => by simpa using hb m h hm hl hh)
  · exact passAFrom_none (segFrom_eq_none fun m h hm hh => by simpa using hb m h hm hh)
  · exact passAOthersFrom_some <| segFrom_eq_some hn hg (by simpa using hs) fun m h hm hl hh => by
      simpa using hb m h hm hl hh
  · exact passAOthersFrom_none (segFrom_eq_none fun m h hm hh => by simpa using hb m h hm hh)
  · intro e key new l rank value hl hrank hvalue
    obtain rfl : rank = EntryBody.rank := funext fun b => by
      rw [hrank]; rcases b with _ | _ | _ | ⟨_, _, _ | _⟩ <;> rfl
    obtain rfl : value = EntryBody.supersedesValue := funext fun b => by rw [hvalue]; rfl
    refine ⟨fun h hn => ?_, fun h hn => rankRecord_overflow h hn new, fun t old later above h hold hlater habove => ?_⟩
    · rw [rankRecord_added h hn]
      exact ⟨findEntry_insertEntry_self _ { key := key, body := new } h,
        fun other ho => findEntry_insertEntry_ne _ { key := key, body := new } ho⟩
    · rw [← laterPlace_iff] at hlater
      rw [hlater, ← outranks_iff hl hold] at habove
      refine ⟨fun ha => ?_, fun ha => ?_, rankRecord_sameEntriesBut h new⟩
      · rw [rankRecord_above h (habove.mp ha), entry_changeEntry h, stale_rise]
      · rw [rankRecord_below h (mt habove.mpr ha), entry_changeEntry h, stale_rise]

/-! ### The walk of pass B (R143) -/

section PassB

variable {e : Engine}

theorem passBRead_blank {x : CellOutcome} (hx : headerVerdict e.mount.cursor x = .blank) :
    e.passBRead [x] = e.passBFrom (e.mount.seg + 1) := by
  simp only [Engine.passBRead, List.headD_cons, hx]

theorem passBRead_invalid {x : CellOutcome} (hx : headerVerdict e.mount.cursor x = .invalid) :
    e.passBRead [x] = e.passBMove 1 := by
  simp only [Engine.passBRead, List.headD_cons, hx]

theorem passBRead_valid {x : CellOutcome} {h : RecordHeader} (hx : headerVerdict e.mount.cursor x = .valid h) :
    e.passBRead [x] = (if h.kind = .tombstone then
      e.judgeTombstone { seg := e.mount.seg, cell := e.mount.cursor, count := 1 } h else e).passBMove h.cells := by
  simp only [Engine.passBRead, List.headD_cons, hx]

theorem passBMove_eq {g : SegRecord} (hg : e.space.segs[e.mount.seg]? = some g) (count : Nat) : e.passBMove count =
    if g.writePtr ≤ e.mount.cursor + count then e.passBFrom (e.mount.seg + 1)
    else { e with mount := { e.mount with cursor := e.mount.cursor + count } }.enqueue
      { kind := .read, seg := e.mount.seg, cell := e.mount.cursor + count, count := 1, requester := .mount } := by
  rw [Engine.passBMove, DataJobs.seg_of hg]
  rfl

theorem passBFrom_some {from_ n : Nat} (h : e.segFrom from_ (· == .full) = some n) : e.passBFrom from_ =
    { e with mount := { e.mount with seg := n, cursor := 2 } }.enqueue
      { kind := .read, seg := n, cell := 2, count := 1, requester := .mount } := by
  rw [Engine.passBFrom, h]
  rfl

theorem passBFrom_none {from_ : Nat} (h : e.segFrom from_ (· == .full) = none) : e.passBFrom from_ = e.finishMount := by
  rw [Engine.passBFrom, h]

/-! ### Judging a tombstone (R143) -/

theorem judgeTombstone_index (e : Engine) (l : Location) (h : RecordHeader) :
    e.judgeTombstone l h = { e with index := (e.judgeTombstone l h).index } := by
  unfold Engine.judgeTombstone
  split
  · rfl
  · split
    · rfl
    · split
      · split <;> rfl
      · rfl

variable {h : RecordHeader} {t : Entry}

theorem judgeTombstone_sameEntriesBut (e : Engine) (l : Location) (h : RecordHeader) :
    (e.judgeTombstone l h).sameEntriesBut e h.key := by
  unfold Engine.judgeTombstone
  split
  · exact fun _ _ => rfl
  · split
    · exact changeEntry_sameEntriesBut e h.key _
    · split
      · split
        · exact changeEntry_sameEntriesBut e h.key _
        · exact fun _ _ => rfl
      · exact fun _ _ => rfl

theorem judgeTombstone_absent (hk : e.entry h.key = none) (l : Location) : e.judgeTombstone l h = e := by
  simp only [Engine.judgeTombstone, lookup_none hk]

theorem judgeTombstone_newer (hk : e.entry h.key = some t) (hr : t.body.rseq < h.rseq) (l : Location) :
    e.judgeTombstone l h = e.changeEntry h.key fun t =>
      { t with body := .deleted l h.rseq, stale := if t.body.supersedesValue then t.stale + 1 else t.stale } := by
  simp only [Engine.judgeTombstone, lookup_some hk, if_pos hr]

theorem judgeTombstone_deleted (hk : e.entry h.key = some t) {old : Location} (hb : t.body = .deleted old h.rseq)
    (l : Location) : e.judgeTombstone l h =
      if e.laterPlace l old then e.changeEntry h.key fun t => { t with body := .deleted l h.rseq } else e := by
  simp only [Engine.judgeTombstone, lookup_some hk, hb, EntryBody.rseq, Nat.lt_irrefl, if_false, decide_true,
    Bool.true_and]

/-- A tombstone that is not newer and finds no DELETED entry of its own sequence is ignored. -/
theorem judgeTombstone_ignored (hk : e.entry h.key = some t) (hr : h.rseq ≤ t.body.rseq)
    (hb : ∀ m, t.body ≠ .deleted m h.rseq) (l : Location) : e.judgeTombstone l h = e := by
  simp only [Engine.judgeTombstone, lookup_some hk, if_neg (Nat.not_lt.mpr hr)]
  split
  · rename_i old r ht
    have hne : r ≠ h.rseq := fun hreq => hb old (hreq ▸ ht)
    simp only [hne, decide_false, Bool.false_and, Bool.false_eq_true, if_false]
  · rfl

end PassB

/-- Settles O52, from the rules of the walk and of the judgement of a tombstone. -/
theorem passBJudgesTheTombstones : Obligations.PassBJudgesTheTombstones := by
  refine ⟨?_, fun e from_ => ⟨rfl, fun n g hn hg hs hb => ?_, fun hb => ?_⟩,
    fun e l h => ⟨fun hk => judgeTombstone_absent hk l, fun t hk => ?_⟩⟩
  · rintro e _ _ g rfl rfl hg
    refine ⟨?_, fun x => ⟨passBRead_blank, passBRead_invalid, fun h hx => ⟨fun hk => ?_, fun hk => ?_⟩⟩,
      fun count => ⟨fun hc => ?_, fun hc => ?_⟩⟩
    · rintro q cells _ hs hp hq rfl
      rw [mountReadDone_passB hs hp, hq, markMounted_eq hg]
    · rw [passBRead_valid hx, if_pos hk]
    · rw [passBRead_valid hx, if_neg hk]
    · rw [passBMove_eq hg, if_pos hc]
    · rw [passBMove_eq hg, if_neg (Nat.not_le.mpr hc)]
  · exact passBFrom_some (segFrom_eq_some hn hg (by simp [hs]) fun m h hm hl hh => by simpa using hb m h hm hl hh)
  · exact passBFrom_none (segFrom_eq_none fun m h hm hh => by simpa using hb m h hm hh)
  · refine ⟨_, rfl, judgeTombstone_sameEntriesBut e l h, judgeTombstone_index e l h, fun hr => ?_, fun hr => ?_,
      fun hr hb => judgeTombstone_ignored hk (Nat.le_of_eq hr.symm) hb l, fun old hb => ?_⟩
    · refine judgeTombstone_ignored hk (Nat.le_of_lt hr) (fun m hm => ?_) l
      rw [hm] at hr
      exact Nat.lt_irrefl _ hr
    · rw [judgeTombstone_newer hk hr, entry_changeEntry hk]
      obtain ⟨_, _ | _ | _ | ⟨_, _, _ | _⟩⟩ := t <;> rfl
    · rw [← laterPlace_iff, judgeTombstone_deleted hk hb]
      refine ⟨fun hl => ?_, fun hl => if_neg hl⟩
      rw [if_pos hl, entry_changeEntry hk]

/-! ### The tables of a finished mount (R144, R145) -/

section Finish

variable {e : Engine} {n : Nat}

theorem countBodies_kind (l : List Entry) :
    countBodies EntryBody.isValue l = (l.countP fun t => t.body.kind == .value)
      ∧ countBodies EntryBody.isDeleted l = (l.countP fun t => t.body.kind == .deleted)
      ∧ countBodies EntryBody.isLost l = l.countP fun t => t.body.kind == .lost := by
  refine ⟨?_, ?_, ?_⟩ <;> refine congrArg (List.countP · l) (funext fun t => ?_) <;> cases t.body <;> rfl

theorem finishEntries_eq (l : List Entry) :
    finishEntries l = l.filter fun t => !(t.body.kind == .deleted && t.stale == 0) := by
  refine congrArg (List.filter · l) (funext fun t => ?_)
  cases t.body <;> rfl

/-- The live cells of a segment after one more entry (R144 step 2). -/
def addLive (n k : Nat) (t : Entry) : Nat :=
  match t.body.loc? with
  | some p => if p.seg = n then k + p.count else k
  | none => k

theorem liveFrom_eq_foldl (l : List Entry) (n : Nat) : liveFrom l n = l.foldl (addLive n) 0 := rfl

theorem foldl_addLive (l : List Entry) (n start : Nat) : l.foldl (addLive n) start = start +
    ((l.filterMap fun t => t.body.loc?).filterMap fun p => if p.seg = n then some p.count else none).sum := by
  induction l generalizing start with
  | nil => rfl
  | cons t l ih =>
    rw [List.foldl_cons, ih, addLive]
    cases ht : t.body.loc? with
    | none => simp only [List.filterMap_cons, ht]
    | some p =>
      by_cases hp : p.seg = n
      · simp only [List.filterMap_cons, ht, if_pos hp, List.sum_cons, Nat.add_assoc]
      · simp only [List.filterMap_cons, ht, if_neg hp]

theorem liveFrom_eq_sum (l : List Entry) (n : Nat) : liveFrom l n =
    ((l.filterMap fun t => t.body.loc?).filterMap fun p => if p.seg = n then some p.count else none).sum := by
  rw [liveFrom_eq_foldl, foldl_addLive, Nat.zero_add]

@[simp] theorem finished_state (g : SegRecord) (live : Nat) : (g.finished live).state = g.state := by
  unfold SegRecord.finished
  split <;> rfl

@[simp] theorem finished_weak (g : SegRecord) (live : Nat) : (g.finished live).weak = g.weak := by
  unfold SegRecord.finished
  split <;> rfl

@[simp] theorem finished_live (g : SegRecord) (live : Nat) : (g.finished live).live = live := by
  unfold SegRecord.finished
  split <;> rfl

theorem finished_full {g : SegRecord} (h : g.state = .full) (live : Nat) :
    (g.finished live).pins = 0 ∧ (g.finished live).progFailed = false := by
  rw [SegRecord.finished, if_pos h]
  exact ⟨rfl, rfl⟩

theorem finishTables_length (e : Engine) : e.finishTables.space.segs.length = e.space.segs.length := by
  simp [Engine.finishTables, finishSegs]

theorem finishTables_seg (hn : n < e.space.segs.length) :
    e.finishTables.seg n = (e.seg n).finished (liveFrom (finishEntries e.index.entries) n) := by
  simp [Engine.seg, Engine.finishTables, finishSegs, hn]

theorem finishTables_countSegs (e : Engine) (st : SegState) : e.finishTables.countSegs st = e.countSegs st := by
  rw [countSegs_eq, countSegs_eq, finishTables_length]
  refine List.countP_congr fun n hn => ?_
  rw [finishTables_seg (List.mem_range.mp hn), finished_state]

theorem eligible_eq (st : SegState) : st.eligible = (st == .head || st == .full || st == .failedClosed) := by
  cases st <;> rfl

theorem finishTables_builtRefresh (e : Engine) : e.finishTables.builtRefresh =
    ((List.range e.space.segs.length).filter fun n =>
      (e.seg n).weak && ((e.seg n).state == .head || (e.seg n).state == .full || (e.seg n).state == .failedClosed)).take 8 := by
  rw [Engine.builtRefresh, segTable_filter _ fun g => g.weak && g.state.eligible, finishTables_length]
  refine congrArg (List.take 8) (List.filter_congr fun n hn => ?_)
  rw [finishTables_seg (List.mem_range.mp hn), finished_weak, finished_state, eligible_eq]

end Finish

/-! ### The erases of the DIRTY segments, and the first space test (R72, R146) -/

/-- The erase of a segment, as R146 queues it. -/
def eraseOf (n : Nat) : Request := { kind := .erase, seg := n, cell := 0, count := 2048, requester := .space }

/-- The DIRTY segments, in ascending number. -/
def dirtySegs (e : Engine) : List Nat := (List.range e.space.segs.length).filter fun n => (e.seg n).state == .dirty

/-- A segment enters ERASING with its erase queued. -/
def startErase (e : Engine) (n : Nat) : Engine := (e.modSeg n fun g => { g with state := .erasing }).enqueue (eraseOf n)

theorem eraseDirty_eq (e : Engine) : e.eraseDirty = (dirtySegs e).foldl startErase e := by
  rw [dirtySegs, ← segTable_filter e fun g => g.state == .dirty]
  rfl

theorem eraseDirty_frame (e : Engine) : e.eraseDirty =
    { e with space := { e.space with segs := e.eraseDirty.space.segs }, banks := e.eraseDirty.banks } := by
  rw [eraseDirty_eq]
  generalize dirtySegs e = l
  induction l generalizing e with
  | nil => rfl
  | cons n l ih => exact ih (startErase e n)

theorem eraseDirty_length (e : Engine) : e.eraseDirty.space.segs.length = e.space.segs.length := by
  rw [eraseDirty_eq]
  generalize dirtySegs e = l
  induction l generalizing e with
  | nil => rfl
  | cons n l ih => exact (ih _).trans (updAt_length _ _ _)

theorem eraseDirty_seg {e : Engine} {n : Nat} (hn : n < e.space.segs.length) : e.eraseDirty.seg n =
    if (e.seg n).state = .dirty then { e.seg n with state := .erasing } else e.seg n := by
  rw [eraseDirty_eq,
    seg_foldl (step := startErase) (f := fun g => { g with state := .erasing }) (fun _ _ => rfl) (fun _ => rfl) _ e hn]
  simp [dirtySegs, hn]

theorem eraseDirty_banks (e : Engine) :
    e.eraseDirty.banks = ((dirtySegs e).foldl (fun k n => k.enqueue (eraseOf n)) e).banks := by
  rw [eraseDirty_eq]
  generalize dirtySegs e = l
  induction l generalizing e with
  | nil => rfl
  | cons n l ih => exact (ih _).trans (foldl_enqueue_banks eraseOf l rfl rfl rfl)

/-- No segment enters or leaves FREE with the erases. -/
theorem eraseDirty_freeCount (e : Engine) : e.eraseDirty.freeCount = e.freeCount := by
  rw [Engine.freeCount, Engine.freeCount, countSegs_eq, countSegs_eq, eraseDirty_length]
  refine List.countP_congr fun n hn => ?_
  rw [eraseDirty_seg (List.mem_range.mp hn)]
  split <;> simp [*]

theorem spaceTest_frame (e : Engine) : e.spaceTest = { e with
    space := { e.space with low := e.spaceTest.space.low }
    reclaim := { e.reclaim with
      continuous := e.spaceTest.reclaim.continuous, choiceDue := e.spaceTest.reclaim.choiceDue }
    notices := e.spaceTest.notices } := by
  unfold Engine.spaceTest
  dsimp only
  split
  · rfl
  · split <;> split <;> rfl

theorem spaceTest_notices {e : Engine} (hs : e.state ≠ .mounting) (hl : e.space.low = false) : e.spaceTest.notices =
    if e.freeCount ≤ e.control.limits.lowWater then e.notices.raise (.spaceLow e.freeCount e.control.limits.lowWater)
    else e.notices := by
  simp only [Engine.spaceTest, if_neg hs, hl, Bool.false_eq_true, if_false]
  split <;> rfl

/-! ### The finish (R144 to R146) -/

section FinishMount

variable {e : Engine} {n : Nat}

/-- The engine at the moment it becomes RUNNING. -/
def mounted (e : Engine) : Engine := e.finishWork.setState .running

theorem mountCauses_finishTables (e : Engine) : e.finishTables.mountCauses =
    { retiredLimit := 48 ≤ e.retiredCount, indexOverflow := 0 < e.mount.stats.overflow
      writeSequence := e.mount.maxRseq + 1 == 2 ^ 48, segmentSequence := e.mount.maxSseq + 1 == 2 ^ 32 } := by
  rw [Engine.mountCauses, Engine.retiredCount, finishTables_countSegs]
  rfl

theorem finishMount_eq (hm : e.state = .mounting) :
    e.finishMount = (mounted e).eraseDirty.spaceTest.wantChoice := if_pos hm

/-- What the finish leaves of the engine that became RUNNING: it changes the segments and the banks for the erases, the
space level, and that a choice is due. -/
theorem finishMount_frame (hm : e.state = .mounting) : e.finishMount = { mounted e with
    space := { (mounted e).space with segs := (mounted e).eraseDirty.space.segs, low := e.finishMount.space.low }
    banks := (mounted e).eraseDirty.banks
    reclaim := { (mounted e).reclaim with continuous := e.finishMount.reclaim.continuous, choiceDue := true }
    notices := e.finishMount.notices } := by
  rw [finishMount_eq hm, spaceTest_frame, eraseDirty_frame]
  rfl

theorem mounted_seg (hn : n < e.space.segs.length) :
    (mounted e).seg n = (e.seg n).finished (liveFrom (finishEntries e.index.entries) n) :=
  finishTables_seg (e := e.setMount _) hn

theorem mounted_length (e : Engine) : (mounted e).space.segs.length = e.space.segs.length :=
  finishTables_length (e.setMount _)

theorem finishMount_seg (hm : e.state = .mounting) (hn : n < e.space.segs.length) : e.finishMount.seg n =
    if (e.seg n).state = .dirty
    then { (e.seg n).finished (liveFrom (finishEntries e.index.entries) n) with state := .erasing }
    else (e.seg n).finished (liveFrom (finishEntries e.index.entries) n) := by
  have hseg : e.finishMount.seg n = (mounted e).eraseDirty.seg n := by rw [finishMount_frame hm]; rfl
  rw [hseg, eraseDirty_seg (by rwa [mounted_length]), mounted_seg hn, finished_state]

theorem finishMount_state (hm : e.state = .mounting) (hn : n < e.space.segs.length) :
    (e.finishMount.seg n).state = if (e.seg n).state = .dirty then .erasing else (e.seg n).state := by
  rw [finishMount_seg hm hn]
  split <;> simp

theorem finishMount_live (hm : e.state = .mounting) (hn : n < e.space.segs.length) :
    (e.finishMount.seg n).live = liveFrom (finishEntries e.index.entries) n := by
  rw [finishMount_seg hm hn]
  split <;> simp

theorem finishMount_full (hm : e.state = .mounting) (hn : n < e.space.segs.length) (hf : (e.seg n).state = .full) :
    (e.finishMount.seg n).pins = 0 ∧ (e.finishMount.seg n).progFailed = false := by
  rw [finishMount_seg hm hn, if_neg (by simp [hf])]
  exact finished_full hf _

theorem finishMount_index (hm : e.state = .mounting) :
    e.finishMount.index = { entries := finishEntries e.index.entries, writeSeq := e.mount.maxRseq + 1 } := by
  rw [finishMount_frame hm]
  rfl

theorem finishMount_causes (hm : e.state = .mounting) : e.finishMount.control.causes = e.finishTables.mountCauses := by
  rw [finishMount_frame hm]
  rfl

theorem finishMount_refresh (hm : e.state = .mounting) :
    e.finishMount.reclaim.refresh = e.finishTables.builtRefresh := by
  rw [finishMount_frame hm]
  rfl

theorem dirtySegs_mounted (e : Engine) : dirtySegs (mounted e) = dirtySegs e := by
  rw [dirtySegs, dirtySegs, mounted_length]
  refine List.filter_congr fun n hn => ?_
  rw [mounted_seg (List.mem_range.mp hn), finished_state]

theorem finishMount_banks (hm : e.state = .mounting) :
    e.finishMount.banks = ((dirtySegs e).foldl (fun k n => k.enqueue (eraseOf n)) e).banks := by
  have hbanks : e.finishMount.banks = (mounted e).eraseDirty.banks := by rw [finishMount_frame hm]
  rw [hbanks, eraseDirty_banks, dirtySegs_mounted]
  exact foldl_enqueue_banks eraseOf _ rfl rfl rfl

theorem mounted_countSegs (e : Engine) (st : SegState) : (mounted e).countSegs st = e.countSegs st :=
  finishTables_countSegs (e.setMount _) st

/-- MOUNT_DONE, with what the mount found (R146, R195). -/
theorem mounted_notices (e : Engine) : (mounted e).notices =
    (e.notices.raise (.mountDone1 e.finishTables.mountCauses (e.mount.maxRseq + 1) (e.mount.maxSseq + 1)
      (countBodies EntryBody.isValue (finishEntries e.index.entries))
      (countBodies EntryBody.isDeleted (finishEntries e.index.entries))
      (countBodies EntryBody.isLost (finishEntries e.index.entries)) e.mount.stats.estimated
      ((e.now - e.mount.started) / 1000))).raise
    (.mountDone2 (e.countSegs .free) (e.countSegs .full) (e.countSegs .dirty) (e.countSegs .retired)
      e.mount.stats.records e.mount.stats.torn e.mount.stats.resync e.mount.stats.damaged e.mount.stats.overflow) := by
  simp only [← mounted_countSegs e]
  rfl

theorem finishMount_notices (hm : e.state = .mounting) (hl : e.space.low = false) : e.finishMount.notices =
    if e.countSegs .free ≤ e.control.limits.lowWater
    then (mounted e).notices.raise (.spaceLow (e.countSegs .free) e.control.limits.lowWater)
    else (mounted e).notices := by
  have hfree : (mounted e).eraseDirty.freeCount = e.countSegs .free :=
    (eraseDirty_freeCount _).trans (mounted_countSegs e .free)
  have hcontrol : (mounted e).eraseDirty.control = (mounted e).control := by rw [eraseDirty_frame]
  have hnotices : (mounted e).eraseDirty.notices = (mounted e).notices := by rw [eraseDirty_frame]
  have hlow : (mounted e).eraseDirty.space.low = false := by rw [eraseDirty_frame]; exact hl
  have hstate : (mounted e).eraseDirty.state ≠ .mounting := by rw [Engine.state, hcontrol]; nofun
  rw [finishMount_eq hm, Engine.wantChoice_notices, spaceTest_notices hstate hlow, hfree, hcontrol, hnotices]
  rfl

/-- Where every entry lies in a FULL segment, every entry that is left does. -/
theorem finishMount_locations (hm : e.state = .mounting) (h : ∀ l ∈ e.locations, (e.seg l.seg).state = .full) :
    ∀ l ∈ e.finishMount.locations, (e.finishMount.seg l.seg).state = .full := by
  intro l hl
  rw [Engine.locations, finishMount_index hm] at hl
  have hf : (e.seg l.seg).state = .full := h l ((List.filter_sublist.filterMap _).subset hl)
  have hn : l.seg < e.space.segs.length := by
    refine Nat.lt_of_not_le fun hn => ?_
    rw [Engine.seg, List.getD_eq_getElem?_getD, List.getElem?_eq_none hn] at hf
    cases hf
  rw [finishMount_state hm hn, hf]
  rfl

end FinishMount

/-- Settles O53, from the rules of the tables, of MOUNT_DONE, of the space test and of the erases. -/
theorem aFinishedMountRebuildsTheTables : Obligations.AFinishedMountRebuildsTheTables := by
  refine fun e => ⟨fun hm => if_neg hm, ?_⟩
  rintro hm _ causes _ _ _ rfl hcauses rfl rfl rfl
  rw [← finishEntries_eq]
  obtain rfl := hcauses.trans (mountCauses_finishTables e).symm
  obtain ⟨hvalue, hdeleted, hlost⟩ := countBodies_kind (finishEntries e.index.entries)
  rw [← hvalue, ← hdeleted, ← hlost, ← mounted_notices]
  have hframe := finishMount_frame hm
  refine ⟨?_, ?_, ?_, finishMount_index hm, ?_, ?_, fun n hn => ?_, fun n hn => finishMount_full hm hn, ?_,
    finishMount_causes hm, ?_, ?_, finishMount_notices hm, fun n hn => finishMount_state hm hn, finishMount_banks hm,
    finishMount_locations hm⟩
  · rw [hframe]; rfl
  · rw [hframe]; rfl
  · rw [hframe]; rfl
  · rw [hframe]; rfl
  · rw [hframe]; rfl
  · rw [finishMount_live hm hn, liveFrom_eq_sum]
  · rw [hframe]
  · rw [hframe]; rfl
  · rw [finishMount_refresh hm, finishTables_builtRefresh]

end Sys2Proof.Machine.Mounting
end

section
/-! PROOFS. What every step keeps of the engine: a law that moves and the passing of time keep; then the notice queue,
the sizes of the tables and the limits (R164, R165, R183). -/

namespace Sys2Proof.Machine

open Sys2Proof

/-! ### What a step does to the engine -/

namespace RingUnit

/-- A property of the engine that moves keep, whatever the engine state and the halt cause are, that holds of a fresh engine, and
that the passing of time keeps, is kept by every step. -/
theorem step_keeps {P : Engine → Prop} (flow : ∀ {a e : Engine}, a.Flow e → P a → P e)
    (control : ∀ (a : Engine) (st : EngineState) (cause : HaltCause), P a →
      P { a with control := { a.control with engine := st, halt := cause } })
    (fresh : ∀ (a : Engine) (g : Registers), P (a.fresh g))
    (tick : ∀ (a : Engine), P a → P { a with now := a.now + 1, banks := a.banks.map Bank.tick })
    {s t : State} (hn : step s = .next t) (h : P s.engine) : P t.engine := by
  cases hp : s.pending with
  | nil =>
    cases (BankControllers.step_idle hp).symm.trans hn
    by_cases hon : s.supply = .on
    · rw [BankControllers.tick_on hon]
      exact tick _ h
    · rw [BankControllers.tick_off hon]
      exact h
  | cons c rest =>
    cases BankControllers.exec_engineEffect ((BankControllers.step_command hp).symm.trans hn) with
    | moved hf => exact flow hf h
    | started _ _ hf => exact flow hf (control _ .running _ h)
    | stopped _ _ hf => exact flow hf (control _ .stopping _ h)
    | halted m _ _ hf => exact flow hf (control _ .halted (haltCauseOf m) h)
    | reset _ g hf => exact flow hf (fresh _ g)

theorem fresh_notices_hold (e : Engine) (g : Registers) : (e.fresh g).notices.holds :=
  ⟨Nat.zero_le _, Nat.zero_lt_succ _, fun _ hx => nomatch hx⟩

theorem default_limits_hold : Limits.holds {} := by
  unfold Limits.holds
  decide

/-- Settles O8: moves keep the notice queue, the sizes of the tables and the limits, and so does the passing of time. -/
theorem everyStepKeepsQueuesSizesAndLimits : Obligations.EveryStepKeepsQueuesSizesAndLimits := by
  refine ⟨fun s t hn => ?_, fun s t hn => ⟨?_, ?_⟩⟩
  · exact step_keeps (P := fun e => e.notices.holds) Engine.Move.notices_hold (fun _ _ _ => id) fresh_notices_hold
      (fun _ => id) hn
  · refine step_keeps Engine.Move.shape_kept (fun _ _ _ => id) Engine.fresh_shape (fun e he => ?_) hn
    obtain ⟨hrings, hctxs, hsegs, hbanks, hserved⟩ := he
    exact ⟨hrings, hctxs, hsegs, (List.length_map _).trans hbanks, hserved⟩
  · exact step_keeps (P := fun e => e.control.limits.holds) Engine.Move.limits_hold (fun _ _ _ => id)
      (fun _ _ => default_limits_hold) (fun _ => id) hn

end RingUnit
end Sys2Proof.Machine
end

section
/-! PROOFS. The credit law of the rings (chapter 8, R155). The law speaks of four numbers of each ring: its size, its jobs in
flight, its done index and its head. No block but the Ring Unit changes them, so the operations of the others keep the list of
these numbers as it is; the Ring Unit's own operations keep the law. -/

-- The rules are many and small: elaborated side by side they ask for more threads than there are.
set_option Elab.async false

namespace Sys2Proof.Machine

open Sys2Proof

/-- The numbers of a ring that its credit is made of: its size, its jobs in flight, its done index and its head (R155). -/
def RingContext.credit (g : RingContext) : Nat × Nat × Nat × Nat := (g.size, g.inFlight, g.doneIndex, g.head)

/-- The numbers of every ring. -/
def Engine.credits (e : Engine) : List (Nat × Nat × Nat × Nat) := e.rings.map RingContext.credit

theorem RingContext.creditHolds_congr {g k : RingContext} (h : k.credit = g.credit) (hg : g.creditHolds) : k.creditHolds := by
  simp only [RingContext.credit, Prod.mk.injEq] at h
  obtain ⟨hsize, hflight, hdone, hhead⟩ := h
  rw [RingContext.creditHolds, RingContext.unacked] at hg ⊢
  rwa [hsize, hflight, hdone, hhead]

theorem map_updAt_of_eq {α β : Type} (p : α → β) {f : α → α} (hf : ∀ x, p (f x) = p x) (l : List α) (i : Nat) :
    (updAt l i f).map p = l.map p := by
  induction l generalizing i with
  | nil => rfl
  | cons x l ih =>
    cases i with
    | zero => simp [updAt, hf]
    | succ i => simp [updAt, ih]

/-! ### Updates of the engine -/

@[simp] theorem Engine.rings_credits (e : Engine) : e.rings.map RingContext.credit = e.credits := rfl

@[simp] theorem Engine.mk_credits (registers : Registers) (rings : List RingContext) (arbiter : Arbiter)
    (notices : NoticeUnit) (ctxs : List JobContext) (index : IndexUnit) (space : SpaceManager) (banks : List Bank)
    (reclaim : ReclaimUnit) (mount : MountUnit) (format : Option FormatRun) (control : EngineControl) (now draws : Nat)
    (output : List HostOutput) :
    (Engine.mk registers rings arbiter notices ctxs index space banks reclaim mount format control now draws output).credits =
      rings.map RingContext.credit := rfl

@[simp] theorem Engine.modCtx_credits (e : Engine) (c : Nat) (f : JobContext → JobContext) :
    (e.modCtx c f).credits = e.credits := rfl
@[simp] theorem Engine.modBank_credits (e : Engine) (b : Nat) (f : Bank → Bank) : (e.modBank b f).credits = e.credits := rfl
@[simp] theorem Engine.modSeg_credits (e : Engine) (n : Nat) (f : SegRecord → SegRecord) :
    (e.modSeg n f).credits = e.credits := rfl
@[simp] theorem Engine.setReclaim_credits (e : Engine) (f : ReclaimUnit → ReclaimUnit) :
    (e.setReclaim f).credits = e.credits := rfl
@[simp] theorem Engine.setMount_credits (e : Engine) (f : MountUnit → MountUnit) : (e.setMount f).credits = e.credits := rfl
@[simp] theorem Engine.countMount_credits (e : Engine) (f : MountStats → MountStats) :
    (e.countMount f).credits = e.credits := rfl
@[simp] theorem Engine.setEntries_credits (e : Engine) (l : List Entry) : (e.setEntries l).credits = e.credits := rfl
@[simp] theorem Engine.changeEntry_credits (e : Engine) (key : Nat) (f : Entry → Entry) :
    (e.changeEntry key f).credits = e.credits := rfl
@[simp] theorem Engine.changePending_credits (e : Engine) (c : Nat) (f : PendingWrite → PendingWrite) :
    (e.changePending c f).credits = e.credits := rfl
@[simp] theorem Engine.setState_credits (e : Engine) (st : EngineState) : (e.setState st).credits = e.credits := rfl
@[simp] theorem Engine.emit_credits (e : Engine) (o : HostOutput) : (e.emit o).credits = e.credits := rfl
@[simp] theorem Engine.sendMessage_credits (e : Engine) (v : Nat) : (e.sendMessage v).credits = e.credits := rfl
@[simp] theorem Engine.raiseNotice_credits (e : Engine) (b : NoticeBody) : (e.raiseNotice b).credits = e.credits := rfl
@[simp] theorem Engine.wantChoice_credits (e : Engine) : e.wantChoice.credits = e.credits := rfl
@[simp] theorem Engine.enqueue_credits (e : Engine) (q : Request) : (e.enqueue q).credits = e.credits := rfl
@[simp] theorem Engine.queueErase_credits (e : Engine) (n : Nat) : (e.queueErase n).credits = e.credits := rfl
@[simp] theorem Engine.selectBank_credits (e : Engine) (b : Nat) : (e.selectBank b).credits = e.credits := rfl
@[simp] theorem Engine.pin_credits (e : Engine) (n : Nat) : (e.pin n).credits = e.credits := rfl
@[simp] theorem Engine.draw_credits (e : Engine) : e.draw.credits = e.credits := rfl
@[simp] theorem Engine.tally_credits (e : Engine) (f : Tallies → Tallies) : (e.tally f).credits = e.credits := rfl
@[simp] theorem Engine.beginTransfer_credits (e : Engine) (c : Nat) (st : CtxState) (t : Transfer) :
    (e.beginTransfer c st t).credits = e.credits := rfl
@[simp] theorem Engine.queueHostRecord_credits (e : Engine) (c : Nat) (l : Location) :
    (e.queueHostRecord c l).credits = e.credits := rfl
@[simp] theorem Engine.queueReclaimRecord_credits (e : Engine) (l : Location) (ds : List CellData) (n : Nat) :
    (e.queueReclaimRecord l ds n).credits = e.credits := rfl
@[simp] theorem Engine.reclaimRead_credits (e : Engine) (n cell count : Nat) (st : ReclaimStep) :
    (e.reclaimRead n cell count st).credits = e.credits := rfl
@[simp] theorem Engine.mountRead_credits (e : Engine) (n cell count : Nat) : (e.mountRead n cell count).credits = e.credits :=
  rfl
@[simp] theorem Engine.mountHeader_credits (e : Engine) : e.mountHeader.credits = e.credits := rfl

/-- A change of a ring that leaves the numbers of its credit alone. -/
theorem Engine.modRing_credits (e : Engine) (r : Nat) {f : RingContext → RingContext} (hf : ∀ g, (f g).credit = g.credit) :
    (e.modRing r f).credits = e.credits := map_updAt_of_eq _ hf _ r

@[simp] theorem Engine.complete_credits (e : Engine) (c : Nat) (o : JobOutcome) : (e.complete c o).credits = e.credits :=
  Engine.modRing_credits _ _ fun _ => rfl

theorem Engine.foldl_credits {α : Type} {f : Engine → α → Engine} (hf : ∀ k x, (f k x).credits = k.credits) (e : Engine)
    (l : List α) : (l.foldl f e).credits = e.credits := by
  induction l generalizing e with
  | nil => rfl
  | cons x l ih => exact (ih _).trans (hf e x)

/-! ### The Space Manager (chapter 3) -/

@[simp] theorem Engine.addCause_credits (e : Engine) (c : ModeCause) : (e.addCause c).credits = e.credits := by
  unfold Engine.addCause
  dsimp only
  split
  · rfl
  · split <;> rfl

@[simp] theorem Engine.spaceTest_credits (e : Engine) : e.spaceTest.credits = e.credits := by
  unfold Engine.spaceTest
  dsimp only
  split
  · rfl
  · split <;> split <;> rfl

@[simp] theorem Engine.openHead_credits (e : Engine) (n : Nat) (role : HeadRole) : (e.openHead n role).credits = e.credits := by
  unfold Engine.openHead
  dsimp only
  split <;> simp

@[simp] theorem Engine.closeHead_credits (e : Engine) (n : Nat) : (e.closeHead n).credits = e.credits := rfl

@[simp] theorem Engine.reserve_credits (e : Engine) (n k : Nat) : (e.reserve n k).1.credits = e.credits := rfl

@[simp] theorem Engine.placeInNewHead_credits (e : Engine) (b k : Nat) : (e.placeInNewHead b k).1.credits = e.credits := by
  unfold Engine.placeInNewHead
  split <;> simp

@[simp] theorem Engine.placeInBank_credits (e : Engine) (b k : Nat) : (e.placeInBank b k).1.credits = e.credits := by
  unfold Engine.placeInBank
  split
  · split <;> simp
  · simp

@[simp] theorem Engine.placeInBanks_credits (e : Engine) (k : Nat) (bs : List Nat) :
    (e.placeInBanks k bs).1.credits = e.credits := by
  induction bs generalizing e with
  | nil => rfl
  | cons b bs ih =>
    have hb := e.placeInBank_credits b k
    unfold Engine.placeInBanks
    split
    · next heq => rw [heq] at hb; exact hb
    · next heq => rw [heq] at hb; exact (ih _).trans hb

@[simp] theorem Engine.placeHost_credits (e : Engine) (k : Nat) : (e.placeHost k).1.credits = e.credits :=
  e.placeInBanks_credits k _

@[simp] theorem Engine.placeInNewReclaimHead_credits (e : Engine) (k : Nat) :
    (e.placeInNewReclaimHead k).1.credits = e.credits := by
  unfold Engine.placeInNewReclaimHead
  split <;> simp

@[simp] theorem Engine.placeReclaim_credits (e : Engine) (k : Nat) : (e.placeReclaim k).1.credits = e.credits := by
  unfold Engine.placeReclaim
  split
  · split <;> simp
  · simp

@[simp] theorem Engine.lowerLive_credits (e : Engine) (l : Location) : (e.lowerLive l).credits = e.credits := by
  unfold Engine.lowerLive
  dsimp only
  split <;> rfl

@[simp] theorem Engine.moveLive_credits (e : Engine) (old : Option Location) (new : Location) :
    (e.moveLive old new).credits = e.credits := by
  cases old with
  | none => rfl
  | some l => exact e.lowerLive_credits l

@[simp] theorem Engine.dropEntry_credits (e : Engine) (key : Nat) : (e.dropEntry key).credits = e.credits := by
  unfold Engine.dropEntry
  split
  · rfl
  · dsimp only
    split <;> simp

@[simp] theorem Engine.removalTest_credits (e : Engine) (key : Nat) : (e.removalTest key).credits = e.credits := by
  unfold Engine.removalTest
  split
  · split <;> simp
  · rfl

@[simp] theorem Engine.decrementClaim_credits (e : Engine) (key : Nat) : (e.decrementClaim key).credits = e.credits :=
  (e.changeEntry key _).removalTest_credits key

@[simp] theorem Engine.weakMark_credits (e : Engine) (n : Nat) : (e.weakMark n).credits = e.credits := by
  unfold Engine.weakMark
  dsimp only
  split <;> split <;> rfl

@[simp] theorem Engine.unlist_credits (e : Engine) (n : Nat) : (e.unlist n).credits = e.credits := by
  have hrefill (k : Engine) : k.refill.credits = k.credits := by
    unfold Engine.refill
    split
    · split <;> rfl
    · rfl
  unfold Engine.unlist
  split
  · exact hrefill _
  · rfl

@[simp] theorem Engine.answerRequester_credits (e : Engine) (st : Status) (ended : ReclaimEnd) :
    (e.answerRequester st ended).credits = e.credits := by
  unfold Engine.answerRequester
  split
  · rfl
  · exact e.complete_credits _ _

@[simp] theorem Engine.victimEnded_credits (e : Engine) (n : Nat) (ended : ReclaimEnd) :
    (e.victimEnded n ended).credits = e.credits := by
  unfold Engine.victimEnded
  split
  · exact e.answerRequester_credits _ _
  · rfl

@[simp] theorem Engine.formatCounts_credits (e : Engine) (n : Nat) (retired : Bool) :
    (e.formatCounts n retired).credits = e.credits := by
  unfold Engine.formatCounts
  split
  · split <;> rfl
  · rfl

@[simp] theorem Engine.retireSegment_credits (e : Engine) (n : Nat) (cause : RetireCause) (r : Requester) :
    (e.retireSegment n cause r).credits = e.credits := by
  unfold Engine.retireSegment
  dsimp only
  split <;> simp

@[simp] theorem Engine.settleReleased_credits (e : Engine) : e.settleReleased.credits = e.credits := by
  unfold Engine.settleReleased
  split
  · rfl
  · split
    · dsimp only
      split
      · exact Engine.retireSegment_credits _ _ _ _
      · rfl
    · rfl

@[simp] theorem Engine.settlePinWait_credits (e : Engine) : e.settlePinWait.credits = e.credits :=
  Engine.foldl_credits Engine.queueErase_credits _ _

@[simp] theorem Engine.unpin_credits (e : Engine) (n : Nat) : (e.unpin n).credits = e.credits := by
  unfold Engine.unpin
  dsimp only
  split <;> simp

@[simp] theorem Engine.eraseLost_credits (e : Engine) (n : Nat) (c : RetireCause) : (e.eraseLost n c).credits = e.credits := by
  unfold Engine.eraseLost
  split <;> simp

@[simp] theorem Engine.erasePassed_credits (e : Engine) (n : Nat) : (e.erasePassed n).credits = e.credits := rfl

@[simp] theorem Engine.closeFailed_credits (e : Engine) (n : Nat) : (e.closeFailed n).credits = e.credits := by
  unfold Engine.closeFailed
  split <;> rfl

/-! ### The Reclaim Unit (chapter 6) -/

@[simp] theorem Engine.pauseReclaim_credits (e : Engine) : e.pauseReclaim.credits = e.credits :=
  Engine.answerRequester_credits _ _ _

@[simp] theorem Engine.pauseForSpace_credits (e : Engine) : e.pauseForSpace.credits = e.credits :=
  Engine.pauseReclaim_credits _

@[simp] theorem Engine.releaseVictim_credits (e : Engine) (n : Nat) : (e.releaseVictim n).credits = e.credits := rfl

@[simp] theorem Engine.placeStep_credits (e : Engine) (w : Written) (key : Nat) (l : Location) (ds : List CellData) :
    (e.placeStep w key l ds).credits = e.credits := by
  have hp := e.placeReclaim_credits ds.length
  unfold Engine.placeStep
  split
  · next heq => rw [heq] at hp; exact hp
  · next heq => rw [heq] at hp; exact (Engine.pauseForSpace_credits _).trans hp

@[simp] theorem Engine.sweepWrite_credits (e : Engine) (w : Written) (key : Nat) (l : Location) (ds : List CellData) :
    (e.sweepWrite w key l ds).credits = e.credits := Engine.placeStep_credits _ _ _ _ _

@[simp] theorem Engine.sweepFrom_credits (e : Engine) (n key : Nat) : (e.sweepFrom n key).credits = e.credits := by
  unfold Engine.sweepFrom Engine.sweepEntry
  split
  · split <;> simp
  · rfl

@[simp] theorem Engine.walkEnd_credits (e : Engine) (n : Nat) : (e.walkEnd n).credits = e.credits := by
  unfold Engine.walkEnd
  split
  · rfl
  · dsimp only
    split <;> simp

@[simp] theorem Engine.beginStep_credits (e : Engine) : e.beginStep.credits = e.credits := by
  unfold Engine.beginStep
  split
  · simp
  · split <;> simp
  · rfl

@[simp] theorem Engine.recordBoundary_credits (e : Engine) : e.recordBoundary.credits = e.credits := by
  unfold Engine.recordBoundary
  split <;> simp

@[simp] theorem Engine.passCells_credits (e : Engine) (n : Nat) : (e.passCells n).credits = e.credits :=
  Engine.recordBoundary_credits _

@[simp] theorem Engine.passRecord_credits (e : Engine) (key n : Nat) : (e.passRecord key n).credits = e.credits := by
  unfold Engine.passRecord
  split <;> simp

@[simp] theorem Engine.settleStale_credits (e : Engine) (n : Nat) (h : RecordHeader) (v : ValueVerdict) :
    (e.settleStale n h v).credits = e.credits := by
  unfold Engine.settleStale
  split <;> simp

@[simp] theorem Engine.settleRecord_credits (e : Engine) (l : Location) (h : RecordHeader) (cells : List CellOutcome) :
    (e.settleRecord l h cells).credits = e.credits := by
  unfold Engine.settleRecord
  dsimp only
  split
  · split <;> simp
  · split <;> simp
  · split
    · split <;> simp
    · simp

@[simp] theorem Engine.reclaimReadDone_credits (e : Engine) (q : Request) (cells : List CellOutcome) :
    (e.reclaimReadDone q cells).credits = e.credits := by
  unfold Engine.reclaimReadDone Engine.fillBuffer
  split
  · split
    · simp
    · simp
    · dsimp only
      split <;> simp
  · simp
  · rfl

@[simp] theorem Engine.repointDone_credits (e : Engine) (w : Written) (key : Nat) (b : EntryBody) (old new : Location) :
    (e.repointDone w key b old new).credits = e.credits := by
  unfold Engine.repointDone
  dsimp only
  split <;> simp

@[simp] theorem Engine.repointChanged_credits (e : Engine) (w : Written) (key : Nat) :
    (e.repointChanged w key).credits = e.credits := by
  unfold Engine.repointChanged
  split <;> simp

@[simp] theorem Engine.tallyCopy_credits (e : Engine) (w : Written) : (e.tallyCopy w).credits = e.credits := by
  unfold Engine.tallyCopy
  split <;> rfl

@[simp] theorem Engine.reclaimProgramPassed_credits (e : Engine) (l : Location) :
    (e.reclaimProgramPassed l).credits = e.credits := by
  unfold Engine.reclaimProgramPassed
  split
  · dsimp only
    split
    · split <;> simp
    · simp
  · rfl

@[simp] theorem Engine.startVictim_credits (e : Engine) (n : Nat) (r : Option Nat) : (e.startVictim n r).credits = e.credits := by
  unfold Engine.startVictim
  dsimp only
  split <;> simp

@[simp] theorem Engine.grantVictim_credits (e : Engine) : e.grantVictim.credits = e.credits := by
  unfold Engine.grantVictim
  split
  · split <;> simp
  · rfl

@[simp] theorem Engine.resumeReclaim_credits (e : Engine) : e.resumeReclaim.credits = e.credits := by
  unfold Engine.resumeReclaim
  split <;> simp

@[simp] theorem Engine.makeChoice_credits (e : Engine) : e.makeChoice.credits = e.credits := by
  unfold Engine.makeChoice
  dsimp only
  rw [Engine.setReclaim_credits]
  split
  · split
    · split <;> simp
    · rfl
  · rfl

/-! ### The Job Unit (chapter 2) -/

@[simp] theorem Engine.failWrite_credits (e : Engine) (c : Nat) (st : Status) : (e.failWrite c st).credits = e.credits := by
  unfold Engine.failWrite
  split <;> simp

@[simp] theorem Engine.placeWrite_credits (e : Engine) (c : Nat) : (e.placeWrite c).credits = e.credits := by
  have hp := e.placeHost_credits (e.ctx c).recordCells
  unfold Engine.placeWrite
  split
  · next heq => rw [heq] at hp; exact hp
  · next heq =>
    rw [heq] at hp
    split
    · exact hp
    · exact (Engine.failWrite_credits _ _ _).trans hp

@[simp] theorem Engine.retryPlacement_credits (e : Engine) (w : SpaceWaiter) : (e.retryPlacement w).credits = e.credits := by
  have hp := e.placeHost_credits (e.ctx w.ctx).recordCells
  unfold Engine.retryPlacement
  split
  · next heq => rw [heq] at hp; exact hp
  · next heq => rw [heq] at hp; exact hp

@[simp] theorem Engine.serveWaitQueue_credits (e : Engine) : e.serveWaitQueue.credits = e.credits :=
  Engine.foldl_credits Engine.retryPlacement_credits _ _

@[simp] theorem Engine.freeRose_credits (e : Engine) : e.freeRose.credits = e.credits := by
  simp [Engine.freeRose]

@[simp] theorem Engine.takeSequence_credits (e : Engine) : e.takeSequence.credits = e.credits := by
  unfold Engine.takeSequence
  dsimp only
  split <;> simp

@[simp] theorem Engine.admitWrite_credits (e : Engine) (c : Nat) : (e.admitWrite c).credits = e.credits := by
  unfold Engine.admitWrite
  dsimp only
  split <;> simp

@[simp] theorem Engine.checkWrite_credits (e : Engine) (c : Nat) : (e.checkWrite c).1.credits = e.credits := by
  unfold Engine.checkWrite
  dsimp only
  split
  · simp
  · split <;> simp

@[simp] theorem Engine.askAdmission_credits (e : Engine) (c : Nat) : (e.askAdmission c).credits = e.credits := by
  unfold Engine.askAdmission
  dsimp only
  split <;> simp

@[simp] theorem Engine.handOn_credits (e : Engine) (key : Nat) (ws : List Nat) : (e.handOn key ws).credits = e.credits := by
  induction ws generalizing e with
  | nil =>
    unfold Engine.handOn
    split <;> simp
  | cons w ws ih =>
    have hc := (e.changeEntry key fun t => { t with waiters := ws }).checkWrite_credits w
    unfold Engine.handOn
    split
    · next heq => rw [heq] at hc; exact hc
    · next heq => rw [heq] at hc; exact (ih _).trans hc

@[simp] theorem Engine.releaseLock_credits (e : Engine) (c : Nat) : (e.releaseLock c).credits = e.credits := by
  unfold Engine.releaseLock
  dsimp only
  split
  · split <;> simp
  · rfl

@[simp] theorem Engine.hostProgramPassed_credits (e : Engine) (c : Nat) (l : Location) :
    (e.hostProgramPassed c l).credits = e.credits := by
  unfold Engine.hostProgramPassed
  dsimp only
  split <;> simp

@[simp] theorem Engine.readLocation_credits (e : Engine) (c : Nat) (l : Location) : (e.readLocation c l).credits = e.credits :=
  rfl

@[simp] theorem Engine.getLookup_credits (e : Engine) (c : Nat) : (e.getLookup c).credits = e.credits := by
  unfold Engine.getLookup Engine.noteLookup
  dsimp only
  split
  · split
    · simp
    · split <;> simp
  · simp
  · simp

@[simp] theorem Engine.matchLookup_credits (e : Engine) (c : Nat) : (e.matchLookup c).credits = e.credits := by
  unfold Engine.matchLookup Engine.noteLookup
  dsimp only
  split
  · split
    · simp
    · split <;> simp
  · simp
  · simp

@[simp] theorem Engine.getReadDone_credits (e : Engine) (c : Nat) (cells : List CellOutcome) :
    (e.getReadDone c cells).credits = e.credits := by
  unfold Engine.getReadDone
  dsimp only
  split <;> simp

@[simp] theorem Engine.matchReadDone_credits (e : Engine) (c : Nat) (cells : List CellOutcome) :
    (e.matchReadDone c cells).credits = e.credits := by
  unfold Engine.matchReadDone
  dsimp only
  split <;> simp

@[simp] theorem Engine.scanStep_credits (e : Engine) (c : Nat) : (e.scanStep c).credits = e.credits := by
  unfold Engine.scanStep
  dsimp only
  split <;> simp

@[simp] theorem Engine.proceed_credits (e : Engine) (c : Nat) : (e.proceed c).credits = e.credits := by
  unfold Engine.proceed
  dsimp only
  split
  · simp
  · split <;> simp

@[simp] theorem Engine.chainWritten_credits (e : Engine) (c : Nat) : (e.chainWritten c).credits = e.credits := by
  unfold Engine.chainWritten
  dsimp only
  split
  · rfl
  · split
    · exact (Engine.proceed_credits _ _).trans (Engine.modRing_credits _ _ fun _ => rfl)
    · exact Engine.modRing_credits _ _ fun _ => rfl

@[simp] theorem Engine.freeCtx_credits (e : Engine) (c : Nat) : (e.freeCtx c).credits = e.credits := by
  unfold Engine.freeCtx
  dsimp only
  split
  · split <;> rfl
  · rfl

/-! ### The Mount Unit (chapter 7) -/

@[simp] theorem Engine.finishMount_credits (e : Engine) : e.finishMount.credits = e.credits := by
  have herase (k : Engine) : k.eraseDirty.credits = k.credits := by
    refine Engine.foldl_credits (fun _ _ => ?_) _ _
    rfl
  unfold Engine.finishMount
  split
  · rw [Engine.wantChoice_credits, Engine.spaceTest_credits, herase]
    rfl
  · rfl

@[simp] theorem Engine.passBFrom_credits (e : Engine) (n : Nat) : (e.passBFrom n).credits = e.credits := by
  unfold Engine.passBFrom
  split <;> simp

@[simp] theorem Engine.passBMove_credits (e : Engine) (n : Nat) : (e.passBMove n).credits = e.credits := by
  unfold Engine.passBMove
  dsimp only
  split <;> simp

@[simp] theorem Engine.judgeTombstone_credits (e : Engine) (l : Location) (h : RecordHeader) :
    (e.judgeTombstone l h).credits = e.credits := by
  unfold Engine.judgeTombstone
  split
  · rfl
  · split
    · rfl
    · split
      · split <;> rfl
      · rfl

@[simp] theorem Engine.passBRead_credits (e : Engine) (cells : List CellOutcome) : (e.passBRead cells).credits = e.credits := by
  unfold Engine.passBRead
  split
  · simp
  · simp
  · dsimp only
    split <;> simp

@[simp] theorem Engine.passAOthersFrom_credits (e : Engine) (n : Nat) : (e.passAOthersFrom n).credits = e.credits := by
  unfold Engine.passAOthersFrom Engine.startPassB
  split <;> simp

@[simp] theorem Engine.passAFrom_credits (e : Engine) (n : Nat) : (e.passAFrom n).credits = e.credits := by
  unfold Engine.passAFrom
  split <;> simp

@[simp] theorem Engine.startPassA_credits (e : Engine) : e.startPassA.credits = e.credits := Engine.passAFrom_credits _ 0

@[simp] theorem Engine.passASegEnd_credits (e : Engine) : e.passASegEnd.credits = e.credits := by
  unfold Engine.passASegEnd
  dsimp only
  split
  · simp
  · split <;> simp

@[simp] theorem Engine.passAMove_credits (e : Engine) (n : Nat) : (e.passAMove n).credits = e.credits := by
  unfold Engine.passAMove
  dsimp only
  split <;> simp

@[simp] theorem Engine.rankRecord_credits (e : Engine) (key : Nat) (b : EntryBody) : (e.rankRecord key b).credits = e.credits := by
  unfold Engine.rankRecord
  split <;> split <;> rfl

@[simp] theorem Engine.takeRecord_credits (e : Engine) (l : Location) (h : RecordHeader) (v : ValueVerdict) :
    (e.takeRecord l h v).credits = e.credits := by
  unfold Engine.takeRecord
  split <;> simp

@[simp] theorem Engine.passARecord_credits (e : Engine) (l : Location) (h : RecordHeader) (cells : List CellOutcome) :
    (e.passARecord l h cells).credits = e.credits := by
  unfold Engine.passARecord Engine.noteRseq
  dsimp only
  split <;> simp

@[simp] theorem Engine.passARead_credits (e : Engine) (cells : List CellOutcome) : (e.passARead cells).credits = e.credits := by
  unfold Engine.passARead
  dsimp only
  split
  · simp
  · split
    · simp
    · split <;> simp
    · split <;> simp

@[simp] theorem Engine.surveyEnd_credits (e : Engine) : e.surveyEnd.credits = e.credits := by
  have hmean (mean : Nat) : (e.giveMean mean).credits = e.credits := by
    refine Engine.foldl_credits (fun _ _ => ?_) _ _
    rfl
  unfold Engine.surveyEnd
  dsimp only
  split
  · simp [hmean]
  · rw [Engine.foldl_credits fun k _ => k.enqueue_credits _]
    exact hmean _

@[simp] theorem Engine.surveyFirst_credits (e : Engine) (n : Nat) (cells : List CellOutcome) (weak : Bool) :
    (e.surveyFirst n cells weak).credits = e.credits := by
  have hformat (x : CellOutcome) : (e.noteFormat n x).credits = e.credits := by
    unfold Engine.noteFormat
    split <;> rfl
  have hopen (k : Engine) (x : CellOutcome) : (k.noteOpen n x).credits = k.credits := by
    unfold Engine.noteOpen
    split <;> rfl
  exact (hopen _ _).trans (hformat _)

@[simp] theorem Engine.surveySecond_credits (e : Engine) (n : Nat) (cells : List CellOutcome) (weak : Bool) :
    (e.surveySecond n cells weak).credits = e.credits := by
  unfold Engine.surveySecond
  dsimp only
  split <;> split <;> simp

@[simp] theorem Engine.blankCheckEnded_credits (e : Engine) : e.blankCheckEnded.credits = e.credits := by
  unfold Engine.blankCheckEnded
  dsimp only
  split <;> simp

@[simp] theorem Engine.blankAnswer_credits (e : Engine) (n : Nat) (blank : Bool) : (e.blankAnswer n blank).credits = e.credits := by
  unfold Engine.blankAnswer
  split
  · rfl
  · split <;> simp

@[simp] theorem Engine.mountProgramDone_credits (e : Engine) (q : Request) (pass : Bool) :
    (e.mountProgramDone q pass).credits = e.credits := by
  unfold Engine.mountProgramDone Engine.formatEstimated
  split
  · split <;> simp
  · simp
  · rfl

@[simp] theorem Engine.mountReadDone_credits (e : Engine) (q : Request) (cells : List CellOutcome) :
    (e.mountReadDone q cells).credits = e.credits := by
  have hmark (weak : Bool) : (e.markMounted q.seg weak).credits = e.credits := by
    unfold Engine.markMounted
    split <;> rfl
  unfold Engine.mountReadDone
  dsimp only
  split
  · split <;> simp
  · simp [hmark]
  · simp [hmark]
  · rfl

/-! ### FORMAT and SCRUB (chapters 5 and 10) -/

@[simp] theorem Engine.formatBegin_credits (e : Engine) : e.formatBegin.credits = e.credits := by
  have hend : e.endReclaim.credits = e.credits := e.answerRequester_credits _ _
  have hrelease (k : Engine) (f : FormatRun) : (k.formatRelease f).credits = k.credits :=
    Engine.foldl_credits Engine.queueErase_credits _ _
  unfold Engine.formatBegin
  split
  · split
    · exact (hrelease _ _).trans hend
    · rfl
  · rfl

@[simp] theorem Engine.formatEnd_credits (e : Engine) : e.formatEnd.credits = e.credits := by
  have hmode (k : Engine) : k.recomputeMode.credits = k.credits := by
    unfold Engine.recomputeMode
    dsimp only
    split <;> rfl
  unfold Engine.formatEnd Engine.formatFinish
  split
  · split <;> simp [hmode]
  · rfl

@[simp] theorem Engine.setScrub_credits (e : Engine) (c : Nat) (f : ScrubWork → ScrubWork) :
    (e.setScrub c f).credits = e.credits := rfl

@[simp] theorem Engine.scrubEnd_credits (e : Engine) (c : Nat) (x : ScrubEnd) : (e.scrubEnd c x).credits = e.credits :=
  e.complete_credits _ _

@[simp] theorem Engine.scrubRead_credits (e : Engine) (c cell count : Nat) : (e.scrubRead c cell count).credits = e.credits := by
  unfold Engine.scrubRead
  dsimp only
  split <;> simp

@[simp] theorem Engine.scrubNext_credits (e : Engine) (c : Nat) : (e.scrubNext c).credits = e.credits := by
  unfold Engine.scrubNext
  dsimp only
  split <;> simp

@[simp] theorem Engine.scrubPass_credits (e : Engine) (c n : Nat) : (e.scrubPass c n).credits = e.credits :=
  Engine.scrubNext_credits _ _

@[simp] theorem Engine.scrubReadDone_credits (e : Engine) (c : Nat) (q : Request) (cells : List CellOutcome) :
    (e.scrubReadDone c q cells).credits = e.credits := by
  unfold Engine.scrubReadDone Engine.scrubHeader
  dsimp only
  split
  · simp
  · split
    · simp
    · simp
    · split <;> simp

/-! ### The media's reports (chapter 4) -/

@[simp] theorem Engine.recordPassed_credits (e : Engine) (q : Request) {f : Engine → Location → Engine}
    (hf : ∀ k l, (f k l).credits = k.credits) : (e.recordPassed q f).credits = e.credits := by
  unfold Engine.recordPassed
  split
  · exact hf _ _
  · rfl

@[simp] theorem Engine.programPassed_credits (e : Engine) (q : Request) : (e.programPassed q).credits = e.credits := by
  unfold Engine.programPassed Engine.formatCellPassed
  split
  · simp
  · simp
  · simp
  · simp
  · split <;> simp
  · rfl

@[simp] theorem Engine.replaceRecord_credits (e : Engine) (q : Request) : (e.replaceRecord q).credits = e.credits := by
  have hp := e.placeReclaim_credits q.count
  unfold Engine.replaceRecord Engine.replaceHost Engine.replaceReclaim
  split
  · split <;> simp
  · split
    · simp
    · split
      · next heq => rw [heq] at hp; exact hp
      · next heq => rw [heq] at hp; exact (Engine.pauseForSpace_credits _).trans hp
  · rfl

@[simp] theorem Engine.segmentFailed_credits (e : Engine) (b seg : Nat) (l : List Request) :
    (e.segmentFailed b seg l).credits = e.credits :=
  (Engine.foldl_credits Engine.replaceRecord_credits _ _).trans (e.closeFailed_credits seg)

@[simp] theorem Engine.programEnded_credits (e : Engine) (b : Nat) (q : Request) (pass : Bool) :
    (e.programEnded b q pass).credits = e.credits := by
  unfold Engine.programEnded Engine.programFailed
  split
  · simp
  · split <;> simp

@[simp] theorem Engine.eraseEnded_credits (e : Engine) (q : Request) (pass : Bool) : (e.eraseEnded q pass).credits = e.credits := by
  unfold Engine.eraseEnded
  split <;> simp

@[simp] theorem Engine.readReported_credits (e : Engine) (q : Request) (cells : List CellOutcome) :
    (e.readReported q cells).credits = e.credits := by
  have hmark (weak : Bool) : (e.markWeak q.seg weak).credits = e.credits := by
    unfold Engine.markWeak
    split <;> simp
  have hctx (k : Engine) (c : Nat) : (k.ctxReadDone c q cells).credits = k.credits := by
    unfold Engine.ctxReadDone
    split <;> simp
  unfold Engine.readReported
  dsimp only
  split <;> simp [hmark, hctx]

/-! ### The data jobs (chapter 2) -/

@[simp] theorem Engine.putStep_credits (e : Engine) (c : Nat) : (e.putStep c).credits = e.credits := by
  unfold Engine.putStep Engine.loadNothing
  dsimp only
  split
  · simp
  · split <;> simp

@[simp] theorem Engine.probeStep_credits (e : Engine) (c : Nat) : (e.probeStep c).credits = e.credits := e.complete_credits _ _

@[simp] theorem Engine.deleteStep_credits (e : Engine) (c : Nat) : (e.deleteStep c).credits = e.credits := by
  unfold Engine.deleteStep
  split <;> simp

@[simp] theorem Engine.matchStep_credits (e : Engine) (c : Nat) : (e.matchStep c).credits = e.credits := by
  unfold Engine.matchStep Engine.loadNothing
  dsimp only
  split <;> simp

@[simp] theorem Engine.scanBegin_credits (e : Engine) (c : Nat) : (e.scanBegin c).credits = e.credits :=
  Engine.scanStep_credits _ _

@[simp] theorem Engine.transferEnded_credits (e : Engine) (c : Nat) : (e.transferEnded c).credits = e.credits := rfl

@[simp] theorem Engine.sent_credits (e : Engine) (c address : Nat) (bytes : List Byte) (ok : Bool) :
    (e.sent c address bytes ok).credits = e.credits := rfl

@[simp] theorem Engine.loaded_credits (e : Engine) (c n : Nat) (d : Option (List Byte)) : (e.loaded c n d).credits = e.credits := by
  unfold Engine.loaded
  split
  · simp
  · dsimp only
    split <;> simp

@[simp] theorem Engine.getReturned_credits (e : Engine) (c : Nat) (ok : Bool) : (e.getReturned c ok).credits = e.credits :=
  e.complete_credits _ _

@[simp] theorem Engine.scanReturned_credits (e : Engine) (c : Nat) (ok : Bool) (n : Nat) :
    (e.scanReturned c ok n).credits = e.credits := by
  unfold Engine.scanReturned
  dsimp only
  split
  · split <;> simp
  · simp

/-! ### The admin jobs (chapters 6, 8 and 10) -/

@[simp] theorem Engine.answer_credits (e : Engine) (c : Nat) (st : Status) (r : Results) : (e.answer c st r).credits = e.credits :=
  e.complete_credits _ _

@[simp] theorem Engine.waitInMedia_credits (e : Engine) (c : Nat) : (e.waitInMedia c).credits = e.credits := rfl

@[simp] theorem Engine.closeRingStep_credits (e : Engine) (c : Nat) : (e.closeRingStep c).credits = e.credits := by
  unfold Engine.closeRingStep
  dsimp only
  split
  · simp
  · split
    · simp
    · simp
    · exact Engine.modRing_credits _ _ fun _ => rfl
    · split
      · simp
      · exact Engine.modRing_credits _ _ fun _ => rfl

@[simp] theorem Engine.applySetter_credits (e : Engine) (c : Nat) : (e.applySetter c).credits = e.credits :=
  Engine.complete_credits _ _ _

@[simp] theorem Engine.setNoticeStep_credits (e : Engine) (c : Nat) : (e.setNoticeStep c).credits = e.credits := by
  unfold Engine.setNoticeStep
  split
  · simp
  · split <;> simp

@[simp] theorem Engine.setLimitsStep_credits (e : Engine) (c : Nat) : (e.setLimitsStep c).credits = e.credits := by
  unfold Engine.setLimitsStep
  dsimp only
  split
  · simp
  · split <;> simp

@[simp] theorem Engine.queryEngineStep_credits (e : Engine) (c : Nat) : (e.queryEngineStep c).credits = e.credits := rfl

@[simp] theorem Engine.querySegmentStep_credits (e : Engine) (c : Nat) : (e.querySegmentStep c).credits = e.credits := by
  unfold Engine.querySegmentStep Engine.sendReport
  dsimp only
  split
  · simp
  · split <;> simp

@[simp] theorem Engine.reportWritten_credits (e : Engine) (c : Nat) (ok : Bool) : (e.reportWritten c ok).credits = e.credits :=
  e.complete_credits _ _

@[simp] theorem Engine.reclaimStep_credits (e : Engine) (c : Nat) : (e.reclaimStep c).credits = e.credits := by
  unfold Engine.reclaimStep
  dsimp only
  split
  · simp
  · split
    · simp
    · split <;> simp

@[simp] theorem Engine.scrubStep_credits (e : Engine) (c : Nat) : (e.scrubStep c).credits = e.credits := by
  unfold Engine.scrubStep
  dsimp only
  split
  · simp
  · split <;> simp

@[simp] theorem Engine.formatStep_credits (e : Engine) (c : Nat) : (e.formatStep c).credits = e.credits := by
  unfold Engine.formatStep
  split
  · simp
  · split
    · simp
    · split <;> simp

/-! ### The notices, and the Ring Unit's operations that keep the numbers (chapter 8) -/

@[simp] theorem Engine.applySetters_credits (e : Engine) : e.applySetters.credits = e.credits := by
  unfold Engine.applySetters
  split
  · rfl
  · exact Engine.foldl_credits Engine.applySetter_credits _ _

@[simp] theorem Engine.issueNotice_credits (e : Engine) : e.issueNotice.credits = e.credits := by
  unfold Engine.issueNotice
  split
  · split <;> rfl
  · rfl

@[simp] theorem Engine.noticeDone_credits (e : Engine) (ok : Bool) : (e.noticeDone ok).credits = e.credits := by
  unfold Engine.noticeDone Engine.noticeWritten
  dsimp only
  split
  · split
    · split <;> rfl
    · rfl
  · rfl

@[simp] theorem Engine.testQuiescence_credits (e : Engine) : e.testQuiescence.credits = e.credits := by
  unfold Engine.testQuiescence
  split <;> rfl

@[simp] theorem Engine.issueRecords_credits (e : Engine) : e.issueRecords.credits = e.credits := by
  have hissue (g : RingContext) : g.issueRecord.credit = g.credit := by
    unfold RingContext.issueRecord
    split <;> rfl
  exact List.map_map.trans (List.map_congr_left fun g _ => hissue g)

@[simp] theorem Engine.checked_credits (e : Engine) (c : Nat) : (e.checked c).credits = e.credits := by
  unfold Engine.checked
  split <;> simp

@[simp] theorem Engine.fetchEnded_credits (e : Engine) (c : Nat) : (e.fetchEnded c).credits = e.credits := rfl

@[simp] theorem Engine.takeDescriptor_credits (e : Engine) (r c : Nat) (d : Descriptor) :
    (e.takeDescriptor r c d).credits = e.credits := by
  unfold Engine.takeDescriptor
  dsimp only
  rw [Engine.checked_credits, Engine.modCtx_credits]
  exact Engine.modRing_credits _ _ fun _ => rfl

@[simp] theorem Engine.ringFault_credits (e : Engine) (r : Nat) (cause : FaultCause) (slot : Nat) :
    (e.ringFault r cause slot).credits = e.credits := by
  unfold Engine.ringFault
  dsimp only
  split
  · rfl
  · exact (Engine.foldl_credits (fun _ _ => Engine.complete_credits _ _ _) _ _).trans
      (Engine.modRing_credits _ _ fun _ => rfl)

@[simp] theorem Engine.signalRing_credits (e : Engine) (r : Nat) : (e.signalRing r).credits = e.credits := by
  unfold Engine.signalRing
  split
  · exact Engine.modRing_credits _ _ fun _ => rfl
  · rfl

@[simp] theorem Engine.postError_credits (e : Engine) : e.postError.credits = e.credits := rfl

@[simp] theorem Engine.post_credits (e : Engine) (r t : Nat) : (e.post r t).credits = e.credits := by
  unfold Engine.post
  split
  · exact Engine.modRing_credits _ _ fun _ => rfl
  · rfl

@[simp] theorem Engine.recordHalted_credits (e : Engine) (r c : Nat) (ok : Bool) :
    (e.recordHalted r c ok).credits = e.credits := Engine.modRing_credits _ _ fun _ => rfl

@[simp] theorem Engine.writeBase_credits (e : Engine) (offset : Nat) (v : BitVec 32) :
    (e.writeBase offset v).credits = e.credits := by
  unfold Engine.writeBase
  split
  · rfl
  · split <;> rfl

@[simp] theorem Engine.quantumEvent_credits (e : Engine) (b : Nat) : (e.quantumEvent b).credits = e.credits := by
  unfold Engine.quantumEvent
  split <;> rfl
end Sys2Proof.Machine
end

section
/-! PROOFS. Every step keeps the law of the rings' credit (R155): the Ring Unit's own operations, where the four numbers change,
then the end of a step, the events and the commands. -/

-- The rules are many and small: elaborated side by side they ask for more threads than there are.
set_option Elab.async false

namespace Sys2Proof.Machine

open Sys2Proof

/-! ### The ring that the arbiter chooses (R156) -/

namespace RingUnit

variable {e : Engine} {r : Nat}

theorem eligible_iff : e.eligible r = true ↔ (e.ring r).state = .opened ∧ 1 ≤ (e.ring r).unfetched
    ∧ (e.ring r).hasCredit = true ∧ (e.contextFor r).isSome = true ∧ e.stateAllows r = true := by
  simp only [Engine.eligible, Bool.and_eq_true, beq_iff_eq, decide_eq_true_eq, and_assoc]

/-- A ring that a level yields is an eligible one of that level. -/
theorem chooseAtLevel_eligible {level : Nat} (h : e.chooseAtLevel level = some r) :
    e.eligible r = true ∧ (e.ring r).priority = level := by
  simpa using List.find?_some h

theorem chooseRing_eligible (h : e.chooseRing = some r) : e.eligible r = true := by
  unfold Engine.chooseRing at h
  split at h
  · next h0 =>
    cases h
    exact h0
  · obtain ⟨level, -, hl⟩ := List.exists_of_findSome?_eq_some h
    exact (chooseAtLevel_eligible hl).1

theorem noteServed_rings (e : Engine) (r : Nat) : (e.noteServed r).rings = e.rings := by
  unfold Engine.noteServed
  split <;> rfl

end RingUnit

/-! ### One ring (R155, R158, R159) -/

namespace RingContext

/-- A ring with nothing in flight and its done index and head at 0 keeps the law. -/
theorem creditHolds_of_empty {g : RingContext} (hflight : g.inFlight = 0) (hdone : g.doneIndex = 0) (hhead : g.head = 0) :
    g.creditHolds := by
  rcases Nat.eq_zero_or_pos g.size with hs | hs
  · exact .inl hs
  · right
    rw [RingContext.unacked, hflight, hdone, hhead]
    simpa using hs

/-- Fewer jobs in flight need less credit. -/
theorem creditHolds_of_fewer {g k : RingContext} (h : g.creditHolds) (hsize : k.size = g.size) (hdone : k.doneIndex = g.doneIndex)
    (hhead : k.head = g.head) (hflight : k.inFlight ≤ g.inFlight) : k.creditHolds := by
  rw [RingContext.creditHolds, RingContext.unacked] at h ⊢
  rw [hsize, hdone, hhead]
  exact h.imp_right fun ⟨hu, hd, hh⟩ => ⟨by omega, hd, hh⟩

/-- A ring with credit may have one more job in flight (R155, R156). -/
theorem creditHolds_of_hasCredit {g : RingContext} (h : g.creditHolds) (hc : g.hasCredit = true) :
    { g with inFlight := g.inFlight + 1 }.creditHolds := by
  simp only [RingContext.hasCredit, decide_eq_true_eq] at hc
  refine h.imp_right fun ⟨_, hd, hh⟩ => ⟨?_, hd, hh⟩
  change g.inFlight + 1 + g.unacked ≤ g.size - 1
  omega

/-- The distance round a ring of `n` slots from `a` to `b`. -/
theorem distance_eq {n a b : Nat} (ha : a < n) (hb : b < n) : (b + n - a) % n = if a ≤ b then b - a else b + n - a := by
  split
  · rw [show b + n - a = b - a + n by omega, Nat.add_mod_right, Nat.mod_eq_of_lt (by omega)]
  · exact Nat.mod_eq_of_lt (by omega)

/-- A record of a job in flight that has been written takes the place of the job in the law (R158). -/
theorem creditHolds_recordWritten {g : RingContext} (h : g.creditHolds) (hf : 0 < g.inFlight) : g.recordWritten.creditHolds := by
  refine h.imp_right fun ⟨hu, hd, hh⟩ => ?_
  have hn : nextSlot g.size g.doneIndex < g.size := by
    unfold nextSlot
    split <;> omega
  refine ⟨?_, hn, hh⟩
  change g.inFlight - 1 + (nextSlot g.size g.doneIndex + g.size - g.head) % g.size ≤ g.size - 1
  rw [distance_eq hh hn]
  rw [RingContext.unacked, distance_eq hh hd] at hu
  unfold nextSlot
  by_cases hwrap : g.doneIndex + 1 = g.size
  · rw [if_pos hwrap]
    split at hu <;> split <;> omega
  · rw [if_neg hwrap]
    split at hu <;> split <;> omega

/-- An ACK that holds leaves no more records unacknowledged than there were (R159). -/
theorem creditHolds_acked {g : RingContext} (h : g.creditHolds) {n : Nat} (hn : ackHolds g.size g.head g.unacked n = true)
    (armed : Bool) : { g with head := n, armed := armed }.creditHolds := by
  simp only [ackHolds, Bool.and_eq_true, decide_eq_true_eq] at hn
  obtain ⟨hlt, hle⟩ := hn
  refine h.imp_right fun ⟨hu, hd, hh⟩ => ⟨?_, hd, hlt⟩
  change g.inFlight + (g.doneIndex + g.size - n) % g.size ≤ g.size - 1
  rw [RingContext.unacked, distance_eq hh hd, distance_eq hh hlt] at hle
  rw [RingContext.unacked, distance_eq hh hd] at hu
  rw [distance_eq hlt hd]
  by_cases hle' : g.head ≤ g.doneIndex
  · rw [if_pos hle'] at hu hle
    split at hle <;> split <;> omega
  · rw [if_neg hle'] at hu hle
    split at hle <;> split <;> omega

end RingContext

namespace Engine.creditLaw

variable {e : Engine}

/-! ### When the law is kept -/

/-- The law is kept by what leaves the numbers of the rings alone. -/
theorem same (h : e.creditLaw) {k : Engine} (hk : k.credits = e.credits := by simp) : k.creditLaw := by
  intro g hg
  have hm : g.credit ∈ e.credits := hk ▸ List.mem_map_of_mem hg
  obtain ⟨g', hg', hc⟩ := List.mem_map.mp hm
  exact RingContext.creditHolds_congr hc.symm (h g' hg')

/-- The law of a ring, there or not. -/
theorem ring (h : e.creditLaw) (r : Nat) : (e.ring r).creditHolds := by
  cases hr : e.rings[r]? with
  | none => rw [Engine.ring_absent hr]; exact .inl rfl
  | some g => rw [Engine.ring_of hr]; exact h g (List.mem_of_getElem? hr)

/-- The law is kept by a change of one ring that keeps it there. -/
theorem modRing (h : e.creditLaw) (r : Nat) {f : RingContext → RingContext} (hf : (f (e.ring r)).creditHolds) :
    (e.modRing r f).creditLaw := by
  intro g hg
  rcases Engine.Move.updAt_mem (d := ({} : RingContext)) hg with hg | ⟨-, rfl⟩
  · exact h g hg
  · exact hf

/-- A fold of operations that keep the law. -/
theorem foldl {α : Type} {f : Engine → α → Engine} (hf : ∀ {k : Engine} (x : α), k.creditLaw → (f k x).creditLaw)
    (h : e.creditLaw) (l : List α) : (l.foldl f e).creditLaw := by
  induction l generalizing e with
  | nil => exact h
  | cons x l ih => exact ih (hf x h)

/-- Rings with no slots and no jobs keep the law. -/
theorem of_fresh (e : Engine) (g : Registers) : (e.fresh g).creditLaw := by
  intro k hk
  rw [(List.mem_replicate.mp hk).2]
  exact .inl rfl

/-! ### The Ring Unit -/

theorem discard (h : e.creditLaw) (r c : Nat) : (e.discard r c).creditLaw := by
  have hr : (e.modRing r fun g => { g with posting := g.posting.filter (· != c), inFlight := g.inFlight - 1 }).creditLaw :=
    h.modRing r (RingContext.creditHolds_of_fewer (h.ring r) rfl rfl rfl (Nat.sub_le _ _))
  exact hr.same (by simp [Engine.discard])

theorem discardAll (h : e.creditLaw) (n : Nat) : (e.discardAll n).creditLaw := by
  induction n generalizing e with
  | zero => exact h
  | succ n ih =>
    unfold Engine.discardAll
    split
    · exact ih (h.discard _ _)
    · exact h

theorem closeRing (h : e.creditLaw) (r : Nat) : (e.closeRing r).creditLaw := by
  unfold Engine.closeRing
  split
  · exact (h.modRing (f := fun _ => {}) r (.inl rfl)).same
  · exact h

/-- The ring that the arbiter chooses has credit for the job that its fetch adds to those in flight. -/
theorem issueFetch (h : e.creditLaw) : e.issueFetch.creditLaw := by
  unfold Engine.issueFetch
  split
  · next r _ hr =>
    split
    · have hc : (e.ring r).hasCredit = true := (RingUnit.eligible_iff.mp (RingUnit.chooseRing_eligible hr)).2.2.1
      refine (h.modRing (f := fun g => { g with inFlight := g.inFlight + 1 }) r
        (RingContext.creditHolds_of_hasCredit (h.ring r) hc)).same ?_
      exact congrArg (fun l => (updAt l r _).map RingContext.credit) (RingUnit.noteServed_rings e r)
    · exact h
  · exact h

theorem dropFetch (h : e.creditLaw) (r : Nat) : (e.dropFetch r).creditLaw :=
  h.modRing r (RingContext.creditHolds_of_fewer (h.ring r) rfl rfl rfl (Nat.sub_le _ _))

theorem fetchDone (h : e.creditLaw) (r c : Nat) (d : Option Descriptor) : (e.fetchDone r c d).creditLaw := by
  unfold Engine.fetchDone
  dsimp only
  split
  · exact h.same
  · exact h.same
  · exact (h.same (e.fetchEnded_credits c)).dropFetch r
  · exact ((h.same (e.fetchEnded_credits c)).dropFetch r).same

/-- The record that has been written is one of a job in flight. -/
theorem recordWritten (h : e.creditLaw) {r : Nat} (c : Nat) (hf : 0 < (e.ring r).inFlight) : (e.recordWritten r c).creditLaw := by
  have hr : (e.modRing r RingContext.recordWritten).creditLaw :=
    h.modRing r (RingContext.creditHolds_recordWritten (h.ring r) hf)
  refine hr.same ?_
  simp only [Engine.recordWritten, Engine.signalRing_credits, Engine.freeCtx_credits, Engine.chainWritten_credits,
    Engine.releaseLock_credits]
  rfl

theorem recordFailed (h : e.creditLaw) (r c : Nat) : (e.recordFailed r c).creditLaw := by
  refine Engine.creditLaw.discard ?_ r c
  refine h.same ?_
  rw [Engine.ringFault_credits]
  exact Engine.modRing_credits _ _ fun _ => rfl

theorem ackRing (h : e.creditLaw) {r n : Nat} (arm : Bool)
    (hn : ackHolds (e.ring r).size (e.ring r).head (e.ring r).unacked n = true) : (e.ackRing r arm n).creditLaw := by
  unfold Engine.ackRing
  dsimp only
  have hr (armed : Bool) : (e.modRing r fun _ => { e.ring r with head := n, armed := armed }).creditLaw :=
    h.modRing r (RingContext.creditHolds_acked (h.ring r) hn armed)
  split
  · exact (hr _).same (Engine.sendMessage_credits _ _)
  · exact hr _

theorem ack (h : e.creditLaw) (r : Nat) (arm : Bool) (n : Nat) : (e.ack r arm n).creditLaw := by
  unfold Engine.ack Engine.ackNotice
  dsimp only
  split
  · split
    · split
      · split <;> exact h.same
      · exact h.same
    · exact h.same
  · split
    · next hc =>
      simp only [Bool.and_eq_true] at hc
      exact h.ackRing arm hc.2
    · exact h.same

theorem initAdminRing (h : e.creditLaw) : e.initAdminRing.creditLaw := by
  have hr (base size : Nat) : (adminRing base size).creditHolds := by
    unfold adminRing
    split <;> exact RingContext.creditHolds_of_empty rfl rfl rfl
  exact h.modRing 0 (hr _ _)

theorem writeAdminSize (h : e.creditLaw) (v : BitVec 32) : (e.writeAdminSize v).creditLaw := by
  unfold Engine.writeAdminSize
  split
  · exact h.same
  · refine Engine.creditLaw.initAdminRing ?_
    exact h.same

theorem openRingStep (h : e.creditLaw) (c : Nat) : (e.openRingStep c).creditLaw := by
  unfold Engine.openRingStep
  dsimp only
  split
  · exact h.same
  · exact (h.modRing (f := fun _ => openedRing _) _ (RingContext.creditHolds_of_empty rfl rfl rfl)).same
      (Engine.answer_credits _ _ _ _)

/-! ### The end of a step, and of an operation -/

theorem settle (h : e.creditLaw) : e.settle.creditLaw := by
  have hblocks : e.settleBlocks.creditLaw := by
    refine Engine.creditLaw.discardAll (foldl (fun r hk => hk.closeRing r) ?_ _) _
    exact (h.discardAll contextCount).same
  unfold Engine.settle
  split
  · exact h.same
  · have hissued : e.settleBlocks.makeChoice.issueRecords.creditLaw := hblocks.same
    exact hissued.issueFetch.same

theorem opEnded (h : e.creditLaw) (b : Nat) {report : Engine → Engine} (hr : ∀ k, (report k).credits = k.credits) :
    (e.opEnded b report).creditLaw := by
  unfold Engine.opEnded
  split
  · exact (h.same (e.modBank_credits b _)).settle
  · exact settle (h.same ((Engine.selectBank_credits _ b).trans (hr _)))

theorem suspended (h : e.creditLaw) (b : Nat) : (e.suspended b).creditLaw := by
  unfold Engine.suspended
  split <;> exact settle (h.same rfl)

/-! ### Events, and the steps of jobs -/

theorem start (h : e.creditLaw) : e.start.creditLaw := by
  unfold Engine.start
  split
  · exact settle (h.same)
  · exact h

theorem stop (h : e.creditLaw) : e.stop.creditLaw := by
  unfold Engine.stop
  split
  · exact settle h.same
  · exact h

theorem halt (h : e.creditLaw) (m : ParityMemory) : (e.halt m).creditLaw := by
  unfold Engine.halt
  split
  · exact h
  · exact settle h.same

theorem fetchEvent (h : e.creditLaw) (d : Option (List Byte)) : (e.fetchEvent d).creditLaw := by
  unfold Engine.fetchEvent
  split
  · exact h
  · exact h.same
  · exact (h.fetchDone _ _ _).settle

theorem recordEvent (h : e.creditLaw) (r : Nat) (ok : Bool) : (e.recordEvent r ok).creditLaw := by
  unfold Engine.recordEvent
  split
  · next hf =>
    split
    · exact h.same
    · split
      · exact (h.recordWritten _ (by omega)).settle
      · exact (h.recordFailed _ _).settle
  · exact h

theorem noticeEvent (h : e.creditLaw) (ok : Bool) : (e.noticeEvent ok).creditLaw := by
  unfold Engine.noticeEvent
  split
  · exact settle h.same
  · exact h

theorem jobStep (h : e.creditLaw) (c : Nat) (j : Job) {f : Engine → Engine} (hf : (f e).creditLaw) :
    (e.jobStep c j f).creditLaw := by
  unfold Engine.jobStep
  split
  · exact hf.settle
  · exact h

theorem afterTransfer (h : e.creditLaw) {f : Engine → Engine} (hf : ∀ k, (f k).credits = k.credits) :
    (e.afterTransfer f).creditLaw := by
  unfold Engine.afterTransfer
  split
  · exact h
  · exact (h.same (hf e)).settle

theorem loadEvent (h : e.creditLaw) (c : Nat) (d : Option (List Byte)) : (e.loadEvent c d).creditLaw := by
  unfold Engine.loadEvent
  split
  · exact (h.same (e.transferEnded_credits c)).afterTransfer fun k => k.loaded_credits _ _ _
  · exact h

theorem returnEvent (h : e.creditLaw) (c : Nat) (mine : Job → Bool) (ok : Bool) {f : Nat → Engine → Engine}
    (hf : ∀ n k, (f n k).credits = k.credits) : (e.returnEvent c mine ok f).creditLaw := by
  unfold Engine.returnEvent
  split
  · split
    · exact (h.same (e.sent_credits c _ _ ok)).afterTransfer (hf _)
    · exact h
  · exact h

theorem expireWait (h : e.creditLaw) (c : Nat) : (e.expireWait c).creditLaw := by
  unfold Engine.expireWait
  split
  · exact settle h.same
  · exact h

end Engine.creditLaw

/-! ### Commands and steps -/

namespace RingUnit

variable {s t : State}

theorem endProgram_keeps_credit (h : s.engine.creditLaw) (b : Nat) (o : Operation) (pass : Bool) :
    (s.endProgram b o pass).engine.creditLaw := by
  cases pass with
  | false =>
    rw [State.endProgram_failed]
    exact (h.same s.engine.draw_credits).opEnded b fun k => k.programEnded_credits _ _ _
  | true =>
    rw [State.endProgram_passed]
    exact h.opEnded b fun k => k.programEnded_credits _ _ _

theorem endErase_keeps_credit (h : s.engine.creditLaw) (b : Nat) (o : Operation) (pass : Bool) :
    (s.endErase b o pass).engine.creditLaw := by
  cases pass with
  | false =>
    rw [State.endErase_failed]
    exact (h.same s.engine.draw_credits).opEnded b fun k => k.eraseEnded_credits _ _
  | true =>
    rw [State.endErase_passed]
    exact h.opEnded b fun k => k.eraseEnded_credits _ _

theorem suspendReported_keeps_credit (h : s.engine.creditLaw) (b : Nat) (x : SuspendOutcome) :
    (s.suspendReported b x).engine.creditLaw := by
  have ho (o : Operation) (pass : Bool) : (s.endOp b o pass).engine.creditLaw := by
    unfold State.endOp
    split
    · exact endErase_keeps_credit h b o pass
    · exact endProgram_keeps_credit h b o pass
  unfold State.suspendReported
  split
  · exact h
  · split
    · exact h.suspended b
    · exact ho _ _
    · exact ho _ _

theorem onActive_keeps_credit (h : s.engine.creditLaw) {b : Nat} {op : MediaOp} {f : Operation → State}
    (hf : ∀ o, (f o).engine.creditLaw) : (s.onActive b op f).engine.creditLaw := by
  obtain hs | ⟨o, -, hs⟩ := s.onActive_cases b op f
  · rw [hs]
    exact h
  · rw [hs]
    exact hf o

/-- A reset leaves CLOSED rings, and its mount starts with them so (R134, R169). -/
theorem mount_fresh_credit (e : Engine) (g : Registers) : (e.fresh g).startMount.settle.creditLaw :=
  Engine.creditLaw.settle ((Engine.creditLaw.of_fresh e g).same rfl)

theorem engineReset_keeps_credit (s : State) : s.engineReset.engine.creditLaw := by
  rw [State.engineReset_engine]
  exact Engine.creditLaw.settle ((Engine.creditLaw.of_fresh _ _).initAdminRing.same rfl)

theorem writeRegister_keeps_credit (h : s.engine.creditLaw) (offset width : Nat) (v : BitVec 32) :
    (s.writeRegister offset width v).engine.creditLaw := by
  unfold State.writeRegister
  split
  · exact h
  · split
    · unfold State.writeControl
      split
      · exact engineReset_keeps_credit s
      · split
        · exact h.start
        · exact h.stop
        · exact h
    · split
      · exact (h.writeAdminSize v).settle
      · split
        · exact (h.same (Engine.post_credits _ _ _)).settle
        · split
          · exact (h.ack _ _ _).settle
          · exact h.same

theorem credit_of_whenOn {f : State → State}
    (hn : (Host.Outcome.next (s.whenOn f) : Host.Outcome State Fault Refusal) = .next t) (h : s.engine.creditLaw)
    (hf : (f s).engine.creditLaw) : t.engine.creditLaw := by
  cases hn
  unfold State.whenOn
  split
  · exact hf
  · exact h

theorem credit_of_withEngine {f : Engine → Engine}
    (hn : (Host.Outcome.next (s.withEngine f) : Host.Outcome State Fault Refusal) = .next t) (h : s.engine.creditLaw)
    (hf : (f s.engine).creditLaw) : t.engine.creditLaw := credit_of_whenOn hn h hf

theorem credit_of_jobStep {n : Nat} {j : Job} {f : Engine → Engine}
    (hn : (Host.Outcome.next (s.withEngine fun e => e.jobStep n j f) : Host.Outcome State Fault Refusal) = .next t)
    (h : s.engine.creditLaw) (hf : (f s.engine).creditLaw) : t.engine.creditLaw :=
  credit_of_withEngine hn h (h.jobStep n j hf)

/-- Every command keeps the law. -/
theorem exec_keeps_credit {c : Instr} (hn : exec c s = .next t) (h : s.engine.creditLaw) : t.engine.creditLaw := by
  cases c with
  | start => exact credit_of_withEngine hn h h.start
  | stop => exact credit_of_withEngine hn h h.stop
  | parityError m => exact credit_of_withEngine hn h (h.halt m)
  | engineReset => exact credit_of_whenOn hn h (engineReset_keeps_credit s)
  | linkReset => exact credit_of_whenOn hn h (s.linkReset_engine ▸ mount_fresh_credit _ _)
  | coldReset => cases hn; exact s.coldReset_engine ▸ mount_fresh_credit _ _
  | powerLoss => cases hn; exact .of_fresh _ _
  | resetInputAsserted =>
    cases hn
    split
    · exact h
    · exact .of_fresh _ _
  | registerWrite offset width value => exact credit_of_whenOn hn h (writeRegister_keeps_credit h offset width value)
  | adminSizeWrite value => exact credit_of_withEngine hn h (h.writeAdminSize value).settle
  | post ring tail => exact credit_of_withEngine hn h (h.same (Engine.post_credits _ _ _)).settle
  | ack ring arm head => exact credit_of_withEngine hn h (h.ack _ _ _).settle
  | stateRead offset width => exact credit_of_withEngine hn h (h.same rfl)
  | descriptorFetchDone descriptor => exact credit_of_withEngine hn h (h.fetchEvent descriptor)
  | doneRecordWritten ring ok => exact credit_of_withEngine hn h (h.recordEvent ring ok)
  | noticeWriteDone ok => exact credit_of_withEngine hn h (h.noticeEvent ok)
  | put n => exact credit_of_jobStep hn h h.same
  | get n => exact credit_of_jobStep hn h h.same
  | probe n => exact credit_of_jobStep hn h h.same
  | delete n => exact credit_of_jobStep hn h h.same
  | matchValue n => exact credit_of_jobStep hn h h.same
  | scan n => exact credit_of_jobStep hn h h.same
  | openRing n => exact credit_of_jobStep hn h (h.openRingStep n)
  | closeRing n => exact credit_of_jobStep hn h h.same
  | setNotice n => exact credit_of_jobStep hn h h.same
  | setLimits n => exact credit_of_jobStep hn h h.same
  | queryEngine n => exact credit_of_jobStep hn h h.same
  | querySegment n => exact credit_of_jobStep hn h h.same
  | reclaim n => exact credit_of_jobStep hn h h.same
  | scrub n => exact credit_of_jobStep hn h h.same
  | format n => exact credit_of_jobStep hn h h.same
  | loadingDone n data => exact credit_of_withEngine hn h (h.loadEvent n data)
  | returningDone n ok => exact credit_of_withEngine hn h (h.returnEvent n _ ok fun _ k => k.getReturned_credits n ok)
  | scanBatchDone n ok => exact credit_of_withEngine hn h (h.returnEvent n _ ok fun i k => k.scanReturned_credits n ok i)
  | reportWriteDone n ok => exact credit_of_withEngine hn h (h.returnEvent n _ ok fun _ k => k.reportWritten_credits n ok)
  | spaceWaitExpiry n => exact credit_of_withEngine hn h (h.expireWait n)
  | quantumExpiry b => exact credit_of_withEngine hn h (h.same (s.engine.quantumEvent_credits b))
  | suspendReport b x => exact credit_of_whenOn hn h (suspendReported_keeps_credit h b x)
  | readDone b flips =>
    exact credit_of_whenOn hn h (onActive_keeps_credit h fun _ => h.opEnded b fun k => k.readReported_credits _ _)
  | blankCheckDone b disturbed =>
    exact credit_of_whenOn hn h (onActive_keeps_credit h fun _ => h.opEnded b fun k => k.blankAnswer_credits _ _)
  | programDone b pass => exact credit_of_whenOn hn h (onActive_keeps_credit h fun o => endProgram_keeps_credit h b o pass)
  | eraseDone b pass => exact credit_of_whenOn hn h (onActive_keeps_credit h fun o => endErase_keeps_credit h b o pass)
  | programTimeout b => exact credit_of_whenOn hn h (onActive_keeps_credit h fun o => endProgram_keeps_credit h b o false)
  | eraseTimeout b => exact credit_of_whenOn hn h (onActive_keeps_credit h fun o => endErase_keeps_credit h b o false)

theorem tick_keeps_credit (h : s.engine.creditLaw) : s.tick.engine.creditLaw := by
  unfold State.tick
  split
  · exact h
  · exact h

/-- Settles O10: whatever a command does, and whether or not one waits, every ring keeps the law of its credit. -/
theorem everyStepKeepsTheCreditLaw : Obligations.EveryStepKeepsTheCreditLaw := by
  intro s t hn h
  cases hp : s.pending with
  | nil =>
    cases (BankControllers.step_idle hp).symm.trans hn
    exact tick_keeps_credit h
  | cons c rest => exact exec_keeps_credit ((BankControllers.step_command hp).symm.trans hn) h

end RingUnit

end Sys2Proof.Machine
end

section
/-! PROOFS. The end of a step (chapters 3, 6, 8 and 9): what each block takes up, and that it takes up nothing where nothing
waits; the writes that are issued, and the test of quiescence. -/

namespace Sys2Proof.Machine.RingUnit

open Sys2Proof

/-! ### Blocks in which nothing waits -/

section Waiting

variable {e : Engine}

theorem discardNext_eq_none (h : ∀ g ∈ e.rings, g.discardNext = none) : e.discardNext = none := by
  refine List.findSome?_eq_none_iff.mpr fun p hp => ?_
  rw [h p.1 (List.fst_mem_of_mem_zipIdx hp)]
  rfl

theorem discardAll_of_none (h : e.discardNext = none) (n : Nat) : e.discardAll n = e := by
  cases n with
  | zero => rfl
  | succ n => simp only [Engine.discardAll, h]

theorem discardNext_of_not_faulted {g : RingContext} (h : g.state ≠ .faulted) : g.discardNext = none := by
  unfold RingContext.discardNext
  split
  · next hf => exact absurd hf h
  · rfl

theorem grantVictim_of_not_waiting (h : e.reclaim.state ≠ .grantWait) : e.grantVictim = e := by
  unfold Engine.grantVictim
  split
  · next hg _ => exact absurd hg h
  · rfl

theorem formatBegin_of_none (h : e.format = none) : e.formatBegin = e := by
  simp only [Engine.formatBegin, h]

theorem formatEnd_of_none (h : e.format = none) : e.formatEnd = e := by
  simp only [Engine.formatEnd, h]

theorem settleReleased_of_none (h : e.space.released = none) : e.settleReleased = e := by
  simp only [Engine.settleReleased, h]

theorem settlePinWait_of_nil (h : e.space.pinWait = []) : e.settlePinWait = e := by
  simp only [Engine.settlePinWait, h, List.filter_nil, List.foldl_nil]
  rw [← h]

theorem applySetters_of_nil (h : e.notices.setters = []) : e.applySetters = e := by
  simp only [Engine.applySetters, h, List.foldl_nil, ite_self]

theorem closeRing_of_none {r : Nat} (h : (e.ring r).closing = none) : e.closeRing r = e := by
  simp only [Engine.closeRing, h]

theorem ring_closing_of_all (h : ∀ g ∈ e.rings, g.closing = none) (r : Nat) : (e.ring r).closing = none := by
  cases hr : e.rings[r]? with
  | none => rw [Engine.ring_absent hr]; rfl
  | some g => rw [Engine.ring_of hr]; exact h g (List.mem_of_getElem? hr)

theorem closeRings_of_none (h : ∀ g ∈ e.rings, g.closing = none) : e.closeRings = e := by
  simp only [Engine.closeRings, List.foldl_cons, List.foldl_nil, closeRing_of_none (ring_closing_of_all h _)]

theorem makeChoice_of_not_due (h : e.reclaim.choiceDue = false) : e.makeChoice = e := by
  simp only [Engine.makeChoice, h, Bool.false_and, Bool.false_eq_true, if_false, Engine.setReclaim]
  rw [← h]

end Waiting

/-! ### The writes that are issued (R158, R165) -/

section Issued

variable {e : Engine}

/-- A ring that writes, with a record to write and none being written, and no other (R158). -/
theorem issueRecord_eq (g : RingContext) : g.issueRecord =
    if (g.state = .opened ∨ g.state = .draining) ∧ g.writing = false ∧ g.posting ≠ [] then { g with writing := true } else g := by
  have hw : g.state.writes = true ↔ g.state = .opened ∨ g.state = .draining := by
    cases g.state <;> simp [RingState.writes]
  simp only [RingContext.issueRecord, Bool.and_eq_true, hw, Bool.not_eq_true', List.isEmpty_eq_false_iff, and_assoc]

theorem issueRecord_of_idle {g : RingContext} (h : g.posting = [] ∨ g.writing = true ∨ g.state.writes = false) :
    g.issueRecord = g := by
  unfold RingContext.issueRecord
  rcases h with h | h | h <;> simp [h]

theorem issueRecords_of_idle (h : ∀ g ∈ e.rings, g.issueRecord = g) : e.issueRecords = e := by
  have hm : e.rings.map RingContext.issueRecord = e.rings := (List.map_congr_left h).trans (List.map_id' _)
  rw [Engine.issueRecords, hm]

/-- The write of the oldest notice is issued where the notice ring has credit and no write is in flight (R165). -/
theorem issueNotice_of_credit {g : NoticeRing} {x : Notice} {rest : List Notice} (hg : e.notices.ring = some g)
    (hq : e.notices.queue = x :: rest) (hw : e.notices.writing = false) (hc : g.unacked < g.size - 1) :
    e.issueNotice = { e with notices := { e.notices with
      queue := { x with overrun := x.overrun || e.notices.overrun } :: rest, overrun := false, writing := true } } := by
  simp only [Engine.issueNotice, hg, hq, hw, hc, Bool.not_false, decide_true, Bool.and_self, if_true]

theorem issueNotice_of_idle (h : e.notices.queue = [] ∨ e.notices.writing = true
    ∨ ∀ g, e.notices.ring = some g → g.size - 1 ≤ g.unacked) : e.issueNotice = e := by
  unfold Engine.issueNotice
  split
  · next g x rest hg hq =>
    rcases h with h | h | h
    · rw [h] at hq
      cases hq
    · simp [h]
    · rw [decide_eq_false (Nat.not_lt.mpr (h g hg)), Bool.and_false]
      exact if_neg Bool.false_ne_true
  · rfl

theorem issueFetch_of_fetching (h : e.arbiter.fetching ≠ none) : e.issueFetch = e := by
  unfold Engine.issueFetch
  split
  · next hf _ => exact absurd hf h
  · rfl

theorem issueFetch_of_chooseRing_none (h : e.chooseRing = none) : e.issueFetch = e := by
  unfold Engine.issueFetch
  split
  · next hr => rw [h] at hr; cases hr
  · rfl

theorem chooseRing_eq_none (h : ∀ r, e.eligible r = false) : e.chooseRing = none := by
  refine Option.eq_none_iff_forall_ne_some.mpr fun r hr => ?_
  have he := chooseRing_eligible hr
  rw [h r] at he
  cases he

end Issued

/-! ### Quiescence (R172) -/

theorem testQuiescence_of_quiescent {e : Engine} (hs : e.state = .stopping) (hq : e.quiescent = true) :
    e.testQuiescence = { e with control := { e.control with engine := .stopped } } := by
  simp only [Engine.testQuiescence, hs, hq, decide_true, Bool.and_self, if_true, Engine.setState]

theorem testQuiescence_of_not {e : Engine} (h : e.state ≠ .stopping ∨ e.quiescent = false) : e.testQuiescence = e := by
  rcases h with h | h <;> simp [Engine.testQuiescence, h]

/-! ### The end of a step -/

theorem settle_halted {e : Engine} (h : e.state = .halted) : e.settle = e.issueNotice := by
  simp only [Engine.settle, h]

theorem settle_running {e : Engine} (h : e.state ≠ .halted) :
    e.settle = e.settleBlocks.makeChoice.issueRecords.issueFetch.issueNotice.testQuiescence := by
  unfold Engine.settle
  split
  · next hs => exact absurd hs h
  · rfl

theorem settle_of_calm {e : Engine} (h : e.calm) : e.settle = e := by
  obtain ⟨hs, hrings, hgrant, hdue, hformat, hreleased, hpins, hsetters, hfetch, hnotice⟩ := h
  have hdiscard (n : Nat) : e.discardAll n = e :=
    discardAll_of_none (discardNext_eq_none fun g hg => discardNext_of_not_faulted (hrings g hg).1) n
  have hblocks : e.settleBlocks = e := by
    rw [Engine.settleBlocks, hdiscard, grantVictim_of_not_waiting hgrant, formatBegin_of_none hformat,
      settleReleased_of_none hreleased, settlePinWait_of_nil hpins, formatEnd_of_none hformat, applySetters_of_nil hsetters,
      closeRings_of_none fun g hg => (hrings g hg).2.1, hdiscard]
  have hissue : e.issueFetch = e := by
    rcases hfetch with hf | hf
    · exact issueFetch_of_fetching hf
    · exact issueFetch_of_chooseRing_none (chooseRing_eq_none hf)
  have hnote : e.issueNotice = e := by
    refine issueNotice_of_idle ?_
    rcases hnotice with hq | hr | hw
    · exact .inl hq
    · exact .inr (.inr fun g hg => nomatch hr.symm.trans hg)
    · exact .inr (.inl hw)
  have hne : e.state ≠ .halted ∧ e.state ≠ .stopping := by
    rcases hs with hs | hs | hs <;> simp [hs]
  rw [settle_running hne.1, hblocks, makeChoice_of_not_due hdue,
    issueRecords_of_idle fun g hg => issueRecord_of_idle (hrings g hg).2.2, hissue, hnote, testQuiescence_of_not (.inl hne.2)]

/-- Settles O14, block by block. -/
theorem aCalmEngineSettlesUnchanged : Obligations.ACalmEngineSettlesUnchanged := by
  refine ⟨fun e => settle_of_calm, fun e => settle_halted, ?_, ?_⟩
  · intro e k h hk
    rw [settle_running h, Engine.settleBlocks, hk]
  · rintro e _ rfl
    refine ⟨⟨_, rfl, List.length_map _, fun r g hg => ?_⟩, fun g x rest hg hq hw hc => issueNotice_of_credit hg hq hw hc,
      issueNotice_of_idle, testQuiescence_of_quiescent, testQuiescence_of_not⟩
    rw [List.getElem?_map, hg, Option.map_some, issueRecord_eq]

end Sys2Proof.Machine.RingUnit
end

section
/-! PROOFS. What the host does to the rings (chapter 8): the writes of ADMIN_SIZE, POST and ACK; and the admin jobs OPEN_RING,
CLOSE_RING and SET_NOTICE, with what they leave to the end of a step. -/

namespace Sys2Proof.Machine.RingUnit

open Sys2Proof

/-! ### The admin ring (R153) -/

theorem exec_adminSizeWrite {s : State} (h : s.supply = .on) (v : BitVec 32) :
    exec (.adminSizeWrite v) s = .next { s with engine := (s.engine.writeAdminSize v).settle } :=
  congrArg Host.Outcome.next (s.withEngine_on _ h)

/-- A size of the admin ring: a power of two from 16 to 256 (R150, R153). -/
theorem ringSizeHolds_admin_iff (v : BitVec 32) :
    ringSizeHolds 256 v.toNat = true ↔ v = 16 ∨ v = 32 ∨ v = 64 ∨ v = 128 ∨ v = 256 := by
  simp only [ringSizeHolds, Bool.and_eq_true, Bool.or_eq_true, decide_eq_true_eq, beq_iff_eq]
  bv_omega

theorem adminRing_of_holds {base size : Nat} (hs : ringSizeHolds 256 size = true) (hb : base % 64 = 0) : adminRing base size =
    { state := .opened, jobBase := base, doneBase := base + 64 * size, size := size } := by
  simp [adminRing, hs, hb]

theorem adminRing_of_not {base size : Nat} (h : ¬ (ringSizeHolds 256 size = true ∧ base % 64 = 0)) : adminRing base size = {} := by
  unfold adminRing
  rw [if_neg (by simpa using h)]

section AdminSize

variable {e : Engine} {g : RingContext} {rest : List RingContext}

theorem ring_zero_of (h : e.rings = g :: rest) : e.ring 0 = g := by
  rw [Engine.ring, h]
  rfl

theorem writeAdminSize_of_busy (h : e.rings = g :: rest) (hf : 0 < g.inFlight) (v : BitVec 32) : e.writeAdminSize v =
    { e with control := { e.control with sticky := { e.control.sticky with adminSetupError := true } } } := by
  unfold Engine.writeAdminSize
  rw [ring_zero_of h, if_pos hf]

theorem writeAdminSize_of_idle (h : e.rings = g :: rest) (hf : g.inFlight = 0) (v : BitVec 32) : e.writeAdminSize v =
    { e with registers := { e.registers with adminSize := v }, rings := adminRing e.registers.adminBase v.toNat :: rest } := by
  unfold Engine.writeAdminSize
  rw [ring_zero_of h, if_neg (by omega)]
  simp only [Engine.initAdminRing, Engine.modRing, h, updAt]
  rfl

end AdminSize

/-- Settles O23, by whether the admin ring holds a job in flight. -/
theorem adminSizeReinitialisesTheAdminRing : Obligations.AdminSizeReinitialisesTheAdminRing := by
  intro v s g rest hon hrings
  rw [exec_adminSizeWrite hon]
  refine ⟨fun hf => ?_, fun hf => ⟨s.engine.registers.adminBase, rfl, fun hv hb => ?_, fun hn => ?_⟩⟩
  · rw [writeAdminSize_of_busy hrings hf]
  · rw [writeAdminSize_of_idle hrings hf, adminRing_of_holds ((ringSizeHolds_admin_iff v).mpr hv) hb]
  · rw [writeAdminSize_of_idle hrings hf, adminRing_of_not (by rwa [ringSizeHolds_admin_iff])]

/-! ### POST and ACK (R154, R159, R160) -/

section PostAndAck

variable {e : Engine} {r : Nat}

theorem exec_post {s : State} (h : s.supply = .on) (r : BitVec 4) (t : BitVec 10) :
    exec (.post r t) s = .next { s with engine := (s.engine.post r.toNat t.toNat).settle } :=
  congrArg Host.Outcome.next (s.withEngine_on _ h)

theorem exec_ack {s : State} (h : s.supply = .on) (r : BitVec 4) (arm : Bool) (n : BitVec 10) :
    exec (.ack r arm n) s = .next { s with engine := (s.engine.ack r.toNat arm n.toNat).settle } :=
  congrArg Host.Outcome.next (s.withEngine_on _ h)

theorem post_of_open {g : RingContext} {t : Nat} (hg : e.rings[r]? = some g) (ho : g.state = .opened) (ht : t < g.size) :
    e.post r t = { e with rings := e.rings.set r { g with tail := t } } := by
  unfold Engine.post
  rw [Engine.ring_of hg, if_pos (by simp [ho, ht]), Engine.modRing_set hg]

/-- A POST to a ring that is not OPEN, or not there, or with a tail beyond its slots. -/
theorem post_of_not {t : Nat} (h : ∀ g, e.rings[r]? = some g → g.state ≠ .opened ∨ g.size ≤ t) : e.post r t = e.postError := by
  unfold Engine.post
  refine if_neg ?_
  cases hr : e.rings[r]? with
  | none => simp [Engine.ring_absent hr]
  | some g =>
    rw [Engine.ring_of hr]
    rcases h g hr with hs | hs <;> simp [hs]

theorem ackHolds_iff {size head unacked n : Nat} :
    ackHolds size head unacked n = true ↔ n < size ∧ (n + size - head) % size ≤ unacked := by
  simp [ackHolds]

theorem ackHolds_eq_false_iff {size head unacked n : Nat} :
    ackHolds size head unacked n = false ↔ size ≤ n ∨ unacked < (n + size - head) % size := by
  rw [← Bool.not_eq_true, ackHolds_iff]
  omega

/-- An ACK that arms sends the message at once when records lie beyond the new head (R160). -/
theorem sendMessage_if (e : Engine) (arm : Bool) (left vector : Nat) :
    (if (arm && decide (0 < left)) = true then e.sendMessage vector else e) =
      { e with output := if arm = true ∧ 0 < left then .interrupt vector :: e.output else e.output } := by
  simp only [Bool.and_eq_true, decide_eq_true_eq]
  split <;> rfl

/-- An ACK of written records moves the head of a job ring, and arms the ring or sends its message (R159, R160). -/
theorem ack_of_holds {g : RingContext} {n : Nat} (h8 : r ≠ 8) (hg : e.rings[r]? = some g) (hs : g.state ≠ .closed)
    (hn : ackHolds g.size g.head g.unacked n = true) (arm : Bool) {left : Nat}
    (hl : left = (g.doneIndex + g.size - n) % g.size) : e.ack r arm n = { e with
      rings := e.rings.set r { g with head := n, armed := if arm then left == 0 else g.armed }
      output := if arm = true ∧ 0 < left then .interrupt g.vector :: e.output else e.output } := by
  subst hl
  have hc : (g.state != .closed && ackHolds g.size g.head g.unacked n) = true := by simp [hs, hn]
  simp only [Engine.ack, if_neg h8, Engine.ring_of hg, if_pos hc, Engine.ackRing, sendMessage_if, Engine.modRing_set hg]
  rfl

theorem ack_of_not {n : Nat} (h8 : r ≠ 8) (h : ∀ g, e.rings[r]? = some g → g.state = .closed
    ∨ ackHolds g.size g.head g.unacked n = false) (arm : Bool) : e.ack r arm n = e.postError := by
  simp only [Engine.ack, if_neg h8]
  refine if_neg ?_
  cases hr : e.rings[r]? with
  | none => simp [Engine.ring_absent hr]
  | some g =>
    rw [Engine.ring_of hr]
    rcases h g hr with hs | hs <;> simp [hs]

/-- An ACK of written notice records moves the head of the notice ring (R159, R160, R164). -/
theorem ack_notice_of_holds {g : NoticeRing} {n : Nat} (hg : e.notices.ring = some g)
    (hn : ackHolds g.size g.head g.unacked n = true) (arm : Bool) {left : Nat}
    (hl : left = (g.writeIndex + g.size - n) % g.size) : e.ack 8 arm n = { e with
      notices := { e.notices with ring := some { g with head := n, armed := if arm then left == 0 else g.armed } }
      output := if arm = true ∧ 0 < left then .interrupt g.vector :: e.output else e.output } := by
  subst hl
  simp only [Engine.ack, if_true, hg, if_pos hn, Engine.ackNotice, sendMessage_if]
  rfl

theorem ack_notice_of_not {n : Nat} (h : ∀ g, e.notices.ring = some g → ackHolds g.size g.head g.unacked n = false)
    (arm : Bool) : e.ack 8 arm n = e.postError := by
  simp only [Engine.ack, if_true]
  cases hg : e.notices.ring with
  | none => rfl
  | some g => simp [h g hg]

end PostAndAck

/-- Settles O24, by the ring number and by whether the write is legal. -/
theorem aPostOrAckIsAppliedOrFlagged : Obligations.APostOrAckIsAppliedOrFlagged := by
  refine ⟨fun r t s hon => ?_, fun r arm n s hon hr => ?_, fun r arm n s hon => ?_⟩
  · rw [exec_post hon]
    refine ⟨fun g hg ho ht => ?_, fun h => ?_⟩
    · rw [post_of_open hg ho ht]
    · rw [post_of_not h]
      rfl
  · rw [exec_ack hon]
    have h8 : r.toNat ≠ 8 := by omega
    refine ⟨fun g hg hs hlt hle => ⟨_, rfl, ?_⟩, fun h => ?_⟩
    · rw [ack_of_holds h8 hg hs (ackHolds_iff.mpr ⟨hlt, hle⟩) arm rfl]
    · rw [ack_of_not h8 fun g hg => (h g hg).imp_right ackHolds_eq_false_iff.mpr]
      rfl
  · rw [exec_ack hon]
    refine ⟨fun g h8 hg hlt hle => ⟨_, rfl, ?_⟩, ?_⟩
    · rw [h8, ack_notice_of_holds hg (ackHolds_iff.mpr ⟨hlt, hle⟩) arm rfl]
    · rintro (⟨h8, hlen⟩ | ⟨h8, h⟩)
      · have hr : s.engine.rings[r.toNat]? = none := List.getElem?_eq_none (by omega)
        rw [ack_of_not (by omega) fun g hg => nomatch hr.symm.trans hg]
        rfl
      · rw [h8, ack_notice_of_not fun g hg => ackHolds_eq_false_iff.mpr (h g hg)]
        rfl

/-! ### OPEN_RING (R161) -/

/-- The outcome of an admin job that completes OK (R182). -/
theorem adminOutcome_ok (results : Results) :
    adminOutcome .ok results = { status := .ok, flags := { succeeded := true }, results := results } := rfl

/-- The outcome of an admin job that is refused (R182). -/
theorem adminOutcome_refused {st : Status} (h : st ≠ .ok) : adminOutcome st = { status := st } := by
  simp [adminOutcome, h]

/-- A size of a data ring or of the notice ring: a power of two from 16 to 1,024 (R150, R164). -/
theorem ringSizeHolds_data_iff (n : Nat) : ringSizeHolds 1024 n = true ↔ n ∈ [16, 32, 64, 128, 256, 512, 1024] := by
  simp only [ringSizeHolds, Bool.and_eq_true, Bool.or_eq_true, decide_eq_true_eq, beq_iff_eq, List.mem_cons,
    List.not_mem_nil, or_false]
  omega

section OpenRing

variable {e : Engine} {d : Descriptor}

theorem openRefusal_of_no_data_ring (h : d.ringNumber = 0 ∨ 7 < d.ringNumber) : e.openRefusal d = some .badParam := by
  unfold Engine.openRefusal
  rw [if_pos (by simpa using h)]

theorem openRefusal_of_busy (h1 : 1 ≤ d.ringNumber) (h7 : d.ringNumber ≤ 7)
    (h : (e.ring d.ringNumber).state ≠ .closed ∨ e.format ≠ none) : e.openRefusal d = some .busy := by
  unfold Engine.openRefusal
  rw [if_neg (by simp; omega), if_pos (by simpa [Engine.formatting, Option.isSome_iff_ne_none] using h)]

/-- Of a CLOSED data ring, with no FORMAT running, only the parameters can be refused. -/
theorem openRefusal_of_closed (h1 : 1 ≤ d.ringNumber) (h7 : d.ringNumber ≤ 7)
    (hs : (e.ring d.ringNumber).state = .closed) (hf : e.format = none) {ok : Bool}
    (hok : ok = true ↔ d.ringSize ∈ [16, 32, 64, 128, 256, 512, 1024] ∧ d.priority ≤ 3 ∧ d.vector ≤ 8 ∧ d.ringBase % 64 = 0
      ∧ d.doneBase % 64 = 0) : e.openRefusal d = if ok then none else some .badParam := by
  rw [← ringSizeHolds_data_iff] at hok
  have hbad : (!ringSizeHolds 1024 d.ringSize || 3 < d.priority || 8 < d.vector || d.ringBase % 64 != 0
      || d.doneBase % 64 != 0) = !ok := by
    rw [Bool.eq_iff_iff, Bool.not_eq_true', ← Bool.not_eq_true ok, hok]
    cases ringSizeHolds 1024 d.ringSize
    · simp
    · simp
      omega
  unfold Engine.openRefusal
  rw [if_neg (by simp; omega), if_neg (by simp [hs, Engine.formatting, hf]), hbad]
  cases ok <;> rfl

theorem openRingStep_of_refused {c : Nat} {x : JobContext} (hx : e.ctx c = x) {st : Status}
    (h : e.openRefusal x.descriptor = some st) (hst : st ≠ .ok) : e.openRingStep c = e.complete c { status := st } := by
  simp only [Engine.openRingStep, hx, h, Engine.answer, adminOutcome_refused hst]

/-- An OPEN_RING that is accepted opens its ring as the descriptor gives it. -/
theorem openRingStep_of_accepted {c : Nat} {x : JobContext} (hx : e.ctx c = x) (h : e.openRefusal x.descriptor = none)
    (hr : (Descriptor.ringNumber x.descriptor) < e.rings.length) : e.openRingStep c = Engine.complete { e with
      rings := e.rings.set (Descriptor.ringNumber x.descriptor)
        { state := .opened, jobBase := Descriptor.ringBase x.descriptor, doneBase := Descriptor.doneBase x.descriptor
          size := Descriptor.ringSize x.descriptor, priority := Descriptor.priority x.descriptor
          vector := Descriptor.vector x.descriptor, armed := Descriptor.armByte x.descriptor % 2 == 1 } } c
      { status := .ok, flags := { succeeded := true } } := by
  simp only [Engine.openRingStep, hx, h, Engine.answer, Engine.modRing_set (List.getElem?_eq_getElem hr), adminOutcome_ok]
  rfl

end OpenRing

/-! ### CLOSE_RING, and the end of a close (R51, R162) -/

section CloseRing

variable {e : Engine} {c r : Nat} {x : JobContext} {g : RingContext}

theorem closeRingStep_of_no_data_ring (hx : e.ctx c = x) (hr : r = Descriptor.ringNumber x.descriptor) (h : r = 0 ∨ 7 < r) :
    e.closeRingStep c = e.complete c { status := .badParam } := by
  subst hr
  simp only [Engine.closeRingStep, hx]
  rw [if_pos (by simpa using h), Engine.answer, adminOutcome_refused (by decide)]

theorem closeRingStep_of_closed (hx : e.ctx c = x) (hr : r = Descriptor.ringNumber x.descriptor) (h1 : 1 ≤ r) (h7 : r ≤ 7)
    (hg : e.rings[r]? = some g) (hs : g.state = .closed) :
    e.closeRingStep c = e.complete c { status := .ok, flags := { succeeded := true }, results := .close 0 } := by
  subst hr
  simp only [Engine.closeRingStep, hx, Engine.ring_of hg, hs]
  exact if_neg (by simp; omega)

theorem closeRingStep_of_busy (hx : e.ctx c = x) (hr : r = Descriptor.ringNumber x.descriptor) (h1 : 1 ≤ r) (h7 : r ≤ 7)
    (hg : e.rings[r]? = some g) (hs : g.state = .draining ∨ (g.state = .faulted ∧ g.closer ≠ none)) :
    e.closeRingStep c = e.complete c { status := .busy } := by
  subst hr
  rcases hs with hs | ⟨hs, hc⟩
  · simp only [Engine.closeRingStep, hx, Engine.ring_of hg, hs]
    exact if_neg (by simp; omega)
  · simp only [Engine.closeRingStep, hx, Engine.ring_of hg, hs, if_pos (Option.isSome_iff_ne_none.mpr hc)]
    exact if_neg (by simp; omega)

/-- The CLOSE_RING of an OPEN ring, or of a FAULTED one that no other waits on, waits. -/
theorem closeRingStep_of_waiting (hx : e.ctxs[c]? = some x) (hr : r = Descriptor.ringNumber x.descriptor) (h1 : 1 ≤ r)
    (h7 : r ≤ 7) (hg : e.rings[r]? = some g) (hs : g.state = .opened ∨ (g.state = .faulted ∧ g.closer = none)) :
    e.closeRingStep c = { e with
      rings := e.rings.set r
        { g with state := if g.state = RingState.opened then RingState.draining else g.state, closer := some c }
      ctxs := e.ctxs.set c { x with state := .media, ready := false } } := by
  have hw : e.waitInMedia c = { e with ctxs := e.ctxs.set c { x with state := .media, ready := false } } :=
    Engine.modCtx_set hx _
  have hg' : (e.waitInMedia c).rings[r]? = some g := hg
  subst hr
  rcases hs with hs | ⟨hs, hc⟩
  · simp only [Engine.closeRingStep, Engine.ctx_of hx, Engine.ring_of hg, Engine.modRing_set hg', hs, if_true]
    rw [if_neg (by simp; omega), hw]
  · simp only [Engine.closeRingStep, Engine.ctx_of hx, Engine.ring_of hg, Engine.modRing_set hg', hs, hc, Option.isSome_none,
      Bool.false_eq_true, if_false, reduceCtorEq]
    rw [if_neg (by simp; omega), hw]

/-- The CLOSE_RING a ring holds completes once the ring is DRAINING or FAULTED with nothing in flight. -/
theorem closing_eq (g : RingContext) :
    g.closing = if (g.state = .draining ∨ g.state = .faulted) ∧ g.inFlight = 0 then g.closer else none := by
  simp only [RingContext.closing, Bool.and_eq_true, Bool.or_eq_true, beq_iff_eq]

theorem closeRing_of_closing (hg : e.rings[r]? = some g) (hs : g.state = .draining ∨ g.state = .faulted) (hf : g.inFlight = 0)
    (hc : g.closer = some c) : e.closeRing r = Engine.complete { e with rings := e.rings.set r {} } c
      { status := .ok, flags := { succeeded := true }, results := .close ((g.tail + g.size - g.fetch) % g.size) } := by
  simp only [Engine.closeRing, Engine.ring_of hg, closing_eq, if_pos (And.intro hs hf), hc, Engine.modRing_set hg]
  rfl

theorem closeRing_of_not_closing (hg : e.rings[r]? = some g)
    (h : g.state = .closed ∨ g.state = .opened ∨ 0 < g.inFlight ∨ g.closer = none) : e.closeRing r = e := by
  refine closeRing_of_none ?_
  rw [Engine.ring_of hg, closing_eq]
  split
  · next hc =>
    obtain ⟨hs, hf⟩ := hc
    rcases h with h | h | h | h
    · simp [h] at hs
    · simp [h] at hs
    · omega
    · exact h
  · rfl

theorem closeRings_eq (e : Engine) : e.closeRings =
    ((((((e.closeRing 1).closeRing 2).closeRing 3).closeRing 4).closeRing 5).closeRing 6).closeRing 7 := by
  simp only [Engine.closeRings, List.foldl_cons, List.foldl_nil]

end CloseRing

theorem exec_openRing {s : State} {c : Nat} {x : JobContext} (h : s.jobAt c .openRing x) :
    exec (.openRing c) s = .next { s with engine := (s.engine.openRingStep c).settle } := congrArg Host.Outcome.next (h.step _)

theorem exec_closeRing {s : State} {c : Nat} {x : JobContext} (h : s.jobAt c .closeRing x) :
    exec (.closeRing c) s = .next { s with engine := (s.engine.closeRingStep c).settle } := congrArg Host.Outcome.next (h.step _)

/-- Settles O54, by the refusals of an OPEN_RING and by the state of the ring that a CLOSE_RING names. -/
theorem anOpenOrCloseRingFollowsItsState : Obligations.AnOpenOrCloseRingFollowsItsState := by
  refine ⟨fun s c x d hj hlen hd => ?_, fun s c r x hj hr => ?_, fun e r g hg => ⟨fun c => closeRing_of_closing hg,
    closeRing_of_not_closing hg, closeRings_eq e⟩⟩
  · subst hd
    rw [exec_openRing hj]
    refine ⟨fun h => ?_, fun h1 h7 => ⟨fun h => ?_, fun hs hf ok hok => ⟨fun hbad => ?_, fun hgood => ?_⟩⟩⟩
    · rw [openRingStep_of_refused hj.ctx (openRefusal_of_no_data_ring h) (by decide)]
    · rw [openRingStep_of_refused hj.ctx (openRefusal_of_busy h1 h7 h) (by decide)]
    · subst hbad
      rw [openRingStep_of_refused hj.ctx (openRefusal_of_closed h1 h7 hs hf hok) (by decide)]
    · subst hgood
      rw [openRingStep_of_accepted hj.ctx (openRefusal_of_closed h1 h7 hs hf hok)
        (hlen ▸ Nat.lt_succ_of_le h7)]
  · rw [exec_closeRing hj]
    refine ⟨fun h => ?_, fun g h1 h7 hg => ⟨fun hs => ?_, fun hs => ?_, fun hs => ?_⟩⟩
    · rw [closeRingStep_of_no_data_ring hj.ctx hr h]
    · rw [closeRingStep_of_closed hj.ctx hr h1 h7 hg hs]
    · rw [closeRingStep_of_busy hj.ctx hr h1 h7 hg hs]
    · rw [closeRingStep_of_waiting (DataJobs.jobAt_ctxs hj) hr h1 h7 hg hs]

/-! ### SET_NOTICE (R166) -/

/-- The parameters of a SET_NOTICE: a size of 0 or of a ring, a vector and a base. -/
theorem noticeHolds_iff (d : Descriptor) : noticeHolds d = true ↔
    d.ringSize ∈ [0, 16, 32, 64, 128, 256, 512, 1024] ∧ d.vector ≤ 8 ∧ d.ringBase % 64 = 0 := by
  have hs := ringSizeHolds_data_iff d.ringSize
  simp only [noticeHolds, Bool.and_eq_true, Bool.or_eq_true, beq_iff_eq, decide_eq_true_eq, hs, List.mem_cons, and_assoc]

section SetNotice

variable {e : Engine} {c : Nat} {x : JobContext}

theorem applySetter_eq (hx : e.ctx c = x) : e.applySetter c = Engine.complete { e with
    notices := { e.notices with
      setters := e.notices.setters.filter (· != c)
      ring := if Descriptor.ringSize x.descriptor = 0 then none
        else some { base := Descriptor.ringBase x.descriptor, size := Descriptor.ringSize x.descriptor
                    vector := Descriptor.vector x.descriptor, armed := Descriptor.armByte x.descriptor % 2 == 1 } }
    control := { e.control with sticky := { e.control.sticky with noticeFault := false } } } c
    { status := .ok, flags := { succeeded := true } } := by
  rw [Engine.applySetter, hx]
  rfl

theorem setNoticeStep_of_refused (hx : e.ctx c = x) (h : noticeHolds x.descriptor = false) :
    e.setNoticeStep c = e.complete c { status := .badParam } := by
  simp only [Engine.setNoticeStep, hx, h, Bool.not_false, if_true]
  rw [Engine.answer, adminOutcome_refused (by decide)]

theorem setNoticeStep_of_writing (hx : e.ctxs[c]? = some x) (h : noticeHolds x.descriptor = true) (hw : e.notices.writing = true) :
    e.setNoticeStep c = { e with
      ctxs := e.ctxs.set c { x with state := .media, ready := false }
      notices := { e.notices with setters := e.notices.setters ++ [c] } } := by
  simp only [Engine.setNoticeStep, Engine.ctx_of hx, h, hw, Bool.not_true, Bool.false_eq_true, if_false, if_true,
    Engine.waitInMedia, Engine.modCtx_set hx]

theorem setNoticeStep_of_idle (hx : e.ctx c = x) (h : noticeHolds x.descriptor = true) (hw : e.notices.writing = false) :
    e.setNoticeStep c = e.applySetter c := by
  simp only [Engine.setNoticeStep, hx, h, hw, Bool.not_true, Bool.false_eq_true, if_false]

end SetNotice

theorem exec_setNotice {s : State} {c : Nat} {x : JobContext} (h : s.jobAt c .setNotice x) :
    exec (.setNotice c) s = .next { s with engine := (s.engine.setNoticeStep c).settle } := congrArg Host.Outcome.next (h.step _)

/-- Settles O55, by the parameters of the job and by whether a notice write is in flight. -/
theorem aSetNoticeReplacesTheRing : Obligations.ASetNoticeReplacesTheRing := by
  refine ⟨fun s c x d ok hj hd hok => ?_, fun e c x d hx hd => ?_⟩
  · subst hd
    have hok : ok = noticeHolds x.descriptor := Bool.eq_iff_iff.mpr (hok.trans (noticeHolds_iff _).symm)
    subst hok
    rw [exec_setNotice hj]
    refine ⟨fun h => ?_, fun h hw => ?_, fun h hw => ?_⟩
    · rw [setNoticeStep_of_refused hj.ctx h]
    · rw [setNoticeStep_of_writing (DataJobs.jobAt_ctxs hj) h hw]
    · rw [setNoticeStep_of_idle hj.ctx h hw, applySetter_eq hj.ctx]
  · subst hd
    refine ⟨applySetter_eq (Engine.ctx_of hx), fun hw => ?_, fun hw => ?_⟩
    · rw [Engine.applySetters, if_pos hw]
    · rw [Engine.applySetters, if_neg (Bool.eq_false_iff.mp hw)]

end Sys2Proof.Machine.RingUnit
end

section
/-! PROOFS. The fetch arbiter (chapter 8, R156, and R24): which rings are eligible, which context a fetch is given, the level and
the turn of the ring that is chosen, and what its fetch changes. -/

namespace Sys2Proof.Machine.RingUnit

open Sys2Proof

/-! ### Contexts (R24) -/

section Contexts

variable {e : Engine} {r c : Nat}

theorem ctxFree_iff : e.ctxFree c = true ↔ (e.ctx c).state = .free ∧ (e.ctx c).held = false := by
  simp [Engine.ctxFree]

/-- The lowest-numbered FREE context of 1 to 31. -/
theorem lowestFree_iff : (List.range contextCount).find? (fun d => decide (1 ≤ d) && e.ctxFree d) = some c
    ↔ (c < 32 ∧ e.ctxFree c = true) ∧ 1 ≤ c ∧ ∀ d, 1 ≤ d → d < c → ¬ (d < 32 ∧ e.ctxFree d = true) := by
  rw [List.find?_range_eq_some]
  simp only [Bool.and_eq_true, decide_eq_true_eq, List.mem_range, Bool.not_eq_true', Bool.and_eq_false_imp,
    ← Bool.not_eq_true (e.ctxFree _)]
  constructor
  · rintro ⟨⟨h1, hc⟩, hlt, hd⟩
    exact ⟨⟨hlt, hc⟩, h1, fun d hd1 hdc ⟨_, hf⟩ => hd d hdc hd1 hf⟩
  · rintro ⟨⟨hlt, hc⟩, h1, hd⟩
    exact ⟨⟨h1, hc⟩, hlt, fun d hdc hd1 hf => hd d hd1 hdc ⟨Nat.lt_trans hdc hlt, hf⟩⟩

/-- The context of a fetch: ring 0's own, if it is FREE, and else the lowest-numbered FREE one of 1 to 31. -/
theorem contextFor_iff {free : Nat → Prop} (hfree : ∀ d, free d ↔ d < 32 ∧ (e.ctx d).state = .free ∧ (e.ctx d).held = false) :
    e.contextFor r = some c ↔ e.heldBy r < 16 ∧ free c
      ∧ ((r = 0 ∧ c = 0) ∨ (¬ (r = 0 ∧ free 0) ∧ 1 ≤ c ∧ ∀ d, 1 ≤ d → d < c → ¬ free d)) := by
  obtain rfl : free = fun d => d < 32 ∧ e.ctxFree d = true := funext fun d => propext (by rw [hfree, ctxFree_iff])
  unfold Engine.contextFor
  split
  · next h16 => exact ⟨nofun, fun h => absurd h.1 (Nat.not_lt.mpr h16)⟩
  next h16 =>
    have hheld : e.heldBy r < 16 := Nat.not_le.mp h16
    split
    · next h0 =>
      simp only [Bool.and_eq_true, decide_eq_true_eq] at h0
      obtain ⟨hr, h0⟩ := h0
      constructor
      · rintro h
        cases h
        exact ⟨hheld, ⟨Nat.zero_lt_succ _, h0⟩, .inl ⟨hr, rfl⟩⟩
      · rintro ⟨_, _, ⟨_, rfl⟩ | ⟨hn, _⟩⟩
        · rfl
        · exact absurd ⟨hr, Nat.zero_lt_succ _, h0⟩ hn
    · next h0 =>
      simp only [Bool.and_eq_true, decide_eq_true_eq, not_and] at h0
      rw [lowestFree_iff]
      constructor
      · rintro ⟨hc, h1, hd⟩
        exact ⟨hheld, hc, .inr ⟨fun ⟨hr, _, hf⟩ => h0 hr hf, h1, hd⟩⟩
      · rintro ⟨_, ⟨hlt, hc⟩, ⟨hr, rfl⟩ | ⟨_, h1, hd⟩⟩
        · exact absurd hc (h0 hr)
        · exact ⟨⟨hlt, hc⟩, h1, hd⟩

/-- What a fetch is given: a FREE context that no other fetch holds, and of a data ring never context 0. -/
theorem contextFor_spec (h : e.contextFor r = some c) : e.heldBy r < 16 ∧ (e.ctx c).state = .free ∧ (e.ctx c).held = false
    ∧ (r ≠ 0 → 1 ≤ c) := by
  obtain ⟨hheld, ⟨_, hs, hn⟩, hc⟩ := (contextFor_iff fun _ => Iff.rfl).mp h
  exact ⟨hheld, hs, hn, fun hr => hc.elim (fun h0 => absurd h0.1 hr) fun h1 => h1.2.1⟩

end Contexts

/-! ### Eligible rings (R155, R156) -/

section Eligible

variable {e : Engine} {r : Nat}

theorem stateAllows_iff : e.stateAllows r = true ↔ e.state = .running ∨ (e.state = .mounting ∧ r = 0) := by
  unfold Engine.stateAllows
  cases e.state <;> simp

theorem hasCredit_iff (g : RingContext) :
    g.hasCredit = true ↔ g.inFlight + (g.doneIndex + g.size - g.head) % g.size < g.size - 1 :=
  decide_eq_true_iff

/-- A ring that is eligible is one of the part's. -/
theorem ring_lt_of_eligible (h : e.eligible r = true) : r < e.rings.length := by
  refine Nat.not_le.mp fun hn => ?_
  have ho := (eligible_iff.mp h).1
  rw [Engine.ring_absent (List.getElem?_eq_none hn)] at ho
  cases ho

end Eligible

/-! ### The turn of a ring at its level (R156) -/

section Turns

/-- The place of a data ring in the order that begins after the ring served last. -/
def turn (last r : Nat) : Nat := (r + 6 - last) % 7

theorem turn_of_order {last i : Nat} (hl : last ≤ 7) (hi : i < 7) : turn last ((last + i) % 7 + 1) = i := by
  unfold turn
  omega

theorem order_of_turn {last r : Nat} (hl : last ≤ 7) (h1 : 1 ≤ r) (h7 : r ≤ 7) : (last + turn last r) % 7 + 1 = r := by
  unfold turn
  omega

theorem ringOrder_eq (last : Option Nat) : ringOrder last = (List.range 7).map fun i => (last.getD 0 + i) % 7 + 1 := rfl

/-- The first ring of a level's order that has a property: no data ring with the property has an earlier turn. -/
theorem find_ringOrder {p : Nat → Bool} {last : Option Nat} {r : Nat} (hl : last.getD 0 ≤ 7)
    (h : (ringOrder last).find? p = some r) {q : Nat} (h1 : 1 ≤ q) (h7 : q ≤ 7) (hq : p q = true) :
    turn (last.getD 0) r ≤ turn (last.getD 0) q := by
  rw [ringOrder_eq, List.find?_map, Option.map_eq_some_iff] at h
  obtain ⟨i, hi, rfl⟩ := h
  obtain ⟨_, hlt, hbefore⟩ := List.find?_range_eq_some.mp hi
  rw [turn_of_order hl (List.mem_range.mp hlt)]
  refine Nat.not_lt.mp fun hn => ?_
  have hb := hbefore _ hn
  rw [Function.comp_apply, order_of_turn hl h1 h7, hq] at hb
  cases hb

/-- A data ring with the property is found, or one before it. -/
theorem find_ringOrder_isSome {p : Nat → Bool} {last : Option Nat} (hl : last.getD 0 ≤ 7) {q : Nat} (h1 : 1 ≤ q) (h7 : q ≤ 7)
    (hq : p q = true) : ((ringOrder last).find? p).isSome = true := by
  rw [List.find?_isSome, ringOrder_eq]
  refine ⟨q, List.mem_map.mpr ⟨turn (last.getD 0) q, List.mem_range.mpr (Nat.mod_lt _ (by decide)), ?_⟩, hq⟩
  exact order_of_turn hl h1 h7

end Turns

/-! ### The ring that is chosen (R156) -/

section Chosen

variable {e : Engine} {r q : Nat}

/-- What the arbiter needs of the tables: 8 rings of levels 0 to 3, and data rings served last (R150). -/
structure Arbitrates (e : Engine) : Prop where
  shape : e.shape
  levels : ∀ g ∈ e.rings, g.priority ≤ 3
  served : ∀ l ∈ e.arbiter.served, ∀ r, l = some r → 1 ≤ r ∧ r ≤ 7

theorem Arbitrates.level_le (h : Arbitrates e) (r : Nat) : (e.ring r).priority ≤ 3 := by
  cases hr : e.rings[r]? with
  | none => rw [Engine.ring_absent hr]; exact Nat.zero_le _
  | some g => rw [Engine.ring_of hr]; exact h.levels g (List.mem_of_getElem? hr)

theorem Arbitrates.last_le (h : Arbitrates e) (level : Nat) : (e.arbiter.served.getD level none).getD 0 ≤ 7 := by
  rw [List.getD_eq_getElem?_getD]
  cases hl : e.arbiter.served[level]? with
  | none => exact Nat.zero_le _
  | some last =>
    cases last with
    | none => exact Nat.zero_le _
    | some r => exact (h.served _ (List.mem_of_getElem? hl) r rfl).2

/-- An eligible ring is one of 8. -/
theorem Arbitrates.ring_le (h : Arbitrates e) (hr : e.eligible r = true) : r ≤ 7 :=
  Nat.le_of_lt_succ (Nat.lt_of_lt_of_eq (ring_lt_of_eligible hr) h.shape.1)

theorem Arbitrates.chooseAtLevel_isSome (h : Arbitrates e) (hq : e.eligible q = true) (h1 : 1 ≤ q) :
    (e.chooseAtLevel (e.ring q).priority).isSome = true :=
  find_ringOrder_isSome (h.last_le _) h1 (h.ring_le hq) (by simp [hq])

/-- With ring 0 not eligible, an eligible ring of the lowest level is chosen, and of that level the one whose turn comes first. -/
theorem Arbitrates.chooseRing_first (h : Arbitrates e) (h0 : e.eligible 0 = false) (hr : e.chooseRing = some r)
    (hq : e.eligible q = true) : (e.ring r).priority ≤ (e.ring q).priority
      ∧ ((e.ring q).priority = (e.ring r).priority →
        turn ((e.arbiter.served.getD (e.ring r).priority none).getD 0) r
          ≤ turn ((e.arbiter.served.getD (e.ring r).priority none).getD 0) q) := by
  have h1 : 1 ≤ q := Nat.one_le_iff_ne_zero.mpr fun hz => by rw [hz, h0] at hq; cases hq
  rw [Engine.chooseRing, h0, if_neg Bool.false_ne_true, List.findSome?_eq_some_iff] at hr
  obtain ⟨before, level, after, hsplit, hlevel, hbefore⟩ := hr
  obtain ⟨_, hpri⟩ := chooseAtLevel_eligible hlevel
  subst hpri
  constructor
  · have hmem : (e.ring q).priority ∈ [0, 1, 2, 3] := by
      have := h.level_le q
      simp
      omega
    have hsorted : List.Pairwise (· < ·) [0, 1, 2, 3] := by decide
    rw [hsplit] at hmem hsorted
    rcases List.mem_append.mp hmem with hm | hm
    · have hnone := h.chooseAtLevel_isSome hq h1
      rw [hbefore _ hm] at hnone
      cases hnone
    · rcases List.mem_cons.mp hm with hm | hm
      · exact Nat.le_of_eq hm.symm
      · exact Nat.le_of_lt (List.rel_of_pairwise_cons (List.pairwise_append.mp hsorted).2.1 hm)
  · intro hsame
    exact find_ringOrder (h.last_le _) hlevel h1 (h.ring_le hq) (by simp [hq, hsame])

/-- A ring is chosen when one is eligible. -/
theorem Arbitrates.chooseRing_isSome (h : Arbitrates e) (hq : e.eligible q = true) : e.chooseRing.isSome = true := by
  unfold Engine.chooseRing
  split
  · rfl
  · next h0 =>
    have h1 : 1 ≤ q := Nat.one_le_iff_ne_zero.mpr fun hz => h0 (hz ▸ hq)
    rw [List.findSome?_isSome_iff]
    have := h.level_le q
    exact ⟨(e.ring q).priority, by simp; omega, h.chooseAtLevel_isSome hq h1⟩

end Chosen

/-! ### The fetch (R151, R156) -/

theorem updAt_const {α : Type} (l : List α) (i : Nat) (x : α) : updAt l i (fun _ => x) = l.set i x := by
  induction l generalizing i with
  | nil => rfl
  | cons a l ih =>
    cases i with
    | zero => rfl
    | succ i => simp [updAt, ih]

theorem issueFetch_eq {e : Engine} {r c : Nat} (hf : e.arbiter.fetching = none) (hr : e.chooseRing = some r)
    (hc : e.contextFor r = some c) : e.issueFetch = { e with
      rings := updAt e.rings r fun g => { g with inFlight := g.inFlight + 1 }
      ctxs := updAt e.ctxs c fun x => { x with held := true }
      arbiter := { fetching := some (r, c)
                   served := if r = 0 then e.arbiter.served else e.arbiter.served.set (e.ring r).priority (some r) }
      output := .fetch ((e.ring r).jobBase + 64 * (e.ring r).fetch) :: e.output } := by
  simp only [Engine.issueFetch, hf, hr, hc, Engine.noteServed]
  split
  · rfl
  · rw [updAt_const]
    rfl

/-- Settles O28, from the choice of the ring, that of the context, and the fetch they issue. -/
theorem theFetchArbiterChoosesInOrder : Obligations.TheFetchArbiterChoosesInOrder := by
  intro e hshape hfetch hlevels hserved
  have ha : Arbitrates e := ⟨hshape, hlevels, hserved⟩
  refine ⟨fun r => ?_, fun free r c => contextFor_iff, fun hn => issueFetch_of_chooseRing_none (chooseRing_eq_none hn), ?_⟩
  · rw [eligible_iff, hasCredit_iff, stateAllows_iff]
    rfl
  · rintro ⟨q, hq⟩
    obtain ⟨r, hr⟩ := Option.isSome_iff_exists.mp (ha.chooseRing_isSome hq)
    have her := chooseRing_eligible hr
    obtain ⟨_, _, _, hctx, _⟩ := eligible_iff.mp her
    obtain ⟨c, hc⟩ := Option.isSome_iff_exists.mp hctx
    obtain ⟨hheld, hfree, hnot, hc1⟩ := contextFor_spec hc
    refine ⟨r, c, her, hc, hfree, hnot, hc1, hheld, fun h0 => ?_, fun h0 k hk => ?_, issueFetch_eq hfetch hr hc⟩
    · rw [Engine.chooseRing, if_pos h0] at hr
      exact (Option.some.inj hr).symm
    · obtain ⟨hlevel, hturn⟩ := ha.chooseRing_first h0 hr hk
      refine ⟨hlevel, ?_⟩
      rintro hsame _ rfl
      exact hturn hsame

end Sys2Proof.Machine.RingUnit
end

section
/-! PROOFS. Layouts (chapter 11): the fields of bytes that are spelt piece by piece, least significant byte first (R192); then the
notices (chapter 8, R164 to R166, R195): how one is raised, the layout of its record, and the end of its write. -/

namespace Sys2Proof.Machine.RingUnit

open Sys2Proof

/-! ### Bytes and numbers (R192) -/

theorem length_le (k n : Nat) : (le k n).length = k := by
  induction k generalizing n with
  | zero => rfl
  | succ k ih => simp [le, ih]

theorem ofLe_le (k n : Nat) : ofLe (le k n) = n % 256 ^ k := by
  induction k generalizing n with
  | zero => simp [le, ofLe, Nat.mod_one]
  | succ k ih =>
    have hmul : n % 256 ^ (k + 1) = n % 256 + 256 * (n / 256 % 256 ^ k) := by rw [Nat.pow_succ', Nat.mod_mul]
    rw [le, ofLe, ih, hmul]
    rfl

theorem zeros_eq_le (k : Nat) : zeros k = le k 0 := by
  induction k with
  | zero => rfl
  | succ k ih => rw [zeros, List.replicate_succ, ← zeros, ih]; rfl

/-- The number in no bytes is 0, and the lowest byte of one in more is the byte at its place. -/
theorem field_zero (d : Descriptor) (o : Nat) : field d o 0 = 0 := by
  simp [field, ofLe]

theorem field_succ (d : Descriptor) (o k : Nat) : field d o (k + 1) = (d.getD o 0).toNat + 256 * field d (o + 1) k := by
  unfold field
  rw [← List.drop_drop, List.getD_eq_getElem?_getD, ← Nat.add_zero o, ← List.getElem?_drop]
  cases d.drop o with
  | nil => simp [ofLe]
  | cons b l => simp [ofLe]

theorem field_one (d : Descriptor) (o : Nat) : field d o 1 = (d.getD o 0).toNat := by
  rw [field_succ, field_zero, Nat.mul_zero, Nat.add_zero]

/-! ### Pieces and their places -/

/-- Bytes spelt piece by piece, each a number of so many bytes. -/
def spell (l : List (Nat × Nat)) : List Byte := l.flatMap fun p => le p.1 p.2

/-- The pieces with their places: the first byte, the size and the number of each. -/
def places : Nat → List (Nat × Nat) → List (Nat × Nat × Nat)
  | _, [] => []
  | o, (k, n) :: l => (o, k, n) :: places (o + k) l

theorem spell_cons (p : Nat × Nat) (l : List (Nat × Nat)) : spell (p :: l) = le p.1 p.2 ++ spell l := rfl

theorem length_spell (l : List (Nat × Nat)) : (spell l).length = (l.map (·.1)).sum := by
  induction l with
  | nil => rfl
  | cons p l ih => simp [spell_cons, length_le, ih]

/-- Every piece stands at its place. -/
theorem field_of_place {before : List Byte} {l : List (Nat × Nat)} {f : Nat × Nat × Nat} (h : f ∈ places before.length l) :
    field (before ++ spell l) f.1 f.2.1 = f.2.2 % 256 ^ f.2.1 := by
  induction l generalizing before with
  | nil => cases h
  | cons p l ih =>
    rcases List.mem_cons.mp h with rfl | h
    · rw [spell_cons, field, List.drop_left, List.take_left' (length_le _ _), ofLe_le]
    · rw [spell_cons, ← List.append_assoc]
      refine ih ?_
      rwa [List.length_append, length_le]

theorem places_append_left {f : Nat × Nat × Nat} {l : List (Nat × Nat)} (k : List (Nat × Nat)) {o : Nat} (h : f ∈ places o l) :
    f ∈ places o (l ++ k) := by
  induction l generalizing o with
  | nil => cases h
  | cons p l ih => exact List.mem_cons.mpr ((List.mem_cons.mp h).imp_right ih)

/-- A piece of the first of two parts stands at its place. -/
theorem field_of_head {f : Nat × Nat × Nat} {l : List (Nat × Nat)} (h : f ∈ places 0 l) (k : List (Nat × Nat)) :
    field (spell l ++ spell k) f.1 f.2.1 = f.2.2 % 256 ^ f.2.1 := by
  have hs : spell l ++ spell k = [] ++ spell (l ++ k) := List.flatMap_append.symm
  rw [hs]
  exact field_of_place (places_append_left k h)

/-- A byte in no piece but of the number 0 is 0. -/
theorem field_of_gap {before : List Byte} {l : List (Nat × Nat)} {i : Nat} (hi : before.length ≤ i)
    (h : ∀ f ∈ places before.length l, i < f.1 ∨ f.1 + f.2.1 ≤ i ∨ f.2.2 = 0) : field (before ++ spell l) i 1 = 0 := by
  induction l generalizing before with
  | nil =>
    rw [field_one, List.getD_eq_getElem?_getD, List.getElem?_eq_none (by simpa [spell] using hi)]
    rfl
  | cons p l ih =>
    rw [spell_cons]
    by_cases hlt : i < before.length + p.1
    · have hz : p.2 = 0 := by
        rcases h _ List.mem_cons_self with h | h | h
        · exact absurd hi (Nat.not_le.mpr h)
        · exact absurd hlt (Nat.not_lt.mpr h)
        · exact h
      rw [hz, ← zeros_eq_le, zeros, field_one, List.getD_eq_getElem?_getD, List.getElem?_append_right hi,
        List.getElem?_append_left (by rw [List.length_replicate]; omega), List.getElem?_replicate_of_lt (by omega)]
      rfl
    · rw [← List.append_assoc]
      have hlen : (before ++ le p.1 p.2).length = before.length + p.1 := by rw [List.length_append, length_le]
      exact ih (by omega) fun f hf => h f (List.mem_cons_of_mem _ (hlen ▸ hf))

/-- Fields that are the pieces but those of the number 0: each stands at its place, and every other byte is 0. -/
theorem fields_of_pieces {before : List Byte} {l : List (Nat × Nat)} {fields : List (Nat × Nat × Nat)}
    (h1 : ∀ f ∈ fields, f ∈ places before.length l) (h2 : ∀ f ∈ places before.length l, f ∈ fields ∨ f.2.2 = 0) :
    (∀ f ∈ fields, field (before ++ spell l) f.1 f.2.1 = f.2.2 % 256 ^ f.2.1)
      ∧ ∀ i, before.length ≤ i → (∀ f ∈ fields, i < f.1 ∨ f.1 + f.2.1 ≤ i) → field (before ++ spell l) i 1 = 0 := by
  refine ⟨fun f hf => field_of_place (h1 f hf), fun i hi hg => field_of_gap hi fun f hf => ?_⟩
  rcases h2 f hf with hm | hz
  · exact (hg f hm).imp_right .inl
  · exact .inr (.inr hz)

/-! ### The notice record (R195) -/

/-- The pieces of bytes 4 to 31 of a notice record. -/
def noticePieces : NoticeBody → List (Nat × Nat)
  | .spaceLow free low => [(2, free), (2, low), (24, 0)]
  | .spaceRestored free low => [(2, free), (2, low), (24, 0)]
  | .writeMode causes cause => [(1, causes.modeByte), (1, cause.code), (26, 0)]
  | .segmentRetired n cause count retired => [(2, n), (1, cause.code), (1, 0), (4, count), (2, retired), (18, 0)]
  | .dataLost key rseq before lostSeg lostCell markerSeg markerCell => [(8, key), (6, rseq), (1, before.code), (1, 0),
      (2, lostSeg), (2, lostCell), (2, markerSeg), (2, markerCell), (4, 0)]
  | .ringFaulted r cause slot => [(1, r), (1, cause.code), (2, slot), (24, 0)]
  | .formatDone erased retired free count causes ms => [(2, erased), (2, retired), (2, free), (2, count), (1, causes.modeByte),
      (3, 0), (4, ms), (12, 0)]
  | .halted cause => [(1, cause.code), (27, 0)]
  | .mountDone1 causes writeSeq segSeq values deleted lost estimated ms => [(1, 1), (1, causes.modeByte),
      (6, shownSequence writeSeqExhausted writeSeq), (4, shownSequence segSeqExhausted segSeq), (3, values), (3, deleted),
      (3, lost), (2, estimated), (4, ms), (1, 0)]
  | .mountDone2 free full dirty retired scanned torn resync damaged overflow => [(1, 2), (1, 0), (2, free), (2, full), (2, dirty),
      (2, retired), (3, scanned), (3, torn), (3, resync), (3, damaged), (3, overflow), (3, 0)]

theorem noticeBody_bytes (b : NoticeBody) : b.bytes = spell (noticePieces b) := by
  cases b <;> simp [NoticeBody.bytes, noticePieces, spell, zeros_eq_le]

/-- Bytes 0 to 3 of a notice record. -/
def noticeHead (n : Notice) (phase : Bool) : List (Nat × Nat) :=
  [(1, n.body.code), (1, bitAt 0 n.overrun + bitAt 7 phase), (2, n.number)]

theorem noticeRecord_eq (n : Notice) (phase : Bool) : n.record phase = spell (noticeHead n phase) ++ spell (noticePieces n.body) := by
  simp [Notice.record, noticeBody_bytes, noticeHead, spell]

theorem length_noticeHead (n : Notice) (phase : Bool) : (spell (noticeHead n phase)).length = 4 := length_spell _

theorem length_noticeRecord (n : Notice) (phase : Bool) : (n.record phase).length = 32 := by
  rw [noticeRecord_eq, List.length_append, length_noticeHead, length_spell]
  cases n.body <;> rfl

theorem bitAt_eq (i : Nat) (b : Bool) : bitAt i b = if b then 2 ^ i else 0 := rfl

theorem two_mul_bitAt (i : Nat) (b : Bool) : 2 * bitAt i b = bitAt (i + 1) b := by
  cases b with
  | false => rfl
  | true => exact Nat.pow_succ'.symm

/-- The write-mode byte: the mode in bit 0 and the causes above it (R192). -/
theorem modeByte_eq (c : ReadOnlyCauses) : c.modeByte = (if c.any then 1 else 0) + (if c.retiredLimit then 2 else 0)
    + (if c.indexOverflow then 4 else 0) + (if c.writeSequence then 8 else 0) + (if c.segmentSequence then 16 else 0) := by
  simp only [ReadOnlyCauses.modeByte, ReadOnlyCauses.bits, Nat.mul_add, two_mul_bitAt, ← Nat.add_assoc]
  rfl

theorem any_iff (c : ReadOnlyCauses) : c.any = true ↔
    c.retiredLimit = true ∨ c.indexOverflow = true ∨ c.writeSequence = true ∨ c.segmentSequence = true := by
  simp [ReadOnlyCauses.any, or_assoc]

/-- A field of the head stands at its place in the record. -/
theorem field_noticeHead {n : Notice} {phase : Bool} {f : Nat × Nat × Nat} (h : f ∈ places 0 (noticeHead n phase)) :
    field (n.record phase) f.1 f.2.1 = f.2.2 % 256 ^ f.2.1 := by
  rw [noticeRecord_eq]
  exact field_of_head h _

theorem noticeRecord_code (n : Notice) (phase : Bool) : field (n.record phase) 0 1 = n.body.code := by
  have h := field_noticeHead (n := n) (phase := phase) (f := (0, 1, n.body.code)) (by simp [noticeHead, places])
  rw [h]
  cases n.body <;> rfl

theorem noticeRecord_flags (n : Notice) (phase : Bool) :
    field (n.record phase) 1 1 = (if n.overrun then 1 else 0) + (if phase then 128 else 0) := by
  have h := field_noticeHead (n := n) (phase := phase) (f := (1, 1, bitAt 0 n.overrun + bitAt 7 phase))
    (by simp [noticeHead, places])
  rw [h, bitAt_eq, bitAt_eq]
  cases n.overrun <;> cases phase <;> rfl

theorem noticeRecord_number (n : Notice) (phase : Bool) : field (n.record phase) 2 2 = n.number % 2 ^ 16 :=
  field_noticeHead (f := (2, 2, n.number)) (by simp [noticeHead, places])

/-- Fields that are the pieces of the body but those of the number 0: each stands at its place, and every other byte of the
body is 0. -/
theorem noticeRecord_fields {n : Notice} {fields : List (Nat × Nat × Nat)} (phase : Bool)
    (h1 : ∀ f ∈ fields, f ∈ places 4 (noticePieces n.body))
    (h2 : ∀ f ∈ places 4 (noticePieces n.body), f ∈ fields ∨ f.2.2 = 0) :
    (∀ f ∈ fields, field (n.record phase) f.1 f.2.1 = f.2.2 % 256 ^ f.2.1)
      ∧ ∀ i, 4 ≤ i → i < 32 → (∀ f ∈ fields, i < f.1 ∨ f.1 + f.2.1 ≤ i) → field (n.record phase) i 1 = 0 := by
  rw [noticeRecord_eq]
  rw [← length_noticeHead n phase] at h1 h2
  obtain ⟨hplace, hgap⟩ := fields_of_pieces h1 h2
  exact ⟨hplace, fun i hi _ hg => hgap i (length_noticeHead n phase ▸ hi) hg⟩

theorem noticeRecord_layout {n : Notice} {kind : Nat} {fields : List (Nat × Nat × Nat)} (phase : Bool) (hk : kind = n.body.code)
    (h1 : ∀ f ∈ fields, f ∈ places 4 (noticePieces n.body))
    (h2 : ∀ f ∈ places 4 (noticePieces n.body), f ∈ fields ∨ f.2.2 = 0) :
    (n.record phase).length = 32 ∧ field (n.record phase) 0 1 = kind ∧ field (n.record phase) 2 2 = n.number % 2 ^ 16
      ∧ field (n.record phase) 1 1 = (if n.overrun then 1 else 0) + (if phase then 128 else 0)
      ∧ (∀ f ∈ fields, field (n.record phase) f.1 f.2.1 = f.2.2 % 256 ^ f.2.1)
      ∧ ∀ i, 4 ≤ i → i < 32 → (∀ f ∈ fields, i < f.1 ∨ f.1 + f.2.1 ≤ i) → field (n.record phase) i 1 = 0 :=
  ⟨length_noticeRecord n phase, hk ▸ noticeRecord_code n phase, noticeRecord_number n phase, noticeRecord_flags n phase,
    noticeRecord_fields phase h1 h2⟩

/-! ### A notice is raised, and written (R164 to R166) -/

theorem raise_of_room {n : NoticeUnit} (body : NoticeBody) (h : n.queue.length < 16) : n.raise body = { n with
    number := (n.number + 1) % 2 ^ 16, queue := n.queue ++ [{ number := n.number, body := body }] } := if_pos h

theorem raise_of_full {n : NoticeUnit} (body : NoticeBody) (h : 16 ≤ n.queue.length) : n.raise body = { n with
    number := (n.number + 1) % 2 ^ 16, overrun := true } := if_neg (Nat.not_lt.mpr h)

theorem noticeWritten_eq (e : Engine) (g : NoticeRing) (n : Notice) (rest : List Notice) : e.noticeWritten g n rest = { e with
    notices := { e.notices with
      queue := rest, writing := false
      ring := some { g with
        writeIndex := if g.writeIndex + 1 = g.size then 0 else g.writeIndex + 1
        phase := if g.writeIndex + 1 = g.size then !g.phase else g.phase, armed := false } }
    output := (if g.armed then [HostOutput.interrupt g.vector] else [])
      ++ HostOutput.memory (g.base + 32 * g.writeIndex) (n.record g.phase) :: e.output } := by
  unfold Engine.noticeWritten
  cases g.armed <;> rfl

theorem noticeEvent_of_writing {e : Engine} {g : NoticeRing} {n : Notice} {rest : List Notice} (ok : Bool)
    (hw : e.notices.writing = true) (hg : e.notices.ring = some g) (hq : e.notices.queue = n :: rest) :
    e.noticeEvent ok = (if ok then e.noticeWritten g n rest else e.noticeFailed g n).settle := by
  rw [Engine.noticeEvent, if_pos hw, Engine.noticeDone, hg, hq]

theorem exec_noticeWriteDone {s : State} (ok : Bool) (h : s.supply = .on) :
    exec (.noticeWriteDone ok) s = .next { s with engine := s.engine.noticeEvent ok } :=
  congrArg Host.Outcome.next (s.withEngine_on _ h)

/-- Settles O31, by how the write ends, and kind by kind of notice. -/
theorem aWrittenNoticeLeavesTheQueue : Obligations.AWrittenNoticeLeavesTheQueue := by
  refine ⟨fun s g n rest hon hw hg hq => ⟨?_, ?_⟩, fun c => ⟨modeByte_eq c, any_iff c⟩, ?_, fun e n body =>
    ⟨rfl, raise_of_room body, raise_of_full body⟩⟩
  · rw [exec_noticeWriteDone true hon, noticeEvent_of_writing true hw hg hq, if_pos rfl, noticeWritten_eq]
  · rw [exec_noticeWriteDone false hon, noticeEvent_of_writing false hw hg hq, if_neg Bool.false_ne_true]
    rfl
  · rintro n phase _ kind fields rfl h
    obtain ⟨number, body, overrun⟩ := n
    cases body with
    | writeMode _ cause | segmentRetired _ cause | ringFaulted _ cause | halted cause =>
      obtain ⟨rfl, rfl⟩ := Prod.mk.inj h
      refine noticeRecord_layout phase rfl ?_ ?_ <;> cases cause <;>
        simp [noticePieces, places, ModeCause.code, RetireCause.code, FaultCause.code, HaltCause.code]
    | mountDone1 | mountDone2 | spaceLow | spaceRestored | dataLost | formatDone =>
      obtain ⟨rfl, rfl⟩ := Prod.mk.inj h
      refine noticeRecord_layout phase rfl ?_ ?_ <;> simp [noticePieces, places, shownSequence]

end Sys2Proof.Machine.RingUnit
end

section
/-! PROOFS. Done records (chapter 8, R158, R160, R163): the end of a record's write by how it ends, the context it frees and
the message it sends; the records that are discarded, and in which order; the layout of a record (R194). -/

namespace Sys2Proof.Machine.RingUnit

open Sys2Proof

/-! ### The end of a record's write (R158, R168) -/

section Written

variable {e : Engine} {r c : Nat} {g : RingContext} {x : JobContext} {rest : List Nat}

theorem recordWritten_eq (hg : e.rings[r]? = some g) (hx : e.ctxs[c]? = some x) (hp : g.posting = c :: rest) :
    e.recordWritten r c = (((({ e with
      rings := e.rings.set r { g with
        posting := rest, writing := false, inFlight := g.inFlight - 1
        doneIndex := if g.doneIndex + 1 = g.size then 0 else g.doneIndex + 1
        donePhase := if g.doneIndex + 1 = g.size then !g.donePhase else g.donePhase }
      output := .memory (g.doneBase + 32 * g.doneIndex) (x.doneRecord g.donePhase) :: e.output
      : Engine }.releaseLock c).chainWritten c).freeCtx c).signalRing r) := by
  have htail : g.posting.tail = rest := by rw [hp, List.tail_cons]
  simp only [Engine.recordWritten, Engine.ring_of hg, Engine.ctx_of hx]
  rw [Engine.modRing_set (e := e.emit _) hg, RingContext.recordWritten, htail]
  rfl

theorem recordFailed_eq (hg : e.rings[r]? = some g) (hx : e.ctxs[c]? = some x) :
    e.recordFailed r c = ({ e with
      rings := e.rings.set r { g with writing := false }
      output := .maybeMemory (g.doneBase + 32 * g.doneIndex) (x.doneRecord g.donePhase) :: e.output
      : Engine }.ringFault r .doneWriteError g.doneIndex).discard r c := by
  simp only [Engine.recordFailed, Engine.ring_of hg, Engine.ctx_of hx]
  rw [Engine.modRing_set (e := e.emit _) hg]
  rfl

theorem recordHalted_eq (hg : e.rings[r]? = some g) (hx : e.ctxs[c]? = some x) (ok : Bool) :
    e.recordHalted r c ok = { e with
      rings := e.rings.set r { g with writing := false }
      output := (if ok then HostOutput.memory (g.doneBase + 32 * g.doneIndex) (x.doneRecord g.donePhase)
        else .maybeMemory (g.doneBase + 32 * g.doneIndex) (x.doneRecord g.donePhase)) :: e.output } := by
  simp only [Engine.recordHalted, Engine.ring_of hg, Engine.ctx_of hx]
  rw [Engine.modRing_set (e := e.emit _) hg]
  rfl

variable (hg : e.rings[r]? = some g) (hw : g.writing = true) (hp : g.posting = c :: rest) (hf : 0 < g.inFlight)
include hg hw hp hf

theorem recordEvent_of_halted (hs : e.state = .halted) (ok : Bool) : e.recordEvent r ok = e.recordHalted r c ok := by
  obtain ⟨n, hn⟩ := Nat.exists_eq_succ_of_ne_zero (Nat.ne_of_gt hf)
  rw [Engine.recordEvent, Engine.ring_of hg, hw, hp, hn]
  simp only [hs]

theorem recordEvent_of_not_halted (hs : e.state ≠ .halted) (ok : Bool) :
    e.recordEvent r ok = (if ok then e.recordWritten r c else e.recordFailed r c).settle := by
  obtain ⟨n, hn⟩ := Nat.exists_eq_succ_of_ne_zero (Nat.ne_of_gt hf)
  rw [Engine.recordEvent, Engine.ring_of hg, hw, hp, hn]
  cases hst : e.state with
  | halted => exact absurd hst hs
  | _ => rfl

end Written

theorem exec_doneRecordWritten {s : State} (r : Nat) (ok : Bool) (h : s.supply = .on) :
    exec (.doneRecordWritten r ok) s = .next { s with engine := s.engine.recordEvent r ok } :=
  congrArg Host.Outcome.next (s.withEngine_on _ h)

/-! ### What a written record frees and signals (R25, R160, R188) -/

section Freed

variable {e : Engine} {r c : Nat} {g : RingContext} {x : JobContext}

theorem freeCtx_of_other (hx : e.ctxs[c]? = some x) (h : ∀ f, e.format = some f → f.ctx ≠ c) :
    e.freeCtx c = e.withCtx c { staging := x.staging } := by
  simp only [Engine.freeCtx]
  rw [Engine.modCtx_set hx]
  cases hf : e.format with
  | none => simp only [Engine.withCtx, hf]
  | some f => simp only [Engine.withCtx, hf, if_neg (h f hf)]

theorem freeCtx_of_format {f : FormatRun} (hx : e.ctxs[c]? = some x) (hf : e.format = some f) (h : f.ctx = c) :
    e.freeCtx c = { e.withCtx c { staging := x.staging } with
      format := none, reclaim := { e.reclaim with choiceDue := true } } := by
  simp only [Engine.freeCtx, hf, if_pos h]
  rw [Engine.modCtx_set hx]
  rfl

theorem signalRing_of_armed (hg : e.rings[r]? = some g) (ha : g.armed = true) (hs : g.state ≠ .faulted) :
    e.signalRing r = { e with rings := e.rings.set r { g with armed := false }, output := .interrupt g.vector :: e.output } := by
  have hc : (g.armed && g.state != .faulted) = true := Bool.and_eq_true_iff.mpr ⟨ha, bne_iff_ne.mpr hs⟩
  rw [Engine.signalRing, Engine.ring_of hg, if_pos hc, Engine.modRing_set (e := e.sendMessage _) hg]
  rfl

theorem signalRing_of_silent (hg : e.rings[r]? = some g) (h : g.armed = false ∨ g.state = .faulted) : e.signalRing r = e := by
  have hc : ¬ (g.armed && g.state != .faulted) = true := by
    rcases h with h | h <;> simp [h]
  rw [Engine.signalRing, Engine.ring_of hg, if_neg hc]

end Freed

/-! ### The records that are discarded (R52, R163) -/

section Discarded

variable {e : Engine} {r c : Nat} {g : RingContext}

theorem discard_eq (hg : e.rings[r]? = some g) (c : Nat) : e.discard r c = (Engine.releaseLock { e with
    rings := e.rings.set r { g with posting := g.posting.filter (· != c), inFlight := g.inFlight - 1 } } c).freeCtx c := by
  simp only [Engine.discard]
  rw [Engine.modRing_set hg]

theorem discardNext_of_faulted (h : g.state = .faulted) :
    g.discardNext = (if g.writing then g.posting.tail else g.posting).head? := by
  rw [RingContext.discardNext, h]
  cases g.writing <;> rfl

/-- A ring has none to discard unless it is FAULTED with a record that is not being written. -/
theorem ring_discardNext_eq_none (h : g.state = .faulted → (if g.writing then g.posting.tail else g.posting) = []) :
    g.discardNext = none := by
  by_cases hf : g.state = .faulted
  · rw [discardNext_of_faulted hf, h hf, List.head?_nil]
  · exact discardNext_of_not_faulted hf

/-- The lowest ring with a record to discard is chosen. -/
theorem discardNext_of_lowest (hg : e.rings[r]? = some g) (hc : g.discardNext = some c)
    (h : ∀ q k, q < r → e.rings[q]? = some k → k.discardNext = none) : e.discardNext = some (r, c) := by
  have hz : e.rings.zipIdx[r]? = some (g, r) := by rw [List.getElem?_zipIdx, hg, Nat.zero_add]; rfl
  obtain ⟨hlt, hat⟩ := List.getElem?_eq_some_iff.mp hz
  refine List.findSome?_eq_some_iff.mpr ⟨e.rings.zipIdx.take r, (g, r), e.rings.zipIdx.drop (r + 1), ?_, ?_, fun p hp => ?_⟩
  · rw [← hat, ← List.drop_eq_getElem_cons hlt, List.take_append_drop]
  · rw [hc]; rfl
  · obtain ⟨q, hq⟩ := List.mem_iff_getElem?.mp hp
    rw [List.getElem?_take] at hq
    split at hq
    · next hlt =>
      rw [List.getElem?_zipIdx] at hq
      obtain ⟨k, hk, rfl⟩ := Option.map_eq_some_iff.mp hq
      rw [h q k hlt hk]
      rfl
    · cases hq

theorem discardAll_of_some (n : Nat) (h : e.discardNext = some (r, c)) : e.discardAll (n + 1) = (e.discard r c).discardAll n := by
  simp only [Engine.discardAll, h]

theorem discardAll_of_lowest (n : Nat) {rest : List Nat} (hg : e.rings[r]? = some g) (hs : g.state = .faulted)
    (hp : (if g.writing then g.posting.tail else g.posting) = c :: rest)
    (h : ∀ q k, q < r → e.rings[q]? = some k → k.state = .faulted → (if k.writing then k.posting.tail else k.posting) = []) :
    e.discardAll (n + 1) = (e.discard r c).discardAll n := by
  have hc : g.discardNext = some c := by rw [discardNext_of_faulted hs, hp, List.head?_cons]
  exact discardAll_of_some n (discardNext_of_lowest hg hc fun q k hq hk => ring_discardNext_eq_none (h q k hq hk))

theorem discardAll_of_all (n : Nat) (h : ∀ (r : Nat) (g : RingContext), e.rings[r]? = some g → g.state = .faulted →
    (if g.writing then g.posting.tail else g.posting) = []) : e.discardAll n = e := by
  refine discardAll_of_none (discardNext_eq_none fun g hg => ?_) n
  obtain ⟨r, hr⟩ := List.mem_iff_getElem?.mp hg
  exact ring_discardNext_eq_none (h r g hr)

end Discarded

/-! ### The done record (R194) -/

/-- Bytes 0 to 15 of a done record. -/
def doneHead (x : JobContext) (phase : Bool) : List (Nat × Nat) :=
  [(8, field x.descriptor 8 8), (2, x.slot), (1, field x.descriptor 0 1), (1, x.outcome.status.code),
    (1, doneFlags x.outcome.flags phase), (1, x.outcome.kind.code), (2, 0)]

/-- The pieces of bytes 16 to 31 of a done record. -/
def resultPieces : Results → List (Nat × Nat)
  | .none => [(16, 0)]
  | .record rseq len => [(6, rseq), (2, 0), (4, len), (4, 0)]
  | .scan next count => [(8, next), (4, count), (4, 0)]
  | .close unfetched => [(4, unfetched), (12, 0)]
  | .limits l => [(2, l.lowWater), (2, l.threshold), (4, l.spaceWait), (4, l.eraseQuantum), (4, 0)]
  | .segment n => [(2, n), (14, 0)]
  | .reclaim victim ended cursor t => [(2, victim.getD 0xFFFF), (1, ended.code), (1, 0), (2, cursor), (2, t.copied),
      (2, t.markers), (2, t.dropped), (2, t.stalePassed), (2, t.resync)]
  | .scrub n ended maxBits walked records corrected uncorrectable => [(2, n), (1, ended.code), (1, maxBits), (2, walked),
      (2, records), (2, corrected), (2, uncorrectable), (4, 0)]
  | .format erased retired free count causes => [(2, erased), (2, retired), (2, free), (2, count), (1, causes.modeByte), (7, 0)]

theorem results_bytes (o : Results) : o.bytes = spell (resultPieces o) := by
  cases o <;> simp [Results.bytes, resultPieces, spell, zeros_eq_le]

theorem doneRecord_eq (x : JobContext) (phase : Bool) :
    x.doneRecord phase = spell (doneHead x phase) ++ spell (resultPieces x.outcome.results) := by
  simp [JobContext.doneRecord, results_bytes, doneHead, spell, field, zeros_eq_le]

theorem length_doneHead (x : JobContext) (phase : Bool) : (spell (doneHead x phase)).length = 16 := length_spell _

theorem length_doneRecord (x : JobContext) (phase : Bool) : (x.doneRecord phase).length = 32 := by
  rw [doneRecord_eq, List.length_append, length_doneHead, length_spell]
  cases x.outcome.results <;> rfl

/-- A field of the head stands at its place in the record. -/
theorem field_doneHead {x : JobContext} {phase : Bool} {f : Nat × Nat × Nat} (h : f ∈ places 0 (doneHead x phase)) :
    field (x.doneRecord phase) f.1 f.2.1 = f.2.2 % 256 ^ f.2.1 := by
  rw [doneRecord_eq]
  exact field_of_head h _

/-- Fields that are the pieces of the results but those of the number 0: each stands at its place, and every other byte of
the results is 0. -/
theorem doneRecord_fields {x : JobContext} {fields : List (Nat × Nat × Nat)} (phase : Bool)
    (h1 : ∀ f ∈ fields, f ∈ places 16 (resultPieces x.outcome.results))
    (h2 : ∀ f ∈ places 16 (resultPieces x.outcome.results), f ∈ fields ∨ f.2.2 = 0) :
    (∀ f ∈ fields, field (x.doneRecord phase) f.1 f.2.1 = f.2.2 % 256 ^ f.2.1)
      ∧ ∀ i, 16 ≤ i → i < 32 → (∀ f ∈ fields, i < f.1 ∨ f.1 + f.2.1 ≤ i) → field (x.doneRecord phase) i 1 = 0 := by
  rw [doneRecord_eq]
  rw [← length_doneHead x phase] at h1 h2
  obtain ⟨hplace, hgap⟩ := fields_of_pieces h1 h2
  exact ⟨hplace, fun i hi _ hg => hgap i (length_doneHead x phase ▸ hi) hg⟩

/-- Settles O30, from the end of the write, the context that it frees, the discards, and the pieces of a record. -/
theorem aWrittenRecordFreesItsContext : Obligations.AWrittenRecordFreesItsContext := by
  refine ⟨fun s r c g x rest hon hg hw hp hf hx => ⟨fun hs => ⟨?_, ?_⟩, fun hs => ⟨?_, ?_⟩⟩,
    fun e c x hx => ⟨freeCtx_of_other hx, fun f hf hc => freeCtx_of_format hx hf hc⟩,
    fun e r g hg => ⟨signalRing_of_armed hg, signalRing_of_silent hg, discard_eq hg,
      fun n c rest hs hp h => discardAll_of_lowest n hg hs hp h⟩,
    fun e n h => discardAll_of_all n h, ?_⟩
  · rw [exec_doneRecordWritten r true hon, recordEvent_of_not_halted hg hw hp hf hs, if_pos rfl, recordWritten_eq hg hx hp]
  · rw [exec_doneRecordWritten r false hon, recordEvent_of_not_halted hg hw hp hf hs, if_neg Bool.false_ne_true,
      recordFailed_eq hg hx]
  · rw [exec_doneRecordWritten r true hon, recordEvent_of_halted hg hw hp hf hs, recordHalted_eq hg hx, if_pos rfl]
  · rw [exec_doneRecordWritten r false hon, recordEvent_of_halted hg hw hp hf hs, recordHalted_eq hg hx,
      if_neg Bool.false_ne_true]
  · rintro x phase _ _ rfl rfl
    refine ⟨length_doneRecord x phase, ?_, by decide, by decide, fun results h => ?_⟩
    · exact fun f hf => field_doneHead hf
    · subst h
      refine doneRecord_fields phase ?_ ?_ <;> cases x.outcome.results with
        | reclaim _ ended | scrub _ ended => cases ended <;> simp [resultPieces, places, ReclaimEnd.code, ScrubEnd.code]
        | none | record | scan | close | limits | segment | format => simp [resultPieces, places]

end Sys2Proof.Machine.RingUnit
end

section
/-! PROOFS. The end of a descriptor fetch (chapter 2, R28, R46 to R49, R52; chapter 8, R157, R163): the descriptor that is
taken, dropped or lost, its fields and its checks, what a context does when its checks are made, and what a fault does. -/

namespace Sys2Proof.Machine.RingUnit

open Sys2Proof

/-! ### The end of the fetch (R157, R168) -/

section Fetched

variable {e : Engine} {r c : Nat} {g : RingContext} {x : JobContext} {d : List Byte}

theorem fitBytes_of_length {n : Nat} (h : d.length = n) : fitBytes n d = d := by
  rw [fitBytes, h, Nat.sub_self, zeros, List.replicate_zero, List.append_nil, ← h, List.take_length]

theorem fetchEnded_eq (hx : e.ctxs[c]? = some x) : e.fetchEnded c = { e with
    arbiter := { e.arbiter with fetching := none }, ctxs := e.ctxs.set c { x with held := false } } := by
  rw [Engine.fetchEnded, Engine.modCtx_set hx]

theorem fetchEnded_rings (hg : e.rings[r]? = some g) : (e.fetchEnded c).rings[r]? = some g := hg

theorem fetchEnded_ctxs (hx : e.ctxs[c]? = some x) : (e.fetchEnded c).ctxs[c]? = some { x with held := false } := by
  rw [fetchEnded_eq hx]
  exact set_there hx _

/-- A descriptor is taken: the ring's fetch index and chain state change, and the context makes its checks (R46). -/
theorem takeDescriptor_eq (hg : e.rings[r]? = some g) (hx : e.ctxs[c]? = some x) : e.takeDescriptor r c d =
    Engine.checked { e with
      rings := e.rings.set r { g with
        fetch := if g.fetch + 1 = g.size then 0 else g.fetch + 1
        chain := if r = 0 then g.chain else g.chain.taken (Descriptor.link d) c }
      ctxs := e.ctxs.set c (x.take r g.fetch g.chain d) } c := by
  simp only [Engine.takeDescriptor, Engine.ring_of hg]
  rw [Engine.modCtx_set (e := e.modRing r _) hx, Engine.modRing_set hg]
  rfl

theorem fetchEnded_takeDescriptor (hg : e.rings[r]? = some g) (hx : e.ctxs[c]? = some x) :
    (e.fetchEnded c).takeDescriptor r c d = Engine.checked { e with
      arbiter := { e.arbiter with fetching := none }
      rings := e.rings.set r { g with
        fetch := if g.fetch + 1 = g.size then 0 else g.fetch + 1
        chain := if r = 0 then g.chain else g.chain.taken (Descriptor.link d) c }
      ctxs := e.ctxs.set c (x.take r g.fetch g.chain d) } c := by
  rw [takeDescriptor_eq (fetchEnded_rings hg) (fetchEnded_ctxs hx), fetchEnded_eq hx]
  simp only [List.set_set]
  rfl

theorem fetchEnded_dropFetch (hg : e.rings[r]? = some g) (hx : e.ctxs[c]? = some x) :
    (e.fetchEnded c).dropFetch r = { e with
      arbiter := { e.arbiter with fetching := none }
      rings := e.rings.set r { g with inFlight := g.inFlight - 1 }
      ctxs := e.ctxs.set c { x with held := false } } := by
  rw [Engine.dropFetch, Engine.modRing_set (fetchEnded_rings hg), fetchEnded_eq hx]

/-- The context that takes a descriptor, from the position that its job has in a chain (R46). -/
theorem take_eq (x : JobContext) (r slot : Nat) (h : ChainState) (d : Descriptor) {p : Nat}
    (hp : p = if r = 0 then 0 else h.positionFor d.link) : x.take r slot h d =
      { state := .taken, ring := r, slot := slot, descriptor := d, staging := x.staging, position := p
        predecessor := if p = 0 then none else h.predecessor, verdict := checkDescriptor r p (r != 0 && h.linked) d } := by
  subst hp
  by_cases hr : r = 0
  · simp only [JobContext.take, if_pos hr, if_true]
  · simp only [JobContext.take, ChainState.predecessorFor, if_neg hr]

theorem taken_eq (r : Nat) (h : ChainState) (link : Bool) (c : Nat) {p : Nat} (hp : p = if r = 0 then 0 else h.positionFor link) :
    (if r = 0 then h else h.taken link c) = if r = 0 then h else { h with
      linked := link && p ≤ 16
      position := if p ≤ 16 then p else 0
      predecessor := if p = 0 then h.predecessor else some c } := by
  subst hp
  by_cases hr : r = 0
  · rw [if_pos hr, if_pos hr]
  · rw [if_neg hr, if_neg hr, if_neg hr, ChainState.taken]

theorem fetchDone_of_open (hg : e.rings[r]? = some g) (hs : g.state = .opened ∨ g.state = .draining) :
    e.fetchDone r c (some d) = (e.fetchEnded c).takeDescriptor r c (fitBytes 64 d) := by
  simp only [Engine.fetchDone, Engine.ring_of hg]
  rcases hs with hs | hs <;> rw [hs]

theorem fetchDone_of_faulted (hg : e.rings[r]? = some g) (hs : g.state = .faulted) :
    e.fetchDone r c (some d) = (e.fetchEnded c).dropFetch r := by
  simp only [Engine.fetchDone, Engine.ring_of hg, hs]

theorem fetchDone_of_failed (hg : e.rings[r]? = some g) :
    e.fetchDone r c none = ((e.fetchEnded c).dropFetch r).ringFault r .fetchError g.fetch := by
  simp only [Engine.fetchDone, Engine.ring_of hg]

variable (hf : e.arbiter.fetching = some (r, c))
include hf

theorem fetchEvent_of_halted (hs : e.state = .halted) (o : Option (List Byte)) :
    e.fetchEvent o = { e with arbiter := { e.arbiter with fetching := none } } := by
  simp only [Engine.fetchEvent, hf, hs]

theorem fetchEvent_of_not_halted (hs : e.state ≠ .halted) (o : Option (List Byte)) :
    e.fetchEvent o = (e.fetchDone r c o).settle := by
  rw [Engine.fetchEvent, hf]
  cases hst : e.state with
  | halted => exact absurd hst hs
  | _ => rfl

end Fetched

theorem exec_descriptorFetchDone {s : State} (o : Option (List Byte)) (h : s.supply = .on) :
    exec (.descriptorFetchDone o) s = .next { s with engine := s.engine.fetchEvent o } :=
  congrArg Host.Outcome.next (s.withEngine_on _ h)

/-! ### The descriptor and its checks (R28, R181, R193) -/

/-- The codes of the jobs (R193). -/
def jobCodes : List (Nat × Job) :=
  [(0x01, .put), (0x02, .get), (0x03, .probe), (0x04, .delete), (0x05, .matchValue), (0x06, .scan), (0x10, .openRing),
    (0x11, .closeRing), (0x12, .setNotice), (0x13, .setLimits), (0x14, .queryEngine), (0x15, .querySegment), (0x16, .reclaim),
    (0x17, .scrub), (0x18, .format)]

theorem lookup_cons_eq_ite {β : Type} (n a : Nat) (b : β) (l : List (Nat × β)) :
    List.lookup n ((a, b) :: l) = if n = a then some b else l.lookup n := by
  rw [List.lookup_cons]
  by_cases h : n = a
  · rw [if_pos h, beq_iff_eq.mpr h]
  · rw [if_neg h, beq_eq_false_iff_ne.mpr h]

/-- In a table in which no number stands twice, the look-up finds what the table holds. -/
theorem lookup_iff_mem {β : Type} {l : List (Nat × β)} (hl : (l.map (·.1)).Nodup) {n : Nat} {b : β} :
    l.lookup n = some b ↔ (n, b) ∈ l := by
  induction l with
  | nil => simp
  | cons p l ih =>
    obtain ⟨a, b'⟩ := p
    obtain ⟨ha, hl⟩ := List.nodup_cons.mp hl
    rw [lookup_cons_eq_ite, List.mem_cons, Prod.mk.injEq]
    by_cases h : n = a
    · have hno : (n, b) ∉ l := fun hm => ha (List.mem_map.mpr ⟨(n, b), hm, h⟩)
      rw [if_pos h, Option.some.injEq, eq_comm, and_iff_right h, or_iff_left hno]
    · rw [if_neg h, ih hl, or_iff_right fun hm => h hm.1]

theorem jobOfCode_eq_lookup (n : Nat) : jobOfCode n = jobCodes.lookup n := by
  simp only [jobOfCode, jobCodes, lookup_cons_eq_ite, List.lookup_nil]

theorem jobOfCode_iff {n : Nat} {j : Job} : jobOfCode n = some j ↔ (n, j) ∈ jobCodes := by
  rw [jobOfCode_eq_lookup, lookup_iff_mem (by decide)]

theorem isData_iff (j : Job) : j.isData = true ↔ j ∈ [Job.put, .get, .probe, .delete, .matchValue, .scan] := by
  cases j <;> decide

/-- The spans of bytes that a job's layout gives to fields: the first of each and the one after its last. -/
def jobSpans : Job → List (Nat × Nat)
  | .put => [(16, 36), (40, 46)]
  | .get | .matchValue | .scan => [(16, 36)]
  | .probe | .delete => [(16, 24)]
  | .openRing => [(16, 40)]
  | .closeRing => [(16, 17)]
  | .setNotice => [(18, 32)]
  | .setLimits => [(16, 28)]
  | .queryEngine => [(24, 32)]
  | .querySegment => [(20, 22), (24, 32)]
  | .reclaim | .scrub => [(20, 22)]
  | .format => []

theorem covered_eq_false_iff (j : Job) (i : Nat) : covered j.layout i = false ↔ ∀ u ∈ jobSpans j, i < u.1 ∨ u.2 ≤ i := by
  cases j <;> simp [covered, Job.layout, jobSpans] <;> omega

theorem tailReserved_iff (j : Job) (d : Descriptor) : tailReserved j.layout d = true ↔
    ∀ i, 16 ≤ i → i < 64 → (∀ u ∈ jobSpans j, i < u.1 ∨ u.2 ≤ i) → field d i 1 = 0 := by
  simp only [tailReserved, List.all_eq_true, List.mem_range, Bool.or_eq_true, beq_iff_eq, ← covered_eq_false_iff]
  constructor
  · intro h i hlo hhi hc
    obtain ⟨k, rfl⟩ := Nat.exists_eq_add_of_le hlo
    exact (h k (by omega)).resolve_left (by rw [hc]; exact Bool.false_ne_true)
  · intro h k hk
    cases hc : covered j.layout (16 + k) with
    | true => exact .inl rfl
    | false => exact .inr (h (16 + k) (by omega) (by omega) hc)

theorem commonReserved_iff (j : Job) (d : Descriptor) : commonReserved j d = true ↔
    field d 4 4 = 0 ∧ (j.isData = true → d.linkByte ≤ 1 ∧ d.condition ≤ 6)
      ∧ (j.isData = false → d.linkByte = 0 ∧ d.condition = 0) ∧ (j = .put → d.options ≤ 7) ∧ (j ≠ .put → d.options = 0)
      ∧ (j = .openRing ∨ j = .setNotice → d.armByte ≤ 1) ∧ (j = .put → d.ifRseq = false → d.expected = 0) := by
  cases j <;> simp [commonReserved, Job.isData, and_assoc, Decidable.or_iff_not_imp_left]

theorem fieldsHold_iff (j : Job) (d : Descriptor) (follower : Bool) : fieldsHold j d follower = true ↔
    field d 4 4 = 0 ∧ (j.isData = true → d.linkByte ≤ 1 ∧ d.condition ≤ 6)
      ∧ (j.isData = false → d.linkByte = 0 ∧ d.condition = 0) ∧ (j = .put → d.options ≤ 7) ∧ (j ≠ .put → d.options = 0)
      ∧ (j = .openRing ∨ j = .setNotice → d.armByte ≤ 1) ∧ (j = .put → d.ifRseq = false → d.expected = 0)
      ∧ ¬ (j = .put ∧ d.createOnly = true ∧ d.replaceOnly = true) ∧ (follower = true ∨ d.condition = 0)
      ∧ ∀ i, 16 ≤ i → i < 64 → (∀ u ∈ jobSpans j, i < u.1 ∨ u.2 ≤ i) → field d i 1 = 0 := by
  have hboth : ¬ (j = .put ∧ d.createOnly = true ∧ d.replaceOnly = true) ↔
      (!(j == .put && d.createOnly && d.replaceOnly)) = true := by
    rw [Bool.not_eq_true', ← Bool.not_eq_true]
    simp only [Bool.and_eq_true, beq_iff_eq, and_assoc]
  have hfirst : (follower = true ∨ d.condition = 0) ↔ (follower || d.condition == 0) = true := by simp
  rw [← tailReserved_iff, hboth, hfirst, fieldsHold, Bool.and_eq_true, Bool.and_eq_true, Bool.and_eq_true, commonReserved_iff]
  constructor
  · rintro ⟨⟨⟨⟨hreserved, hdata, hadmin, hput, hnoPut, harm, hexpected⟩, htail⟩, hnotBoth⟩, hstart⟩
    exact ⟨hreserved, hdata, hadmin, hput, hnoPut, harm, hexpected, hnotBoth, hstart, htail⟩
  · rintro ⟨hreserved, hdata, hadmin, hput, hnoPut, harm, hexpected, hnotBoth, hstart, htail⟩
    exact ⟨⟨⟨⟨hreserved, hdata, hadmin, hput, hnoPut, harm, hexpected⟩, htail⟩, hnotBoth⟩, hstart⟩

theorem lengthHolds_iff (j : Job) (d : Descriptor) : lengthHolds j d = true ↔
    (j = .put ∨ j = .matchValue → d.length ≤ 4032) ∧ (j = .scan → d.length % 16 = 0 ∧ d.length ≤ 65520) := by
  cases j <;> simp [lengthHolds]

theorem checkDescriptor_of_long {r p : Nat} {follower : Bool} {d : Descriptor} (h : 16 < p) :
    checkDescriptor r p follower d = some .badChain := if_pos h

theorem checkDescriptor_of_unknown {r p : Nat} {follower : Bool} {d : Descriptor} (h : p ≤ 16) (hj : d.job = none) :
    checkDescriptor r p follower d = some .badDescriptor := by
  rw [checkDescriptor, if_neg (Nat.not_lt.mpr h), hj]

/-- The checks of a known job, in order. -/
theorem checkDescriptor_of_job {r p : Nat} {follower : Bool} {d : Descriptor} {j : Job} (h : p ≤ 16) (hj : d.job = some j) :
    checkDescriptor r p follower d = if j.isData ≠ decide (r ≠ 0) then some .wrongRing
      else if fieldsHold j d follower = false then some .badDescriptor
      else if j.isData = true ∧ d.key = 0 then some .badKey
      else if lengthHolds j d = false then some .badLength else none := by
  rw [checkDescriptor, if_neg (Nat.not_lt.mpr h), hj]
  have hring : (r != 0) = decide (r ≠ 0) := (decide_not ..).symm
  have hkey : (!keyHolds j d) = true ↔ j.isData = true ∧ d.key = 0 := by simp [keyHolds]
  simp only [hring, bne_iff_ne, hkey, Bool.not_eq_true']

/-! ### When the checks are made (R48, R49) -/

section Checked

variable {e : Engine} {c : Nat} {x : JobContext} (hx : e.ctxs[c]? = some x)
include hx

theorem checked_of_predecessor {w : Nat} (hp : x.predecessor = some w) :
    e.checked c = e.withCtx c { x with state := .linkWait } := by
  simp only [Engine.checked, Engine.ctx_of hx, hp]
  rw [Engine.modCtx_set hx, Engine.withCtx, ← hp]

theorem checked_of_no_predecessor (hp : x.predecessor = none) : e.checked c = e.proceed c := by
  simp only [Engine.checked, Engine.ctx_of hx, hp]

end Checked

/-! ### A ring faults (R52, R163) -/

section Faulted

/-- A context whose job is completed with an outcome. -/
def completedWith (o : JobOutcome) (x : JobContext) : JobContext :=
  { x with state := .posting, ready := false, transfer := none, outcome := o }

theorem getElem?_foldl_updAt {α : Type} {f : α → α} {ws : List Nat} (hn : ws.Nodup) (l : List α) (i : Nat) :
    (ws.foldl (fun k c => updAt k c f) l)[i]? = if i ∈ ws then l[i]?.map f else l[i]? := by
  induction ws generalizing l with
  | nil => rfl
  | cons c ws ih =>
    obtain ⟨hc, hn⟩ := List.nodup_cons.mp hn
    rw [List.foldl_cons, ih hn, updAt_get]
    by_cases hi : i = c
    · subst hi
      rw [if_neg hc, if_pos rfl, if_pos List.mem_cons_self]
    · rw [if_neg hi]
      simp only [List.mem_cons, hi, false_or]

theorem ctx_ring_complete (e : Engine) (c k : Nat) (o : JobOutcome) : ((e.complete c o).ctx k).ring = (e.ctx k).ring := by
  have hk : (e.complete c o).ctx k = (updAt e.ctxs c (completedWith o)).getD k {} := rfl
  rw [hk, Engine.ctx, List.getD_eq_getElem?_getD, List.getD_eq_getElem?_getD, updAt_get]
  split
  · cases e.ctxs[k]? <;> rfl
  · rfl

theorem set_self {α : Type} {l : List α} {i : Nat} {x : α} (h : l[i]? = some x) : l.set i x = l := by
  obtain ⟨hi, rfl⟩ := List.getElem?_eq_some_iff.mp h
  exact List.set_getElem_self hi

/-- Jobs of one ring that are completed in turn with one outcome: each context once, and the ring's list grows by them. -/
theorem foldl_complete_eq {r : Nat} (o : JobOutcome) (ws : List Nat) {e : Engine} {g : RingContext}
    (hg : e.rings[r]? = some g) (h : ∀ c ∈ ws, (e.ctx c).ring = r) :
    ws.foldl (fun k c => k.complete c o) e = { e with
      ctxs := ws.foldl (fun l c => updAt l c (completedWith o)) e.ctxs
      rings := e.rings.set r { g with posting := g.posting ++ ws } } := by
  induction ws generalizing e g with
  | nil =>
    rw [List.foldl_nil, List.foldl_nil, List.append_nil, set_self hg]
  | cons c ws ih =>
    have hc : (e.ctx c).ring = r := h c List.mem_cons_self
    have hstep : e.complete c o = { e with
        ctxs := updAt e.ctxs c (completedWith o), rings := e.rings.set r { g with posting := g.posting ++ [c] } } := by
      rw [Engine.complete, hc, Engine.modRing_set (e := e.modCtx c _) hg]
      rfl
    have hrest : ∀ k ∈ ws, ((e.complete c o).ctx k).ring = r := fun k hk => by
      rw [ctx_ring_complete]
      exact h k (List.mem_cons_of_mem _ hk)
    rw [List.foldl_cons, ih (e := e.complete c o) (by rw [hstep]; exact set_there hg _) hrest, hstep]
    simp only [List.set_set, List.append_assoc, List.singleton_append, List.foldl_cons]

theorem linkWaiters_eq (e : Engine) (r : Nat) : e.linkWaiters r =
    (List.range e.ctxs.length).filter fun c => (e.ctx c).state == .linkWait && (e.ctx c).ring == r := by
  have hz : e.ctxs.zipIdx = (List.range e.ctxs.length).map fun c => (e.ctx c, c) := by
    refine List.ext_getElem? fun i => ?_
    rw [List.getElem?_zipIdx, List.getElem?_map, Nat.zero_add]
    cases hi : e.ctxs[i]? with
    | none => rw [List.getElem?_eq_none (by simpa using hi)]; rfl
    | some x =>
      have hlt : i < e.ctxs.length := (List.getElem?_eq_some_iff.mp hi).1
      rw [List.getElem?_range hlt, Option.map_some, Option.map_some, Engine.ctx_of hi]
  rw [Engine.linkWaiters, hz, List.filter_map, List.map_map]
  exact List.map_id _



theorem mem_linkWaiters {e : Engine} {r c : Nat} : c ∈ e.linkWaiters r ↔
    c < e.ctxs.length ∧ (e.ctx c).state = .linkWait ∧ (e.ctx c).ring = r := by
  rw [linkWaiters_eq, List.mem_filter, List.mem_range, Bool.and_eq_true, beq_iff_eq, beq_iff_eq]

theorem nodup_linkWaiters (e : Engine) (r : Nat) : (e.linkWaiters r).Nodup := by
  rw [linkWaiters_eq]
  exact List.nodup_range.filter _

/-- To complete the jobs of a ring in LINK_WAIT is to change every context in that state of that ring. -/
theorem foldl_linkWaiters_eq_map (e : Engine) (r : Nat) (f : JobContext → JobContext) :
    (e.linkWaiters r).foldl (fun l c => updAt l c f) e.ctxs
      = e.ctxs.map fun x => if x.state = .linkWait ∧ x.ring = r then f x else x := by
  refine List.ext_getElem? fun i => ?_
  rw [getElem?_foldl_updAt (nodup_linkWaiters e r), List.getElem?_map]
  cases hi : e.ctxs[i]? with
  | none => rw [Option.map_none, Option.map_none, ite_self]
  | some x =>
    have hlt : i < e.ctxs.length := (List.getElem?_eq_some_iff.mp hi).1
    simp only [mem_linkWaiters, Engine.ctx_of hi, hlt, true_and, Option.map_some]
    split <;> rfl

variable {e : Engine} {r : Nat} {g : RingContext} (hg : e.rings[r]? = some g)
include hg

theorem ringFault_of_faulted (hs : g.state = .faulted) (cause : FaultCause) (slot : Nat) : e.ringFault r cause slot = e := by
  rw [Engine.ringFault, Engine.ring_of hg, if_pos hs]

theorem ringFault_of_not_faulted (hs : g.state ≠ .faulted) (cause : FaultCause) (slot : Nat) :
    e.ringFault r cause slot = { e with
      rings := e.rings.set r { g with state := .faulted, chain := {}, posting := g.posting ++ e.linkWaiters r }
      ctxs := e.ctxs.map fun x =>
        if x.state = .linkWait ∧ x.ring = r then completedWith { status := .skipped } x else x
      notices := e.notices.raise (.ringFaulted r cause slot) } := by
  have hfold := foldl_complete_eq (e := e.modRing r fun g => { g with state := .faulted, chain := {} })
    { status := .skipped } (e.linkWaiters r) (by rw [Engine.modRing_set hg]; exact set_there hg _)
    fun c hc => (mem_linkWaiters.mp hc).2.2
  simp only [Engine.ringFault, Engine.ring_of hg, if_neg hs, hfold]
  rw [Engine.modRing_set hg]
  simp only [List.set_set, foldl_linkWaiters_eq_map, Engine.raiseNotice]

end Faulted

/-- Settles O29, from the end of the fetch, the fields and the checks of a descriptor, what follows the checks, and the
fault. -/
theorem aFetchedDescriptorIsTaken : Obligations.AFetchedDescriptorIsTaken := by
  refine ⟨fun d o k => ⟨field_zero d o, field_succ d o k⟩, fun s r c g x d hon hf hg hx hd =>
    ⟨fun hs o => ?_, fun hs ho => ?_, fun hs ho => ?_, fun hs => ?_⟩,
    fun d => ⟨rfl, rfl, rfl, rfl, rfl, rfl, rfl, rfl, rfl, rfl, rfl, rfl, rfl, rfl, rfl, rfl, rfl, rfl, rfl, rfl, rfl, rfl, rfl,
      rfl, fun j => jobOfCode_iff⟩,
    fun r p follower d => ⟨checkDescriptor_of_long, checkDescriptor_of_unknown,
      fun j data fields length hp hj hdata hfields hlength => ?_⟩,
    fun e c x hx => ⟨fun w hw => checked_of_predecessor hx hw, fun hp =>
      ⟨fun st hv => (checked_of_no_predecessor hx hp).trans (DataJobs.proceed_verdict hx hv),
        fun hv passes flags hflags hpasses => ?_⟩⟩,
    fun e r slot g cause hg => ⟨fun hs => ringFault_of_faulted hg hs cause slot, fun hs => ?_⟩⟩
  · rw [exec_descriptorFetchDone o hon, fetchEvent_of_halted hf hs]
  · refine ⟨if r = 0 then 0 else g.chain.positionFor (Descriptor.link d), _, _, _, rfl, rfl, rfl, rfl, ?_⟩
    rw [exec_descriptorFetchDone _ hon, fetchEvent_of_not_halted hf hs, fetchDone_of_open hg ho, fitBytes_of_length hd,
      fetchEnded_takeDescriptor hg hx, take_eq x r g.fetch g.chain d rfl, taken_eq r g.chain _ c rfl]
  · rw [exec_descriptorFetchDone _ hon, fetchEvent_of_not_halted hf hs, fetchDone_of_faulted hg ho,
      fetchEnded_dropFetch hg hx]
  · rw [exec_descriptorFetchDone _ hon, fetchEvent_of_not_halted hf hs, fetchDone_of_failed hg, fetchEnded_dropFetch hg hx]
  · have hdata : data = j.isData := Bool.eq_iff_iff.mpr (hdata.trans (isData_iff j).symm)
    subst hdata
    have hfields : fields = fieldsHold j d follower := Bool.eq_iff_iff.mpr (hfields.trans (fieldsHold_iff j d follower).symm)
    have hlength : length = lengthHolds j d := Bool.eq_iff_iff.mpr (hlength.trans (lengthHolds_iff j d).symm)
    rw [hfields, hlength]
    exact checkDescriptor_of_job hp hj
  · subst hflags
    have hrun : passes = DataJobs.mayRun x (e.ring x.ring).chain.flags := by
      rw [hpasses, DataJobs.mayRun, conditionPasses]
      congr 1
      split <;> simp_all
    rw [checked_of_no_predecessor hx hp]
    exact ⟨fun ht => DataJobs.proceed_runs hx hv (hrun.symm.trans ht),
      fun ht => DataJobs.proceed_skips hx hv (hrun.symm.trans ht)⟩
  · rw [ringFault_of_not_faulted hg hs, linkWaiters_eq]
    rfl

end Sys2Proof.Machine.RingUnit
end

section
/-! PROOFS. Engine Control (chapter 9) in HALTED: what the engine holds there, and that no command but a reset changes it. -/

-- The rules are many and small: elaborated side by side they ask for more threads than there are.
set_option Elab.async false

namespace Sys2Proof.Machine.EngineControl

open Sys2Proof

/-! ### What is held in HALTED (R23, R50, R74, R128, R149, R176) -/

/-- The engine `e` holds what `a` held: the index, the segments, reclamation, the mount, a FORMAT, the state, the causes and the
limits, and every job context but for the note of its transfer. -/
structure Holds (a e : Engine) : Prop where
  state : e.state = a.state := by rfl
  index : e.index = a.index := by rfl
  space : e.space = a.space := by rfl
  reclaim : e.reclaim = a.reclaim := by rfl
  mount : e.mount = a.mount := by rfl
  format : e.format = a.format := by rfl
  causes : e.control.causes = a.control.causes := by rfl
  limits : e.control.limits = a.control.limits := by rfl
  halt : e.control.halt = a.control.halt := by rfl
  ctxs : ∀ c : Nat, { e.ctx c with transfer := none } = { a.ctx c with transfer := none } := by exact fun _ => rfl

namespace Holds

variable {a b e : Engine}

theorem trans (h : Holds a b) (k : Holds b e) : Holds a e where
  state := k.state.trans h.state
  index := k.index.trans h.index
  space := k.space.trans h.space
  reclaim := k.reclaim.trans h.reclaim
  mount := k.mount.trans h.mount
  format := k.format.trans h.format
  causes := k.causes.trans h.causes
  limits := k.limits.trans h.limits
  halt := k.halt.trans h.halt
  ctxs c := (k.ctxs c).trans (h.ctxs c)

theorem issueNotice (e : Engine) : Holds e e.issueNotice := by
  unfold Engine.issueNotice
  split
  · split <;> exact {}
  · exact {}

/-- In HALTED the end of a step issues a notice write alone (R168). -/
theorem settle (h : Holds a e) (ha : a.state = .halted) : Holds a e.settle := by
  rw [RingUnit.settle_halted (h.state.trans ha)]
  exact h.trans (issueNotice e)

/-! ### The Ring Unit and the window in HALTED (R168) -/

theorem writeAdminSize (e : Engine) (v : BitVec 32) : Holds e (e.writeAdminSize v) := by
  unfold Engine.writeAdminSize
  split <;> exact {}

theorem post (e : Engine) (r t : Nat) : Holds e (e.post r t) := by
  unfold Engine.post
  split <;> exact {}

theorem ack (e : Engine) (r : Nat) (arm : Bool) (n : Nat) : Holds e (e.ack r arm n) := by
  have hring : Holds e (e.ackRing r arm n) := by
    unfold Engine.ackRing
    dsimp only
    split <;> exact {}
  have hnotice (g : NoticeRing) : Holds e (e.ackNotice g arm n) := by
    unfold Engine.ackNotice
    dsimp only
    split <;> exact {}
  unfold Engine.ack
  dsimp only
  split
  · split
    · split
      · exact hnotice _
      · exact {}
    · exact {}
  · split
    · exact hring
    · exact {}

theorem writeBase (e : Engine) (offset : Nat) (v : BitVec 32) : Holds e (e.writeBase offset v) := by
  unfold Engine.writeBase
  split
  · exact {}
  · split <;> exact {}

theorem noticeDone (e : Engine) (ok : Bool) : Holds e (e.noticeDone ok) := by
  unfold Engine.noticeDone
  split
  · split
    · unfold Engine.noticeWritten
      dsimp only
      split <;> exact {}
    · exact {}
  · exact {}

/-- The note of a transfer is what the end of the transfer clears (assumption 25). -/
theorem transferEnded (e : Engine) (c : Nat) : Holds e (e.transferEnded c) where
  ctxs d := by
    by_cases hd : d = c
    · subst hd
      by_cases hl : d < e.ctxs.length
      · rw [Engine.transferEnded, Engine.modCtx_ctx_self e d _ hl]
      · rw [Engine.transferEnded, Engine.modCtx, updAt_absent (List.getElem?_eq_none (Nat.le_of_not_lt hl))]
    · rw [Engine.transferEnded, Engine.modCtx_ctx_ne e c d _ hd]

/-! ### Events in HALTED -/

section Halted

variable (h : e.state = .halted)
include h

theorem start : Holds e e.start := by
  rw [Engine.start, if_neg (by simp [h])]
  exact {}

theorem stop : Holds e e.stop := by
  rw [Engine.stop, if_neg (by simp [h])]
  exact {}

theorem parityError (m : ParityMemory) : Holds e (e.halt m) := by
  rw [Engine.halt, if_pos h]
  exact {}

theorem fetchEvent (d : Option (List Byte)) : Holds e (e.fetchEvent d) := by
  cases hf : e.arbiter.fetching with
  | none =>
    simp only [Engine.fetchEvent, hf]
    exact {}
  | some p =>
    simp only [Engine.fetchEvent, hf, h]
    exact {}

theorem recordEvent (r : Nat) (ok : Bool) : Holds e (e.recordEvent r ok) := by
  unfold Engine.recordEvent
  split
  · split
    · exact {}
    · next hn => exact absurd h hn
  · exact {}

theorem noticeEvent (ok : Bool) : Holds e (e.noticeEvent ok) := by
  unfold Engine.noticeEvent
  split
  · exact (noticeDone e ok).settle h
  · exact {}

/-- No job takes a step (R50). -/
theorem jobStep (c : Nat) (j : Job) (f : Engine → Engine) : Holds e (e.jobStep c j f) := by
  rw [Engine.jobStep, if_neg (by simp [Engine.jobReady, h])]
  exact {}

theorem afterTransfer (f : Engine → Engine) : e.afterTransfer f = e := by
  simp only [Engine.afterTransfer, h]

theorem loadEvent (c : Nat) (d : Option (List Byte)) : Holds e (e.loadEvent c d) := by
  unfold Engine.loadEvent
  split
  · rw [afterTransfer (e := e.transferEnded c) h]
    exact transferEnded e c
  · exact {}

theorem returnEvent (c : Nat) (mine : Job → Bool) (ok : Bool) (f : Nat → Engine → Engine) :
    Holds e (e.returnEvent c mine ok f) := by
  unfold Engine.returnEvent
  split
  · next address bytes _ _ _ _ =>
    split
    · rw [afterTransfer (e := e.sent c address bytes ok) h]
      exact (transferEnded e c).trans {}
    · exact {}
  · exact {}

/-- No deadline expires (R74). -/
theorem expireWait (c : Nat) : Holds e (e.expireWait c) := by
  rw [Engine.expireWait, if_neg (by simp [h])]
  exact {}

omit h in
theorem quantumEvent (b : Nat) : Holds e (e.quantumEvent b) := by
  unfold Engine.quantumEvent
  split <;> exact {}

/-- The end of an operation is not reported (R95). -/
theorem opEnded (b : Nat) (report : Engine → Engine) : Holds e (e.opEnded b report) := by
  rw [BankControllers.opEnded_halted h]
  exact settle {} h

theorem suspended (b : Nat) : Holds e (e.suspended b) := by
  simp only [Engine.suspended, h]
  exact settle {} h

end Halted

end Holds

/-! ### Commands in HALTED -/

section Commands

variable {s t : State} (h : s.engine.state = .halted)
include h

theorem endProgram_holds (b : Nat) (o : Operation) (pass : Bool) : Holds s.engine (s.endProgram b o pass).engine := by
  cases pass with
  | false =>
    rw [State.endProgram_failed]
    exact Holds.trans {} (.opEnded (e := s.engine.draw) h b _)
  | true =>
    rw [State.endProgram_passed]
    exact .opEnded h b _

theorem endErase_holds (b : Nat) (o : Operation) (pass : Bool) : Holds s.engine (s.endErase b o pass).engine := by
  cases pass with
  | false =>
    rw [State.endErase_failed]
    exact Holds.trans {} (.opEnded (e := s.engine.draw) h b _)
  | true =>
    rw [State.endErase_passed]
    exact .opEnded h b _

theorem suspendReported_holds (b : Nat) (x : SuspendOutcome) : Holds s.engine (s.suspendReported b x).engine := by
  have ho (o : Operation) (pass : Bool) : Holds s.engine (s.endOp b o pass).engine := by
    unfold State.endOp
    split
    · exact endErase_holds h b o pass
    · exact endProgram_holds h b o pass
  unfold State.suspendReported
  split
  · exact {}
  · split
    · exact .suspended h b
    · exact ho _ _
    · exact ho _ _

omit h in
theorem onActive_holds {b : Nat} {op : MediaOp} {f : Operation → State} (hf : ∀ o, Holds s.engine (f o).engine) :
    Holds s.engine (s.onActive b op f).engine := by
  obtain hs | ⟨o, -, hs⟩ := s.onActive_cases b op f
  · rw [hs]
    exact {}
  · rw [hs]
    exact hf o

theorem writeRegister_holds (offset width : Nat) (v : BitVec 32) (hr : ¬ (Instr.registerWrite offset width v).isReset) :
    Holds s.engine (s.writeRegister offset width v).engine := by
  unfold State.writeRegister
  split
  · exact {}
  next hw =>
    split
    · next ho =>
      unfold State.writeControl
      split
      · next hb => exact absurd (.inr (.inr (.inr (.inr (.inr ⟨ho, Decidable.not_not.mp hw, hb⟩))))) hr
      · split
        · exact .start h
        · exact .stop h
        · exact {}
    · split
      · exact (Holds.writeAdminSize _ _).settle h
      · split
        · exact (Holds.post _ _ _).settle h
        · split
          · exact (Holds.ack _ _ _ _).settle h
          · exact .writeBase _ _ _

omit h in
theorem holds_of_whenOn {f : State → State}
    (hn : (Host.Outcome.next (s.whenOn f) : Host.Outcome State Fault Refusal) = .next t)
    (hf : Holds s.engine (f s).engine) : Holds s.engine t.engine := by
  cases hn
  unfold State.whenOn
  split
  · exact hf
  · exact {}

omit h in
theorem holds_of_withEngine {f : Engine → Engine}
    (hn : (Host.Outcome.next (s.withEngine f) : Host.Outcome State Fault Refusal) = .next t)
    (hf : Holds s.engine (f s.engine)) : Holds s.engine t.engine := holds_of_whenOn hn hf

theorem holds_of_jobStep {n : Nat} {j : Job} {f : Engine → Engine}
    (hn : (Host.Outcome.next (s.withEngine fun e => e.jobStep n j f) : Host.Outcome State Fault Refusal) = .next t) :
    Holds s.engine t.engine := holds_of_withEngine hn (.jobStep h n j f)

/-- What each command holds in HALTED. -/
theorem exec_holds {c : Instr} (hr : ¬ c.isReset) (hn : exec c s = .next t) : Holds s.engine t.engine := by
  cases c with
  | start => exact holds_of_withEngine hn (.start h)
  | stop => exact holds_of_withEngine hn (.stop h)
  | parityError m => exact holds_of_withEngine hn (.parityError h m)
  | engineReset => exact absurd (.inl rfl) hr
  | linkReset => exact absurd (.inr (.inl rfl)) hr
  | coldReset => exact absurd (.inr (.inr (.inl rfl))) hr
  | resetInputAsserted => exact absurd (.inr (.inr (.inr (.inl rfl)))) hr
  | powerLoss => exact absurd (.inr (.inr (.inr (.inr (.inl rfl))))) hr
  | registerWrite offset width value => exact holds_of_whenOn hn (writeRegister_holds h offset width value hr)
  | adminSizeWrite value => exact holds_of_withEngine hn ((Holds.writeAdminSize _ _).settle h)
  | post ring tail => exact holds_of_withEngine hn ((Holds.post _ _ _).settle h)
  | ack ring arm head => exact holds_of_withEngine hn ((Holds.ack _ _ _ _).settle h)
  | stateRead offset width => exact holds_of_withEngine hn {}
  | descriptorFetchDone descriptor => exact holds_of_withEngine hn (.fetchEvent h _)
  | doneRecordWritten ring ok => exact holds_of_withEngine hn (.recordEvent h _ _)
  | noticeWriteDone ok => exact holds_of_withEngine hn (.noticeEvent h _)
  | put | get | probe | delete | matchValue | scan | openRing | closeRing | setNotice | setLimits | queryEngine | querySegment
    | reclaim | scrub | format => exact holds_of_jobStep h hn
  | loadingDone n data => exact holds_of_withEngine hn (.loadEvent h _ _)
  | returningDone | scanBatchDone | reportWriteDone => exact holds_of_withEngine hn (.returnEvent h _ _ _ _)
  | spaceWaitExpiry n => exact holds_of_withEngine hn (.expireWait h _)
  | quantumExpiry b => exact holds_of_withEngine hn (.quantumEvent b)
  | suspendReport b x => exact holds_of_whenOn hn (suspendReported_holds h b x)
  | readDone b => exact holds_of_whenOn hn (onActive_holds fun _ => Holds.opEnded h b fun e => e.readReported _ _)
  | blankCheckDone b => exact holds_of_whenOn hn (onActive_holds fun _ => Holds.opEnded h b fun e => e.blankAnswer _ _)
  | programDone b pass => exact holds_of_whenOn hn (onActive_holds fun o => endProgram_holds h b o pass)
  | eraseDone b pass => exact holds_of_whenOn hn (onActive_holds fun o => endErase_holds h b o pass)
  | programTimeout b => exact holds_of_whenOn hn (onActive_holds fun o => endProgram_holds h b o false)
  | eraseTimeout b => exact holds_of_whenOn hn (onActive_holds fun o => endErase_holds h b o false)

end Commands

/-- Settles O13: what HALTED holds is the state, the blocks and the contexts of `Holds`, command by command. -/
theorem haltedHoldsUntilAReset : Obligations.HaltedHoldsUntilAReset := by
  intro c s t h hr hn
  have k := exec_holds h hr hn
  exact ⟨k.state.trans h, k.index, k.space, k.reclaim, k.mount, k.format, k.causes, k.limits, k.halt, k.ctxs⟩

end Sys2Proof.Machine.EngineControl
end

section
/-! PROOFS. What the end of a step leaves alone (chapters 7 and 9): the mount. No block but the Mount Unit changes it, and the
Mount Unit takes up nothing at the end of a step. One rule for each operation that a settling is made of, in the order of the
model. -/

-- The rules are many and small: elaborated side by side they ask for more threads than there are.
set_option Elab.async false

namespace Sys2Proof.Machine

open Sys2Proof

theorem Engine.foldl_mount {α : Type} {f : Engine → α → Engine} (hf : ∀ k x, (f k x).mount = k.mount) (e : Engine)
    (l : List α) : (l.foldl f e).mount = e.mount := by
  induction l generalizing e with
  | nil => rfl
  | cons x l ih => exact (ih _).trans (hf e x)

/-! ### The Space Manager (chapter 3) -/

@[simp] theorem Engine.addCause_mount (e : Engine) (c : ModeCause) : (e.addCause c).mount = e.mount := by
  unfold Engine.addCause
  dsimp only
  split
  · rfl
  · split <;> rfl

@[simp] theorem Engine.spaceTest_mount (e : Engine) : e.spaceTest.mount = e.mount := by
  unfold Engine.spaceTest
  dsimp only
  split
  · rfl
  · split <;> split <;> rfl

/-- A head that opens: its open cell's program is queued, the space test is made, and its sequence may be the last (R58). -/
@[simp] theorem Engine.openHead_mount (e : Engine) (n : Nat) (role : HeadRole) : (e.openHead n role).mount = e.mount := by
  unfold Engine.openHead
  dsimp only
  split <;> simp

@[simp] theorem Engine.placeInNewHead_mount (e : Engine) (b k : Nat) : (e.placeInNewHead b k).1.mount = e.mount := by
  unfold Engine.placeInNewHead
  split
  · exact e.openHead_mount _ _
  · rfl

@[simp] theorem Engine.placeInBank_mount (e : Engine) (b k : Nat) : (e.placeInBank b k).1.mount = e.mount := by
  unfold Engine.placeInBank
  split
  · split
    · rfl
    · exact Engine.placeInNewHead_mount _ _ _
  · simp

theorem Engine.placeInBanks_mount (e : Engine) (k : Nat) (bs : List Nat) : (e.placeInBanks k bs).1.mount = e.mount := by
  induction bs generalizing e with
  | nil => rfl
  | cons b bs ih =>
    have hb := e.placeInBank_mount b k
    unfold Engine.placeInBanks
    split
    · next heq => rw [heq] at hb; exact hb
    · next heq => rw [heq] at hb; exact (ih _).trans hb

@[simp] theorem Engine.placeInNewReclaimHead_mount (e : Engine) (k : Nat) : (e.placeInNewReclaimHead k).1.mount = e.mount := by
  unfold Engine.placeInNewReclaimHead
  split
  · exact e.openHead_mount _ _
  · rfl

theorem Engine.placeReclaim_mount (e : Engine) (k : Nat) : (e.placeReclaim k).1.mount = e.mount := by
  unfold Engine.placeReclaim
  split
  · split
    · rfl
    · exact Engine.placeInNewReclaimHead_mount _ _
  · simp

@[simp] theorem Engine.dropEntry_mount (e : Engine) (key : Nat) : (e.dropEntry key).mount = e.mount := by
  have hlower (k : Engine) (l : Location) : (k.lowerLive l).mount = k.mount := by
    unfold Engine.lowerLive
    dsimp only
    split <;> rfl
  unfold Engine.dropEntry
  split
  · rfl
  · dsimp only
    split <;> simp [hlower]

@[simp] theorem Engine.removalTest_mount (e : Engine) (key : Nat) : (e.removalTest key).mount = e.mount := by
  unfold Engine.removalTest
  split
  · split <;> simp
  · rfl

@[simp] theorem Engine.unlist_mount (e : Engine) (n : Nat) : (e.unlist n).mount = e.mount := by
  have hrefill (k : Engine) : k.refill.mount = k.mount := by
    unfold Engine.refill
    split
    · split <;> rfl
    · rfl
  unfold Engine.unlist
  split
  · exact hrefill _
  · rfl

@[simp] theorem Engine.answerRequester_mount (e : Engine) (st : Status) (ended : ReclaimEnd) :
    (e.answerRequester st ended).mount = e.mount := by
  unfold Engine.answerRequester
  split <;> rfl

@[simp] theorem Engine.victimEnded_mount (e : Engine) (n : Nat) (ended : ReclaimEnd) :
    (e.victimEnded n ended).mount = e.mount := by
  unfold Engine.victimEnded
  split <;> simp

@[simp] theorem Engine.formatCounts_mount (e : Engine) (n : Nat) (retired : Bool) :
    (e.formatCounts n retired).mount = e.mount := by
  unfold Engine.formatCounts
  split
  · split <;> rfl
  · rfl

@[simp] theorem Engine.retireSegment_mount (e : Engine) (n : Nat) (cause : RetireCause) (r : Requester) :
    (e.retireSegment n cause r).mount = e.mount := by
  unfold Engine.retireSegment
  dsimp only
  split <;> simp

@[simp] theorem Engine.settleReleased_mount (e : Engine) : e.settleReleased.mount = e.mount := by
  unfold Engine.settleReleased
  split
  · rfl
  · split
    · dsimp only
      split
      · exact Engine.retireSegment_mount _ _ _ _
      · rfl
    · rfl

@[simp] theorem Engine.settlePinWait_mount (e : Engine) : e.settlePinWait.mount = e.mount :=
  Engine.foldl_mount (fun k _ => k.enqueue_mount _) _ _

/-! ### The Reclaim Unit (chapter 6) -/

@[simp] theorem Engine.pauseReclaim_mount (e : Engine) : e.pauseReclaim.mount = e.mount := Engine.answerRequester_mount _ _ _

@[simp] theorem Engine.placeStep_mount (e : Engine) (w : Written) (key : Nat) (l : Location) (ds : List CellData) :
    (e.placeStep w key l ds).mount = e.mount := by
  have hp := e.placeReclaim_mount ds.length
  unfold Engine.placeStep
  split
  · next heq => rw [heq] at hp; exact hp
  · next heq => rw [heq] at hp; exact (Engine.pauseReclaim_mount _).trans hp

@[simp] theorem Engine.sweepFrom_mount (e : Engine) (n key : Nat) : (e.sweepFrom n key).mount = e.mount := by
  unfold Engine.sweepFrom Engine.sweepEntry Engine.sweepWrite
  split
  · split <;> simp
  · rfl

@[simp] theorem Engine.walkEnd_mount (e : Engine) (n : Nat) : (e.walkEnd n).mount = e.mount := by
  unfold Engine.walkEnd
  split
  · rfl
  · dsimp only
    split <;> simp

@[simp] theorem Engine.recordBoundary_mount (e : Engine) : e.recordBoundary.mount = e.mount := by
  have hbegin : e.beginStep.mount = e.mount := by
    unfold Engine.beginStep
    split
    · simp
    · split
      · simp
      · rfl
    · rfl
  unfold Engine.recordBoundary
  split
  · simp
  · exact hbegin

@[simp] theorem Engine.grantVictim_mount (e : Engine) : e.grantVictim.mount = e.mount := by
  unfold Engine.grantVictim
  split
  · split <;> simp
  · rfl

@[simp] theorem Engine.makeChoice_mount (e : Engine) : e.makeChoice.mount = e.mount := by
  have hstart (n : Nat) (r : Option Nat) : (e.startVictim n r).mount = e.mount := by
    unfold Engine.startVictim
    dsimp only
    split <;> rfl
  unfold Engine.makeChoice
  dsimp only
  rw [Engine.setReclaim_mount]
  split
  · split
    · split <;> simp [hstart]
    · rfl
  · rfl

/-! ### The Job Unit (chapter 2) -/

@[simp] theorem Engine.placeWrite_mount (e : Engine) (c : Nat) : (e.placeWrite c).mount = e.mount := by
  have hfail (k : Engine) (st : Status) : (k.failWrite c st).mount = k.mount := by
    unfold Engine.failWrite
    split <;> rfl
  have hp : (e.placeHost (e.ctx c).recordCells).1.mount = e.mount := e.placeInBanks_mount _ _
  unfold Engine.placeWrite
  split
  · next heq => rw [heq] at hp; exact hp
  · next heq =>
    rw [heq] at hp
    split
    · exact hp
    · exact (hfail _ _).trans hp

@[simp] theorem Engine.takeSequence_mount (e : Engine) : e.takeSequence.mount = e.mount := by
  unfold Engine.takeSequence
  dsimp only
  split <;> simp

@[simp] theorem Engine.checkWrite_mount (e : Engine) (c : Nat) : (e.checkWrite c).1.mount = e.mount := by
  have hadmit : (e.admitWrite c).mount = e.mount := by
    unfold Engine.admitWrite
    dsimp only
    split <;> simp
  unfold Engine.checkWrite
  dsimp only
  split
  · rfl
  · split
    · rfl
    · exact hadmit

@[simp] theorem Engine.handOn_mount (e : Engine) (key : Nat) (ws : List Nat) : (e.handOn key ws).mount = e.mount := by
  induction ws generalizing e with
  | nil =>
    unfold Engine.handOn
    split <;> simp
  | cons w ws ih =>
    have hc := (e.changeEntry key fun t => { t with waiters := ws }).checkWrite_mount w
    unfold Engine.handOn
    split
    · next heq => rw [heq] at hc; exact hc
    · next heq => rw [heq] at hc; exact (ih _).trans hc

@[simp] theorem Engine.discardAll_mount (e : Engine) (n : Nat) : (e.discardAll n).mount = e.mount := by
  have hfree (k : Engine) (c : Nat) : (k.freeCtx c).mount = k.mount := by
    unfold Engine.freeCtx
    dsimp only
    split
    · split <;> rfl
    · rfl
  have hrelease (k : Engine) (c : Nat) : (k.releaseLock c).mount = k.mount := by
    unfold Engine.releaseLock
    dsimp only
    split
    · split <;> simp
    · rfl
  induction n generalizing e with
  | zero => rfl
  | succ n ih =>
    unfold Engine.discardAll
    split
    · rw [ih, Engine.discard, hfree, hrelease, Engine.modRing_mount]
    · rfl

/-! ### FORMAT and the Ring Unit (chapters 8 and 10) -/

@[simp] theorem Engine.formatBegin_mount (e : Engine) : e.formatBegin.mount = e.mount := by
  have hrelease (k : Engine) (f : FormatRun) : (k.formatRelease f).mount = k.mount :=
    Engine.foldl_mount (fun k _ => k.enqueue_mount _) _ _
  unfold Engine.formatBegin Engine.endReclaim
  split
  · split <;> simp [hrelease]
  · rfl

@[simp] theorem Engine.formatEnd_mount (e : Engine) : e.formatEnd.mount = e.mount := by
  have hmode (k : Engine) : k.recomputeMode.mount = k.mount := by
    unfold Engine.recomputeMode
    dsimp only
    split <;> rfl
  unfold Engine.formatEnd Engine.formatFinish
  split
  · split <;> simp [hmode]
  · rfl

@[simp] theorem Engine.applySetters_mount (e : Engine) : e.applySetters.mount = e.mount := by
  unfold Engine.applySetters
  split
  · rfl
  · refine Engine.foldl_mount (fun _ _ => ?_) _ _
    rfl

@[simp] theorem Engine.closeRings_mount (e : Engine) : e.closeRings.mount = e.mount := by
  refine Engine.foldl_mount (fun k r => ?_) _ _
  unfold Engine.closeRing
  split <;> rfl

@[simp] theorem Engine.issueFetch_mount (e : Engine) : e.issueFetch.mount = e.mount := by
  have hserved (r : Nat) : (e.noteServed r).mount = e.mount := by
    unfold Engine.noteServed
    split <;> rfl
  unfold Engine.issueFetch
  split
  · split
    · exact hserved _
    · rfl
  · rfl

@[simp] theorem Engine.issueNotice_mount (e : Engine) : e.issueNotice.mount = e.mount := by
  unfold Engine.issueNotice
  split
  · split <;> rfl
  · rfl

@[simp] theorem Engine.issueRecords_mount (e : Engine) : e.issueRecords.mount = e.mount := rfl

@[simp] theorem Engine.testQuiescence_mount (e : Engine) : e.testQuiescence.mount = e.mount := by
  unfold Engine.testQuiescence
  split <;> rfl

/-- The end of a step leaves the mount as it is. -/
@[simp] theorem Engine.settle_mount (e : Engine) : e.settle.mount = e.mount := by
  unfold Engine.settle Engine.settleBlocks
  split <;> simp

end Sys2Proof.Machine
end

section
/-! PROOFS. The engine state (chapter 9, R170 to R172): what changes it of itself, the end of a mount and the test of quiescence; then
command by command what becomes of it; and the halt cause. -/

-- The rules are many and small: elaborated side by side they ask for more threads than there are.
set_option Elab.async false

namespace Sys2Proof.Machine.EngineControl

open Sys2Proof

/-! ### Operations that leave the engine state alone

Those that are moves with no change of engine state among them do so by `Engine.Move.state_kept`; the steps of jobs and the reports
of operations, which are made of them, follow here. -/

section Still

variable (e : Engine)

theorem foldl_state {α : Type} {f : Engine → α → Engine} (hf : ∀ k x, (f k x).state = k.state) (l : List α) :
    (l.foldl f e).state = e.state := by
  induction l generalizing e with
  | nil => rfl
  | cons x l ih => exact (ih _).trans (hf e x)

theorem askAdmission_state (c : Nat) : (e.askAdmission c).state = e.state := ((Engine.Move.refl e).askAdmission c).state_kept

theorem matchLookup_state (c : Nat) : (e.matchLookup c).state = e.state := ((Engine.Move.refl e).matchLookup c).state_kept

theorem scanStep_state (c : Nat) : (e.scanStep c).state = e.state := ((Engine.Move.refl e).scanStep c).state_kept

theorem putStep_state (c : Nat) : (e.putStep c).state = e.state := by
  unfold Engine.putStep
  dsimp only
  split
  · rfl
  · split
    · exact askAdmission_state (e.loadNothing c) c
    · rfl

theorem deleteStep_state (c : Nat) : (e.deleteStep c).state = e.state := by
  unfold Engine.deleteStep
  split
  · rfl
  · exact askAdmission_state e c

theorem matchStep_state (c : Nat) : (e.matchStep c).state = e.state := by
  unfold Engine.matchStep
  dsimp only
  split
  · exact matchLookup_state (e.loadNothing c) c
  · rfl

theorem loaded_state (c n : Nat) (d : Option (List Byte)) : (e.loaded c n d).state = e.state := by
  unfold Engine.loaded
  split
  · rfl
  · dsimp only
    split
    · exact matchLookup_state (e.modCtx c _) c
    · exact askAdmission_state (e.modCtx c _) c

theorem scanReturned_state (c : Nat) (ok : Bool) (n : Nat) : (e.scanReturned c ok n).state = e.state := by
  unfold Engine.scanReturned
  dsimp only
  split
  · split
    · rfl
    · exact scanStep_state ((e.modCtx c _).modCtx c _) c
  · rfl

theorem openRingStep_state (c : Nat) : (e.openRingStep c).state = e.state := by
  unfold Engine.openRingStep
  dsimp only
  split <;> rfl

theorem closeRingStep_state (c : Nat) : (e.closeRingStep c).state = e.state := by
  unfold Engine.closeRingStep
  dsimp only
  split
  · rfl
  · split
    · rfl
    · rfl
    · rfl
    · split <;> rfl

theorem setNoticeStep_state (c : Nat) : (e.setNoticeStep c).state = e.state := by
  unfold Engine.setNoticeStep
  split
  · rfl
  · split <;> rfl

theorem setLimitsStep_state (c : Nat) : (e.setLimitsStep c).state = e.state := by
  unfold Engine.setLimitsStep
  dsimp only
  split
  · rfl
  · split
    · rfl
    · exact (Engine.Move.refl { e with control := { e.control with
        limits := e.control.limits.changed (e.ctx c).descriptor } }).spaceTest.state_kept

theorem querySegmentStep_state (c : Nat) : (e.querySegmentStep c).state = e.state := by
  unfold Engine.querySegmentStep
  dsimp only
  split
  · rfl
  · split <;> rfl

theorem reclaimStep_state (c : Nat) : (e.reclaimStep c).state = e.state := by
  unfold Engine.reclaimStep
  dsimp only
  split
  · rfl
  · split
    · rfl
    · split
      · exact ((Engine.Move.refl (e.waitInMedia c)).startVictim _ _).state_kept
      · rfl

theorem scrubStep_state (c : Nat) : (e.scrubStep c).state = e.state := by
  unfold Engine.scrubStep
  dsimp only
  split
  · rfl
  · split
    · rfl
    · exact ((Engine.Move.refl ((e.waitInMedia c).modCtx c _)).scrubNext c).state_kept

theorem formatStep_state (c : Nat) : (e.formatStep c).state = e.state := by
  unfold Engine.formatStep
  split
  · rfl
  · split
    · rfl
    · split <;> rfl

theorem replaceRecord_state (q : Request) : (e.replaceRecord q).state = e.state := by
  have hp : (e.placeReclaim q.count).1.state = e.state := ((Engine.Move.refl e).placeReclaim _).state_kept
  unfold Engine.replaceRecord Engine.replaceHost Engine.replaceReclaim
  split
  · split
    · exact ((Engine.Move.refl e).failWrite _ _).state_kept
    · exact ((Engine.Move.refl (e.modCtx _ _)).placeWrite _).state_kept
  · split
    · exact (Engine.Move.refl e).beginStep.state_kept
    · split
      · next heq => rw [heq] at hp; exact hp
      · next heq => rw [heq] at hp; exact (Engine.Move.refl _).pauseForSpace.state_kept.trans hp
  · rfl

/-- The failure of a program closes its segment and places the withdrawn records afresh (R66, R91). -/
theorem segmentFailed_state (b seg : Nat) (l : List Request) : (e.segmentFailed b seg l).state = e.state :=
  (foldl_state _ replaceRecord_state _).trans ((Engine.Move.refl e).closeFailed seg).state_kept

theorem recordPassed_state (q : Request) {f : Engine → Location → Engine} (hf : ∀ k l, (f k l).state = k.state) :
    (e.recordPassed q f).state = e.state := by
  unfold Engine.recordPassed
  split
  · exact hf _ _
  · rfl

theorem formatCellPassed_state (q : Request) : (e.formatCellPassed q).state = e.state := by
  unfold Engine.formatCellPassed
  split
  · exact ((((Engine.Move.refl (e.modSeg q.seg _)).formatCounts _ _).freeRose).victimEnded _ _).state_kept
  · rfl

theorem eraseEnded_state (q : Request) (pass : Bool) : (e.eraseEnded q pass).state = e.state := by
  unfold Engine.eraseEnded
  split
  · rfl
  · exact ((Engine.Move.refl e).eraseLost _ _).state_kept

theorem ctxReadDone_state (c : Nat) (q : Request) (cells : List CellOutcome) : (e.ctxReadDone c q cells).state = e.state := by
  unfold Engine.ctxReadDone
  split
  · exact ((Engine.Move.refl e).getReadDone _ _).state_kept
  · exact ((Engine.Move.refl e).matchReadDone _ _).state_kept
  · exact ((Engine.Move.refl e).scrubReadDone _ _ _).state_kept
  · rfl

/-- The weak mark of a read and the unpin after it (R64, R102). -/
theorem markWeak_unpin_state (n : Nat) (weak : Bool) : ((e.markWeak n weak).unpin n).state = e.state := by
  have hmark : (e.markWeak n weak).state = e.state := by
    unfold Engine.markWeak
    split
    · exact ((Engine.Move.refl e).weakMark n).state_kept
    · rfl
  exact ((Engine.Move.refl _).unpin n).state_kept.trans hmark

end Still

/-! ### The end of a mount (R146, R171) -/

/-- The engine state stays, or MOUNTING becomes RUNNING, which leaves the mount's phase NONE. -/
def Mounts (e k : Engine) : Prop :=
  k.state = e.state ∨ (e.state = .mounting ∧ k.state = .running ∧ k.mount.phase = .none)

namespace Mounts

/-- What the operations before leave of the engine state. -/
theorem after {a e k : Engine} (h : e.state = a.state) (hk : Mounts e k) : Mounts a k := by
  unfold Mounts at hk ⊢
  rwa [h] at hk

variable (e : Engine)

/-- The finish alone makes the engine RUNNING, with the mount's phase NONE (R146). -/
theorem finishMount : Mounts e e.finishMount := by
  unfold Engine.finishMount
  split
  · next hs =>
    refine .inr ⟨hs, ((Engine.Move.refl (e.finishWork.setState .running)).eraseDirty.spaceTest.wantChoice).state_kept, ?_⟩
    have herase : (e.finishWork.setState .running).eraseDirty.mount = e.finishWork.mount := by
      refine Engine.foldl_mount (fun _ _ => ?_) _ _
      rfl
    rw [Engine.wantChoice_mount, Engine.spaceTest_mount, herase]
    rfl
  · exact .inl rfl

theorem passBFrom (n : Nat) : Mounts e (e.passBFrom n) := by
  unfold Engine.passBFrom
  split
  · exact .inl rfl
  · exact finishMount e

theorem passBMove (n : Nat) : Mounts e (e.passBMove n) := by
  unfold Engine.passBMove
  dsimp only
  split
  · exact passBFrom e _
  · exact .inl rfl

theorem passBRead (cells : List CellOutcome) : Mounts e (e.passBRead cells) := by
  unfold Engine.passBRead
  split
  · exact passBFrom e _
  · exact passBMove e _
  · refine after ?_ (passBMove _ _)
    split
    · exact ((Engine.Move.refl e).judgeTombstone _ _).state_kept
    · rfl

theorem passAOthersFrom (n : Nat) : Mounts e (e.passAOthersFrom n) := by
  unfold Engine.passAOthersFrom
  split
  · exact .inl rfl
  · exact passBFrom (e.setMount _) 0

theorem passAFrom (n : Nat) : Mounts e (e.passAFrom n) := by
  unfold Engine.passAFrom
  split
  · exact .inl rfl
  · exact passAOthersFrom e 0

theorem startPassA : Mounts e e.startPassA := passAFrom (e.setMount _) 0

theorem passASegEnd : Mounts e e.passASegEnd := by
  unfold Engine.passASegEnd
  dsimp only
  split
  · exact passAOthersFrom e _
  · split
    · exact passAFrom ((e.modSeg _ _).countMount _) _
    · exact passAFrom (e.modSeg _ _) _

theorem passAMove (n : Nat) : Mounts e (e.passAMove n) := by
  unfold Engine.passAMove
  dsimp only
  split
  · exact passASegEnd (e.setMount _)
  · exact .inl rfl

theorem passARecord (l : Location) (x : RecordHeader) (cells : List CellOutcome) : Mounts e (e.passARecord l x cells) := by
  refine after ?_ (passAMove _ _)
  split
  · rfl
  · exact ((Engine.Move.refl ((e.noteRseq x).countMount _)).takeRecord _ _ _).state_kept

theorem passARead (cells : List CellOutcome) : Mounts e (e.passARead cells) := by
  unfold Engine.passARead
  dsimp only
  split
  · exact passARecord e _ _ _
  · split
    · exact passASegEnd e
    · refine after ?_ (passAMove _ _)
      split <;> rfl
    · split
      · exact passARecord e _ _ _
      · exact .inl rfl

theorem surveyEnd : Mounts e e.surveyEnd := by
  have hmean (mean : Nat) : (e.giveMean mean).state = e.state := ((Engine.Move.refl e).giveMean mean).state_kept
  unfold Engine.surveyEnd
  dsimp only
  split
  · exact after (hmean _) (startPassA ((e.giveMean _).setMount _))
  · refine .inl ((foldl_state _ (fun _ _ => ?_) _).trans (hmean _))
    rfl

theorem surveySecond (n : Nat) (cells : List CellOutcome) (weak : Bool) : Mounts e (e.surveySecond n cells weak) := by
  unfold Engine.surveySecond
  dsimp only
  split <;> split
  · exact .inl rfl
  · exact .inl rfl
  · exact surveyEnd ((e.modSeg _ _).countMount _)
  · exact surveyEnd (e.modSeg _ _)

theorem blankCheckEnded : Mounts e e.blankCheckEnded := by
  unfold Engine.blankCheckEnded
  dsimp only
  split
  · exact startPassA (e.setMount _)
  · exact .inl rfl

end Mounts

/-! ### What the end of an operation can do -/

/-- The engine state stays, or the report ends a mount that was under way. -/
def Reports (e k : Engine) : Prop :=
  k.state = e.state ∨ (e.state = .mounting ∧ e.mount.phase ≠ .none ∧ k.state = .running ∧ k.mount.phase = .none)

namespace Reports

variable {e : Engine}

theorem of_mounts {k : Engine} (hp : e.mount.phase ≠ .none) : Mounts e k → Reports e k
  | .inl h => .inl h
  | .inr ⟨hs, hr, hn⟩ => .inr ⟨hs, hp, hr, hn⟩

/-- The survey is a phase of a mount. -/
theorem phase_of_surveying (h : e.surveying = true) : e.mount.phase ≠ .none := by
  have hp : e.mount.phase = .survey := eq_of_beq (Bool.and_eq_true_iff.mp h).2
  rw [hp]
  decide

theorem blankAnswer (n : Nat) (blank : Bool) : Reports e (e.blankAnswer n blank) := by
  unfold Engine.blankAnswer
  split
  · exact .inl rfl
  · next hs =>
    split
    · exact .inl rfl
    · exact of_mounts (phase_of_surveying (by simpa using hs)) (Mounts.blankCheckEnded ((e.modSeg _ _).countMount _))

theorem mountProgramDone (q : Request) (pass : Bool) : Reports e (e.mountProgramDone q pass) := by
  unfold Engine.mountProgramDone Engine.formatEstimated
  split
  · next hs _ =>
    split
    · exact of_mounts (phase_of_surveying hs) (Mounts.blankCheckEnded ((e.modSeg _ _).countMount _))
    · exact .inl ((Engine.Move.refl e).retireSegment _ _ _).state_kept
  · next hs _ => exact of_mounts (phase_of_surveying hs) (Mounts.blankCheckEnded e)
  · exact .inl rfl

theorem mountReadDone (q : Request) (cells : List CellOutcome) : Reports e (e.mountReadDone q cells) := by
  have hmark (weak : Bool) : (e.markMounted q.seg weak).state = e.state := ((Engine.Move.refl e).markMounted _ _).state_kept
  unfold Engine.mountReadDone
  dsimp only
  split
  · next hp =>
    have hphase : e.mount.phase ≠ .none := by rw [hp]; decide
    split
    · exact of_mounts hphase (Mounts.surveySecond e _ _ _)
    · exact .inl ((Engine.Move.refl e).surveyFirst _ _ _).state_kept
  · next hp => exact of_mounts (by rw [hp]; decide) (.after (hmark _) (Mounts.passARead _ _))
  · next hp => exact of_mounts (by rw [hp]; decide) (.after (hmark _) (Mounts.passBRead _ _))
  · exact .inl rfl

theorem programEnded (b : Nat) (q : Request) (pass : Bool) : Reports e (e.programEnded b q pass) := by
  unfold Engine.programEnded Engine.programPassed Engine.programFailed
  split
  · split
    · exact .inl (recordPassed_state e q fun k l => ((Engine.Move.refl k).hostProgramPassed _ l).state_kept)
    · exact .inl (recordPassed_state e q fun k l => ((Engine.Move.refl k).reclaimProgramPassed l).state_kept)
    · exact mountProgramDone _ _
    · exact mountProgramDone _ _
    · exact .inl (formatCellPassed_state e q)
    · exact .inl rfl
  · split
    · exact .inl (segmentFailed_state e _ _ _)
    · exact .inl (segmentFailed_state e _ _ _)
    · exact .inl (segmentFailed_state e _ _ _)
    · exact .inl (segmentFailed_state e _ _ _)
    · exact mountProgramDone _ _
    · exact mountProgramDone _ _
    · exact .inl ((Engine.Move.refl e).eraseLost _ _).state_kept
    · exact .inl rfl

theorem readReported (q : Request) (cells : List CellOutcome) : Reports e (e.readReported q cells) := by
  unfold Engine.readReported
  dsimp only
  split
  · exact .inl ((ctxReadDone_state _ _ _ _).trans (markWeak_unpin_state e _ _))
  · exact .inl (((Engine.Move.refl _).reclaimReadDone _ _).state_kept.trans (markWeak_unpin_state e _ _))
  · exact mountReadDone _ _
  · exact .inl rfl

end Reports

/-! ### The end of a step, and quiescence (R172) -/

/-- What a step can make of the engine state of itself: it stays; a mount under way ends; or a STOPPING engine that is quiescent
becomes STOPPED (R146, R171, R172). -/
inductive Follows (a e : Engine) : Prop
  | stays (h : e.state = a.state)
  | mounts (hs : a.state = .mounting) (hp : a.mount.phase ≠ .none) (hr : e.state = .running) (hn : e.mount.phase = .none)
  | stops (hs : a.state = .stopping) (ht : e.state = .stopped) (hq : e.quiescent = true)

/-- The end of a step changes the engine state by the test of quiescence alone. -/
theorem settle_state (e : Engine) :
    e.settle.state = e.state ∨ (e.state = .stopping ∧ e.settle.state = .stopped ∧ e.settle.quiescent = true) := by
  by_cases hh : e.state = .halted
  · rw [RingUnit.settle_halted hh]
    exact .inl (Engine.Move.refl e).issueNotice.state_kept
  · rw [RingUnit.settle_running hh]
    have hk := (Engine.Move.refl e).settleBlocks.makeChoice.issueRecords.issueFetch.issueNotice.state_kept
    generalize e.settleBlocks.makeChoice.issueRecords.issueFetch.issueNotice = k at hk
    by_cases hq : k.state = .stopping ∧ k.quiescent = true
    · rw [RingUnit.testQuiescence_of_quiescent hq.1 hq.2]
      exact .inr ⟨hk ▸ hq.1, rfl, hq.2⟩
    · rw [RingUnit.testQuiescence_of_not ((Decidable.not_and_iff_not_or_not.mp hq).imp_right Bool.eq_false_iff.mpr)]
      exact .inl hk

theorem settle_state_of_ne {e : Engine} (h : e.state ≠ .stopping) : e.settle.state = e.state :=
  (settle_state e).resolve_right fun hs => h hs.1

namespace Follows

variable {a e k : Engine}

/-- A draw before it changes neither the engine state nor the mount (assumption 5). -/
theorem of_draw (h : Follows a.draw e) : Follows a e := by
  cases h with
  | stays h => exact .stays h
  | mounts hs hp hr hn => exact .mounts hs hp hr hn
  | stops hs ht hq => exact .stops hs ht hq

/-- The end of a step, after what left the engine state as it was or ended a mount. -/
theorem settle (h : Reports a k) : Follows a k.settle := by
  obtain hs | ⟨hs, hp, hr, hn⟩ := h
  · obtain ht | ⟨hk, ht, hq⟩ := settle_state k
    · exact .stays (ht.trans hs)
    · exact .stops (hs ▸ hk) ht hq
  · exact .mounts hs hp ((settle_state_of_ne (by simp [hr])).trans hr) (by rw [Engine.settle_mount, hn])

/-- The end of a bank's operation, whose report leaves the engine state or ends a mount. -/
theorem opEnded (b : Nat) {report : Engine → Engine} (hr : ∀ k, Reports k (report k)) : Follows e (e.opEnded b report) := by
  unfold Engine.opEnded
  split
  · exact settle (.inl rfl)
  · exact settle (hr (e.modBank b Bank.ended))

theorem suspended (b : Nat) : Follows e (e.suspended b) := by
  unfold Engine.suspended
  split <;> exact settle (.inl rfl)

theorem jobStep (c : Nat) (j : Job) {f : Engine → Engine} (hf : (f e).state = e.state) : Follows e (e.jobStep c j f) := by
  unfold Engine.jobStep
  split
  · exact settle (.inl hf)
  · exact .stays rfl

theorem afterTransfer {f : Engine → Engine} (hf : ∀ k, (f k).state = k.state) (hk : k.state = a.state) :
    Follows a (k.afterTransfer f) := by
  unfold Engine.afterTransfer
  split
  · exact .stays hk
  · exact settle (.inl ((hf k).trans hk))

theorem loadEvent (c : Nat) (d : Option (List Byte)) : Follows e (e.loadEvent c d) := by
  unfold Engine.loadEvent
  split
  · exact afterTransfer (fun k => loaded_state k _ _ _) rfl
  · exact .stays rfl

theorem returnEvent (c : Nat) (mine : Job → Bool) (ok : Bool) {f : Nat → Engine → Engine}
    (hf : ∀ n k, (f n k).state = k.state) : Follows e (e.returnEvent c mine ok f) := by
  unfold Engine.returnEvent
  split
  · split
    · exact afterTransfer (hf _) rfl
    · exact .stays rfl
  · exact .stays rfl

theorem expireWait (c : Nat) : Follows e (e.expireWait c) := by
  unfold Engine.expireWait
  split
  · exact settle (.inl ((Engine.Move.refl { e with space := { e.space with
      waitQueue := e.space.waitQueue.filter (·.ctx != c) } }).failWrite _ _).state_kept)
  · exact .stays rfl

theorem quantumEvent (b : Nat) : Follows e (e.quantumEvent b) := by
  unfold Engine.quantumEvent
  split <;> exact .stays rfl

theorem fetchEvent (d : Option (List Byte)) : Follows e (e.fetchEvent d) := by
  unfold Engine.fetchEvent
  split
  · exact .stays rfl
  · exact .stays rfl
  · exact settle (.inl ((Engine.Move.refl e).fetchDone _ _ _).state_kept)

theorem recordEvent (r : Nat) (ok : Bool) : Follows e (e.recordEvent r ok) := by
  unfold Engine.recordEvent
  split
  · split
    · exact .stays rfl
    · split
      · exact settle (.inl ((Engine.Move.refl e).recordWritten _ _).state_kept)
      · exact settle (.inl ((Engine.Move.refl e).recordFailed _ _).state_kept)
  · exact .stays rfl

theorem noticeEvent (ok : Bool) : Follows e (e.noticeEvent ok) := by
  unfold Engine.noticeEvent
  split
  · exact settle (.inl ((Engine.Move.refl e).noticeDone _).state_kept)
  · exact .stays rfl

theorem writeAdminSize (v : BitVec 32) : Follows e (e.writeAdminSize v).settle :=
  settle (.inl ((Engine.Move.refl e).writeAdminSize v).state_kept)

theorem post (r t : Nat) : Follows e (e.post r t).settle := settle (.inl ((Engine.Move.refl e).post r t).state_kept)

theorem ack (r : Nat) (arm : Bool) (n : Nat) : Follows e (e.ack r arm n).settle :=
  settle (.inl ((Engine.Move.refl e).ack r arm n).state_kept)

theorem writeBase (offset : Nat) (v : BitVec 32) : Follows e (e.writeBase offset v) := by
  unfold Engine.writeBase
  split
  · exact .stays rfl
  · split <;> exact .stays rfl

end Follows

/-! ### START and STOP (R171 to R173) -/

section StartStop

variable {e : Engine}

theorem start_of_other (h : e.state ≠ .stopped) : e.start = e := by
  rw [Engine.start, if_neg h]

theorem stop_of_other (h : e.state ≠ .running) : e.stop = e := by
  rw [Engine.stop, if_neg h]

/-- START leaves the engine RUNNING: the end of its step finds nothing to stop. -/
theorem start_state (h : e.state = .stopped) : e.start.state = .running := by
  rw [Engine.start, if_pos h]
  have hk := ((Engine.Move.refl (e.setState .running)).setReclaim
    fun u => { u with causes := { u.causes with stop := false } }).resumeReclaim.wantChoice.state_kept
  exact (settle_state_of_ne (by rw [hk]; exact nofun)).trans hk

/-- STOP leaves the engine STOPPING, or STOPPED where the test of quiescence at the end of its step finds it quiescent. -/
theorem stop_state (h : e.state = .running) :
    e.stop.state = .stopping ∨ (e.stop.state = .stopped ∧ e.stop.quiescent = true) := by
  rw [Engine.stop, if_pos h]
  exact (settle_state _).imp id And.right

end StartStop

/-! ### Commands (R171) -/

/-- What a command can make of the engine state: what happens of itself, or the change that a START, a STOP, a parity error or a
reset makes of it. -/
inductive CourseEffect (c : Instr) (s : State) (e : Engine) : Prop
  | follows (h : Follows s.engine e)
  | started (hc : c.isStart) (hs : s.engine.state = .stopped) (ht : e.state = .running)
  | stopped (hc : c.isStop) (hs : s.engine.state = .running)
      (ht : e.state = .stopping ∨ (e.state = .stopped ∧ e.quiescent = true))
  | halted (m : ParityMemory) (hc : c = .parityError m) (hs : s.engine.state ≠ .halted) (ht : e.state = .halted)
  | reset (hc : c.isReset) (ht : e.state = .mounting)

section Commands

variable {c : Instr} {s t : State}

theorem course_of_whenOn {f : State → State}
    (h : (Host.Outcome.next (s.whenOn f) : Host.Outcome State Fault Refusal) = .next t)
    (hf : CourseEffect c s (f s).engine) : CourseEffect c s t.engine := by
  cases h
  unfold State.whenOn
  split
  · exact hf
  · exact .follows (.stays rfl)

theorem course_of_withEngine {f : Engine → Engine}
    (h : (Host.Outcome.next (s.withEngine f) : Host.Outcome State Fault Refusal) = .next t)
    (hf : CourseEffect c s (f s.engine)) : CourseEffect c s t.engine := course_of_whenOn h hf

/-- Most commands change the engine state only as it changes of itself. -/
theorem course_of_follows {f : Engine → Engine}
    (h : (Host.Outcome.next (s.withEngine f) : Host.Outcome State Fault Refusal) = .next t)
    (hf : Follows s.engine (f s.engine)) : CourseEffect c s t.engine := course_of_withEngine h (.follows hf)

theorem course_of_jobStep {n : Nat} {j : Job} {f : Engine → Engine}
    (h : (Host.Outcome.next (s.withEngine fun e => e.jobStep n j f) : Host.Outcome State Fault Refusal) = .next t)
    (hf : (f s.engine).state = s.engine.state) : CourseEffect c s t.engine := course_of_follows h (.jobStep n j hf)

theorem course_of_onActive {b : Nat} {op : MediaOp} {f : Operation → State} (hf : ∀ o, Follows s.engine (f o).engine) :
    CourseEffect c s (s.onActive b op f).engine := by
  obtain h | ⟨o, -, h⟩ := s.onActive_cases b op f
  · rw [h]
    exact .follows (.stays rfl)
  · rw [h]
    exact .follows (hf o)

theorem endProgram_follows (s : State) (b : Nat) (o : Operation) (pass : Bool) :
    Follows s.engine (s.endProgram b o pass).engine := by
  cases pass with
  | false =>
    rw [State.endProgram_failed]
    exact .of_draw (.opEnded b fun _ => .programEnded _ _ _)
  | true =>
    rw [State.endProgram_passed]
    exact .opEnded b fun _ => .programEnded _ _ _

theorem endErase_follows (s : State) (b : Nat) (o : Operation) (pass : Bool) :
    Follows s.engine (s.endErase b o pass).engine := by
  cases pass with
  | false =>
    rw [State.endErase_failed]
    exact .of_draw (.opEnded b fun k => .inl (eraseEnded_state k _ _))
  | true =>
    rw [State.endErase_passed]
    exact .opEnded b fun k => .inl (eraseEnded_state k _ _)

theorem suspendReported_follows (s : State) (b : Nat) (x : SuspendOutcome) :
    Follows s.engine (s.suspendReported b x).engine := by
  have ho (o : Operation) (pass : Bool) : Follows s.engine (s.endOp b o pass).engine := by
    unfold State.endOp
    split
    · exact endErase_follows s b o pass
    · exact endProgram_follows s b o pass
  unfold State.suspendReported
  split
  · exact .stays rfl
  · split
    · exact .suspended b
    · exact ho _ _
    · exact ho _ _

/-- START acts in STOPPED alone (R171, R173). -/
theorem course_of_start (hc : c.isStart) : CourseEffect c s s.engine.start := by
  by_cases hs : s.engine.state = .stopped
  · exact .started hc hs (start_state hs)
  · exact .follows (.stays (congrArg Engine.state (start_of_other hs)))

/-- STOP acts in RUNNING alone (R171, R172). -/
theorem course_of_stop (hc : c.isStop) : CourseEffect c s s.engine.stop := by
  by_cases hs : s.engine.state = .running
  · exact .stopped hc hs (stop_state hs)
  · exact .follows (.stays (congrArg Engine.state (stop_of_other hs)))

/-- A parity error acts outside HALTED alone (R171, R176). -/
theorem course_of_halt {m : ParityMemory} (hc : c = .parityError m) : CourseEffect c s (s.engine.halt m) := by
  by_cases hs : s.engine.state = .halted
  · refine .follows (.stays ?_)
    rw [Engine.halt, if_pos hs]
  · refine .halted m hc hs ?_
    rw [Engine.halt, if_neg hs]
    exact settle_state_of_ne nofun

/-- A mount that starts is not finished by the end of its step (R134, R174, R175). -/
theorem startMount_settle_state {k : Engine} (h : k.state = .mounting) : k.startMount.settle.state = .mounting :=
  (settle_state_of_ne (e := k.startMount) (by rw [show k.startMount.state = k.state from rfl, h]; decide)).trans h

theorem course_of_engineReset (hc : c.isReset) : CourseEffect c s s.engineReset.engine := by
  rw [State.engineReset_engine]
  exact .reset hc (startMount_settle_state rfl)

theorem course_of_linkReset (hc : c.isReset) : CourseEffect c s s.linkReset.engine := by
  rw [State.linkReset_engine]
  exact .reset hc (startMount_settle_state rfl)

theorem course_of_coldReset (hc : c.isReset) : CourseEffect c s s.coldReset.engine := by
  rw [State.coldReset_engine]
  exact .reset hc (startMount_settle_state rfl)

/-- A write of CONTROL is an ENGINE_RESET, a START or a STOP, or nothing (R179). -/
theorem course_of_writeControl {value : BitVec 32} :
    CourseEffect (.registerWrite 0x008 4 value) s (s.writeControl value).engine := by
  unfold State.writeControl
  split
  · next hr => exact course_of_engineReset (.inr (.inr (.inr (.inr (.inr ⟨rfl, rfl, hr⟩)))))
  · next hr =>
    have hr : value.getLsbD 2 = false := Bool.eq_false_iff.mpr hr
    split
    · next h0 h1 => exact course_of_start (.inr ⟨rfl, rfl, by simp_all [bitOf]⟩)
    · next h0 h1 => exact course_of_stop (.inr ⟨rfl, rfl, by simp_all [bitOf]⟩)
    · exact .follows (.stays rfl)

theorem course_of_writeRegister (offset width : Nat) (value : BitVec 32) :
    CourseEffect (.registerWrite offset width value) s (s.writeRegister offset width value).engine := by
  unfold State.writeRegister
  split
  · exact .follows (.stays rfl)
  next hw =>
    obtain rfl := Decidable.not_not.mp hw
    split
    · next ho => subst ho; exact course_of_writeControl
    · split
      · exact .follows (.writeAdminSize _)
      · split
        · exact .follows (.post _ _)
        · split
          · exact .follows (.ack _ _ _)
          · exact .follows (.writeBase _ _)

/-- What each command makes of the engine state. -/
theorem exec_courseEffect (h : exec c s = .next t) : CourseEffect c s t.engine := by
  cases c with
  | start => exact course_of_withEngine h (course_of_start (.inl rfl))
  | stop => exact course_of_withEngine h (course_of_stop (.inl rfl))
  | parityError m => exact course_of_withEngine h (course_of_halt rfl)
  | engineReset => exact course_of_whenOn h (course_of_engineReset (.inl rfl))
  | linkReset => exact course_of_whenOn h (course_of_linkReset (.inr (.inl rfl)))
  | coldReset => cases h; exact course_of_coldReset (.inr (.inr (.inl rfl)))
  | powerLoss => cases h; exact .reset (.inr (.inr (.inr (.inr (.inl rfl))))) rfl
  | resetInputAsserted =>
    cases h
    split
    · exact .follows (.stays rfl)
    · exact .reset (.inr (.inr (.inr (.inl rfl)))) rfl
  | registerWrite offset width value => exact course_of_whenOn h (course_of_writeRegister offset width value)
  | adminSizeWrite value => exact course_of_follows h (.writeAdminSize value)
  | post ring tail => exact course_of_follows h (.post _ _)
  | ack ring arm head => exact course_of_follows h (.ack _ _ _)
  | stateRead offset width => exact course_of_follows h (.stays rfl)
  | descriptorFetchDone descriptor => exact course_of_follows h (.fetchEvent _)
  | doneRecordWritten ring ok => exact course_of_follows h (.recordEvent _ _)
  | noticeWriteDone ok => exact course_of_follows h (.noticeEvent _)
  | put n => exact course_of_jobStep h (putStep_state _ n)
  | get n => exact course_of_jobStep h ((Engine.Move.refl _).getLookup n).state_kept
  | probe n => exact course_of_jobStep h rfl
  | delete n => exact course_of_jobStep h (deleteStep_state _ n)
  | matchValue n => exact course_of_jobStep h (matchStep_state _ n)
  | scan n => exact course_of_jobStep h (scanStep_state (s.engine.modCtx n _) n)
  | openRing n => exact course_of_jobStep h (openRingStep_state _ n)
  | closeRing n => exact course_of_jobStep h (closeRingStep_state _ n)
  | setNotice n => exact course_of_jobStep h (setNoticeStep_state _ n)
  | setLimits n => exact course_of_jobStep h (setLimitsStep_state _ n)
  | queryEngine n => exact course_of_jobStep h rfl
  | querySegment n => exact course_of_jobStep h (querySegmentStep_state _ n)
  | reclaim n => exact course_of_jobStep h (reclaimStep_state _ n)
  | scrub n => exact course_of_jobStep h (scrubStep_state _ n)
  | format n => exact course_of_jobStep h (formatStep_state _ n)
  | loadingDone n data => exact course_of_follows h (.loadEvent n data)
  | returningDone n ok => exact course_of_follows h (.returnEvent n _ ok fun _ _ => rfl)
  | scanBatchDone n ok => exact course_of_follows h (.returnEvent n _ ok fun i k => scanReturned_state k n ok i)
  | reportWriteDone n ok => exact course_of_follows h (.returnEvent n _ ok fun _ _ => rfl)
  | spaceWaitExpiry n => exact course_of_follows h (.expireWait n)
  | quantumExpiry b => exact course_of_follows h (.quantumEvent b)
  | suspendReport b x => exact course_of_whenOn h (.follows (suspendReported_follows s b x))
  | readDone b flips => exact course_of_whenOn h (course_of_onActive fun _ => Follows.opEnded b fun _ => .readReported _ _)
  | blankCheckDone b disturbed =>
    exact course_of_whenOn h (course_of_onActive fun _ => Follows.opEnded b fun _ => .blankAnswer _ _)
  | programDone b pass => exact course_of_whenOn h (course_of_onActive fun o => endProgram_follows s b o pass)
  | eraseDone b pass => exact course_of_whenOn h (course_of_onActive fun o => endErase_follows s b o pass)
  | programTimeout b => exact course_of_whenOn h (course_of_onActive fun o => endProgram_follows s b o false)
  | eraseTimeout b => exact course_of_whenOn h (course_of_onActive fun o => endErase_follows s b o false)

/-! ### What the effect on the engine state says (R171, R172) -/

theorem CourseEffect.mayFollow {e : Engine} (h : CourseEffect c s e) : mayFollow (some c) s.engine.state e.state := by
  cases h with
  | follows h =>
    cases h with
    | stays h => exact .inl h
    | mounts hs _ hr _ => exact .inr (.inl (.inl ⟨hs, hr⟩))
    | stops hs ht _ => exact .inr (.inl (.inr ⟨hs, ht⟩))
  | started hc hs ht => exact .inr (.inr (.inr (.inl ⟨hs, ht, c, rfl, hc⟩)))
  | stopped hc hs ht => exact .inr (.inr (.inl ⟨hs, ht.imp_right And.left, c, rfl, hc⟩))
  | halted m hc hs ht => exact .inr (.inr (.inr (.inr (.inl ⟨hs, ht, m, congrArg some hc⟩))))
  | reset hc ht => exact .inr (.inr (.inr (.inr (.inr ⟨ht, c, rfl, hc⟩))))

/-- RUNNING from MOUNTING is the end of a mount that was under way. -/
theorem CourseEffect.mount_ended {e : Engine} (h : CourseEffect c s e) (hs : s.engine.state = .mounting)
    (ht : e.state = .running) : s.engine.mount.phase ≠ .none ∧ e.mount.phase = .none := by
  cases h with
  | follows h =>
    cases h with
    | stays h => rw [h, hs] at ht; cases ht
    | mounts _ hp _ hn => exact ⟨hp, hn⟩
    | stops h _ _ => rw [h] at hs; cases hs
  | started _ h _ => rw [h] at hs; cases hs
  | stopped _ h _ => rw [h] at hs; cases hs
  | halted _ _ _ h => rw [h] at ht; cases ht
  | reset _ h => rw [h] at ht; cases ht

/-- A state becomes STOPPED only with the engine quiescent. -/
theorem CourseEffect.quiescent {e : Engine} (h : CourseEffect c s e) (hs : s.engine.state ≠ .stopped)
    (ht : e.state = .stopped) : e.quiescent = true := by
  cases h with
  | follows h =>
    cases h with
    | stays h => exact absurd (h.symm.trans ht) hs
    | mounts _ _ h _ => rw [h] at ht; cases ht
    | stops _ _ hq => exact hq
  | started _ h _ => exact absurd h hs
  | stopped _ _ h =>
    rcases h with h | h
    · rw [h] at ht; cases ht
    · exact h.2
  | halted _ _ _ h => rw [h] at ht; cases ht
  | reset _ h => rw [h] at ht; cases ht

end Commands

/-! ### The halt cause (R170, R176) -/

/-- The halt cause is NONE exactly outside HALTED. -/
def HaltLaw (e : Engine) : Prop := e.state = .halted ↔ e.control.halt ≠ .none

/-- Moves keep the halt cause, and none of the changes of engine state among them is from or to HALTED. -/
theorem HaltLaw.flow {a e : Engine} (h : a.Flow e) (ha : HaltLaw a) : HaltLaw e := by
  have hs : e.state = .halted ↔ a.state = .halted :=
    h.state_follows (r := fun x y => y = .halted ↔ x = .halted) (fun _ => .rfl) (fun _ _ _ h1 h2 => h2.trans h1)
      fun x y hm => by rcases hm with ⟨rfl, rfl⟩ | ⟨rfl, rfl⟩ <;> decide
  rw [HaltLaw, h.halt_kept, hs]
  exact ha

theorem haltCauseOf_ne_none (m : ParityMemory) : haltCauseOf m ≠ .none := by
  cases m <;> decide

/-- A change of engine state between states that are not HALTED keeps the law. -/
theorem HaltLaw.setState {e : Engine} (h : HaltLaw e) (hs : e.state ≠ .halted) {st : EngineState} (ht : st ≠ .halted) :
    HaltLaw (e.setState st) :=
  ⟨fun k => absurd k ht, fun k => absurd (h.mpr k) hs⟩

theorem exec_haltLaw {c : Instr} {s t : State} (hn : exec c s = .next t) (h : HaltLaw s.engine) : HaltLaw t.engine := by
  cases BankControllers.exec_engineEffect hn with
  | moved hf => exact h.flow hf
  | started _ hs hf => exact (h.setState (by rw [hs]; decide) (by decide)).flow hf
  | stopped _ hs hf => exact (h.setState (by rw [hs]; decide) (by decide)).flow hf
  | halted m _ _ hf => exact HaltLaw.flow hf ⟨fun _ => haltCauseOf_ne_none m, fun _ => rfl⟩
  | reset _ g hf => exact HaltLaw.flow hf ⟨nofun, fun k => absurd rfl k⟩

theorem tick_haltLaw {s : State} (h : HaltLaw s.engine) : HaltLaw s.tick.engine := by
  unfold State.tick
  split <;> exact h

/-! ### Quiescence (R94, R172) -/

theorem bank_quiescent_iff (k : Bank) : k.quiescent = true ↔
    k.state = .idle ∧ k.stack = [] ∧ k.readQ = [] ∧ k.hostQ = [] ∧ k.reclaimQ = [] ∧ k.eraseQ = [] := by
  simp only [Bank.quiescent, Bool.and_eq_true, beq_iff_eq, List.isEmpty_iff, and_assoc]

theorem quiescent_iff (e : Engine) : e.quiescent = true ↔ (∀ x ∈ e.ctxs, x.state = .free) ∧ e.arbiter.fetching = none
    ∧ (e.reclaim.state = .idle ∨ e.reclaim.state = .paused)
    ∧ ∀ k ∈ e.banks, k.state = .idle ∧ k.stack = [] ∧ k.readQ = [] ∧ k.hostQ = [] ∧ k.reclaimQ = [] ∧ k.eraseQ = [] := by
  simp only [Engine.quiescent, Bool.and_eq_true, Bool.or_eq_true, List.all_eq_true, beq_iff_eq, Option.isNone_iff_eq_none,
    bank_quiescent_iff, and_assoc]

/-- Settles O12: with a command waiting from what the command makes of the engine state, and with none because nothing
changes it; the halt cause by its law. -/
theorem theEngineStateFollowsItsEvents : Obligations.TheEngineStateFollowsItsEvents := by
  refine ⟨fun s t hn => ?_, quiescent_iff⟩
  cases hp : s.pending with
  | nil =>
    cases (BankControllers.step_idle hp).symm.trans hn
    have hs : s.tick.engine.state = s.engine.state := by
      unfold State.tick
      split <;> rfl
    refine ⟨.inl hs, fun hm hr => ?_, fun hne ht => absurd (hs.symm.trans ht) hne, tick_haltLaw⟩
    rw [hs, hm] at hr
    cases hr
  | cons c rest =>
    have hc := (BankControllers.step_command hp).symm.trans hn
    have k := exec_courseEffect hc
    exact ⟨k.mayFollow, k.mount_ended, k.quiescent, exec_haltLaw (s := { s with pending := rest }) hc⟩

end Sys2Proof.Machine.EngineControl
end

section
/-! PROOFS. The commands of Engine Control and the register window (chapter 9): START and STOP, a parity error, and the reads and
writes of registers. -/

-- The rules are many and small: elaborated side by side they ask for more threads than there are.
set_option Elab.async false

namespace Sys2Proof.Machine.EngineControl

open Sys2Proof

/-! ### Commands of a powered part -/

section Powered

variable {s : State} (h : s.supply = .on)
include h

theorem exec_start : exec .start s = .next { s with engine := s.engine.start } :=
  congrArg Host.Outcome.next (s.withEngine_on _ h)

theorem exec_stop : exec .stop s = .next { s with engine := s.engine.stop } :=
  congrArg Host.Outcome.next (s.withEngine_on _ h)

theorem exec_parityError (m : ParityMemory) : exec (.parityError m) s = .next { s with engine := s.engine.halt m } :=
  congrArg Host.Outcome.next (s.withEngine_on _ h)

theorem exec_stateRead (offset width : Nat) :
    exec (.stateRead offset width) s = .next { s with engine := s.engine.readWindow offset width } :=
  congrArg Host.Outcome.next (s.withEngine_on _ h)

theorem exec_registerWrite (offset width : Nat) (v : BitVec 32) :
    exec (.registerWrite offset width v) s = .next (s.writeRegister offset width v) :=
  congrArg Host.Outcome.next (s.whenOn_on _ h)

theorem exec_engineReset : exec .engineReset s = .next s.engineReset := congrArg Host.Outcome.next (s.whenOn_on _ h)

theorem exec_linkReset : exec .linkReset s = .next s.linkReset := congrArg Host.Outcome.next (s.whenOn_on _ h)

end Powered

/-! ### START and STOP (R171 to R173) -/

/-- Settles O22, by whether the engine is in the state the command acts in. -/
theorem startAndStopActInOneStateEach : Obligations.StartAndStopActInOneStateEach := by
  intro s hon
  rw [exec_start hon, exec_stop hon]
  refine ⟨fun hs => ?_, fun hs => ⟨_, rfl, start_state hs, ?_⟩, fun hs => ?_, fun hs => ⟨_, rfl, stop_state hs, ?_⟩⟩
  · rw [start_of_other hs]
  · rw [Engine.start, if_pos hs]
    rfl
  · rw [stop_of_other hs]
  · rw [Engine.stop, if_pos hs]
    rfl

/-! ### A parity error (R176) -/

/-- The issue of a notice write changes the notice side alone (R165). -/
theorem issueNotice_notices (e : Engine) : e.issueNotice = { e with notices := e.issueNotice.notices } := by
  unfold Engine.issueNotice
  split
  · split <;> rfl
  · rfl

/-- What a parity error outside HALTED leaves, before the issue of the oldest notice. -/
def haltedBy (e : Engine) (m : ParityMemory) : Engine :=
  { e with
    control := { e.control with engine := .halted, halt := haltCauseOf m }
    banks := e.banks.map Bank.dropQueues
    notices := e.notices.raise (.halted (haltCauseOf m)) }

theorem halt_of_running {e : Engine} (h : e.state ≠ .halted) (m : ParityMemory) :
    e.halt m = (haltedBy e m).issueNotice := by
  rw [Engine.halt, if_neg h]
  exact RingUnit.settle_halted rfl

theorem raise_eq (n : NoticeUnit) (body : NoticeBody) : n.raise body =
    if n.queue.length < 16 then
      { n with number := (n.number + 1) % 65536, queue := n.queue ++ [{ number := n.number, body := body }] }
    else { n with number := (n.number + 1) % 65536, overrun := true } := rfl

/-- Settles O27, by whether the engine is in HALTED, and from the notice that the halt raises and what is issued of its queue. -/
theorem aParityErrorHaltsTheEngine : Obligations.AParityErrorHaltsTheEngine := by
  rintro m s _ hon rfl
  rw [exec_parityError hon]
  refine ⟨fun hs => ?_, fun hs => ⟨haltCauseOf m, s.engine.notices.raise (.halted (haltCauseOf m)),
    (haltedBy s.engine m).issueNotice.notices, ?_, raise_eq _ _, ?_, fun g x rest hg hq hw hc => ?_, fun hidle => ?_⟩⟩
  · rw [Engine.halt, if_pos hs]
  · cases m <;> rfl
  · rw [halt_of_running hs, issueNotice_notices]
    rfl
  · rw [RingUnit.issueNotice_of_credit (e := haltedBy s.engine m) hg hq hw hc]
    rfl
  · rw [RingUnit.issueNotice_of_idle (e := haltedBy s.engine m) hidle]
    rfl

/-! ### Writes of registers (R179) -/

section Writes

variable {s : State}

theorem writeRegister_of_width {width : Nat} (h : width ≠ 4) (offset : Nat) (v : BitVec 32) :
    s.writeRegister offset width v = s := if_pos h

theorem writeRegister_control (v : BitVec 32) : s.writeRegister 0x008 4 v = s.writeControl v := rfl

theorem writeControl_of_reset {v : BitVec 32} (h : v.getLsbD 2 = true) : s.writeControl v = s.engineReset := if_pos h

/-- Without ENGINE_RESET, the bits START and STOP say what a write of CONTROL is. -/
theorem writeControl_of_not_reset {v : BitVec 32} (h : v.getLsbD 2 = false) : s.writeControl v =
    match v.getLsbD 0, v.getLsbD 1 with
    | true, false => { s with engine := s.engine.start }
    | false, true => { s with engine := s.engine.stop }
    | _, _ => s := if_neg fun k => Bool.false_ne_true (h.symm.trans k)

theorem writeRegister_of_other {offset : Nat} (h : offset ∉ [0x008, 0x00C, 0x010, 0x014, 0x018, 0x01C]) (width : Nat)
    (v : BitVec 32) : s.writeRegister offset width v = s := by
  simp only [List.mem_cons, List.not_mem_nil, or_false, not_or] at h
  obtain ⟨h8, hlo, hhi, hsize, hpost, hack⟩ := h
  unfold State.writeRegister Engine.writeBase
  simp only [if_neg h8, if_neg hlo, if_neg hhi, if_neg hsize, if_neg hpost, if_neg hack, ite_self]

end Writes

/-- Settles O26, register by register. -/
theorem aRegisterWriteIsItsCommand : Obligations.ARegisterWriteIsItsCommand := by
  intro offset width v s hon
  refine ⟨fun hw => ?_, fun h2 => ?_, fun h2 h0 h1 => ?_, fun h2 h0 h1 => ?_, fun h2 h01 => ?_, ?_, ?_, ?_, ?_, ?_, fun ho => ?_⟩
  · rw [exec_registerWrite hon, writeRegister_of_width hw]
  · rw [exec_registerWrite hon, writeRegister_control, writeControl_of_reset h2, exec_engineReset hon]
  · rw [exec_registerWrite hon, writeRegister_control, writeControl_of_not_reset h2, h0, h1, exec_start hon]
  · rw [exec_registerWrite hon, writeRegister_control, writeControl_of_not_reset h2, h0, h1, exec_stop hon]
  · rw [exec_registerWrite hon, writeRegister_control, writeControl_of_not_reset h2, h01]
    cases v.getLsbD 1 <;> rfl
  · rw [exec_registerWrite hon]
    rfl
  · rw [exec_registerWrite hon]
    rfl
  · rw [exec_registerWrite hon, RingUnit.exec_adminSizeWrite hon]
    rfl
  · rw [exec_registerWrite hon, RingUnit.exec_post hon]
    rfl
  · rw [exec_registerWrite hon, RingUnit.exec_ack hon]
    rfl
  · rw [exec_registerWrite hon, writeRegister_of_other ho]

/-! ### Reads of registers (R179, R180) -/

section Reads

variable (e : Engine)

theorem windowByte_lt (offset : Nat) : e.windowByte offset < 256 := Nat.mod_lt _ (by decide)

theorem windowBytes_lt (offset width : Nat) : e.windowBytes offset width < 256 ^ width := by
  induction width generalizing offset with
  | zero => exact Nat.one_pos
  | succ width ih =>
    have hb := windowByte_lt e offset
    have hr := ih (offset + 1)
    rw [Engine.windowBytes, Nat.pow_succ]
    omega

/-- The bytes that a read returns are those of the window, the lowest first. -/
theorem windowBytes_digit (offset : Nat) {width i : Nat} (h : i < width) :
    e.windowBytes offset width / 256 ^ i % 256 = e.windowByte (offset + i) := by
  induction width generalizing offset i with
  | zero => cases h
  | succ width ih =>
    have hb := windowByte_lt e offset
    rw [Engine.windowBytes]
    cases i with
    | zero =>
      rw [Nat.pow_zero, Nat.div_one]
      simp only [Nat.add_zero]
      omega
    | succ i =>
      have hdiv : (e.windowByte offset + 256 * e.windowBytes (offset + 1) width) / 256 = e.windowBytes (offset + 1) width := by
        omega
      rw [Nat.pow_succ', ← Nat.div_div_eq_div_mul, hdiv, ih (offset + 1) (Nat.lt_of_succ_lt_succ h), Nat.add_assoc,
        Nat.add_comm 1 i]

/-- The register that an offset lies in (R179). -/
theorem readRegister_eq (offset : Nat) : e.readRegister (offset - offset % 4) =
    match offset / 4 with
    | 0 => 0x06400002
    | 1 => e.stateRegister
    | 3 => e.registers.adminBaseLo.toNat
    | 4 => e.registers.adminBaseHi.toNat
    | 5 => e.registers.adminSize.toNat
    | _ => 0 := by
  have ho : offset - offset % 4 = 4 * (offset / 4) := by omega
  rw [ho]
  match offset / 4 with
  | 0 | 1 | 2 | 3 | 4 | 5 => rfl
  | n + 6 =>
    unfold Engine.readRegister
    repeat rw [if_neg (by omega)]
    rfl

theorem bitAt_eq (i : Nat) (b : Bool) : bitAt i b = 2 ^ i * b.toNat := by
  cases b <;> simp [bitAt]

/-- A bit of a number is the digit at its place. -/
theorem testBit_of_digit {w i : Nat} {b : Bool} (h : w / 2 ^ i % 2 = b.toNat) : w.testBit i = b := by
  rw [Nat.testBit_eq_decide_div_mod_eq, h]
  cases b <;> rfl

/-- STATE as the sum of its fields, each at its place (R180). -/
theorem stateRegister_eq (c : ReadOnlyCauses) (f : StickyFlags) (hc : c = e.control.causes) (hf : f = e.control.sticky) :
    e.stateRegister = e.state.code + 8 * c.any.toNat + 16 * c.retiredLimit.toNat + 32 * c.indexOverflow.toNat
      + 64 * c.writeSequence.toNat + 128 * c.segmentSequence.toNat
      + 256 * (if e.state = .mounting then e.mount.phase.code else 0) + 4096 * e.control.halt.code + 65536 * f.postError.toNat
      + 131072 * f.adminSetupError.toNat + 262144 * f.noticeFault.toNat := by
  subst hc hf
  simp only [Engine.stateRegister, ReadOnlyCauses.bits, bitAt_eq, Engine.readOnly]
  omega

/-- The flags that a read returns with their byte are cleared (R180). -/
theorem readWindow_eq (offset width : Nat) : e.readWindow offset width = { e with
    control := if offset ≤ 6 ∧ 6 < offset + width then { e.control with
      sticky := { e.control.sticky with postError := false, adminSetupError := false } } else e.control
    output := .readData width (e.windowBytes offset width) :: e.output } := by
  unfold Engine.readWindow StickyFlags.afterRead flagByte
  by_cases h : offset ≤ 6 ∧ 6 < offset + width
  · simp only [h, and_self, decide_true, Bool.and_self, if_true]
    rfl
  · have hb : (decide (offset ≤ 6) && decide (6 < offset + width)) = false := by simpa using h
    simp only [h, hb, if_false, Bool.false_eq_true]
    rfl

end Reads

theorem state_code_lt (st : EngineState) : st.code < 8 := by
  cases st <;> decide

theorem phase_code_lt (p : MountPhase) : p.code < 16 := by
  cases p <;> decide

theorem halt_code_lt (c : HaltCause) : c.code < 16 := by
  cases c <;> decide

/-- Settles O25, from the bytes of the window, the register each lies in, and the fields of STATE. -/
theorem aRegisterReadReturnsItsBytes : Obligations.ARegisterReadReturnsItsBytes := by
  refine ⟨fun s offset width hon => ⟨s.engine.windowBytes offset width, s.engine.stateRegister, ?_,
    windowBytes_lt _ _ _, fun i hi => ⟨_, windowBytes_digit _ _ hi, readRegister_eq _ _⟩, ?_⟩, by decide, by decide, by decide,
    fun _ => rfl⟩
  · rw [exec_stateRead hon, readWindow_eq]
  · have hw := stateRegister_eq s.engine _ _ rfl rfl
    generalize s.engine.stateRegister = w at hw
    have hstate := state_code_lt s.engine.state
    have hphase : (if s.engine.state = .mounting then s.engine.mount.phase.code else 0) < 16 := by
      split
      · exact phase_code_lt _
      · decide
    have hhalt := halt_code_lt s.engine.control.halt
    generalize (if s.engine.state = .mounting then s.engine.mount.phase.code else 0) = p at hw hphase ⊢
    have hany := Bool.toNat_lt s.engine.control.causes.any
    have hretired := Bool.toNat_lt s.engine.control.causes.retiredLimit
    have hindex := Bool.toNat_lt s.engine.control.causes.indexOverflow
    have hwrite := Bool.toNat_lt s.engine.control.causes.writeSequence
    have hsegment := Bool.toNat_lt s.engine.control.causes.segmentSequence
    have hpost := Bool.toNat_lt s.engine.control.sticky.postError
    have hadmin := Bool.toNat_lt s.engine.control.sticky.adminSetupError
    have hnotice := Bool.toNat_lt s.engine.control.sticky.noticeFault
    refine ⟨?_, testBit_of_digit ?_, testBit_of_digit ?_, testBit_of_digit ?_, testBit_of_digit ?_, testBit_of_digit ?_, ?_, ?_,
      testBit_of_digit ?_, testBit_of_digit ?_, testBit_of_digit ?_, ?_⟩ <;> omega

end Sys2Proof.Machine.EngineControl
end

section
/-! PROOFS. The resets and the supply (R96, R174, R175): the state after reset, the engine a reset leaves, and what a cut leaves in
the cell array. -/

-- The rules are many and small: elaborated side by side they ask for more threads than there are.
set_option Elab.async false

namespace Sys2Proof.Machine.EngineControl

open Sys2Proof

/-! ### The state after reset (R170) -/

theorem reset_banksLawful : State.reset.engine.banksLawful := by
  have hfirst : ({ state := .active, active := some { request := firstSurveyRead } } : Bank).lawful := by
    exact ⟨⟨nofun, nofun, nofun, nofun⟩, ⟨.inl rfl, nofun, nofun⟩, nofun, Nat.zero_le _⟩
  intro k hk
  have hmem : k ∈ [({ state := .active, active := some { request := firstSurveyRead } } : Bank), {}, {}, {}] := hk
  simp only [List.mem_cons, List.not_mem_nil, or_false] at hmem
  rcases hmem with rfl | rfl | rfl | rfl
  · exact hfirst
  all_goals exact Bank.reset_lawful

theorem reset_sound : State.reset.sound :=
  ⟨List.Pairwise.nil, ⟨List.Pairwise.nil, Nat.zero_le _⟩, reset_banksLawful,
    List.length_replicate, List.length_replicate, List.length_replicate, rfl, rfl⟩

theorem reset_creditLaw : State.reset.engine.creditLaw := fun g hg => by
  rw [(List.mem_replicate.mp hg).2]
  exact .inl rfl

/-- No entry has a location, and the mount is in its survey. -/
theorem reset_locationLaw : State.reset.engine.locationLaw := by
  refine ⟨fun l hl => ?_, fun _ => ⟨rfl, rfl, rfl, rfl, fun _ => rfl, fun h => ?_, fun h => ?_⟩⟩
  · cases hl
  · cases h
  · cases h

/-- Settles O2, field by field, and law by law. -/
theorem theResetStateIsLawful : Obligations.TheResetStateIsLawful :=
  ⟨rfl, rfl, rfl, rfl, rfl, rfl, fun _ hx => by rw [(List.mem_replicate.mp hx).2], fun _ hg => by rw [(List.mem_replicate.mp hg).2],
    rfl, rfl, rfl, rfl, rfl, reset_sound, ⟨Nat.zero_le _, Nat.zero_lt_succ _, fun _ hx => by cases hx⟩,
    Engine.refreshLaw.of_nil rfl, RingUnit.default_limits_hold, reset_creditLaw, reset_locationLaw⟩

/-! ### The supply (R175) -/

/-- Without supply, or held in reset, a command has no effect. -/
theorem whenOn_of_not_on {s : State} (h : s.supply ≠ .on) (f : State → State) : s.whenOn f = s := by
  unfold State.whenOn
  split
  · next hon => exact absurd hon h
  · rfl

theorem exec_coldReset (s : State) : exec .coldReset s = .next s.coldReset := rfl

theorem exec_powerLoss (s : State) : exec .powerLoss s = .next s.losePower := rfl

theorem exec_resetInputAsserted {s : State} (h : s.supply ≠ .off) : exec .resetInputAsserted s = .next s.holdReset := by
  show execResetInputAsserted s = _
  unfold execResetInputAsserted
  split
  · next hoff => exact absurd hoff h
  · rfl

theorem exec_of_not_on {s : State} (h : s.supply ≠ .on) {c : Instr} (hcold : c ≠ .coldReset) (hinput : c ≠ .resetInputAsserted)
    (hloss : c ≠ .powerLoss) : exec c s = .next s := by
  cases c with
  | coldReset => exact absurd rfl hcold
  | resetInputAsserted => exact absurd rfl hinput
  | powerLoss => exact absurd rfl hloss
  | _ => exact congrArg Host.Outcome.next (whenOn_of_not_on h _)

/-- Settles O4: each of the two events leaves the fresh engine and the cut array, and another command meets no supply. -/
theorem supplyEventsStopTheEngine : Obligations.SupplyEventsStopTheEngine := by
  intro s fresh hfresh
  have hf : fresh (s.engine.fresh {}) := (hfresh _).mpr ⟨rfl, rfl⟩
  refine ⟨fun hs => ⟨s.holdReset, exec_resetInputAsserted hs, rfl, rfl, rfl, hf⟩,
    ⟨s.losePower, exec_powerLoss s, rfl, rfl, rfl, hf⟩, fun c hs hcold hinput hloss => exec_of_not_on hs hcold hinput hloss⟩

/-! ### The admin ring that a reset leaves (R153) -/

theorem ringSizeHolds_256_iff (n : Nat) : ringSizeHolds 256 n = true ↔ n ∈ [16, 32, 64, 128, 256] := by
  simp only [ringSizeHolds, Bool.and_eq_true, Bool.or_eq_true, decide_eq_true_eq, beq_iff_eq, List.mem_cons,
    List.not_mem_nil, or_false]
  omega

/-- A ring with nothing in it that the end of a step would take up. -/
def emptyRing (g : RingContext) : Prop := g.state ≠ .faulted ∧ g.closing = none ∧ g.posting = [] ∧ g.unfetched = 0

theorem emptyRing_closed : emptyRing {} := ⟨by decide, rfl, rfl, rfl⟩

theorem emptyRing_adminRing (base size : Nat) : emptyRing (adminRing base size) := by
  by_cases h : ringSizeHolds 256 size = true ∧ base % 64 = 0
  · rw [RingUnit.adminRing_of_holds h.1 h.2]
    exact ⟨nofun, rfl, rfl, by simp [RingContext.unfetched]⟩
  · rw [RingUnit.adminRing_of_not h]
    exact emptyRing_closed

/-! ### The engine a reset leaves (R174, R175) -/

/-- The engine a reset leaves with some job rings, its mount started. -/
def freshMount (e : Engine) (g : Registers) (rings : List RingContext) : Engine :=
  { e.fresh g with
    rings := rings
    banks := [{ state := .active, active := some { request := firstSurveyRead } }, {}, {}, {}]
    mount := { phase := .survey, started := e.now } }

theorem startMount_fresh (e : Engine) (g : Registers) : (e.fresh g).startMount = freshMount e g (List.replicate 8 {}) := rfl

theorem startMount_initAdminRing_fresh (e : Engine) (g : Registers) : (e.fresh g).initAdminRing.startMount =
    freshMount e g (adminRing g.adminBase g.adminSize.toNat :: List.replicate 7 {}) := rfl

section FreshMount

variable (e : Engine) (g : Registers) {rings : List RingContext} (h : ∀ k ∈ rings, emptyRing k)
include h

theorem freshMount_eligible (r : Nat) : (freshMount e g rings).eligible r = false := by
  refine Bool.eq_false_iff.mpr fun he => ?_
  have hlt : r < rings.length := RingUnit.ring_lt_of_eligible he
  have hr : (freshMount e g rings).rings[r]? = some rings[r] := List.getElem?_eq_getElem hlt
  have hu := (RingUnit.eligible_iff.mp he).2.1
  rw [Engine.ring_of hr, (h _ (List.mem_of_getElem? hr)).2.2.2] at hu
  cases hu

/-- A fresh mount waits for its first survey read alone. -/
theorem freshMount_settle : (freshMount e g rings).settle = freshMount e g rings := by
  refine RingUnit.settle_of_calm ⟨.inr (.inl rfl), fun k hk => ?_, nofun, rfl, rfl, rfl, rfl, rfl,
    .inr (freshMount_eligible e g h), .inl rfl⟩
  obtain ⟨hstate, hclosing, hposting, _⟩ := h k hk
  exact ⟨hstate, hclosing, .inl hposting⟩

end FreshMount

theorem emptyRing_of_replicate {n : Nat} {k : RingContext} (h : k ∈ List.replicate n {}) : emptyRing k :=
  (List.mem_replicate.mp h).2 ▸ emptyRing_closed

/-- The fresh engine settles into its mount, with every ring CLOSED. -/
theorem fresh_startMount_settle (e : Engine) (g : Registers) :
    (e.fresh g).startMount.settle = freshMount e g (List.replicate 8 {}) := by
  rw [startMount_fresh, freshMount_settle e g fun _ => emptyRing_of_replicate]

theorem fresh_initAdminRing_settle (e : Engine) (g : Registers) : (e.fresh g).initAdminRing.startMount.settle =
    freshMount e g (adminRing g.adminBase g.adminSize.toNat :: List.replicate 7 {}) := by
  rw [startMount_initAdminRing_fresh, freshMount_settle e g fun k hk => ?_]
  rcases List.mem_cons.mp hk with rfl | hk
  · exact emptyRing_adminRing _ _
  · exact emptyRing_of_replicate hk

/-- What a reset leaves but the rings and the registers, which each reset sets for itself. -/
theorem freshFrom_of_engine {t s : State} (hon : t.supply = .on) (hp : t.pending = s.pending)
    (ha : t.array = s.array.cutAll s.engine.draws s.engine.startedOps) {g : Registers} {rings : List RingContext}
    (he : t.engine = freshMount s.engine g rings) : t.freshFrom s := by
  unfold State.freshFrom
  rw [he]
  exact ⟨hon, hp, ha, rfl, rfl, rfl, rfl, rfl, rfl, rfl, rfl, rfl, rfl, rfl, rfl⟩

section Resets

variable (s : State)

theorem engineReset_engine : s.engineReset.engine = freshMount s.engine s.engine.registers
    (adminRing s.engine.registers.adminBase s.engine.registers.adminSize.toNat :: List.replicate 7 {}) :=
  s.engineReset_engine.trans (fresh_initAdminRing_settle _ _)

theorem linkReset_engine : s.linkReset.engine = freshMount s.engine {} (List.replicate 8 {}) :=
  s.linkReset_engine.trans (fresh_startMount_settle _ _)

theorem coldReset_engine : s.coldReset.engine = freshMount s.engine {} (List.replicate 8 {}) :=
  s.coldReset_engine.trans (fresh_startMount_settle _ _)

end Resets

/-! ### The transfers a reset abandons (R53, R169) -/

section Abandoned

variable (e : Engine) (h : HostOutput)

theorem mem_context_abandoned (x : JobContext) : h ∈ x.abandoned ↔
    ∃ address bytes, x.transfer = some (.store address bytes) ∧ h = .maybeMemory address bytes := by
  unfold JobContext.abandoned
  split
  · next address bytes hx =>
    refine ⟨fun hm => ⟨address, bytes, hx, List.mem_singleton.mp hm⟩, ?_⟩
    rintro ⟨_, _, ht, rfl⟩
    cases hx.symm.trans ht
    exact List.mem_singleton_self _
  · next hno => exact ⟨nofun, fun ⟨address, bytes, ht, _⟩ => absurd ht (hno address bytes)⟩

theorem mem_abandonedRecord (g : RingContext) : h ∈ e.abandonedRecord g ↔ ∃ c rest, g.writing = true ∧ g.posting = c :: rest
    ∧ h = .maybeMemory (g.doneBase + 32 * g.doneIndex) ((e.ctx c).doneRecord g.donePhase) := by
  unfold Engine.abandonedRecord
  split
  · next c rest hw hp =>
    refine ⟨fun hm => ⟨c, rest, hw, hp, List.mem_singleton.mp hm⟩, ?_⟩
    rintro ⟨_, _, -, hq, rfl⟩
    cases hp.symm.trans hq
    exact List.mem_singleton_self _
  · next hno => exact ⟨nofun, fun ⟨c, rest, hw, hp, _⟩ => (hno c rest hw hp).elim⟩

theorem mem_notice_abandoned (n : NoticeUnit) : h ∈ n.abandoned ↔ ∃ g x rest, n.writing = true ∧ n.ring = some g
    ∧ n.queue = x :: rest ∧ h = .maybeMemory (g.base + 32 * g.writeIndex) (x.record g.phase) := by
  unfold NoticeUnit.abandoned
  split
  · next g x rest hw hg hq =>
    refine ⟨fun hm => ⟨g, x, rest, hw, hg, hq, List.mem_singleton.mp hm⟩, ?_⟩
    rintro ⟨_, _, _, -, hr, hl, rfl⟩
    cases hg.symm.trans hr
    cases hq.symm.trans hl
    exact List.mem_singleton_self _
  · next hno => exact ⟨nofun, fun ⟨g, x, rest, hw, hg, hq, _⟩ => (hno g x rest hw hg hq).elim⟩

/-- What the abandoned transfers may have written, by whether it is a context's, a done record or a notice. -/
theorem mem_abandoned : h ∈ e.abandoned ↔
    (∃ x ∈ e.ctxs, ∃ address bytes, x.transfer = some (.store address bytes) ∧ h = .maybeMemory address bytes)
      ∨ (∃ g ∈ e.rings, ∃ c rest, g.writing = true ∧ g.posting = c :: rest
        ∧ h = .maybeMemory (g.doneBase + 32 * g.doneIndex) ((e.ctx c).doneRecord g.donePhase))
      ∨ ∃ g n rest, e.notices.writing = true ∧ e.notices.ring = some g ∧ e.notices.queue = n :: rest
        ∧ h = .maybeMemory (g.base + 32 * g.writeIndex) (n.record g.phase) := by
  simp only [Engine.abandoned, List.mem_append, List.mem_flatMap, mem_context_abandoned, mem_abandonedRecord,
    mem_notice_abandoned, or_assoc]

end Abandoned

/-! ### What a cut leaves in the array (R96) -/

section Cut

variable {a : CellArray} {q : Request}

theorem cutShort_of_reading (h : q.kind = .read ∨ q.kind = .blankCheck) (draw : Nat) : a.cutShort draw q = a := by
  unfold CellArray.cutShort
  rcases h with h | h <;> rw [h]

theorem cutShort_of_erase (h : q.kind = .erase) (draw : Nat) : a.cutShort draw q = a.partialErase draw q.seg := by
  unfold CellArray.cutShort
  rw [h]

theorem cutShort_of_retireCell (h : q.kind = .retireCell) (draw : Nat) :
    a.cutShort draw q = a.set (2048 * q.seg + q.cell) (some (.torn draw)) := by
  unfold CellArray.cutShort
  rw [h]
  rfl

/-- The programs but that of a retire cell. -/
theorem cutShort_of_program
    (h : q.kind ∈ [RequestKind.hostRecord, .reclaimRecord, .hostOpen, .reclaimOpen, .formatCell]) (draw : Nat) :
    a.cutShort draw q = a.cutProgram draw (2048 * q.seg + q.cell) q.contents := by
  simp only [List.mem_cons, List.not_mem_nil, or_false] at h
  unfold CellArray.cutShort
  rcases h with h | h | h | h | h <;> rw [h] <;> rfl

end Cut

/-- Settles O3, from the fresh mount that each reset leaves, the transfers it abandons, and the form each cut takes. -/
theorem aResetStartsAFreshMount : Obligations.AResetStartsAFreshMount := by
  refine ⟨fun s => ⟨fun hon => ?_, fun hon => ?_, ?_⟩, fun e h => ⟨rfl, mem_abandoned e h⟩, fun a draw o os => ⟨?_, rfl⟩,
    fun tag => rfl, ?_, fun base size => ⟨fun hs hb => ?_, fun hno => ?_⟩⟩
  · have he := engineReset_engine s
    exact ⟨s.engineReset, exec_engineReset hon, freshFrom_of_engine hon rfl rfl he, by rw [he]; rfl, by rw [he]; rfl⟩
  · have he := linkReset_engine s
    exact ⟨s.linkReset, exec_linkReset hon, freshFrom_of_engine hon rfl rfl he, by rw [he]; rfl, by rw [he]; rfl⟩
  · have he := coldReset_engine s
    exact ⟨s.coldReset, exec_coldReset s, freshFrom_of_engine rfl rfl rfl he, by rw [he]; rfl, by rw [he]; rfl⟩
  · cases a <;> rfl
  · rintro a b draw first q ha rfl rfl
    refine ⟨fun hk => cutShort_of_reading hk draw, fun hk => ?_, fun hk => ?_, fun hk => ?_⟩
    · rw [cutShort_of_erase hk]
      exact ⟨fun n hn => CellArray.get_partialErase_out draw q.seg n (SegmentSpace.inSegment_eq_false hn),
        CellArray.partialErase_format ha draw q.seg⟩
    · rw [cutShort_of_retireCell hk]
      exact ⟨⟨draw, CellArray.get_set_self ha _ _⟩, fun n hn => CellArray.get_set_ne _ n _ hn⟩
    · rw [cutShort_of_program hk]
      exact ⟨fun n hn => CellArray.get_cutProgram_out draw _ _ n hn,
        fun i d hi => BankControllers.get_cutProgram_in ha draw _ _ hi, CellArray.cutProgram_torn ha draw _ _⟩
  · exact RingUnit.adminRing_of_holds ((ringSizeHolds_256_iff size).mpr hs) hb
  · exact RingUnit.adminRing_of_not (by rwa [ringSizeHolds_256_iff])

end Sys2Proof.Machine.EngineControl
end

section
/-! PROOFS. The admin jobs (chapter 10): SET_LIMITS and the space event test (R72, R183), then FORMAT, from its refusals to its
end (R188 to R190, R178). -/

namespace Sys2Proof.Machine.AdminJobs

open Sys2Proof

/-- The outcome of an admin job that is refused with result fields (R182). -/
theorem adminOutcome_failed {st : Status} (h : st ≠ .ok) (results : Results) :
    adminOutcome st results = { status := st, results := results } := by
  simp [adminOutcome, h]

/-! ### The limits (R183) -/

theorem limitHolds_iff (lo hi n : Nat) : limitHolds lo hi n = true ↔ n = 0 ∨ (lo ≤ n ∧ n ≤ hi) := by
  simp [limitHolds]

theorem limitsHold_iff (d : Descriptor) : limitsHold d = true ↔
    (d.lowWater = 0 ∨ (8 ≤ d.lowWater ∧ d.lowWater ≤ 64)) ∧ (d.spaceWait = 0 ∨ (10 ≤ d.spaceWait ∧ d.spaceWait ≤ 2000))
      ∧ (d.eraseQuantum = 0 ∨ (200 ≤ d.eraseQuantum ∧ d.eraseQuantum ≤ 5000))
      ∧ (d.threshold = 0 ∨ (1 ≤ d.threshold ∧ d.threshold ≤ 4)) := by
  simp only [limitsHold, Bool.and_eq_true, limitHolds_iff, and_assoc]

section Limits

variable {e : Engine} {c : Nat} {x : JobContext} {s : State}

theorem exec_setLimits (h : s.jobAt c .setLimits x) :
    exec (.setLimits c) s = .next { s with engine := (s.engine.setLimitsStep c).settle } := congrArg Host.Outcome.next (h.step _)

theorem setLimitsStep_refused (hx : e.ctx c = x) (h : limitsHold x.descriptor = false) :
    e.setLimitsStep c = e.complete c { status := .badParam, results := .limits e.control.limits } := by
  simp only [Engine.setLimitsStep, hx, h, Bool.not_false, if_true, Engine.answer, adminOutcome_failed (nofun : Status.badParam ≠ .ok)]

/-- The engine with the limits that a SET_LIMITS leaves in force. -/
def limited (e : Engine) (d : Descriptor) : Engine :=
  { e with control := { e.control with limits := e.control.limits.changed d } }

theorem setLimitsStep_taken (hx : e.ctx c = x) (h : limitsHold x.descriptor = true) : e.setLimitsStep c =
    (if Descriptor.lowWater x.descriptor = 0 then limited e x.descriptor else (limited e x.descriptor).spaceTest).complete c
      { status := .ok, flags := { succeeded := true }, results := .limits (e.control.limits.changed x.descriptor) } := by
  simp only [Engine.setLimitsStep, hx, h, Bool.not_true, Bool.false_eq_true, if_false, Engine.answer, RingUnit.adminOutcome_ok]
  rfl

end Limits

/-! ### The space event test (R72) -/

section Level

variable {e : Engine}

theorem spaceTest_mounting (hm : e.state = .mounting) : e.spaceTest = e := if_pos hm

theorem spaceTest_of_normal (hm : e.state ≠ .mounting) (hl : e.space.low = false) : e.spaceTest =
    if e.freeCount ≤ e.control.limits.lowWater then { e with
      space := { e.space with low := true }
      reclaim := { e.reclaim with continuous := true, choiceDue := true }
      notices := e.notices.raise (.spaceLow e.freeCount e.control.limits.lowWater) }
    else e := by
  simp only [Engine.spaceTest, if_neg hm, hl, Bool.false_eq_true, if_false]
  rfl

theorem spaceTest_of_low (hm : e.state ≠ .mounting) (hl : e.space.low = true) : e.spaceTest =
    if e.control.limits.lowWater + 4 < e.freeCount then { e with
      space := { e.space with low := false }
      reclaim := { e.reclaim with continuous := false }
      notices := e.notices.raise (.spaceRestored e.freeCount e.control.limits.lowWater) }
    else e := by
  simp only [Engine.spaceTest, if_neg hm, hl, if_true]
  rfl

end Level

/-- Settles O56, by the ranges of the four limits, and by the level and the FREE count at the space event test. -/
theorem aSetLimitsTakesAllOrNone : Obligations.ASetLimitsTakesAllOrNone := by
  refine ⟨fun s c x d old new ok hj hd hold hok hnew => ?_, fun e free low hfree hlow => ?_⟩
  · subst hd hold hnew
    obtain rfl : ok = limitsHold x.descriptor := Bool.eq_iff_iff.mpr (hok.trans (limitsHold_iff _).symm)
    rw [exec_setLimits hj]
    refine ⟨fun h => ?_, fun h h0 => ?_, fun h h0 => ?_⟩
    · rw [setLimitsStep_refused hj.ctx h]
    · rw [setLimitsStep_taken hj.ctx h, if_pos h0]
      rfl
    · rw [setLimitsStep_taken hj.ctx h, if_neg h0]
      rfl
  · subst hfree hlow
    refine ⟨spaceTest_mounting, fun hm hl h => ?_, fun hm hl h => ?_, fun hm hl h => ?_, fun hm hl h => ?_⟩
    · rw [spaceTest_of_normal hm hl, if_neg (Nat.not_le.mpr h)]
    · rw [spaceTest_of_normal hm hl, if_pos h]
    · rw [spaceTest_of_low hm hl, if_neg (Nat.not_lt.mpr h)]
    · rw [spaceTest_of_low hm hl, if_pos h]

/-! ### FORMAT is refused or accepted (R188) -/

section Accept

variable {e : Engine} {c : Nat} {x : JobContext} {s : State}

theorem exec_format (h : s.jobAt c .format x) :
    exec (.format c) s = .next { s with engine := (s.engine.formatStep c).settle } := congrArg Host.Outcome.next (h.step _)

/-- A data ring is one of rings 1 to 7. -/
theorem dataRingOpen_iff (e : Engine) : e.dataRingOpen = true ↔ ∃ r, 1 ≤ r ∧ r ≤ 7 ∧ (e.ring r).state ≠ .closed := by
  have hmem (r : Nat) : r ∈ [1, 2, 3, 4, 5, 6, 7] ↔ 1 ≤ r ∧ r ≤ 7 := by
    simp only [List.mem_cons, List.not_mem_nil, or_false]
    omega
  simp only [Engine.dataRingOpen, List.any_eq_true, hmem, bne_iff_ne, and_assoc]

theorem formatStep_mounting (hm : e.state = .mounting) : e.formatStep c = e.complete c { status := .notMounted } := by
  rw [Engine.formatStep, if_pos hm]
  rfl

theorem formatStep_busy (hm : e.state ≠ .mounting) (h : e.formatting = true ∨ e.dataRingOpen = true) :
    e.formatStep c = e.complete c { status := .busy } := by
  have hbusy : e.answer c .busy = e.complete c { status := .busy } := rfl
  rw [Engine.formatStep, if_neg hm, hbusy]
  rcases h with h | h
  · rw [if_pos h]
  · rw [if_pos h, ite_self]

theorem formatStep_accepted (hx : e.ctxs[c]? = some x) (hm : e.state ≠ .mounting) (hf : e.formatting = false)
    (hr : e.dataRingOpen = false) : e.formatStep c = { e with
      ctxs := e.ctxs.set c { x with state := .media, ready := false }
      format := some { ctx := c, started := e.now } } := by
  rw [Engine.formatStep, if_neg hm, if_neg (Bool.eq_false_iff.mp hf), if_neg (Bool.eq_false_iff.mp hr),
    Reclamation.waitInMedia_eq hx]
  rfl

end Accept

/-! ### The reclaim ends, and the segments are released (R73, R127, R189) -/

section Stages

variable {e k : Engine} {f : FormatRun} {n : Nat}

/-- The end of a reclaim for a FORMAT, from an engine `k` in which the requester, if there is one, has been answered: the unit
becomes IDLE (R127, R130). -/
theorem endReclaim_eq (hnone : e.reclaim.requester = none → k = e)
    (hsome : ∀ c, e.reclaim.requester = some c → k = e.complete c
      { status := .busy, results := .reclaim e.reclaim.victim .held (e.reclaim.cursor.getD 0) e.reclaim.tallies }) :
    e.endReclaim = { k with reclaim := { e.reclaim with
      state := .idle, victim := none, cursor := none, causes := {}, requester := none, tallies := {}, step := .none
      sweep := none } } := by
  cases hr : e.reclaim.requester with
  | none =>
    rw [hnone hr, Engine.endReclaim, Reclamation.answerRequester_unasked hr, ← hr]
    rfl
  | some c =>
    rw [hsome c hr, Engine.endReclaim, Engine.answerRequester, hr]
    rfl

theorem endReclaim_index (e : Engine) : e.endReclaim.index = e.index := by
  unfold Engine.endReclaim Engine.answerRequester
  split <;> rfl

theorem endReclaim_space (e : Engine) : e.endReclaim.space = e.space := by
  unfold Engine.endReclaim Engine.answerRequester
  split <;> rfl

theorem formatSegs_eq (e : Engine) :
    e.formatSegs = (List.range e.space.segs.length).filter fun n => formatTakes e.space.released (e.seg n) n := by
  rw [Engine.formatSegs, Mounting.segTable_eq_map, List.filter_map, List.map_map]
  exact List.map_id _

/-- The segments that a FORMAT takes enter ERASING, and no segment has live cells (R63, R73). -/
theorem formatted_segTable (e : Engine) : (e.segTable.map fun p => p.1.formatted e.space.released p.2) =
    e.space.segs.mapIdx fun n g => if n ∈ e.formatSegs then
      { g with state := .erasing, role := none, progFailed := false, live := 0 } else { g with live := 0 } := by
  refine List.ext_getElem (by simp [Engine.segTable]) fun i hi _ => ?_
  have hs : i < e.space.segs.length := by simpa [Engine.segTable] using hi
  simp [Engine.segTable, formatSegs_eq, Engine.seg, hs, SegRecord.formatted]

/-- What stages 2 and 3 leave of an engine `k` with the index and the segments of `e`: the erases of the segments that are not
pinned are queued (R189). -/
theorem formatRelease_eq (hi : k.index = e.index) (hs : k.space = e.space) (f : FormatRun) : k.formatRelease f =
    (e.formatSegs.filter fun n => (e.seg n).pins == 0).foldl
      (fun m n => m.enqueue { kind := .erase, seg := n, cell := 0, count := 2048, requester := .space })
      { k with
        index := { e.index with entries := [] }
        space := { e.space with
          segs := e.space.segs.mapIdx fun n g => if n ∈ e.formatSegs then
            { g with state := .erasing, role := none, progFailed := false, live := 0 } else { g with live := 0 }
          rotation := 3, pinWait := e.space.pinWait ++ e.formatSegs.filter fun n => (e.seg n).pins != 0 }
        reclaim := { k.reclaim with refresh := [] }
        format := some { f with stage := .erasing, segs := e.formatSegs } } := by
  rw [← formatted_segTable]
  simp only [Engine.formatRelease, Engine.formatSegs, Engine.segTable, Engine.seg, hi, hs]
  rfl

theorem formatBegin_waits (hf : e.format = some f)
    (h : f.stage ≠ .ending ∨ e.reclaim.state = .grantWait ∨ e.reclaim.state = .stepping) : e.formatBegin = e := by
  simp only [Engine.formatBegin, hf]
  rcases h with h | h | h <;> simp [h]

theorem formatBegin_releases (hf : e.format = some f) (hs : f.stage = .ending)
    (h : e.reclaim.state = .idle ∨ e.reclaim.state = .paused ∨ e.reclaim.state = .released) :
    e.formatBegin = e.endReclaim.formatRelease f := by
  simp only [Engine.formatBegin, hf]
  rcases h with h | h | h <;> simp [h, hs]

/-! ### The erases end (R189, R190) -/

theorem formatCounts_of_none (h : e.format = none) (n : Nat) (retired : Bool) : e.formatCounts n retired = e := by
  simp only [Engine.formatCounts, h]

theorem formatCounts_other (hf : e.format = some f) (hn : n ∉ f.segs) (retired : Bool) : e.formatCounts n retired = e := by
  simp only [Engine.formatCounts, hf, List.contains_iff_mem, if_neg hn]

theorem formatCounts_taken (hf : e.format = some f) (hn : n ∈ f.segs) (retired : Bool) : e.formatCounts n retired =
    { e with format := some { f with
      erased := f.erased + (if retired then 0 else 1), retired := f.retired + (if retired then 1 else 0) } } := by
  simp only [Engine.formatCounts, hf, List.contains_iff_mem, if_pos hn]
  cases retired <;> rfl

theorem formatEnd_eq (hf : e.format = some f) : e.formatEnd =
    if f.stage = .erasing ∧ (∀ g ∈ e.space.segs, g.state ≠ .erasing) ∧ e.space.released = none then e.formatFinish f else e := by
  simp only [Engine.formatEnd, hf, Engine.countSegs, Bool.and_eq_true, decide_eq_true_eq, List.countP_eq_zero,
    Option.isNone_iff_eq_none, and_assoc]

/-! ### The end (R178, R190) -/

theorem any_retiredLimit (b : Bool) : ({ retiredLimit := b } : ReadOnlyCauses).any = b := by
  simp [ReadOnlyCauses.any]

/-- The mode is recomputed: it becomes WRITABLE of a READ_ONLY engine with fewer than 48 segments RETIRED (R178). -/
theorem recomputeMode_freed (hr : e.readOnly = true) (hc : e.retiredCount < 48) : e.recomputeMode = { e with
    control := { e.control with causes := { retiredLimit := 48 ≤ e.retiredCount } }
    notices := e.notices.raise (.writeMode {} .format), reclaim := { e.reclaim with choiceDue := true } } := by
  have hlimit : decide (retiredLimit ≤ e.retiredCount) = false := decide_eq_false (Nat.not_le.mpr hc)
  simp only [Engine.recomputeMode, hlimit, hr, any_retiredLimit]
  rfl

theorem recomputeMode_kept (h : ¬ (e.readOnly = true ∧ e.retiredCount < 48)) : e.recomputeMode = { e with
    control := { e.control with causes := { retiredLimit := 48 ≤ e.retiredCount } } } := by
  refine if_neg fun hb => h ?_
  obtain ⟨hr, hc⟩ := Bool.and_eq_true_iff.mp hb
  rw [any_retiredLimit] at hc
  exact ⟨hr, Nat.not_le.mp (of_decide_eq_false (Bool.not_eq_true' _ |>.mp hc))⟩

/-- The engine with both counters at 1 and its FORMAT waiting for its done record (R4, R5, R190). -/
def restarted (e : Engine) (f : FormatRun) : Engine := { e with
  index := { e.index with writeSeq := 1 }, space := { e.space with segSeq := 1 }, format := some { f with stage := .posting } }

theorem recomputeMode_frame (e : Engine) : e.recomputeMode = { e with
    control := { e.control with causes := { retiredLimit := 48 ≤ e.retiredCount } }
    notices := e.recomputeMode.notices, reclaim := e.recomputeMode.reclaim } := by
  unfold Engine.recomputeMode
  dsimp only
  split <;> rfl

theorem formatFinish_eq (e : Engine) (f : FormatRun) {causes : ReadOnlyCauses}
    (hc : causes = { retiredLimit := 48 ≤ e.retiredCount }) : e.formatFinish f =
    ((restarted e f).recomputeMode.raiseNotice
      (.formatDone f.erased f.retired e.freeCount e.retiredCount causes ((e.now - f.started) / 1000))).complete f.ctx
      { status := .ok, flags := { succeeded := true }
        results := .format f.erased f.retired e.freeCount e.retiredCount causes } := by
  rw [hc, Engine.formatFinish, ← restarted, recomputeMode_frame]
  rfl

end Stages

/-- Settles O60, stage by stage. -/
theorem aFormatNeedsClosedDataRings : Obligations.AFormatNeedsClosedDataRings := by
  refine ⟨fun s c x hj _ => ?_, fun e hf => ⟨RingUnit.formatBegin_of_none hf, RingUnit.formatEnd_of_none hf,
    formatCounts_of_none hf⟩, fun e f hf => ⟨formatBegin_waits hf, fun hs hr segs k hsegs hnone hsome => ?_, fun hs hg hv => ?_,
    fun h => ?_, fun n retired => ⟨fun hn => formatCounts_other hf hn retired, fun hn => formatCounts_taken hf hn retired⟩⟩,
    fun e f causes freed hc hfreed => ?_⟩
  · rw [exec_format hj]
    refine ⟨fun hm => ?_, fun hm h => ?_, fun hm hf hr => ?_⟩
    · rw [formatStep_mounting hm]
    · rw [formatStep_busy hm (h.imp Reclamation.formatting_eq_true_iff.mpr (dataRingOpen_iff _).mpr)]
    · have hrings : s.engine.dataRingOpen = false := Bool.eq_false_iff.mpr fun h => by
        obtain ⟨r, h1, h7, ho⟩ := (dataRingOpen_iff _).mp h
        exact ho (hr r h1 h7)
      rw [formatStep_accepted (DataJobs.jobAt_ctxs hj) hm (by rw [Engine.formatting, hf]; rfl) hrings]
  · have htaken : segs = e.formatSegs := by
      rw [hsegs, formatSegs_eq]
      refine List.filter_congr fun n _ => ?_
      unfold formatTakes
      cases (e.seg n).state <;> rfl
    rw [htaken, formatBegin_releases hf hs hr, formatRelease_eq (endReclaim_index e) (endReclaim_space e),
      endReclaim_eq hnone hsome]
  · rw [formatEnd_eq hf, if_pos ⟨hs, hg, hv⟩]
  · rw [formatEnd_eq hf, if_neg]
    rintro ⟨hs, hg, hv⟩
    rcases h with h | ⟨g, hmem, he⟩ | h
    · exact h hs
    · exact hg g hmem he
    · exact h hv
  · refine ⟨(restarted e f).recomputeMode, formatFinish_eq e f hc, fun h => ?_, fun h => ?_⟩
    · obtain ⟨hr, hcount⟩ := hfreed.mp h
      rw [hc]
      exact recomputeMode_freed (e := restarted e f) hr hcount
    · rw [hc]
      exact recomputeMode_kept (e := restarted e f) (mt hfreed.mpr h)

end Sys2Proof.Machine.AdminJobs
end

section
/-! PROOFS. The queries (chapter 10, R182, R185 to R187) and the two reports (chapter 11, R196): the bytes of a report are spelt
piece by piece, and each field is a piece (RingUnit.spell). -/

namespace Sys2Proof.Machine.AdminJobs

open Sys2Proof RingUnit

/-! ### The steps of the queries, and the end of a report's write (R182, R186) -/

section Queries

variable {e : Engine} {c : Nat} {x : JobContext} {s : State}

theorem exec_queryEngine (h : s.jobAt c .queryEngine x) :
    exec (.queryEngine c) s = .next { s with engine := (s.engine.queryEngineStep c).settle } :=
  congrArg Host.Outcome.next (h.step _)

theorem exec_querySegment (h : s.jobAt c .querySegment x) :
    exec (.querySegment c) s = .next { s with engine := (s.engine.querySegmentStep c).settle } :=
  congrArg Host.Outcome.next (h.step _)

theorem sendReport_eq (hx : e.ctxs[c]? = some x) (bytes : List Byte) : e.sendReport c bytes = e.withCtx c { x with
    state := .returning, ready := false, transfer := some (.store (Descriptor.reportAddress x.descriptor) bytes) } := by
  rw [Engine.sendReport, Engine.ctx_of hx, DataJobs.beginTransfer_eq hx]

theorem querySegmentStep_mounting (hm : e.state = .mounting) :
    e.querySegmentStep c = e.complete c { status := .notMounted } := if_pos hm

theorem querySegmentStep_badParam (hx : e.ctx c = x) (hm : e.state ≠ .mounting) (hn : 511 < Descriptor.segment x.descriptor) :
    e.querySegmentStep c = e.complete c { status := .badParam } := by
  subst hx
  rw [Engine.querySegmentStep, if_neg hm]
  exact if_pos hn

theorem querySegmentStep_sends (hx : e.ctx c = x) (hm : e.state ≠ .mounting) (hn : Descriptor.segment x.descriptor ≤ 511) :
    e.querySegmentStep c = e.sendReport c (e.segReport (Descriptor.segment x.descriptor)) := by
  subst hx
  rw [Engine.querySegmentStep, if_neg hm]
  exact if_neg (Nat.not_le.mpr (Nat.lt_succ_of_le hn))

/-- The end of a report's write completes its query, by whether it failed (R182). -/
theorem exec_reportWriteDone {j : Job} {a : Nat} {bytes : List Byte} (hj : j = .queryEngine ∨ j = .querySegment)
    (h : s.returningAt c j x a bytes) (ok : Bool) :
    exec (.reportWriteDone c ok) s = .next { s with engine :=
      ((s.engine.emit (if ok then .memory a bytes else .maybeMemory a bytes)).complete c
        (adminOutcome (if ok then .ok else .hostError) (queryResults x))).settle } := by
  have hmine : (j == .queryEngine || j == .querySegment) = true := by simpa using hj
  obtain ⟨-, -, hx, -⟩ := id h
  have hwritten : (s.engine.sent c a bytes ok).reportWritten c ok =
      (s.engine.emit (if ok then .memory a bytes else .maybeMemory a bytes)).complete c
        (adminOutcome (if ok then .ok else .hostError) (queryResults x)) := by
    rw [Engine.reportWritten, Engine.answer, Engine.ctx_of (DataJobs.sent_ctx hx a bytes ok), DataJobs.complete_sent hx]
    rfl
  rw [← hwritten]
  exact congrArg Host.Outcome.next (DataJobs.returnEvent_eq h (mine := fun j => j == .queryEngine || j == .querySegment) hmine
    ok _)

theorem queryResults_eq {j : Job} (hj : x.job = some j) :
    queryResults x = if j = .querySegment then .segment (Descriptor.segment x.descriptor) else .none := by
  simp only [queryResults, hj, Option.some.injEq]

end Queries

/-! ### The values that a report shows (R185, R187) -/

theorem foldl_min_eq_min? (g : SegRecord) (l : List SegRecord) :
    (g :: l).foldl (fun m x => min m x.eraseCount) g.eraseCount = (((g :: l).map (·.eraseCount)).min?).getD 0 := by
  rw [List.map_cons, List.min?_cons', List.foldl_cons, Nat.min_self, List.foldl_map]
  rfl

theorem foldl_max_eq_max? (l : List SegRecord) :
    l.foldl (fun m x => max m x.eraseCount) 0 = ((l.map (·.eraseCount)).max?).getD 0 := by
  cases l with
  | nil => rfl
  | cons g l =>
    rw [List.map_cons, List.max?_cons', List.foldl_cons, Nat.zero_max, List.foldl_map]
    rfl

/-- Lowest, highest and mean erase count, 0 of no segment (R185). -/
theorem eraseSpread_eq (l : List SegRecord) : eraseSpread l = (((l.map (·.eraseCount)).min?).getD 0,
    ((l.map (·.eraseCount)).max?).getD 0, (l.map (·.eraseCount)).sum / (l.map (·.eraseCount)).length) := by
  cases l with
  | nil => rfl
  | cons g l =>
    rw [← foldl_min_eq_min?, ← foldl_max_eq_max?, List.sum_eq_foldl, List.foldl_map, List.length_map]
    rfl

/-- The erase counts that the engine report covers (R185, R186). -/
def eraseCounts (e : Engine) : List Nat := e.countedSegs.map (·.eraseCount)

/-- The entries of a kind (R185). -/
def heldKind (e : Engine) (kind : KeyKind) : Nat := e.index.entries.countP fun t => t.body.kind == kind

theorem countBodies_nascent (l : List Entry) :
    countBodies EntryBody.isNascent l = l.countP fun t => t.body.kind == .nascent := by
  refine congrArg (List.countP · l) (funext fun t => ?_)
  cases t.body <;> rfl

/-- The segments that are counted with an estimated erase count. -/
theorem countedSegs_countP (e : Engine) : e.countedSegs.countP (·.estimated) =
    e.space.segs.countP fun g => g.estimated && g.state != .retired && g.state != .unclassified := by
  rw [Engine.countedSegs, List.countP_filter]
  simp only [Bool.and_assoc]

/-- The place of a segment on the refresh list, counted from 1, and 0 for a segment that is not on it (R187). -/
theorem refreshPlace_of_not_mem {e : Engine} {n : Nat} (h : n ∉ e.reclaim.refresh) : e.refreshPlace n = 0 := by
  rw [Engine.refreshPlace, List.idxOf?_eq_none_iff.mpr h]

theorem refreshPlace_of_mem {e : Engine} {n : Nat} (h : n ∈ e.reclaim.refresh) :
    1 ≤ e.refreshPlace n ∧ e.refreshPlace n ≤ e.reclaim.refresh.length ∧ e.reclaim.refresh[e.refreshPlace n - 1]? = some n := by
  obtain ⟨i, hi⟩ := Option.isSome_iff_exists.mp (List.isSome_idxOf?.mpr h)
  have hplace : e.refreshPlace n = i + 1 := by rw [Engine.refreshPlace, hi]
  obtain ⟨hlt, hget, -⟩ := List.idxOf?_eq_some_iff.mp hi
  rw [hplace]
  exact ⟨Nat.le_add_left 1 i, hlt, List.getElem?_eq_some_iff.mpr ⟨hlt, hget⟩⟩

/-- A list that is another but for some items between two parts of it. -/
theorem mem_of_take_of_drop {α : Type} {l m : List α} {a : α} (h : a ∈ l) (i j : Nat)
    (htake : l.take i = m.take i) (hdrop : l.drop i = m.drop j) : a ∈ m := by
  rw [← List.take_append_drop i l, htake, hdrop] at h
  exact (List.mem_append.mp h).elim List.mem_of_mem_take List.mem_of_mem_drop

/-! ### The engine report (R185, R186, R196) -/

/-- Bytes 0 to 118 of the engine report. -/
def reportPieces (e : Engine) : List (Nat × Nat) :=
  [(1, e.state.code), (1, e.control.causes.modeByte), (1, e.mount.phase.code), (1, bitAt 0 e.space.low),
    (4, heldKind e .nascent), (4, heldKind e .value), (4, heldKind e .deleted), (4, heldKind e .lost),
    (4, e.index.entries.length), (8, if e.state == .mounting then 0 else e.index.writeSeq),
    (8, if e.state == .mounting then 0 else e.space.segSeq), (2, e.countSegs .free), (2, e.countSegs .head),
    (2, e.countSegs .full), (2, e.countSegs .failedClosed), (2, e.countSegs .reclaiming), (2, e.countSegs .erasing),
    (2, e.countSegs .dirty), (2, e.countSegs .retired), (2, e.countSegs .unclassified), (2, e.retiredCount),
    (4, (eraseCounts e).min?.getD 0), (4, (eraseCounts e).max?.getD 0), (4, (eraseCounts e).sum / (eraseCounts e).length),
    (2, e.space.segs.countP fun g => g.estimated && g.state != .retired && g.state != .unclassified),
    (1, e.reclaim.state.code), (1, e.reclaim.causes.byte),
    (2, e.reclaim.victim.getD 0), (2, e.reclaim.cursor.getD 0), (1, e.reclaim.refresh.length),
    (1, e.notices.queue.length), (2, e.notices.number), (4, e.mount.stats.records), (4, e.mount.stats.torn),
    (4, e.mount.stats.resync), (4, e.mount.stats.damaged), (2, e.mount.stats.dirty), (2, e.mount.stats.estimated),
    (4, e.mount.stats.overflow), (4, e.mountMs), (2, e.control.limits.lowWater), (2, e.control.limits.spaceWait),
    (2, e.control.limits.eraseQuantum), (1, e.control.limits.threshold)]

theorem spell_nil : spell [] = [] := rfl

theorem report_eq (e : Engine) : e.report = spell (reportPieces e) ++ spell [(9, 0)] := by
  obtain ⟨hvalue, hdeleted, hlost⟩ := Mounting.countBodies_kind e.index.entries
  unfold Engine.report
  simp only [reportPieces, heldKind, eraseCounts, countBodies_nascent, hvalue, hdeleted, hlost, eraseSpread_eq,
    countedSegs_countP, zeros_eq_le, spell_cons, spell_nil, List.append_assoc, List.append_nil]

/-- Every piece of a report stands at its place. -/
theorem field_report {e : Engine} {f : Nat × Nat × Nat} (h : f ∈ places 0 (reportPieces e)) :
    field e.report f.1 f.2.1 = f.2.2 % 256 ^ f.2.1 := by
  rw [report_eq]
  exact field_of_head h _

theorem length_reportPieces (e : Engine) : (spell (reportPieces e)).length = 119 := by
  rw [length_spell]
  simp only [reportPieces, List.map_cons, List.map_nil, List.sum_cons, List.sum_nil, Nat.reduceAdd]

theorem length_report (e : Engine) : e.report.length = 128 := by
  rw [report_eq, List.length_append, length_reportPieces, length_spell]
  rfl

theorem report_tail (e : Engine) : e.report.drop 119 = List.replicate 9 0 := by
  rw [report_eq, List.drop_left' (length_reportPieces e)]
  rfl

/-! ### The segment report (R187, R196) -/

/-- Bytes 0 to 25 of the segment report. -/
def segReportPieces (e : Engine) (n : Nat) : List (Nat × Nat) :=
  [(2, n), (1, bankOf n), (1, (e.seg n).state.code), (1, roleCode (e.seg n).role),
    (1, bitAt 0 (e.seg n).estimated + bitAt 1 (e.seg n).sseq.isSome + bitAt 2 (e.seg n).weak + bitAt 3 (e.seg n).progFailed),
    (1, e.refreshPlace n), (1, (e.seg n).pins), (4, (e.seg n).eraseCount), (4, (e.seg n).sseq.getD 0), (2, (e.seg n).writePtr),
    (2, (e.seg n).progPtr), (2, (e.seg n).live), (2, (e.seg n).dead),
    (2, if e.reclaim.victim = some n then e.reclaim.cursor.getD 0 else 0)]

theorem segReport_eq (e : Engine) (n : Nat) : e.segReport n = spell (segReportPieces e n) ++ spell [(38, 0)] := by
  simp [Engine.segReport, segReportPieces, spell, zeros_eq_le]

theorem field_segReport {e : Engine} {n : Nat} {f : Nat × Nat × Nat} (h : f ∈ places 0 (segReportPieces e n)) :
    field (e.segReport n) f.1 f.2.1 = f.2.2 % 256 ^ f.2.1 := by
  rw [segReport_eq]
  exact field_of_head h _

theorem length_segReportPieces (e : Engine) (n : Nat) : (spell (segReportPieces e n)).length = 26 := by
  rw [length_spell]
  simp only [segReportPieces, List.map_cons, List.map_nil, List.sum_cons, List.sum_nil, Nat.reduceAdd]

theorem length_segReport (e : Engine) (n : Nat) : (e.segReport n).length = 64 := by
  rw [segReport_eq, List.length_append, length_segReportPieces, length_spell]
  rfl

theorem segReport_tail (e : Engine) (n : Nat) : (e.segReport n).drop 26 = List.replicate 38 0 := by
  rw [segReport_eq, List.drop_left' (length_segReportPieces e n)]
  rfl

/-- The place on the refresh list, of a list that keeps R108. -/
theorem segReport_refreshPlace {e : Engine} {n : Nat} (h : e.reclaim.refresh.length ≤ 8) :
    field (e.segReport n) 6 1 = e.refreshPlace n := by
  have hfield := field_segReport (e := e) (n := n) (f := (6, 1, e.refreshPlace n)) (by simp [segReportPieces, places])
  refine hfield.trans (Nat.mod_eq_of_lt ?_)
  by_cases hn : n ∈ e.reclaim.refresh
  · obtain ⟨-, hle, -⟩ := refreshPlace_of_mem hn
    show e.refreshPlace n < 256 ^ 1
    omega
  · rw [refreshPlace_of_not_mem hn]
    decide

/-- The flag that a segment has a sequence. -/
theorem bitAt_isSome (o : Option Nat) : bitAt 1 o.isSome = if o = none then 0 else 2 := by
  cases o <;> rfl

/-- Settles O57, from the steps of the queries and the pieces of the two reports. -/
theorem aQuerySendsItsReport : Obligations.AQuerySendsItsReport := by
  refine ⟨fun s c x n hn => ⟨fun h => ?_, fun h => ⟨fun hm => ?_, fun hm h511 => ?_, fun hm h511 => ?_⟩,
      fun j a bytes hj h => ?_⟩, fun e mounting held erases st u hm hst hu hheld her => ?_, fun e n g hg => ?_, ?_, ?_, ?_⟩
  · rw [exec_queryEngine h, Engine.queryEngineStep, sendReport_eq (DataJobs.jobAt_ctxs h)]
    rfl
  · rw [exec_querySegment h, querySegmentStep_mounting hm]
  · rw [exec_querySegment h, querySegmentStep_badParam h.ctx hm (hn ▸ h511)]
  · rw [exec_querySegment h, querySegmentStep_sends h.ctx hm (hn ▸ h511), sendReport_eq (DataJobs.jobAt_ctxs h), hn]
    rfl
  · obtain ⟨-, -, -, -, hjob, -⟩ := id h
    rw [exec_reportWriteDone hj h, exec_reportWriteDone hj h, queryResults_eq hjob, ← hn]
    exact ⟨rfl, rfl⟩
  · subst hst hu her
    obtain rfl : mounting = (e.state == .mounting) := Bool.eq_iff_iff.mpr (by rw [hm, beq_iff_eq])
    refine ⟨length_report e, report_tail e, ?_, ?_, fun f hf => field_report ?_⟩
    · exact field_report (f := (60, 4, (eraseCounts e).min?.getD 0)) (List.mem_of_getElem? (i := 21) rfl)
    · exact field_report (f := (64, 4, (eraseCounts e).max?.getD 0)) (List.mem_of_getElem? (i := 22) rfl)
    · simp only [hheld] at hf
      exact mem_of_take_of_drop hf 21 23 rfl rfl
  · subst hg
    refine ⟨length_segReport e n, segReport_tail e n, ?_, fun f hf => field_segReport ?_⟩
    · intro i hi h8
      rw [hi, segReport_refreshPlace h8]
      refine ⟨refreshPlace_of_not_mem, fun hn => ?_⟩
      obtain ⟨hpos, -, hget⟩ := refreshPlace_of_mem hn
      exact ⟨hpos, hget⟩
    · simp only [← bitAt_isSome] at hf
      exact mem_of_take_of_drop hf 5 6 rfl rfl
  · exact fun e => ⟨rfl, rfl, fun st => rfl⟩
  · exact fun g => rfl
  · exact ⟨by decide, by decide, by decide, by decide, fun causes => rfl⟩

end Sys2Proof.Machine.AdminJobs
end

section
/-! PROOFS. The index (chapter 1, R6 and R12): every step keeps its law. -/
namespace Sys2Proof.Machine.IndexUnitLaws
open Sys2Proof

/-- Settles O6: the moves that every operation is made of keep the keys ascending and within the capacity, the passing of time
leaves the index alone, and a reset empties it. -/
theorem everyStepKeepsTheIndexLaw : Obligations.EveryStepKeepsTheIndexLaw := fun _ _ hn =>
  RingUnit.step_keeps (P := fun e => indexLaw e.index.entries) Engine.Move.index_law (fun _ _ _ => id)
    (fun _ _ => nil_law) (fun _ => id) hn
end Sys2Proof.Machine.IndexUnitLaws
end

section
/-! PROOFS. The location law (chapter 1, R8). It speaks of the entries' locations, the states of the segments and, in MOUNTING, of
where the mount stands. So an operation keeps it when it adds no location and empties no segment; what repoints an entry does so
outside MOUNTING into a segment in use; what leaves a segment vacant finds it vacant already, or finds no entry that points into
it; and the reclaim, the release and a FORMAT, which may do more, have nothing to work on in MOUNTING. One rule for each operation
says which of these it is, in the order of the model; the Mount Unit, the commands and the step follow. -/

-- The rules are many and small: elaborated side by side they ask for more threads than there are.
set_option Elab.async false

namespace Sys2Proof.Machine

open Sys2Proof

/-! ### Locations after a change of the entries -/

theorem Engine.mem_locations {e : Engine} {l : Location} :
    l ∈ e.locations ↔ ∃ t ∈ e.index.entries, t.body.loc? = some l := List.mem_filterMap

theorem insertEntry_perm (l : List Entry) (t : Entry) : (insertEntry l t).Perm (t :: l) := by
  induction l with
  | nil => exact .refl _
  | cons u l ih =>
    unfold insertEntry
    split
    · exact .refl _
    · exact (ih.cons u).trans (.swap t u l)

/-- An entry that is changed keeps its location or takes one of the change's making; the others keep theirs. -/
theorem Engine.mem_locations_changeEntry {e : Engine} {key : Nat} {f : Entry → Entry} {l : Location}
    (h : l ∈ (e.changeEntry key f).locations) : l ∈ e.locations ∨ ∃ t, (f t).body.loc? = some l := by
  obtain ⟨t, ht, hl⟩ := Engine.mem_locations.mp h
  obtain ⟨u, hu, rfl⟩ := List.mem_map.mp ht
  split at hl
  · exact .inr ⟨u, hl⟩
  · exact .inl (Engine.mem_locations.mpr ⟨u, hu, hl⟩)

/-- A change that leaves the bodies alone leaves the locations alone. -/
theorem Engine.locations_changeEntry (e : Engine) (key : Nat) {f : Entry → Entry} (hf : ∀ t, (f t).body = t.body) :
    (e.changeEntry key f).locations = e.locations := by
  show (Machine.changeEntry e.index.entries key f).filterMap _ = _
  rw [Machine.changeEntry, List.filterMap_map]
  refine congrArg (List.filterMap · e.index.entries) (funext fun t => ?_)
  dsimp only [Function.comp]
  split
  · rw [hf]
  · rfl

/-- A new entry brings its own location, if it has one. -/
theorem Engine.mem_locations_insert {e : Engine} {t : Entry} {l : Location}
    (h : l ∈ (e.setEntries (insertEntry e.index.entries t)).locations) : l ∈ e.locations ∨ t.body.loc? = some l := by
  obtain ⟨u, hu, hl⟩ := Engine.mem_locations.mp h
  rcases List.mem_cons.mp ((insertEntry_perm _ t).mem_iff.mp hu) with rfl | hu
  · exact .inr hl
  · exact .inl (Engine.mem_locations.mpr ⟨u, hu, hl⟩)

theorem Engine.mem_locations_filter {e : Engine} {p : Entry → Bool} {l : Location}
    (h : l ∈ (e.setEntries (e.index.entries.filter p)).locations) : l ∈ e.locations :=
  (List.filter_sublist.filterMap _).subset h

/-- A test of the release of R67: no entry points into the segment. -/
theorem Engine.seg_ne_of_not_pointedInto {e : Engine} {n : Nat} (h : e.pointedInto n = false) {l : Location}
    (hl : l ∈ e.locations) : l.seg ≠ n := by
  rintro rfl
  obtain ⟨t, ht, hl⟩ := Engine.mem_locations.mp hl
  have hp := List.any_eq_false.mp h t ht
  simp [hl] at hp

/-! ### The parts of the law -/

theorem SegState.not_vacant_of_inUse {st : SegState} (h : st.inUse = true) : st.vacant = false := by
  cases st with
  | head | full | failedClosed | reclaiming => rfl
  | free | erasing | dirty | retired | unclassified => cases h

/-- No entry points into a vacant segment: the law outside MOUNTING. -/
def Engine.located (e : Engine) : Prop := ∀ l ∈ e.locations, (e.seg l.seg).state.vacant = false

/-- Nothing is being reclaimed, released or formatted, as it is all through a mount. -/
def Engine.atRest (e : Engine) : Prop :=
  e.reclaim.victim = none ∧ e.reclaim.step = .none ∧ e.space.released = none ∧ e.format = none

/-- Where the walk of pass A stands in a segment in use: the segment may hold records, and entries lie before it, or in it behind
the cursor. -/
def Engine.walksIn (e : Engine) : Prop :=
  (e.seg e.mount.seg).state.vacant = false ∧ 2 ≤ e.mount.cursor
    ∧ ∀ l ∈ e.locations, l.seg < e.mount.seg ∨ (l.seg = e.mount.seg ∧ 2 < e.mount.cursor)

theorem Engine.mountLaw_iff {e : Engine} : e.mountLaw ↔ e.atRest ∧ (e.mount.phase = .survey → e.locations = [])
    ∧ (e.mount.phase = .passA → e.mount.others = false → e.walksIn)
    ∧ (e.mount.phase = .passB → (e.seg e.mount.seg).state.vacant = false) :=
  ⟨fun ⟨hvictim, hstep, hreleased, hformat, hphases⟩ => ⟨⟨hvictim, hstep, hreleased, hformat⟩, hphases⟩,
    fun ⟨⟨hvictim, hstep, hreleased, hformat⟩, hphases⟩ => ⟨hvictim, hstep, hreleased, hformat, hphases⟩⟩

/-- A segment that may be left vacant: no entry points into it, and no pass of a mount walks in it. -/
def Engine.unplaced (e : Engine) (n : Nat) : Prop :=
  (∀ l ∈ e.locations, l.seg ≠ n) ∧ (e.state = .mounting →
    (e.mount.phase = .passA → e.mount.others = false → e.mount.seg ≠ n) ∧ (e.mount.phase = .passB → e.mount.seg ≠ n))

/-- A change of one segment that leaves it in use leaves every segment in use that was. -/
theorem Engine.modSeg_not_vacant (e : Engine) (n : Nat) {f : SegRecord → SegRecord}
    (hf : (e.seg n).state.vacant = false → (f (e.seg n)).state.vacant = false) {d : Nat}
    (hd : (e.seg d).state.vacant = false) : ((e.modSeg n f).seg d).state.vacant = false := by
  by_cases hdn : d = n
  · subst hdn
    by_cases hl : d < e.space.segs.length
    · rw [Engine.modSeg_seg_self e d f hl]
      exact hf hd
    · rw [Engine.modSeg, updAt_absent (List.getElem?_eq_none (Nat.le_of_not_lt hl))]
      exact hd
  · rw [Engine.modSeg_seg_ne e n d f hdn]
    exact hd

namespace Engine.locationLaw

variable {e : Engine}

/-! ### When the law is kept -/

theorem of_located (hl : e.located) (hs : e.state ≠ .mounting) : e.locationLaw := ⟨hl, fun h => absurd h hs⟩

theorem located (h : e.locationLaw) : e.located := h.1

theorem atRest (h : e.locationLaw) (hs : e.state = .mounting) : e.atRest := (Engine.mountLaw_iff.mp (h.2 hs)).1

theorem not_mounting_of_victim (h : e.locationLaw) {n : Nat} (hv : e.reclaim.victim = some n) : e.state ≠ .mounting := by
  intro hs
  obtain ⟨hn, -⟩ := h.atRest hs
  exact nomatch hv.symm.trans hn

theorem not_mounting_of_step (h : e.locationLaw) {st : ReclaimStep} (hst : e.reclaim.step = st) (hn : st ≠ .none) :
    e.state ≠ .mounting := by
  intro hs
  obtain ⟨-, hnone, -⟩ := h.atRest hs
  exact hn (hst.symm.trans hnone)

theorem not_mounting_of_released (h : e.locationLaw) {n : Nat} (hr : e.space.released = some n) : e.state ≠ .mounting := by
  intro hs
  obtain ⟨-, -, hn, -⟩ := h.atRest hs
  exact nomatch hr.symm.trans hn

theorem not_mounting_of_format (h : e.locationLaw) {f : FormatRun} (hf : e.format = some f) : e.state ≠ .mounting := by
  intro hs
  obtain ⟨-, -, -, hn⟩ := h.atRest hs
  exact nomatch hf.symm.trans hn

/-- The law is kept by a change that adds no location, empties no segment, starts no mount and leaves a mount under way as it
stands. -/
theorem of_unmoved (h : e.locationLaw) {k : Engine} (hl : ∀ l ∈ k.locations, l ∈ e.locations)
    (hg : ∀ n, (e.seg n).state.vacant = false → (k.seg n).state.vacant = false)
    (hs : k.state = .mounting → e.state = .mounting ∧ k.mount = e.mount ∧ (e.atRest → k.atRest)) : k.locationLaw := by
  refine ⟨fun l hk => hg _ (h.located l (hl l hk)), fun hk => ?_⟩
  obtain ⟨he, hm, hrest⟩ := hs hk
  obtain ⟨hr, hsurvey, hA, hB⟩ := Engine.mountLaw_iff.mp (h.2 he)
  rw [Engine.mountLaw_iff, Engine.walksIn, hm]
  refine ⟨hrest hr, fun hp => ?_, fun hp ho => ?_, fun hp => hg _ (hB hp)⟩
  · exact List.eq_nil_iff_forall_not_mem.mpr fun l hk => by simpa [hsurvey hp] using hl l hk
  · obtain ⟨hv, hc, hbehind⟩ := hA hp ho
    exact ⟨hg _ hv, hc, fun l hk => hbehind l (hl l hk)⟩

/-- The law is kept by a change that leaves the locations, the segments and the mount alone. -/
theorem same (h : e.locationLaw) {k : Engine} (hl : k.locations = e.locations := by rfl)
    (hg : k.space.segs = e.space.segs := by rfl)
    (hs : k.state = .mounting → e.state = .mounting ∧ k.mount = e.mount ∧ (e.atRest → k.atRest) := by
      exact fun hs => ⟨hs, rfl, id⟩) : k.locationLaw :=
  h.of_unmoved (fun _ hk => hl ▸ hk) (fun n hn => by rw [Engine.seg, hg]; exact hn) hs

/-- The same outside MOUNTING, where the mount does not count. -/
theorem sameOut (h : e.locationLaw) (hm : e.state ≠ .mounting) {k : Engine} (hl : k.locations = e.locations := by rfl)
    (hg : k.space.segs = e.space.segs := by rfl) (hs : k.state = e.state := by rfl) : k.locationLaw :=
  h.same hl hg fun hk => absurd (hs.symm.trans hk) hm

/-- A segment changes and stays in use if it was. -/
theorem modSeg (h : e.locationLaw) (n : Nat) (f : SegRecord → SegRecord)
    (hf : (e.seg n).state.vacant = false → (f (e.seg n)).state.vacant = false := by exact id) :
    (e.modSeg n f).locationLaw :=
  h.of_unmoved (fun _ => id) (fun _ => e.modSeg_not_vacant n hf) fun hs => ⟨hs, rfl, id⟩

/-- A segment into which no entry points and in which no mount walks changes, whatever becomes of it. -/
theorem modSeg_unplaced (h : e.locationLaw) {n : Nat} (hn : e.unplaced n) (f : SegRecord → SegRecord) :
    (e.modSeg n f).locationLaw := by
  obtain ⟨hl, hmount⟩ := hn
  refine ⟨fun l hk => ?_, fun hs => ?_⟩
  · rw [e.modSeg_seg_ne n _ f (hl l hk)]
    exact h.located l hk
  · obtain ⟨hr, hsurvey, hA, hB⟩ := Engine.mountLaw_iff.mp (h.2 hs)
    obtain ⟨hnA, hnB⟩ := hmount hs
    refine Engine.mountLaw_iff.mpr ⟨hr, hsurvey, fun hp ho => ?_, fun hp => ?_⟩
    · obtain ⟨hv, hwalk⟩ := hA hp ho
      exact ⟨(e.modSeg_seg_ne n _ f (hnA hp ho)).symm ▸ hv, hwalk⟩
    · exact (e.modSeg_seg_ne n _ f (hnB hp)).symm ▸ hB hp

/-- A vacant segment is one into which no entry points and in which no mount walks. -/
theorem unplaced_of_vacant (h : e.locationLaw) {n : Nat} (hn : (e.seg n).state.vacant = true) : e.unplaced n := by
  have hne {d : Nat} (hd : (e.seg d).state.vacant = false) : d ≠ n := by
    rintro rfl
    exact nomatch hn.symm.trans hd
  refine ⟨fun l hl => hne (h.located l hl), fun hs => ?_⟩
  obtain ⟨-, -, hA, hB⟩ := Engine.mountLaw_iff.mp (h.2 hs)
  exact ⟨fun hp ho => hne (hA hp ho).1, fun hp => hne (hB hp)⟩

/-- A fold of operations that keep the law. -/
theorem foldl {α : Type} {f : Engine → α → Engine} (hf : ∀ {k : Engine} (x : α), k.locationLaw → (f k x).locationLaw)
    (h : e.locationLaw) (l : List α) : (l.foldl f e).locationLaw := by
  induction l generalizing e with
  | nil => exact h
  | cons x l ih => exact ih (hf x h)

/-! ### Updates that leave the locations and the states of the segments alone -/

theorem modCtx (h : e.locationLaw) (c : Nat) (f : JobContext → JobContext) : (e.modCtx c f).locationLaw := h.same
theorem modRing (h : e.locationLaw) (r : Nat) (f : RingContext → RingContext) : (e.modRing r f).locationLaw := h.same
theorem modBank (h : e.locationLaw) (b : Nat) (f : Bank → Bank) : (e.modBank b f).locationLaw := h.same
theorem enqueue (h : e.locationLaw) (q : Request) : (e.enqueue q).locationLaw := h.same
theorem emit (h : e.locationLaw) (o : HostOutput) : (e.emit o).locationLaw := h.same
theorem raiseNotice (h : e.locationLaw) (b : NoticeBody) : (e.raiseNotice b).locationLaw := h.same
theorem complete (h : e.locationLaw) (c : Nat) (o : JobOutcome) : (e.complete c o).locationLaw := h.same
theorem wantChoice (h : e.locationLaw) : e.wantChoice.locationLaw := h.same
theorem draw (h : e.locationLaw) : e.draw.locationLaw := h.same
theorem pin (h : e.locationLaw) (n : Nat) : (e.pin n).locationLaw := h.modSeg n _

/-- The Reclaim Unit changes, with its victim left alone and its step too, or cleared. -/
theorem setReclaim (h : e.locationLaw) (f : ReclaimUnit → ReclaimUnit)
    (hv : (f e.reclaim).victim = e.reclaim.victim := by rfl)
    (hst : (f e.reclaim).step = e.reclaim.step ∨ (f e.reclaim).step = .none := by exact .inl rfl) :
    (e.setReclaim f).locationLaw :=
  h.same (hs := fun hs => ⟨hs, rfl, fun ⟨hvictim, hstep, hrest⟩ =>
    ⟨hv.trans hvictim, hst.elim (·.trans hstep) id, hrest⟩⟩)

theorem setState (h : e.locationLaw) {st : EngineState} (hs : st ≠ .mounting) : (e.setState st).locationLaw :=
  h.same (hs := fun k => absurd k hs)

/-- An entry changes with its body left alone. -/
theorem changeEntry (h : e.locationLaw) (key : Nat) (f : Entry → Entry)
    (hf : ∀ t, (f t).body = t.body := by exact fun _ => rfl) : (e.changeEntry key f).locationLaw :=
  h.same (hl := e.locations_changeEntry key hf)

/-- An entry is repointed, outside MOUNTING, into a segment in use. -/
theorem repoint (h : e.locationLaw) (hm : e.state ≠ .mounting) {n : Nat} (hn : (e.seg n).state.vacant = false) (key : Nat)
    {f : Entry → Entry} (hf : ∀ t l, (f t).body.loc? = some l → l.seg = n) : (e.changeEntry key f).locationLaw := by
  refine of_located (fun l hl => ?_) hm
  rcases Engine.mem_locations_changeEntry hl with hl | ⟨t, ht⟩
  · exact h.located l hl
  · exact (hf t l ht).symm ▸ hn

/-- Entries leave the map. -/
theorem filterEntries (h : e.locationLaw) (p : Entry → Bool) : (e.setEntries (e.index.entries.filter p)).locationLaw :=
  h.of_unmoved (fun _ => Engine.mem_locations_filter) (fun _ => id) fun hs => ⟨hs, rfl, id⟩

/-- A NASCENT entry, which has no location, joins the map. -/
theorem insertNascent (h : e.locationLaw) (key : Nat) :
    (e.setEntries (insertEntry e.index.entries { key := key, body := .nascent })).locationLaw :=
  h.of_unmoved (fun _ hl => (Engine.mem_locations_insert hl).resolve_right nofun) (fun _ => id) fun hs => ⟨hs, rfl, id⟩


/-! ### The Space Manager (chapter 3) -/

theorem addCause (h : e.locationLaw) (c : ModeCause) : (e.addCause c).locationLaw := by
  unfold Engine.addCause
  dsimp only
  split
  · exact h
  · split <;> exact h.same

theorem spaceTest (h : e.locationLaw) : e.spaceTest.locationLaw := by
  unfold Engine.spaceTest
  dsimp only
  split
  · exact h
  · split <;> split <;> exact h.same

/-- A closed head is FULL. -/
theorem closeHead (h : e.locationLaw) (n : Nat) : (e.closeHead n).locationLaw := (h.modSeg n _ fun _ => rfl).wantChoice

theorem openHead (h : e.locationLaw) (n : Nat) (role : HeadRole) : (e.openHead n role).locationLaw := by
  have hn := h.modSeg n (fun g => { g with state := .head, role := some role, sseq := some e.space.segSeq }) fun _ => rfl
  unfold Engine.openHead
  dsimp only
  split
  · refine (spaceTest (enqueue ?_ _)).addCause _
    exact hn.same
  · refine spaceTest (enqueue ?_ _)
    exact hn.same

theorem reserve (h : e.locationLaw) (n k : Nat) : (e.reserve n k).1.locationLaw := h.modSeg n _

theorem placeInNewHead (h : e.locationLaw) (b k : Nat) : (e.placeInNewHead b k).1.locationLaw := by
  unfold Engine.placeInNewHead
  split
  · exact (h.openHead _ _).reserve _ _
  · exact h

theorem placeInBank (h : e.locationLaw) (b k : Nat) : (e.placeInBank b k).1.locationLaw := by
  unfold Engine.placeInBank
  split
  · split
    · exact h.reserve _ _
    · exact (h.closeHead _).placeInNewHead b k
  · exact h.placeInNewHead b k

theorem placeInBanks (h : e.locationLaw) (k : Nat) (bs : List Nat) : (e.placeInBanks k bs).1.locationLaw := by
  induction bs generalizing e with
  | nil => exact h
  | cons b bs ih =>
    have hb := h.placeInBank b k
    unfold Engine.placeInBanks
    split
    · next hp => rw [hp] at hb; exact hb.same
    · next hp => rw [hp] at hb; exact ih hb

/-- A placement of a host record keeps the law, whether or not it finds room (R59). -/
theorem placeHost (h : e.locationLaw) {k : Nat} {m : Engine} {l : Option Location} (hp : e.placeHost k = (m, l)) :
    m.locationLaw := by
  have hm : (e.placeHost k).1.locationLaw := h.placeInBanks k e.bankOrder
  rwa [hp] at hm

theorem placeInNewReclaimHead (h : e.locationLaw) (k : Nat) : (e.placeInNewReclaimHead k).1.locationLaw := by
  unfold Engine.placeInNewReclaimHead
  split
  · exact (h.openHead _ _).reserve _ _
  · exact h

/-- A placement of a reclaim record keeps the law, whether or not it finds room (R60). -/
theorem placeReclaim (h : e.locationLaw) {k : Nat} {m : Engine} {l : Option Location} (hp : e.placeReclaim k = (m, l)) :
    m.locationLaw := by
  have hm : (e.placeReclaim k).1.locationLaw := by
    unfold Engine.placeReclaim
    split
    · split
      · exact h.reserve _ _
      · exact (h.closeHead _).placeInNewReclaimHead k
    · exact h.placeInNewReclaimHead k
  rwa [hp] at hm

theorem lowerLive (h : e.locationLaw) (l : Location) : (e.lowerLive l).locationLaw := by
  have hl := h.modSeg l.seg fun g => { g with live := g.live - l.count }
  unfold Engine.lowerLive
  dsimp only
  split
  · exact hl.wantChoice
  · exact hl.wantChoice
  · exact hl

theorem moveLive (h : e.locationLaw) (old : Option Location) (new : Location) : (e.moveLive old new).locationLaw := by
  cases old with
  | none => exact h.modSeg new.seg _
  | some l => exact (h.lowerLive l).modSeg new.seg _

theorem dropEntry (h : e.locationLaw) (key : Nat) : (e.dropEntry key).locationLaw := by
  have hd : (e.setEntries (removeEntry e.index.entries key)).locationLaw := h.filterEntries _
  unfold Engine.dropEntry
  split
  · exact h
  · dsimp only
    split
    · exact hd.lowerLive _
    · exact hd

theorem removalTest (h : e.locationLaw) (key : Nat) : (e.removalTest key).locationLaw := by
  unfold Engine.removalTest
  split
  · split
    · exact h.dropEntry key
    · exact h
  · exact h

theorem decrementClaim (h : e.locationLaw) (key : Nat) : (e.decrementClaim key).locationLaw :=
  (h.changeEntry key _).removalTest key

theorem weakMark (h : e.locationLaw) (n : Nat) : (e.weakMark n).locationLaw := by
  have hw : (if (e.seg n).state.inUse then e.modSeg n fun g => { g with weak := true } else e).locationLaw := by
    split
    · exact h.modSeg n _
    · exact h
  unfold Engine.weakMark
  dsimp only
  split
  · exact hw.same
  · exact hw

theorem unlist (h : e.locationLaw) (n : Nat) : (e.unlist n).locationLaw := by
  have hrefill {k : Engine} (hk : k.locationLaw) : k.refill.locationLaw := by
    unfold Engine.refill
    split
    · split
      · exact hk.same
      · exact hk
    · exact hk
  unfold Engine.unlist
  split
  · refine hrefill ?_
    exact h.same
  · exact h

theorem answerRequester (h : e.locationLaw) (st : Status) (ended : ReclaimEnd) :
    (e.answerRequester st ended).locationLaw := by
  unfold Engine.answerRequester
  split
  · exact h
  · exact h.same

theorem victimEnded (h : e.locationLaw) (n : Nat) (ended : ReclaimEnd) : (e.victimEnded n ended).locationLaw := by
  unfold Engine.victimEnded
  split
  · exact (h.answerRequester .ok ended).same (hs := fun hs => ⟨hs, rfl, fun ⟨_, hrest⟩ => ⟨rfl, hrest⟩⟩)
  · exact h

theorem formatCounts (h : e.locationLaw) (n : Nat) (retired : Bool) : (e.formatCounts n retired).locationLaw := by
  unfold Engine.formatCounts
  split
  · next hf =>
    split
    · exact h.sameOut (h.not_mounting_of_format hf)
    · exact h
  · exact h

/-- A segment that holds no current record is retired. -/
theorem retireSegment (h : e.locationLaw) {n : Nat} (hn : e.unplaced n) (cause : RetireCause) (r : Requester) :
    (e.retireSegment n cause r).locationLaw := by
  have hs := h.modSeg_unplaced hn fun g => { g with state := .retired, role := none }
  unfold Engine.retireSegment
  refine victimEnded (formatCounts ?_ _ _) _ _
  split
  · exact ((hs.enqueue _).raiseNotice _).addCause _
  · exact (hs.enqueue _).raiseNotice _

/-- A released victim leaves only when no entry points into it (R67). -/
theorem settleReleased (h : e.locationLaw) : e.settleReleased.locationLaw := by
  unfold Engine.settleReleased
  split
  · exact h
  · next n hr =>
    split
    · next hleave =>
      have hout := h.not_mounting_of_released hr
      have hn : e.unplaced n := by
        simp only [Engine.mayLeave, Bool.and_eq_true, Bool.not_eq_true'] at hleave
        obtain ⟨-, hpointed⟩ := hleave
        exact ⟨fun _ => Engine.seg_ne_of_not_pointedInto hpointed, fun hs => absurd hs hout⟩
      have h1 : ({ e with space := { e.space with released := none } } : Engine).locationLaw := h.sameOut hout
      dsimp only
      split
      · exact h1.retireSegment hn _ _
      · exact (h1.modSeg_unplaced hn _).enqueue _
    · exact h

theorem settlePinWait (h : e.locationLaw) : e.settlePinWait.locationLaw :=
  foldl (fun _ hk => hk.enqueue _) h.same _

theorem unpin (h : e.locationLaw) (n : Nat) : (e.unpin n).locationLaw := by
  have hp := h.modSeg n fun g => { g with pins := g.pins - 1 }
  unfold Engine.unpin
  dsimp only
  split
  · exact hp.settleReleased.settlePinWait
  · exact hp

theorem eraseLost (h : e.locationLaw) (n : Nat) (c : RetireCause) : (e.eraseLost n c).locationLaw := by
  unfold Engine.eraseLost
  split
  · next hs => exact h.retireSegment (h.unplaced_of_vacant (by rw [hs]; rfl)) _ _
  · exact h

theorem closeFailed (h : e.locationLaw) (n : Nat) : (e.closeFailed n).locationLaw := by
  unfold Engine.closeFailed
  split
  · exact (h.modSeg n _ fun _ => rfl).wantChoice
  · exact h.modSeg n _

/-! ### The Reclaim Unit (chapter 6) -/

theorem pauseReclaim (h : e.locationLaw) : e.pauseReclaim.locationLaw :=
  (h.setReclaim _ (hst := .inr rfl)).answerRequester _ _

theorem releaseVictim (h : e.locationLaw) (hm : e.state ≠ .mounting) (n : Nat) : (e.releaseVictim n).locationLaw :=
  h.sameOut hm

theorem pauseForSpace (h : e.locationLaw) : e.pauseForSpace.locationLaw := (h.setReclaim _).pauseReclaim

theorem placeStep (h : e.locationLaw) (hm : e.state ≠ .mounting) (w : Written) (key : Nat) (l : Location)
    (ds : List CellData) : (e.placeStep w key l ds).locationLaw := by
  have hs : (e.placeReclaim ds.length).1.state = e.state := ((Engine.Move.refl e).placeReclaim _).state_kept
  unfold Engine.placeStep
  split
  · next hp =>
    rw [hp] at hs
    refine enqueue ?_ _
    exact (h.placeReclaim hp).sameOut (hs ▸ hm)
  · next hp => exact (h.placeReclaim hp).pauseForSpace

theorem sweepWrite (h : e.locationLaw) (hm : e.state ≠ .mounting) (w : Written) (key : Nat) (l : Location)
    (ds : List CellData) : (e.sweepWrite w key l ds).locationLaw := (h.setReclaim _).placeStep hm _ _ _ _

theorem sweepEntry (h : e.locationLaw) (hm : e.state ≠ .mounting) (t : Entry) : (e.sweepEntry t).locationLaw := by
  unfold Engine.sweepEntry
  split
  · exact h.setReclaim _
  all_goals exact h.sweepWrite hm _ _ _ _

theorem sweepFrom (h : e.locationLaw) (hm : e.state ≠ .mounting) (n key : Nat) : (e.sweepFrom n key).locationLaw := by
  unfold Engine.sweepFrom
  split
  · exact h.sweepEntry hm _
  · exact h.releaseVictim hm _

theorem walkEnd (h : e.locationLaw) (hm : e.state ≠ .mounting) (n : Nat) : (e.walkEnd n).locationLaw := by
  unfold Engine.walkEnd
  split
  · exact h.releaseVictim hm _
  · dsimp only
    split
    · exact (h.setReclaim _).pauseReclaim
    · exact (h.setReclaim _).sweepFrom hm _ _

theorem reclaimRead (h : e.locationLaw) (hm : e.state ≠ .mounting) (n cell count : Nat) (st : ReclaimStep) :
    (e.reclaimRead n cell count st).locationLaw := by
  refine enqueue (pin ?_ n) _
  exact h.sameOut hm

/-- A step begins only where there is a victim, and so not in MOUNTING. -/
theorem beginStep (h : e.locationLaw) : e.beginStep.locationLaw := by
  unfold Engine.beginStep
  split
  · next hv _ => exact h.sweepFrom (h.not_mounting_of_victim hv) _ _
  · next hv _ _ =>
    have hm := h.not_mounting_of_victim hv
    split
    · exact h.walkEnd hm _
    · exact h.reclaimRead hm _ _ _ _
  · exact h

theorem recordBoundary (h : e.locationLaw) : e.recordBoundary.locationLaw := by
  unfold Engine.recordBoundary
  split
  · exact h.pauseReclaim
  · exact h.beginStep

theorem passCells (h : e.locationLaw) (n : Nat) : (e.passCells n).locationLaw :=
  (h.setReclaim _ (hst := .inr rfl)).recordBoundary

theorem passRecord (h : e.locationLaw) (key n : Nat) : (e.passRecord key n).locationLaw := by
  unfold Engine.passRecord
  split
  · exact (h.setReclaim _ (hst := .inr rfl)).recordBoundary
  · exact h.passCells n

theorem tally (h : e.locationLaw) (f : Tallies → Tallies) : (e.tally f).locationLaw := h.setReclaim _

theorem settleStale (h : e.locationLaw) (n : Nat) (r : RecordHeader) (v : ValueVerdict) :
    (e.settleStale n r v).locationLaw := by
  unfold Engine.settleStale
  split
  · exact ((h.decrementClaim _).tally _).passCells _
  · exact (h.tally _).passCells _

theorem settleRecord (h : e.locationLaw) (hm : e.state ≠ .mounting) (l : Location) (r : RecordHeader)
    (cells : List CellOutcome) : (e.settleRecord l r cells).locationLaw := by
  unfold Engine.settleRecord
  dsimp only
  split
  · split
    · exact h.placeStep hm _ _ _ _
    · exact (h.tally _).passCells _
  · split
    · exact h.placeStep hm _ _ _ _
    · exact h.settleStale _ _ _
  · split
    · split <;> exact h.placeStep hm _ _ _ _
    · exact h.settleStale _ _ _

/-- A read at the cursor is taken in the step that asked for it, and so not in MOUNTING. -/
theorem reclaimReadDone (h : e.locationLaw) (q : Request) (cells : List CellOutcome) :
    (e.reclaimReadDone q cells).locationLaw := by
  unfold Engine.reclaimReadDone
  split
  · next hst =>
    have hm := h.not_mounting_of_step hst nofun
    split
    · exact (h.setReclaim _ (hst := .inr rfl)).walkEnd hm _
    · exact (h.tally _).passCells _
    · dsimp only
      split
      · exact (h.setReclaim _).settleRecord hm _ _ _
      · exact (h.setReclaim _).reclaimRead hm _ _ _ _
  · next hst => exact (h.setReclaim _).settleRecord (h.not_mounting_of_step hst nofun) _ _ _
  · exact h

/-- A conditional repoint moves the entry to the new record, or leaves a NASCENT one without a location (R20). -/
theorem repointedBody_loc {w : Written} {new l : Location} {b : EntryBody} (h : (repointedBody w new b).loc? = some l) :
    l = new := by
  unfold repointedBody at h
  split at h
  · exact (Option.some.inj h).symm
  · cases b with
    | nascent => cases h
    | value | deleted | lost => exact (Option.some.inj h).symm

theorem repointDone (h : e.locationLaw) (hm : e.state ≠ .mounting) {new : Location}
    (hn : (e.seg new.seg).state.vacant = false) (w : Written) (key : Nat) (b : EntryBody) (old : Location) :
    (e.repointDone w key b old new).locationLaw := by
  have hmove := (h.repoint hm hn key (f := fun t => { t with body := repointedBody w new t.body })
    fun _ _ hl => congrArg Location.seg (repointedBody_loc hl)).moveLive (some old) new
  unfold Engine.repointDone
  dsimp only
  split
  · exact (hmove.tally _).raiseNotice _
  · exact hmove

theorem repointChanged (h : e.locationLaw) (w : Written) (key : Nat) : (e.repointChanged w key).locationLaw := by
  unfold Engine.repointChanged
  split
  · exact ((h.changeEntry _ _).decrementClaim _).tally _
  · exact (h.decrementClaim _).tally _
  · exact h

theorem tallyCopy (h : e.locationLaw) (w : Written) : (e.tallyCopy w).locationLaw := by
  unfold Engine.tallyCopy
  split
  · exact h
  · exact h.tally _

theorem reclaimProgramPassed (h : e.locationLaw) (hm : e.state ≠ .mounting) {new : Location}
    (hn : (e.seg new.seg).state.vacant = false) : (e.reclaimProgramPassed new).locationLaw := by
  unfold Engine.reclaimProgramPassed
  split
  · next w key old _ =>
    have ht := h.tallyCopy w
    have hs : (e.tallyCopy w).state = e.state ∧ (e.tallyCopy w).seg new.seg = e.seg new.seg := by
      cases w <;> exact ⟨rfl, rfl⟩
    refine passRecord ?_ _ _
    split
    · split
      · exact ht.repointDone (hs.1 ▸ hm) (hs.2 ▸ hn) _ _ _ _
      · exact ht.repointChanged _ _
    · exact ht.repointChanged _ _
  · exact h

theorem startVictim (h : e.locationLaw) (hm : e.state ≠ .mounting) (n : Nat) (r : Option Nat) :
    (e.startVictim n r).locationLaw := by
  have h1 : (e.setReclaim fun u => { u with
      state := .grantWait, victim := some n, cursor := none, requester := r, step := .none, sweep := none }).locationLaw :=
    h.sameOut hm
  unfold Engine.startVictim
  dsimp only
  split
  · exact h1.closeHead _
  · exact h1

/-- At the grant the victim, whose records stay current until they are settled, enters RECLAIMING (R65). -/
theorem grantVictim (h : e.locationLaw) : e.grantVictim.locationLaw := by
  unfold Engine.grantVictim
  split
  · split
    · exact (((h.modSeg _ _ fun _ => rfl).unlist _).setReclaim _ (hst := .inr rfl)).recordBoundary
    · exact h
  · exact h

theorem resumeReclaim (h : e.locationLaw) : e.resumeReclaim.locationLaw := by
  unfold Engine.resumeReclaim
  split
  · exact (h.setReclaim _).beginStep
  · exact h

/-- The unit chooses a victim in RUNNING alone (R112). -/
theorem makeChoice (h : e.locationLaw) : e.makeChoice.locationLaw := by
  unfold Engine.makeChoice
  refine setReclaim ?_ _
  split
  · next hc =>
    have hm : e.state ≠ .mounting := by
      simp only [Engine.mayChoose, Bool.and_eq_true, beq_iff_eq] at hc
      obtain ⟨-, ⟨⟨⟨-, hrunning⟩, -⟩, -⟩, -⟩ := hc
      rw [hrunning]
      nofun
    split
    · split
      · exact (h.startVictim hm _ _).grantVictim
      · exact h
    · exact h
  · exact h

/-! ### The Job Unit (chapter 2) -/

theorem failWrite (h : e.locationLaw) (c : Nat) (st : Status) : (e.failWrite c st).locationLaw := by
  unfold Engine.failWrite
  split
  · exact (h.changeEntry _ _).complete _ _
  · exact h

theorem queueHostRecord (h : e.locationLaw) (c : Nat) (l : Location) : (e.queueHostRecord c l).locationLaw := h.same

theorem placeWrite (h : e.locationLaw) (c : Nat) : (e.placeWrite c).locationLaw := by
  unfold Engine.placeWrite
  split
  · next hp => exact (h.placeHost hp).queueHostRecord _ _
  · next hp =>
    split
    · exact (h.placeHost hp).same
    · exact (h.placeHost hp).failWrite _ _

theorem retryPlacement (h : e.locationLaw) (w : SpaceWaiter) : (e.retryPlacement w).locationLaw := by
  unfold Engine.retryPlacement
  split
  · next hp => exact (h.placeHost hp).same
  · next hp => exact h.placeHost hp

theorem freeRose (h : e.locationLaw) : e.freeRose.locationLaw :=
  ((foldl (fun w hk => hk.retryPlacement w) h.spaceTest _).setReclaim _).resumeReclaim.wantChoice

theorem takeSequence (h : e.locationLaw) : e.takeSequence.locationLaw := by
  unfold Engine.takeSequence
  dsimp only
  split
  · refine addCause ?_ _
    exact h.same
  · exact h.same

theorem admitWrite (h : e.locationLaw) (c : Nat) : (e.admitWrite c).locationLaw := by
  unfold Engine.admitWrite
  refine placeWrite (modCtx (takeSequence (changeEntry ?_ _ _)) _ _) _
  split
  · exact h.insertNascent _
  · exact h

theorem checkWrite (h : e.locationLaw) (c : Nat) : (e.checkWrite c).1.locationLaw := by
  unfold Engine.checkWrite
  dsimp only
  split
  · exact h.complete _ _
  · split
    · exact h.complete _ _
    · exact h.admitWrite c

theorem askAdmission (h : e.locationLaw) (c : Nat) : (e.askAdmission c).locationLaw := by
  unfold Engine.askAdmission
  dsimp only
  split
  · exact (h.changeEntry _ _).modCtx _ _
  · exact h.checkWrite c

theorem handOn (h : e.locationLaw) (key : Nat) (ws : List Nat) : (e.handOn key ws).locationLaw := by
  induction ws generalizing e with
  | nil =>
    unfold Engine.handOn
    split
    · exact h.dropEntry key
    · exact h.removalTest key
  | cons w ws ih =>
    have hw := (h.changeEntry key fun t => { t with waiters := ws }).checkWrite w
    unfold Engine.handOn
    split
    · next hp => rw [hp] at hw; exact hw
    · next hp => rw [hp] at hw; exact ih hw

theorem releaseLock (h : e.locationLaw) (c : Nat) : (e.releaseLock c).locationLaw := by
  unfold Engine.releaseLock
  dsimp only
  split
  · split
    · exact (h.changeEntry _ _).handOn _ _
    · exact h
  · exact h

/-- A passed write repoints its entry to the cells that were programmed (R13). -/
theorem hostProgramPassed (h : e.locationLaw) (hm : e.state ≠ .mounting) {l : Location}
    (hn : (e.seg l.seg).state.vacant = false) (c : Nat) : (e.hostProgramPassed c l).locationLaw := by
  have hbody {w : WriteKind} {r n : Nat} {m : Location} (hl : (durableBody w l r n).loc? = some m) : m.seg = l.seg := by
    cases w <;> exact congrArg Location.seg (Option.some.inj hl).symm
  unfold Engine.hostProgramPassed
  dsimp only
  split
  · exact ((((h.repoint hm hn _ fun _ _ hl => hbody hl).moveLive _ _).changeEntry _ _).removalTest _).complete _ _
  · exact h

theorem readLocation (h : e.locationLaw) (c : Nat) (l : Location) : (e.readLocation c l).locationLaw :=
  ((h.modCtx c _).pin l.seg).enqueue _

theorem getLookup (h : e.locationLaw) (c : Nat) : (e.getLookup c).locationLaw := by
  unfold Engine.getLookup
  dsimp only
  split
  · split
    · exact h.same
    · split
      · exact h.same
      · exact readLocation (h.modCtx _ _) _ _
  · exact h.same
  · exact h.same

theorem matchLookup (h : e.locationLaw) (c : Nat) : (e.matchLookup c).locationLaw := by
  unfold Engine.matchLookup
  dsimp only
  split
  · split
    · exact h.same
    · split
      · exact h.same
      · exact readLocation (h.modCtx _ _) _ _
  · exact h.same
  · exact h.same

theorem getReadDone (h : e.locationLaw) (c : Nat) (cells : List CellOutcome) : (e.getReadDone c cells).locationLaw := by
  unfold Engine.getReadDone
  dsimp only
  split <;> exact h.same

theorem matchReadDone (h : e.locationLaw) (c : Nat) (cells : List CellOutcome) : (e.matchReadDone c cells).locationLaw := by
  unfold Engine.matchReadDone
  dsimp only
  split <;> exact h.same

theorem scanStep (h : e.locationLaw) (c : Nat) : (e.scanStep c).locationLaw := by
  unfold Engine.scanStep
  dsimp only
  split <;> exact h.same

theorem proceed (h : e.locationLaw) (c : Nat) : (e.proceed c).locationLaw := by
  unfold Engine.proceed
  dsimp only
  split
  · exact h.complete _ _
  · split <;> exact h.same

theorem chainWritten (h : e.locationLaw) (c : Nat) : (e.chainWritten c).locationLaw := by
  unfold Engine.chainWritten
  dsimp only
  split
  · exact h
  · split
    · exact (h.modRing _ _).proceed _
    · exact h.modRing _ _

theorem freeCtx (h : e.locationLaw) (c : Nat) : (e.freeCtx c).locationLaw := by
  unfold Engine.freeCtx
  dsimp only
  split
  · next hf =>
    split
    · exact h.sameOut (h.not_mounting_of_format hf)
    · exact h.modCtx _ _
  · exact h.modCtx _ _

theorem discard (h : e.locationLaw) (r c : Nat) : (e.discard r c).locationLaw := ((h.modRing r _).releaseLock c).freeCtx c

theorem discardAll (h : e.locationLaw) (n : Nat) : (e.discardAll n).locationLaw := by
  induction n generalizing e with
  | zero => exact h
  | succ n ih =>
    unfold Engine.discardAll
    split
    · exact ih (h.discard _ _)
    · exact h

/-! ### The Mount Unit (chapter 7)

Each operation of a mount says where it leaves the mount. The rules take what of the law holds where the operation begins: that no
entry points into a vacant segment, that nothing is being reclaimed, and the phase with what it demands. -/

theorem of_survey (hl : e.locations = []) (hr : e.atRest) (hp : e.mount.phase = .survey) : e.locationLaw :=
  ⟨fun _ hk => absurd hk (hl ▸ List.not_mem_nil), fun _ => Engine.mountLaw_iff.mpr
    ⟨hr, fun _ => hl, fun h => absurd (hp.symm.trans h) nofun, fun h => absurd (hp.symm.trans h) nofun⟩⟩

theorem of_passA (hl : e.located) (hr : e.atRest) (hp : e.mount.phase = .passA)
    (hw : e.mount.others = false → e.walksIn) : e.locationLaw :=
  ⟨hl, fun _ => Engine.mountLaw_iff.mpr
    ⟨hr, fun h => absurd (hp.symm.trans h) nofun, fun _ => hw, fun h => absurd (hp.symm.trans h) nofun⟩⟩

theorem of_passB (hl : e.located) (hr : e.atRest) (hp : e.mount.phase = .passB)
    (hn : (e.seg e.mount.seg).state.vacant = false) : e.locationLaw :=
  ⟨hl, fun _ => Engine.mountLaw_iff.mpr
    ⟨hr, fun h => absurd (hp.symm.trans h) nofun, fun h => absurd (hp.symm.trans h) nofun, fun _ => hn⟩⟩

/-- What the mount's law holds of a phase. -/
theorem locations_of_survey (h : e.locationLaw) (hs : e.state = .mounting) (hp : e.mount.phase = .survey) :
    e.locations = [] := (Engine.mountLaw_iff.mp (h.2 hs)).2.1 hp

theorem walksIn_of_passA (h : e.locationLaw) (hs : e.state = .mounting) (hp : e.mount.phase = .passA)
    (ho : e.mount.others = false) : e.walksIn := (Engine.mountLaw_iff.mp (h.2 hs)).2.2.1 hp ho

theorem not_vacant_of_passB (h : e.locationLaw) (hs : e.state = .mounting) (hp : e.mount.phase = .passB) :
    (e.seg e.mount.seg).state.vacant = false := (Engine.mountLaw_iff.mp (h.2 hs)).2.2.2 hp

theorem segFrom_found {from_ n : Nat} {p : SegState → Bool} (h : e.segFrom from_ p = some n) :
    from_ ≤ n ∧ p (e.seg n).state = true := by
  obtain ⟨q, hq, rfl⟩ := Option.map_eq_some_iff.mp h
  have hf := List.find?_some hq
  simp only [Bool.and_eq_true, decide_eq_true_eq] at hf
  rwa [Engine.seg_of_mem_segTable (List.mem_of_find?_eq_some hq)]

/-- The segment that a walk takes next is in use. -/
theorem segFrom_full {from_ n : Nat} (h : e.segFrom from_ (· == .full) = some n) : (e.seg n).state.vacant = false := by
  rw [eq_of_beq (segFrom_found h).2]
  rfl

/-- The finish only drops entries, and makes only DIRTY segments ERASING (R144, R146). -/
theorem finishMount (hl : e.located) : e.finishMount.locationLaw := by
  by_cases hm : e.state = .mounting
  · refine of_located (fun l hk => ?_) ?_
    · rw [Engine.locations, Mounting.finishMount_index hm] at hk
      have hv := hl l ((List.filter_sublist.filterMap _).subset hk)
      by_cases hn : l.seg < e.space.segs.length
      · rw [Mounting.finishMount_state hm hn]
        split
        · next hd => exact nomatch (hd ▸ hv : SegState.vacant .dirty = false)
        · exact hv
      · have hlen : e.finishMount.space.segs.length = e.space.segs.length := by
          rw [Mounting.finishMount_frame hm]
          exact (Mounting.eraseDirty_length _).trans (Mounting.mounted_length e)
        rw [Engine.seg, List.getD_eq_getElem?_getD, List.getElem?_eq_none (by omega)]
        rfl
    · rw [Mounting.finishMount_frame hm]
      nofun
  · rw [Engine.finishMount, if_neg hm]
    exact of_located hl hm

section Mount

variable (hl : e.located) (hr : e.atRest)
include hl hr

theorem passBFrom (hp : e.mount.phase = .passB) (n : Nat) : (e.passBFrom n).locationLaw := by
  unfold Engine.passBFrom
  split
  · next hn => exact of_passB hl hr hp (segFrom_full hn)
  · exact finishMount hl

theorem passBMove (hp : e.mount.phase = .passB) (hn : (e.seg e.mount.seg).state.vacant = false) (count : Nat) :
    (e.passBMove count).locationLaw := by
  unfold Engine.passBMove
  dsimp only
  split
  · exact passBFrom hl hr hp _
  · exact of_passB hl hr hp hn

theorem passAOthersFrom (hp : e.mount.phase = .passA) (n : Nat) : (e.passAOthersFrom n).locationLaw := by
  unfold Engine.passAOthersFrom
  split
  · exact of_passA hl hr hp nofun
  · exact passBFrom (e := e.setMount _) hl hr rfl 0

/-- The next segment in use lies behind every entry found so far (R138). -/
theorem passAFrom (hp : e.mount.phase = .passA) {n : Nat} (hb : ∀ l ∈ e.locations, l.seg < n) :
    (e.passAFrom n).locationLaw := by
  unfold Engine.passAFrom
  split
  · next hn =>
    refine of_passA hl hr hp fun _ => ⟨segFrom_full hn, Nat.le_refl 2, fun l hk => .inl ?_⟩
    exact Nat.lt_of_lt_of_le (hb l hk) (segFrom_found hn).1
  · exact passAOthersFrom hl hr hp 0

/-- An in-use segment becomes DIRTY only where the walk of it has found no record (R138). -/
theorem passASegEnd (hp : e.mount.phase = .passA) (hw : e.mount.others = false → e.walksIn) : e.passASegEnd.locationLaw := by
  unfold Engine.passASegEnd
  dsimp only
  split
  · exact passAOthersFrom hl hr hp _
  · next ho =>
    obtain ⟨-, -, hbehind⟩ := hw (Bool.not_eq_true _ ▸ ho)
    have hnext : ∀ l ∈ e.locations, l.seg < e.mount.seg + 1 := fun l hk => by
      rcases hbehind l hk with h | ⟨h, -⟩ <;> omega
    split
    · next hc =>
      refine passAFrom (e := (e.modSeg _ _).countMount _) (fun l hk => ?_) hr hp hnext
      have hlt : l.seg < e.mount.seg := (hbehind l hk).resolve_right fun ⟨_, h⟩ => Nat.ne_of_gt h hc
      exact (e.modSeg_seg_ne _ _ _ (Nat.ne_of_lt hlt)).symm ▸ hl l hk
    · exact passAFrom (e := e.modSeg _ _) (fun l hk => e.modSeg_not_vacant _ id (hl l hk)) hr hp hnext

/-- The cursor passes a record, which may be one that an entry points at. -/
theorem passAMove (hp : e.mount.phase = .passA) {count : Nat} (hc : 1 ≤ count)
    (hw : e.mount.others = false → (e.seg e.mount.seg).state.vacant = false ∧ 2 ≤ e.mount.cursor
      ∧ ∀ l ∈ e.locations, l.seg ≤ e.mount.seg) : (e.passAMove count).locationLaw := by
  have hwalk (ho : e.mount.others = false) :
      (e.setMount fun m => { m with cursor := m.cursor + count, header := none }).walksIn := by
    obtain ⟨hv, hcursor, hle⟩ := hw ho
    have hpast : 2 < e.mount.cursor + count := by omega
    exact ⟨hv, Nat.le_of_lt hpast, fun l hk => (Nat.lt_or_eq_of_le (hle l hk)).imp id fun h => ⟨h, hpast⟩⟩
  unfold Engine.passAMove
  dsimp only
  split
  · exact passASegEnd (e := e.setMount _) hl hr hp hwalk
  · exact of_passA hl hr hp hwalk

end Mount

/-- What a record that a pass takes can do: it may become its key's record, so that an entry points into the segment `n` where
the record lies; of the rest, the law speaks of nothing that changes (R139 to R141, R143). -/
structure Takes (n : Nat) (e k : Engine) : Prop where
  locations : ∀ l ∈ k.locations, l ∈ e.locations ∨ l.seg = n := by exact fun _ => .inl
  segs : k.space.segs = e.space.segs := by rfl
  phase : k.mount.phase = e.mount.phase := by rfl
  seg : k.mount.seg = e.mount.seg := by rfl
  cursor : k.mount.cursor = e.mount.cursor := by rfl
  others : k.mount.others = e.mount.others := by rfl
  rest : e.atRest → k.atRest := by exact id

namespace Takes

variable {n : Nat} {k : Engine}

theorem seg_eq (h : Takes n e k) (m : Nat) : k.seg m = e.seg m := by rw [Engine.seg, h.segs]; rfl

theorem located (h : Takes n e k) (hl : e.located) (hn : (e.seg n).state.vacant = false) : k.located := fun l hk => by
  rw [h.seg_eq]
  exact (h.locations l hk).elim (hl l) fun hseg => hseg.symm ▸ hn

theorem after_count (f : MountStats → MountStats) (h : Takes n (e.countMount f) k) : Takes n e k := { h with }

/-- An entry takes a record of the segment, or keeps the one it has. -/
theorem change (e : Engine) (key : Nat) {f : Entry → Entry}
    (hf : (∀ t l, (f t).body.loc? = some l → l.seg = n) ∨ ∀ t, (f t).body = t.body) : Takes n e (e.changeEntry key f) where
  locations l hk := by
    rcases hf with hf | hf
    · exact (Engine.mem_locations_changeEntry hk).imp_right fun ⟨t, ht⟩ => hf t l ht
    · exact .inl (e.locations_changeEntry key hf ▸ hk)

theorem rankRecord (e : Engine) (key : Nat) {new : EntryBody} (hn : ∀ l, new.loc? = some l → l.seg = n) :
    Takes n e (e.rankRecord key new) := by
  unfold Engine.rankRecord
  split
  · split
    · exact { locations := fun l hk => (Engine.mem_locations_insert hk).imp_right (hn l) }
    · exact {}
  · split
    · exact change e key (.inl fun _ => hn)
    · exact change e key (.inr fun _ => rfl)

theorem takeRecord (e : Engine) (l : Location) (x : RecordHeader) (v : ValueVerdict) :
    Takes l.seg e (e.takeRecord l x v) := by
  have hl {m : Location} (hm : some l = some m) : m.seg = l.seg := congrArg Location.seg (Option.some.inj hm).symm
  unfold Engine.takeRecord
  split
  · exact rankRecord e _ fun _ => hl
  · exact after_count _ (rankRecord _ _ fun _ => hl)
  · exact {}
  · exact rankRecord e _ fun _ => hl
  · exact {}

theorem judgeTombstone (e : Engine) (l : Location) (x : RecordHeader) : Takes l.seg e (e.judgeTombstone l x) := by
  have hl {m : Location} (hm : some l = some m) : m.seg = l.seg := congrArg Location.seg (Option.some.inj hm).symm
  unfold Engine.judgeTombstone
  split
  · exact {}
  · split
    · exact change e _ (.inl fun _ _ => hl)
    · split
      · split
        · exact change e _ (.inl fun _ _ => hl)
        · exact {}
      · exact {}

end Takes

section Reads

variable (hl : e.located) (hr : e.atRest)
include hl hr

theorem passBRead (hp : e.mount.phase = .passB) (hn : (e.seg e.mount.seg).state.vacant = false)
    (cells : List CellOutcome) : (e.passBRead cells).locationLaw := by
  unfold Engine.passBRead
  split
  · exact passBFrom hl hr hp _
  · exact passBMove hl hr hp hn _
  · next x _ =>
    dsimp only
    split
    · have ht := Takes.judgeTombstone e { seg := e.mount.seg, cell := e.mount.cursor, count := 1 } x
      exact passBMove (ht.located hl hn) (ht.rest hr) (ht.phase.trans hp) (by rw [ht.seg_eq, ht.seg]; exact hn) _
    · exact passBMove hl hr hp hn _

theorem passARecord (hp : e.mount.phase = .passA) (hw : e.mount.others = false → e.walksIn) {l : Location}
    (hseg : l.seg = e.mount.seg) (x : RecordHeader) (cells : List CellOutcome) : (e.passARecord l x cells).locationLaw := by
  have hcells : 1 ≤ x.cells := Nat.le_add_right 1 _
  cases ho : e.mount.others with
  | true =>
    rw [Mounting.passARecord_others ho]
    exact passAMove (e := e.noteRseq x) hl hr hp hcells fun h => nomatch ho.symm.trans h
  | false =>
    rw [Mounting.passARecord_inUse ho]
    obtain ⟨hv, hc, hbehind⟩ := hw ho
    have ht := Takes.takeRecord ((e.noteRseq x).counted fun t => { t with records := t.records + 1 }) l x
      (valueVerdict x cells)
    refine passAMove (ht.located hl (hseg ▸ hv)) (ht.rest hr) (ht.phase.trans hp) hcells fun _ => ?_
    rw [ht.seg, ht.cursor, ht.seg_eq]
    refine ⟨hv, hc, fun m hm => ?_⟩
    rcases ht.locations m hm with hm | hm
    · exact (hbehind m hm).elim Nat.le_of_lt fun ⟨h, _⟩ => Nat.le_of_eq h
    · exact Nat.le_of_eq (hm.trans hseg)

theorem passARead (hp : e.mount.phase = .passA) (hw : e.mount.others = false → e.walksIn) (cells : List CellOutcome) :
    (e.passARead cells).locationLaw := by
  have hmove (ho : e.mount.others = false) : (e.seg e.mount.seg).state.vacant = false ∧ 2 ≤ e.mount.cursor
      ∧ ∀ l ∈ e.locations, l.seg ≤ e.mount.seg := by
    obtain ⟨hv, hc, hbehind⟩ := hw ho
    exact ⟨hv, hc, fun l hk => (hbehind l hk).elim Nat.le_of_lt fun ⟨h, _⟩ => Nat.le_of_eq h⟩
  unfold Engine.passARead
  dsimp only
  split
  · exact passARecord hl hr hp hw rfl _ _
  · split
    · exact passASegEnd hl hr hp hw
    · split
      · exact passAMove hl hr hp (Nat.le_refl 1) hmove
      · exact passAMove (e := e.countMount _) hl hr hp (Nat.le_refl 1) hmove
    · split
      · exact passARecord hl hr hp hw rfl _ _
      · exact of_passA hl hr hp hw

end Reads

section Survey

variable (hl : e.locations = []) (hr : e.atRest)
include hl hr

/-- Pass A begins with no entry made. -/
theorem startPassA : e.startPassA.locationLaw := by
  have hn {l : Location} (hk : l ∈ e.locations) : False := List.not_mem_nil (hl ▸ hk)
  exact passAFrom (e := e.setMount _) (fun _ hk => (hn hk).elim) hr rfl fun _ hk => (hn hk).elim

variable (hp : e.mount.phase = .survey)
include hp

theorem surveyEnd : e.surveyEnd.locationLaw := by
  have hmean (mean : Nat) : (e.giveMean mean).locations = [] ∧ (e.giveMean mean).atRest
      ∧ (e.giveMean mean).mount.phase = .survey := by
    rw [Mounting.giveMean_eq]
    exact ⟨hl, hr, hp⟩
  obtain ⟨hl, hr, hp⟩ := hmean (e.mount.eraseSum / e.mount.formatCells)
  unfold Engine.surveyEnd
  dsimp only
  split
  · exact startPassA (e := (e.giveMean _).setMount _) hl hr
  · refine foldl (fun _ hk => hk.enqueue _) ?_ _
    exact of_survey (e := (e.giveMean _).setMount _) hl hr hp

theorem surveyFirst (n : Nat) (cells : List CellOutcome) (weak : Bool) : (e.surveyFirst n cells weak).locationLaw := by
  have hformat (x : CellOutcome) : (e.noteFormat n x).locations = [] ∧ (e.noteFormat n x).atRest
      ∧ (e.noteFormat n x).mount.phase = .survey := by
    unfold Engine.noteFormat
    split <;> exact ⟨hl, hr, hp⟩
  have hopen (k : Engine) (x : CellOutcome) (hk : k.locations = [] ∧ k.atRest ∧ k.mount.phase = .survey) :
      (k.noteOpen n x).locations = [] ∧ (k.noteOpen n x).atRest ∧ (k.noteOpen n x).mount.phase = .survey := by
    unfold Engine.noteOpen
    split <;> exact hk
  obtain ⟨hl, hr, hp⟩ := hopen _ (cells.tail.headD .uncorrectable) (hformat (cells.headD .uncorrectable))
  exact of_survey hl hr hp

theorem surveySecond (n : Nat) (cells : List CellOutcome) (weak : Bool) : (e.surveySecond n cells weak).locationLaw := by
  unfold Engine.surveySecond
  dsimp only
  split <;> split
  · exact of_survey hl hr hp
  · exact of_survey hl hr hp
  · exact surveyEnd (e := (e.modSeg _ _).countMount _) hl hr hp
  · exact surveyEnd (e := e.modSeg _ _) hl hr hp

theorem blankCheckEnded : e.blankCheckEnded.locationLaw := by
  unfold Engine.blankCheckEnded
  dsimp only
  split
  · exact startPassA (e := e.setMount _) hl hr
  · exact of_survey hl hr hp

theorem formatEstimated (n : Nat) (pass : Bool) : (e.formatEstimated n pass).locationLaw := by
  unfold Engine.formatEstimated
  split
  · exact blankCheckEnded (e := (e.modSeg _ _).countMount _) hl hr hp
  · exact retireSegment (of_survey hl hr hp) ⟨fun _ hk => absurd hk (hl ▸ List.not_mem_nil), fun _ =>
      ⟨fun h => absurd (hp.symm.trans h) nofun, fun h => absurd (hp.symm.trans h) nofun⟩⟩ _ _

end Survey

/-- At the survey no entry has been made. -/
theorem at_survey (h : e.locationLaw) (hs : e.surveying = true) :
    e.locations = [] ∧ e.atRest ∧ e.mount.phase = .survey := by
  obtain ⟨hm, hp⟩ := Bool.and_eq_true_iff.mp hs
  exact ⟨h.locations_of_survey (eq_of_beq hm) (eq_of_beq hp), h.atRest (eq_of_beq hm), eq_of_beq hp⟩

theorem blankAnswer (h : e.locationLaw) (n : Nat) (blank : Bool) : (e.blankAnswer n blank).locationLaw := by
  unfold Engine.blankAnswer
  split
  · exact h
  · next hs =>
    split
    · exact h.enqueue _
    · obtain ⟨hl, hr, hp⟩ := h.at_survey (by simpa using hs)
      exact blankCheckEnded (e := (e.modSeg _ _).countMount _) hl hr hp

theorem mountProgramDone (h : e.locationLaw) (q : Request) (pass : Bool) : (e.mountProgramDone q pass).locationLaw := by
  unfold Engine.mountProgramDone
  split
  · next hs _ =>
    obtain ⟨hl, hr, hp⟩ := h.at_survey hs
    exact formatEstimated hl hr hp _ _
  · next hs _ =>
    obtain ⟨hl, hr, hp⟩ := h.at_survey hs
    exact blankCheckEnded hl hr hp
  · exact h

theorem markMounted (h : e.locationLaw) (n : Nat) (weak : Bool) : (e.markMounted n weak).locationLaw := by
  unfold Engine.markMounted
  split
  · exact h.modSeg n _
  · exact h

theorem mountReadDone (h : e.locationLaw) (q : Request) (cells : List CellOutcome) : (e.mountReadDone q cells).locationLaw := by
  have hmark (weak : Bool) : (e.markMounted q.seg weak).locationLaw ∧ (e.markMounted q.seg weak).state = e.state
      ∧ (e.markMounted q.seg weak).mount = e.mount := by
    refine ⟨h.markMounted _ _, ?_⟩
    unfold Engine.markMounted
    split <;> exact ⟨rfl, rfl⟩
  obtain ⟨hk, hs, hm⟩ := hmark (weakRead e.control.limits.threshold cells)
  unfold Engine.mountReadDone
  dsimp only
  split
  · next he hp =>
    have hl := h.locations_of_survey he hp
    split
    · exact surveySecond hl (h.atRest he) hp _ _ _
    · exact surveyFirst hl (h.atRest he) hp _ _ _
  · next he hp =>
    exact passARead hk.located (hk.atRest (hs.trans he)) (hm ▸ hp) (hk.walksIn_of_passA (hs.trans he) (hm ▸ hp)) _
  · next he hp =>
    exact passBRead hk.located (hk.atRest (hs.trans he)) (hm ▸ hp) (hk.not_vacant_of_passB (hs.trans he) (hm ▸ hp)) _
  · exact h

/-! ### The Ring Unit (chapter 8) -/

theorem issueFetch (h : e.locationLaw) : e.issueFetch.locationLaw := by
  have hn (r : Nat) : (e.noteServed r).locationLaw := by
    unfold Engine.noteServed
    split
    · exact h
    · exact h.same
  unfold Engine.issueFetch
  split
  · split
    · exact (hn _).same
    · exact h
  · exact h

theorem takeDescriptor (h : e.locationLaw) (r c : Nat) (d : Descriptor) : (e.takeDescriptor r c d).locationLaw := by
  unfold Engine.takeDescriptor Engine.checked
  dsimp only
  split
  · exact h.same
  · refine proceed ?_ _
    exact h.same

theorem ringFault (h : e.locationLaw) (r : Nat) (cause : FaultCause) (slot : Nat) : (e.ringFault r cause slot).locationLaw := by
  unfold Engine.ringFault
  dsimp only
  split
  · exact h
  · exact (foldl (fun _ hk => hk.complete _ _) (h.modRing _ _) _).raiseNotice _

theorem fetchDone (h : e.locationLaw) (r c : Nat) (d : Option Descriptor) : (e.fetchDone r c d).locationLaw := by
  have hc : (e.fetchEnded c).locationLaw := h.same
  unfold Engine.fetchDone
  dsimp only
  split
  · exact hc.takeDescriptor _ _ _
  · exact hc.takeDescriptor _ _ _
  · exact hc.modRing _ _
  · exact (hc.modRing _ _).ringFault _ _ _

theorem issueRecords (h : e.locationLaw) : e.issueRecords.locationLaw := h.same

theorem signalRing (h : e.locationLaw) (r : Nat) : (e.signalRing r).locationLaw := by
  unfold Engine.signalRing
  split
  · exact h.same
  · exact h

theorem recordWritten (h : e.locationLaw) (r c : Nat) : (e.recordWritten r c).locationLaw :=
  (((((h.emit _).modRing r _).releaseLock c).chainWritten c).freeCtx c).signalRing r

theorem recordFailed (h : e.locationLaw) (r c : Nat) : (e.recordFailed r c).locationLaw :=
  (((h.emit _).modRing r _).ringFault r _ _).discard r c

theorem post (h : e.locationLaw) (r t : Nat) : (e.post r t).locationLaw := by
  unfold Engine.post
  split <;> exact h.same

theorem ackRing (h : e.locationLaw) (r : Nat) (arm : Bool) (n : Nat) : (e.ackRing r arm n).locationLaw := by
  unfold Engine.ackRing
  dsimp only
  split <;> exact h.same

theorem ackNotice (h : e.locationLaw) (g : NoticeRing) (arm : Bool) (n : Nat) : (e.ackNotice g arm n).locationLaw := by
  unfold Engine.ackNotice
  dsimp only
  split <;> exact h.same

theorem ack (h : e.locationLaw) (r : Nat) (arm : Bool) (n : Nat) : (e.ack r arm n).locationLaw := by
  unfold Engine.ack
  dsimp only
  split
  · split
    · split
      · exact h.ackNotice _ _ _
      · exact h.same
    · exact h.same
  · split
    · exact h.ackRing _ _ _
    · exact h.same

theorem writeAdminSize (h : e.locationLaw) (v : BitVec 32) : (e.writeAdminSize v).locationLaw := by
  unfold Engine.writeAdminSize
  split <;> exact h.same

theorem closeRing (h : e.locationLaw) (r : Nat) : (e.closeRing r).locationLaw := by
  unfold Engine.closeRing
  split
  · exact h.same
  · exact h

theorem issueNotice (h : e.locationLaw) : e.issueNotice.locationLaw := by
  unfold Engine.issueNotice
  split
  · split
    · exact h.same
    · exact h
  · exact h

theorem noticeDone (h : e.locationLaw) (ok : Bool) : (e.noticeDone ok).locationLaw := by
  unfold Engine.noticeDone
  split
  · split
    · unfold Engine.noticeWritten
      dsimp only
      split <;> exact h.same
    · exact h.same
  · exact h

theorem applySetter (h : e.locationLaw) (c : Nat) : (e.applySetter c).locationLaw := h.same

theorem applySetters (h : e.locationLaw) : e.applySetters.locationLaw := by
  unfold Engine.applySetters
  split
  · exact h
  · exact foldl (fun c hk => hk.applySetter c) h _

/-! ### FORMAT, the end of a step and SCRUB (chapters 3, 9 and 10) -/

/-- A FORMAT that moves the segments to ERASING empties the index (R22, R73). -/
theorem formatBegin (h : e.locationLaw) : e.formatBegin.locationLaw := by
  unfold Engine.formatBegin
  split
  · next f hf =>
    split
    · have hs : e.endReclaim.state = e.state := (Engine.Move.refl e).endReclaim.state_kept
      unfold Engine.formatRelease
      refine foldl (fun _ hk => hk.enqueue _) (of_located (fun l hl => absurd hl List.not_mem_nil) ?_) _
      exact hs ▸ h.not_mounting_of_format hf
    · exact h
  · exact h

theorem recomputeMode (h : e.locationLaw) : e.recomputeMode.locationLaw := by
  unfold Engine.recomputeMode
  dsimp only
  split <;> exact h.same

theorem formatEnd (h : e.locationLaw) : e.formatEnd.locationLaw := by
  unfold Engine.formatEnd
  split
  · next hf =>
    split
    · refine complete (raiseNotice (recomputeMode ?_) _) _ _
      exact h.sameOut (h.not_mounting_of_format hf)
    · exact h
  · exact h

theorem testQuiescence (h : e.locationLaw) : e.testQuiescence.locationLaw := by
  unfold Engine.testQuiescence
  split
  · exact h.setState (by decide)
  · exact h

theorem settleBlocks (h : e.locationLaw) : e.settleBlocks.locationLaw :=
  (foldl (fun r hk => hk.closeRing r)
    (h.discardAll _).grantVictim.formatBegin.settleReleased.settlePinWait.formatEnd.applySetters _).discardAll _

theorem settle (h : e.locationLaw) : e.settle.locationLaw := by
  unfold Engine.settle
  split
  · exact h.issueNotice
  · exact h.settleBlocks.makeChoice.issueRecords.issueFetch.issueNotice.testQuiescence

theorem scrubRead (h : e.locationLaw) (c cell count : Nat) : (e.scrubRead c cell count).locationLaw := by
  unfold Engine.scrubRead
  dsimp only
  split
  · exact (h.pin _).enqueue _
  · exact h.same

theorem scrubNext (h : e.locationLaw) (c : Nat) : (e.scrubNext c).locationLaw := by
  unfold Engine.scrubNext
  dsimp only
  split
  · exact h.same
  · exact h.scrubRead _ _ _

theorem scrubPass (h : e.locationLaw) (c n : Nat) : (e.scrubPass c n).locationLaw := (h.modCtx c _).scrubNext c

theorem scrubReadDone (h : e.locationLaw) (c : Nat) (q : Request) (cells : List CellOutcome) :
    (e.scrubReadDone c q cells).locationLaw := by
  have hn := h.modCtx c fun x => { x with scrub := x.scrub.noteRead cells }
  unfold Engine.scrubReadDone
  dsimp only
  split
  · exact scrubPass (hn.modCtx _ _) _ _
  · split
    · exact hn.same
    · exact scrubPass (hn.modCtx _ _) _ _
    · unfold Engine.scrubHeader
      dsimp only
      split
      · exact scrubPass (hn.modCtx _ _) _ _
      · exact scrubRead (hn.modCtx _ _) _ _ _

/-! ### The media's reports (chapter 4) -/

/-- A segment whose format cell is programmed is ERASING, and so already vacant (R68). -/
theorem formatCellPassed (h : e.locationLaw) (q : Request) : (e.formatCellPassed q).locationLaw := by
  unfold Engine.formatCellPassed
  split
  · next hs =>
    exact (((h.modSeg_unplaced (h.unplaced_of_vacant (by rw [hs]; rfl)) _).formatCounts _ _).freeRose).victimEnded _ _
  · exact h

/-- A record's program that passes is taken outside MOUNTING, in a segment in use. -/
theorem recordPassed (h : e.locationLaw) (q : Request) {take : Engine → Location → Engine}
    (ht : ∀ {k : Engine} {l : Location}, k.locationLaw → k.state ≠ .mounting → (k.seg l.seg).state.vacant = false →
      (take k l).locationLaw) : (e.recordPassed q take).locationLaw := by
  unfold Engine.recordPassed
  split
  · next hc =>
    obtain ⟨hm, hu⟩ := Bool.and_eq_true_iff.mp hc
    exact ht (h.modSeg _ _) (show e.state ≠ .mounting by simpa using hm)
      (e.modSeg_not_vacant _ id (SegState.not_vacant_of_inUse hu))
  · exact h

theorem programPassed (h : e.locationLaw) (q : Request) : (e.programPassed q).locationLaw := by
  unfold Engine.programPassed
  split
  · exact h.recordPassed q fun hk hm hn => hk.hostProgramPassed hm hn _
  · exact h.recordPassed q fun hk hm hn => hk.reclaimProgramPassed hm hn
  · exact h.mountProgramDone _ _
  · exact h.mountProgramDone _ _
  · exact h.formatCellPassed _
  · exact h

theorem replaceHost (h : e.locationLaw) (c : Nat) (q : Request) : (e.replaceHost c q).locationLaw := by
  unfold Engine.replaceHost
  split
  · exact h.failWrite _ _
  · exact (h.modCtx _ _).placeWrite _

theorem replaceReclaim (h : e.locationLaw) (q : Request) : (e.replaceReclaim q).locationLaw := by
  unfold Engine.replaceReclaim
  split
  · exact h.beginStep
  · split
    · next hp => exact (h.placeReclaim hp).enqueue _
    · next hp => exact (h.placeReclaim hp).pauseForSpace

theorem replaceRecord (h : e.locationLaw) (q : Request) : (e.replaceRecord q).locationLaw := by
  unfold Engine.replaceRecord
  split
  · exact h.replaceHost _ _
  · exact h.replaceReclaim _
  · exact h

theorem segmentFailed (h : e.locationLaw) (b seg : Nat) (l : List Request) : (e.segmentFailed b seg l).locationLaw :=
  foldl (fun q hk => hk.replaceRecord q) ((h.closeFailed seg).modBank b _) _

theorem programFailed (h : e.locationLaw) (b : Nat) (q : Request) : (e.programFailed b q).locationLaw := by
  unfold Engine.programFailed
  split
  · exact h.segmentFailed _ _ _
  · exact h.segmentFailed _ _ _
  · exact h.segmentFailed _ _ _
  · exact h.segmentFailed _ _ _
  · exact h.mountProgramDone _ _
  · exact h.mountProgramDone _ _
  · exact h.eraseLost _ _
  · exact h

theorem programEnded (h : e.locationLaw) (b : Nat) (q : Request) (pass : Bool) : (e.programEnded b q pass).locationLaw := by
  unfold Engine.programEnded
  split
  · exact h.programPassed _
  · exact h.programFailed _ _

theorem eraseEnded (h : e.locationLaw) (q : Request) (pass : Bool) : (e.eraseEnded q pass).locationLaw := by
  unfold Engine.eraseEnded
  split
  · exact (h.modSeg q.seg _).enqueue _
  · exact h.eraseLost _ _

theorem markWeak (h : e.locationLaw) (n : Nat) (weak : Bool) : (e.markWeak n weak).locationLaw := by
  unfold Engine.markWeak
  split
  · exact h.weakMark _
  · exact h

theorem ctxReadDone (h : e.locationLaw) (c : Nat) (q : Request) (cells : List CellOutcome) :
    (e.ctxReadDone c q cells).locationLaw := by
  unfold Engine.ctxReadDone
  split
  · exact h.getReadDone _ _
  · exact h.matchReadDone _ _
  · exact h.scrubReadDone _ _ _
  · exact h

theorem readReported (h : e.locationLaw) (q : Request) (cells : List CellOutcome) : (e.readReported q cells).locationLaw := by
  unfold Engine.readReported
  dsimp only
  split
  · exact ((h.markWeak _ _).unpin _).ctxReadDone _ _ _
  · exact ((h.markWeak _ _).unpin _).reclaimReadDone _ _
  · exact h.mountReadDone _ _
  · exact h

/-- The end of a bank's operation keeps the law when its report does. -/
theorem opEnded (h : e.locationLaw) (b : Nat) {report : Engine → Engine}
    (hr : ∀ {k : Engine}, k.locationLaw → (report k).locationLaw) : (e.opEnded b report).locationLaw := by
  unfold Engine.opEnded
  split
  · exact (h.modBank _ _).settle
  · exact ((hr (h.modBank _ _)).modBank _ _).settle

theorem suspended (h : e.locationLaw) (b : Nat) : (e.suspended b).locationLaw := by
  unfold Engine.suspended
  split
  · exact (h.modBank _ _).settle
  · exact ((h.modBank _ _).modBank _ _).settle

theorem quantumEvent (h : e.locationLaw) (b : Nat) : (e.quantumEvent b).locationLaw := by
  unfold Engine.quantumEvent
  split
  · exact h.modBank _ _
  · exact h

/-! ### Engine Control and the register window (chapter 9) -/

theorem start (h : e.locationLaw) : e.start.locationLaw := by
  unfold Engine.start
  split
  · exact ((h.setState (by decide)).setReclaim _).resumeReclaim.wantChoice.settle
  · exact h

theorem stop (h : e.locationLaw) : e.stop.locationLaw := by
  unfold Engine.stop
  split
  · exact ((h.setState (by decide)).setReclaim _).settle
  · exact h

/-- HALTED is no mount, so that where one stood does not count. -/
theorem halt (h : e.locationLaw) (m : ParityMemory) : (e.halt m).locationLaw := by
  unfold Engine.halt
  split
  · exact h
  · refine settle (raiseNotice ?_ _)
    exact h.same (hs := fun hk => nomatch hk)

theorem writeBase (h : e.locationLaw) (offset : Nat) (v : BitVec 32) : (e.writeBase offset v).locationLaw := by
  unfold Engine.writeBase
  split
  · exact h.same
  · split
    · exact h.same
    · exact h

/-! ### The events of the Ring Unit -/

theorem fetchEvent (h : e.locationLaw) (d : Option (List Byte)) : (e.fetchEvent d).locationLaw := by
  unfold Engine.fetchEvent
  split
  · exact h
  · exact h.same
  · exact (h.fetchDone _ _ _).settle

theorem recordEvent (h : e.locationLaw) (r : Nat) (ok : Bool) : (e.recordEvent r ok).locationLaw := by
  unfold Engine.recordEvent
  split
  · split
    · exact h.same
    · split
      · exact (h.recordWritten _ _).settle
      · exact (h.recordFailed _ _).settle
  · exact h

theorem noticeEvent (h : e.locationLaw) (ok : Bool) : (e.noticeEvent ok).locationLaw := by
  unfold Engine.noticeEvent
  split
  · exact (h.noticeDone _).settle
  · exact h

/-! ### The data jobs -/

theorem jobStep (h : e.locationLaw) (c : Nat) (j : Job) {f : Engine → Engine} (hf : (f e).locationLaw) :
    (e.jobStep c j f).locationLaw := by
  unfold Engine.jobStep
  split
  · exact hf.settle
  · exact h

theorem putStep (h : e.locationLaw) (c : Nat) : (e.putStep c).locationLaw := by
  unfold Engine.putStep
  dsimp only
  split
  · exact h.same
  · split
    · exact askAdmission (h.modCtx _ _) _
    · exact h.same

theorem deleteStep (h : e.locationLaw) (c : Nat) : (e.deleteStep c).locationLaw := by
  unfold Engine.deleteStep
  split
  · exact h.same
  · exact h.askAdmission _

theorem matchStep (h : e.locationLaw) (c : Nat) : (e.matchStep c).locationLaw := by
  unfold Engine.matchStep
  dsimp only
  split
  · exact matchLookup (h.modCtx _ _) _
  · exact h.same

theorem loaded (h : e.locationLaw) (c n : Nat) (d : Option (List Byte)) : (e.loaded c n d).locationLaw := by
  unfold Engine.loaded
  split
  · exact h.same
  · dsimp only
    split
    · exact (h.modCtx _ _).matchLookup _
    · exact (h.modCtx _ _).askAdmission _

theorem afterTransfer (h : e.locationLaw) {f : Engine → Engine} (hf : (f e).locationLaw) : (e.afterTransfer f).locationLaw := by
  unfold Engine.afterTransfer
  split
  · exact h
  · exact hf.settle

theorem loadEvent (h : e.locationLaw) (c : Nat) (d : Option (List Byte)) : (e.loadEvent c d).locationLaw := by
  have ht : (e.transferEnded c).locationLaw := h.same
  unfold Engine.loadEvent
  split
  · exact ht.afterTransfer (ht.loaded _ _ _)
  · exact h

theorem returnEvent (h : e.locationLaw) (c : Nat) (mine : Job → Bool) (ok : Bool) {f : Nat → Engine → Engine}
    (hf : ∀ (n : Nat) {k : Engine}, k.locationLaw → (f n k).locationLaw) : (e.returnEvent c mine ok f).locationLaw := by
  have hs (address : Nat) (bytes : List Byte) : (e.sent c address bytes ok).locationLaw := h.same
  unfold Engine.returnEvent
  split
  · split
    · exact (hs _ _).afterTransfer (hf _ (hs _ _))
    · exact h
  · exact h

theorem scanReturned (h : e.locationLaw) (c : Nat) (ok : Bool) (n : Nat) : (e.scanReturned c ok n).locationLaw := by
  unfold Engine.scanReturned
  dsimp only
  split
  · split
    · exact h.same
    · exact ((h.modCtx _ _).modCtx _ _).scanStep _
  · exact h.same

theorem expireWait (h : e.locationLaw) (c : Nat) : (e.expireWait c).locationLaw := by
  unfold Engine.expireWait
  split
  · refine settle (failWrite ?_ _ _)
    exact h.same
  · exact h

/-! ### The admin jobs (chapters 6, 8 and 10) -/

theorem openRingStep (h : e.locationLaw) (c : Nat) : (e.openRingStep c).locationLaw := by
  unfold Engine.openRingStep
  dsimp only
  split <;> exact h.same

theorem closeRingStep (h : e.locationLaw) (c : Nat) : (e.closeRingStep c).locationLaw := by
  unfold Engine.closeRingStep
  dsimp only
  split
  · exact h.same
  · split
    · exact h.same
    · exact h.same
    · exact h.same
    · split <;> exact h.same

theorem setNoticeStep (h : e.locationLaw) (c : Nat) : (e.setNoticeStep c).locationLaw := by
  unfold Engine.setNoticeStep
  split
  · exact h.same
  · split <;> exact h.same

theorem setLimitsStep (h : e.locationLaw) (c : Nat) : (e.setLimitsStep c).locationLaw := by
  unfold Engine.setLimitsStep
  dsimp only
  split
  · exact h.same
  · refine complete ?_ _ _
    split
    · exact h.same
    · refine spaceTest ?_
      exact h.same

theorem querySegmentStep (h : e.locationLaw) (c : Nat) : (e.querySegmentStep c).locationLaw := by
  unfold Engine.querySegmentStep
  dsimp only
  split
  · exact h.same
  · split <;> exact h.same

theorem reclaimStep (h : e.locationLaw) (c : Nat) : (e.reclaimStep c).locationLaw := by
  unfold Engine.reclaimStep
  dsimp only
  split
  · exact h.same
  · next hn =>
    have hm : e.state ≠ .mounting := fun hs => by simp [Engine.reclaimRefusal, hs] at hn
    split
    · exact h.same
    · split
      · exact startVictim (h.modCtx _ _) hm _ _
      · exact h.same

theorem scrubStep (h : e.locationLaw) (c : Nat) : (e.scrubStep c).locationLaw := by
  unfold Engine.scrubStep
  dsimp only
  split
  · exact h.same
  · split
    · exact h.same
    · exact scrubNext (modCtx (h.modCtx _ _) _ _) _

theorem formatStep (h : e.locationLaw) (c : Nat) : (e.formatStep c).locationLaw := by
  unfold Engine.formatStep
  split
  · exact h.same
  · next hm =>
    split
    · exact h.same
    · split
      · exact h.same
      · exact h.sameOut hm

end Engine.locationLaw

/-! ### Commands and steps -/

namespace Locations

variable {s t : State}

theorem endProgram_keeps (h : s.engine.locationLaw) (b : Nat) (o : Operation) (pass : Bool) :
    (s.endProgram b o pass).engine.locationLaw := by
  cases pass with
  | false =>
    rw [State.endProgram_failed]
    exact h.draw.opEnded b fun hk => hk.programEnded _ _ _
  | true =>
    rw [State.endProgram_passed]
    exact h.opEnded b fun hk => hk.programEnded _ _ _

theorem endErase_keeps (h : s.engine.locationLaw) (b : Nat) (o : Operation) (pass : Bool) :
    (s.endErase b o pass).engine.locationLaw := by
  cases pass with
  | false =>
    rw [State.endErase_failed]
    exact h.draw.opEnded b fun hk => hk.eraseEnded _ _
  | true =>
    rw [State.endErase_passed]
    exact h.opEnded b fun hk => hk.eraseEnded _ _

theorem suspendReported_keeps (h : s.engine.locationLaw) (b : Nat) (x : SuspendOutcome) :
    (s.suspendReported b x).engine.locationLaw := by
  have ho (o : Operation) (pass : Bool) : (s.endOp b o pass).engine.locationLaw := by
    unfold State.endOp
    split
    · exact endErase_keeps h b o pass
    · exact endProgram_keeps h b o pass
  unfold State.suspendReported
  split
  · exact h
  · split
    · exact h.suspended b
    · exact ho _ _
    · exact ho _ _

theorem onActive_keeps (h : s.engine.locationLaw) {b : Nat} {op : MediaOp} {f : Operation → State}
    (hf : ∀ o, (f o).engine.locationLaw) : (s.onActive b op f).engine.locationLaw := by
  obtain hs | ⟨o, -, hs⟩ := s.onActive_cases b op f
  · rw [hs]
    exact h
  · rw [hs]
    exact hf o

/-- A reset leaves no entry and nothing to reclaim or release (R23, R111). -/
theorem fresh_holds (e : Engine) (g : Registers) : (e.fresh g).locationLaw :=
  ⟨nofun, fun _ => Engine.mountLaw_iff.mpr ⟨⟨rfl, rfl, rfl, rfl⟩, fun _ => rfl, nofun, nofun⟩⟩

/-- The mount after a reset starts so (R134). -/
theorem mount_fresh (e : Engine) (g : Registers) : (e.fresh g).startMount.settle.locationLaw :=
  Engine.locationLaw.settle (.of_survey rfl ⟨rfl, rfl, rfl, rfl⟩ rfl)

theorem engineReset_keeps (s : State) : s.engineReset.engine.locationLaw := by
  rw [State.engineReset_engine]
  refine Engine.locationLaw.settle ?_
  unfold Engine.initAdminRing
  exact .of_survey rfl ⟨rfl, rfl, rfl, rfl⟩ rfl

theorem writeControl_keeps (h : s.engine.locationLaw) (v : BitVec 32) : (s.writeControl v).engine.locationLaw := by
  unfold State.writeControl
  split
  · exact engineReset_keeps s
  · split
    · exact h.start
    · exact h.stop
    · exact h

theorem writeRegister_keeps (h : s.engine.locationLaw) (offset width : Nat) (v : BitVec 32) :
    (s.writeRegister offset width v).engine.locationLaw := by
  unfold State.writeRegister
  split
  · exact h
  · split
    · exact writeControl_keeps h v
    · split
      · exact (h.writeAdminSize v).settle
      · split
        · exact (h.post _ _).settle
        · split
          · exact (h.ack _ _ _).settle
          · exact h.writeBase _ _

theorem keeps_of_whenOn {f : State → State}
    (hn : (Host.Outcome.next (s.whenOn f) : Host.Outcome State Fault Refusal) = .next t) (h : s.engine.locationLaw)
    (hf : (f s).engine.locationLaw) : t.engine.locationLaw := by
  cases hn
  unfold State.whenOn
  split
  · exact hf
  · exact h

theorem keeps_of_withEngine {f : Engine → Engine}
    (hn : (Host.Outcome.next (s.withEngine f) : Host.Outcome State Fault Refusal) = .next t) (h : s.engine.locationLaw)
    (hf : (f s.engine).locationLaw) : t.engine.locationLaw := keeps_of_whenOn hn h hf

theorem keeps_of_jobStep {n : Nat} {j : Job} {f : Engine → Engine}
    (hn : (Host.Outcome.next (s.withEngine fun e => e.jobStep n j f) : Host.Outcome State Fault Refusal) = .next t)
    (h : s.engine.locationLaw) (hf : (f s.engine).locationLaw) : t.engine.locationLaw :=
  keeps_of_withEngine hn h (h.jobStep n j hf)

/-- Every command keeps the law. -/
theorem exec_keeps {c : Instr} (hn : exec c s = .next t) (h : s.engine.locationLaw) : t.engine.locationLaw := by
  cases c with
  | start => exact keeps_of_withEngine hn h h.start
  | stop => exact keeps_of_withEngine hn h h.stop
  | parityError m => exact keeps_of_withEngine hn h (h.halt m)
  | engineReset => exact keeps_of_whenOn hn h (engineReset_keeps s)
  | linkReset => exact keeps_of_whenOn hn h (s.linkReset_engine ▸ mount_fresh _ _)
  | coldReset => cases hn; exact s.coldReset_engine ▸ mount_fresh _ _
  | powerLoss => cases hn; exact fresh_holds _ _
  | resetInputAsserted =>
    cases hn
    split
    · exact h
    · exact fresh_holds _ _
  | registerWrite offset width value => exact keeps_of_whenOn hn h (writeRegister_keeps h offset width value)
  | adminSizeWrite value => exact keeps_of_withEngine hn h (h.writeAdminSize value).settle
  | post ring tail => exact keeps_of_withEngine hn h (h.post _ _).settle
  | ack ring arm head => exact keeps_of_withEngine hn h (h.ack _ _ _).settle
  | stateRead offset width => exact keeps_of_withEngine hn h h.same
  | descriptorFetchDone descriptor => exact keeps_of_withEngine hn h (h.fetchEvent descriptor)
  | doneRecordWritten ring ok => exact keeps_of_withEngine hn h (h.recordEvent ring ok)
  | noticeWriteDone ok => exact keeps_of_withEngine hn h (h.noticeEvent ok)
  | put n => exact keeps_of_jobStep hn h (h.putStep n)
  | get n => exact keeps_of_jobStep hn h (h.getLookup n)
  | probe n => exact keeps_of_jobStep hn h h.same
  | delete n => exact keeps_of_jobStep hn h (h.deleteStep n)
  | matchValue n => exact keeps_of_jobStep hn h (h.matchStep n)
  | scan n => exact keeps_of_jobStep hn h ((h.modCtx n _).scanStep n)
  | openRing n => exact keeps_of_jobStep hn h (h.openRingStep n)
  | closeRing n => exact keeps_of_jobStep hn h (h.closeRingStep n)
  | setNotice n => exact keeps_of_jobStep hn h (h.setNoticeStep n)
  | setLimits n => exact keeps_of_jobStep hn h (h.setLimitsStep n)
  | queryEngine n => exact keeps_of_jobStep hn h h.same
  | querySegment n => exact keeps_of_jobStep hn h (h.querySegmentStep n)
  | reclaim n => exact keeps_of_jobStep hn h (h.reclaimStep n)
  | scrub n => exact keeps_of_jobStep hn h (h.scrubStep n)
  | format n => exact keeps_of_jobStep hn h (h.formatStep n)
  | loadingDone n data => exact keeps_of_withEngine hn h (h.loadEvent n data)
  | returningDone n ok => exact keeps_of_withEngine hn h (h.returnEvent n _ ok fun _ _ hk => hk.same)
  | scanBatchDone n ok => exact keeps_of_withEngine hn h (h.returnEvent n _ ok fun i _ hk => hk.scanReturned n ok i)
  | reportWriteDone n ok => exact keeps_of_withEngine hn h (h.returnEvent n _ ok fun _ _ hk => hk.same)
  | spaceWaitExpiry n => exact keeps_of_withEngine hn h (h.expireWait n)
  | quantumExpiry b => exact keeps_of_withEngine hn h (h.quantumEvent b)
  | suspendReport b x => exact keeps_of_whenOn hn h (suspendReported_keeps h b x)
  | readDone b flips =>
    exact keeps_of_whenOn hn h (onActive_keeps h fun _ => h.opEnded b fun hk => hk.readReported _ _)
  | blankCheckDone b disturbed =>
    exact keeps_of_whenOn hn h (onActive_keeps h fun _ => h.opEnded b fun hk => hk.blankAnswer _ _)
  | programDone b pass => exact keeps_of_whenOn hn h (onActive_keeps h fun o => endProgram_keeps h b o pass)
  | eraseDone b pass => exact keeps_of_whenOn hn h (onActive_keeps h fun o => endErase_keeps h b o pass)
  | programTimeout b => exact keeps_of_whenOn hn h (onActive_keeps h fun o => endProgram_keeps h b o false)
  | eraseTimeout b => exact keeps_of_whenOn hn h (onActive_keeps h fun o => endErase_keeps h b o false)

theorem tick_keeps (h : s.engine.locationLaw) : s.tick.engine.locationLaw := by
  unfold State.tick
  split
  · exact h.same
  · exact h

/-- Settles O11: whatever a command does, and whether or not one waits, the law of R8 is kept. -/
theorem everyStepKeepsTheLocationLaw : Obligations.EveryStepKeepsTheLocationLaw := by
  intro s t hn h
  cases hp : s.pending with
  | nil =>
    cases (BankControllers.step_idle hp).symm.trans hn
    exact tick_keeps h
  | cons c rest => exact exec_keeps ((BankControllers.step_command hp).symm.trans hn) h

end Locations

end Sys2Proof.Machine
end

section
/-! PROOFS. The index (chapter 1): one reasoning rule per operation on an entry and on the live cells of its record (R13, R15,
R19, R20, R63), then the statements about a reclaim's claims, a passed write, a released lock, an admission and a SCAN. -/

namespace Sys2Proof.Machine.KeyIndex

open Sys2Proof

/-! ### Entries changed and removed -/

theorem findEntry_removeEntry_self (l : List Entry) (key : Nat) : findEntry (removeEntry l key) key = none := by
  simp [findEntry_none, removeEntry]

theorem findEntry_removeEntry_ne (l : List Entry) {key other : Nat} (h : other ≠ key) :
    findEntry (removeEntry l key) other = findEntry l other := by
  rw [findEntry, removeEntry, List.find?_filter, findEntry]
  refine congrArg (List.find? · l) (funext fun t => ?_)
  by_cases ht : t.key = other
  · simp [ht, h]
  · simp [ht]

section Entries

variable {e : Engine} {key : Nat} {t : Entry}

/-- Where a key has no entry there is nothing to change. -/
theorem changeEntry_absent (h : e.entry key = none) (f : Entry → Entry) : e.changeEntry key f = e := by
  have hm : Machine.changeEntry e.index.entries key f = e.index.entries :=
    (List.map_congr_left fun u hu => if_neg ((DataJobs.entry_eq_none_iff e key).mp h u hu)).trans (List.map_id _)
  rw [Engine.changeEntry, hm]
  rfl

theorem sameEntriesBut_trans {a b c : Engine} (h : c.sameEntriesBut b key) (k : b.sameEntriesBut a key) :
    c.sameEntriesBut a key := fun other ho => (h other ho).trans (k other ho)

/-! ### Live cells (R63) -/

/-- A segment's live cells fall, and a choice may be due. -/
theorem lowerLive_frame (e : Engine) (l : Location) : e.lowerLive l = { e with
    space := { e.space with segs := updAt e.space.segs l.seg fun g => { g with live := g.live - l.count } }
    reclaim := { e.reclaim with choiceDue := (e.lowerLive l).reclaim.choiceDue } } := by
  unfold Engine.lowerLive
  dsimp only
  split <;> rfl

theorem lowerLive_seg (e : Engine) (l : Location) (n : Nat) :
    (e.lowerLive l).seg n = (e.modSeg l.seg fun g => { g with live := g.live - l.count }).seg n := by
  rw [lowerLive_frame]
  rfl

theorem lowerLive_live (e : Engine) (l : Location) (n : Nat) : ((e.lowerLive l).seg n).live =
    if l.seg = n then (e.seg n).live - l.count else (e.seg n).live := by
  rw [lowerLive_seg]
  split
  · next h =>
    subst h
    by_cases hl : l.seg < e.space.segs.length
    · rw [Engine.modSeg_seg_self e _ _ hl]
    · have hd : e.seg l.seg = {} := by
        rw [Engine.seg, List.getD_eq_getElem?_getD, List.getElem?_eq_none (Nat.le_of_not_lt hl)]
        rfl
      rw [Engine.modSeg, updAt_absent (List.getElem?_eq_none (Nat.le_of_not_lt hl))]
      show (e.seg l.seg).live = _
      rw [hd]
      exact (Nat.zero_sub _).symm
  · next h => rw [Engine.modSeg_seg_ne e _ _ _ (Ne.symm h)]

/-- The cells of the record that is left are no longer live; those of the new one are (R63). -/
theorem moveLive_frame (e : Engine) (old : Option Location) (new : Location) : e.moveLive old new = { e with
    space := { e.space with segs := (e.moveLive old new).space.segs }
    reclaim := { e.reclaim with choiceDue := (e.moveLive old new).reclaim.choiceDue } } := by
  cases old with
  | none => rfl
  | some l =>
    show (e.lowerLive l).raiseLive new = { e with
      space := { e.space with segs := ((e.lowerLive l).raiseLive new).space.segs }
      reclaim := { e.reclaim with choiceDue := ((e.lowerLive l).raiseLive new).reclaim.choiceDue } }
    rw [lowerLive_frame]
    rfl

theorem moveLive_live_new {new : Location} (hn : new.seg < e.space.segs.length) (old : Option Location) :
    ((e.moveLive old new).seg new.seg).live = (match old with
      | some l => if l.seg = new.seg then (e.seg new.seg).live - l.count else (e.seg new.seg).live
      | none => (e.seg new.seg).live) + new.count := by
  cases old with
  | none => exact congrArg SegRecord.live (Engine.modSeg_seg_self e _ _ hn)
  | some l =>
    have hlen : new.seg < (e.lowerLive l).space.segs.length := by rw [lowerLive_frame]; simpa using hn
    refine (congrArg SegRecord.live (Engine.modSeg_seg_self (e.lowerLive l) _ _ hlen)).trans ?_
    rw [lowerLive_live]

theorem moveLive_live_old {l new : Location} (hn : l.seg ≠ new.seg) :
    ((e.moveLive (some l) new).seg l.seg).live = (e.seg l.seg).live - l.count := by
  rw [Engine.moveLive, Engine.raiseLive, Engine.modSeg_seg_ne _ _ _ _ hn, lowerLive_live, if_pos rfl]

/-! ### Entries that are dropped (R15) -/

theorem dropEntry_frame (h : e.entry key = some t) : e.dropEntry key = { e with
    index := { e.index with entries := removeEntry e.index.entries key }
    space := { e.space with segs := match t.body.loc? with
      | some l => updAt e.space.segs l.seg fun g => { g with live := g.live - l.count }
      | none => e.space.segs }
    reclaim := { e.reclaim with choiceDue := (e.dropEntry key).reclaim.choiceDue } } := by
  cases hl : t.body.loc? with
  | none => simp only [Engine.dropEntry, h, hl, Engine.setEntries]
  | some l =>
    simp only [Engine.dropEntry, h, hl]
    exact lowerLive_frame _ l

theorem dropEntry_entry (h : e.entry key = some t) : (e.dropEntry key).entry key = none := by
  rw [dropEntry_frame h]
  exact findEntry_removeEntry_self _ _

theorem dropEntry_sameEntriesBut (h : e.entry key = some t) : (e.dropEntry key).sameEntriesBut e key := fun other ho => by
  rw [dropEntry_frame h]
  exact findEntry_removeEntry_ne _ ho

/-- An entry that R15 removes: DELETED, with stale count 0 and no pending write. -/
def spent (t : Entry) : Prop := (∃ l r, t.body = .deleted l r) ∧ t.stale = 0 ∧ t.pending = none

theorem removes_iff_spent (t : Entry) :
    (t.body.isDeleted && t.stale == 0 && t.pending.isNone) = true ↔ spent t := by
  have hd : t.body.isDeleted = true ↔ ∃ l r, t.body = .deleted l r := by
    cases t.body <;> simp [EntryBody.isDeleted]
  simp [spent, hd, and_assoc]

theorem removalTest_spent (h : e.entry key = some t) (hs : spent t) : e.removalTest key = e.dropEntry key := by
  rw [Engine.removalTest, h]
  exact if_pos ((removes_iff_spent t).mpr hs)

theorem removalTest_kept (h : e.entry key = some t) (hs : ¬ spent t) : e.removalTest key = e := by
  rw [Engine.removalTest, h]
  exact if_neg (mt (removes_iff_spent t).mp hs)

theorem removalTest_absent (h : e.entry key = none) : e.removalTest key = e := by
  rw [Engine.removalTest, h]

theorem removalTest_frame (e : Engine) (key : Nat) : e.removalTest key = { e with
    index := (e.removalTest key).index, space := (e.removalTest key).space
    reclaim := { e.reclaim with choiceDue := (e.removalTest key).reclaim.choiceDue } } := by
  cases h : e.entry key with
  | none => rw [removalTest_absent h]
  | some t =>
    by_cases hs : spent t
    · rw [removalTest_spent h hs, dropEntry_frame h]
    · rw [removalTest_kept h hs]

theorem removalTest_sameEntriesBut (e : Engine) (key : Nat) : (e.removalTest key).sameEntriesBut e key := by
  cases h : e.entry key with
  | none =>
    rw [removalTest_absent h]
    exact fun _ _ => rfl
  | some t =>
    by_cases hs : spent t
    · rw [removalTest_spent h hs]
      exact dropEntry_sameEntriesBut h
    · rw [removalTest_kept h hs]
      exact fun _ _ => rfl

/-! ### Decrement claims (R19) -/

theorem decrementClaim_absent (h : e.entry key = none) : e.decrementClaim key = e := by
  rw [Engine.decrementClaim, changeEntry_absent h, removalTest_absent h]

/-- The entry after the count has been lowered, before the removal test. -/
theorem entry_lowered (h : e.entry key = some t) :
    (e.changeEntry key fun t => { t with stale := t.stale - 1 }).entry key = some { t with stale := t.stale - 1 } :=
  Mounting.entry_changeEntry h _

theorem decrementClaim_spent (h : e.entry key = some t) (hs : spent { t with stale := t.stale - 1 }) :
    e.decrementClaim key = (e.changeEntry key fun t => { t with stale := t.stale - 1 }).dropEntry key :=
  removalTest_spent (entry_lowered h) hs

theorem decrementClaim_kept (h : e.entry key = some t) (hs : ¬ spent { t with stale := t.stale - 1 }) :
    e.decrementClaim key = e.changeEntry key fun t => { t with stale := t.stale - 1 } :=
  removalTest_kept (entry_lowered h) hs

theorem decrementClaim_frame (e : Engine) (key : Nat) : e.decrementClaim key = { e with
    index := (e.decrementClaim key).index, space := (e.decrementClaim key).space
    reclaim := { e.reclaim with choiceDue := (e.decrementClaim key).reclaim.choiceDue } } :=
  removalTest_frame _ _

theorem decrementClaim_sameEntriesBut (e : Engine) (key : Nat) : (e.decrementClaim key).sameEntriesBut e key :=
  sameEntriesBut_trans (removalTest_sameEntriesBut _ _) (Mounting.changeEntry_sameEntriesBut e key _)

end Entries

/-! ### The claim after a step's program (R20, R118 to R120) -/

section Repoint

variable {e : Engine} {key : Nat} {t : Entry} {new original : Location}

theorem tallyCopy_eq (e : Engine) (what : Written) :
    e.tallyCopy what = e.tallied fun t => { t with copied := t.copied + if what = .lossMarker then 0 else 1 } := by
  cases what <;> rfl

/-- The engine in which an entry and its live cells have moved to the new record (R20, R63). -/
def repointed (e : Engine) (what : Written) (key : Nat) (original new : Location) : Engine :=
  (e.changeEntry key fun t => { t with body := repointedBody what new t.body }).moveLive (some original) new

theorem repointed_frame (e : Engine) (what : Written) (key : Nat) (original new : Location) :
    repointed e what key original new = { e with
      index := { e.index with entries := Machine.changeEntry e.index.entries key fun t =>
        { t with body := repointedBody what new t.body } }
      space := (repointed e what key original new).space
      reclaim := { e.reclaim with choiceDue := (repointed e what key original new).reclaim.choiceDue } } := by
  rw [repointed, moveLive_frame]
  rfl

theorem repointDone_marker (e : Engine) (key : Nat) (b : EntryBody) (original new : Location) :
    e.repointDone .lossMarker key b original new =
      ((repointed e .lossMarker key original new).tallied fun t => { t with markers := t.markers + 1 }).raiseNotice
        (.dataLost key b.rseq b.kind original.seg original.cell new.seg new.cell) := rfl

theorem repointDone_copy {what : Written} (hw : what ≠ .lossMarker) (e : Engine) (key : Nat) (b : EntryBody)
    (original new : Location) : e.repointDone what key b original new = repointed e what key original new := by
  cases what with
  | lossMarker => exact absurd rfl hw
  | valueCopy | lossCopy | tombstone => rfl

/-- But for the notice and the tally of a marker, DONE is the repoint alone. -/
theorem repointDone_frame (e : Engine) (what : Written) (key : Nat) (b : EntryBody) (original new : Location) :
    e.repointDone what key b original new = { repointed e what key original new with
      notices := (e.repointDone what key b original new).notices
      reclaim := (e.repointDone what key b original new).reclaim } := by
  cases what <;> rfl

theorem repointDone_index (e : Engine) (what : Written) (key : Nat) (b : EntryBody) (original new : Location) :
    (e.repointDone what key b original new).index =
      (e.changeEntry key fun t => { t with body := repointedBody what new t.body }).index := by
  rw [repointDone_frame, repointed_frame]
  rfl

theorem repointDone_entry (h : e.entry key = some t) (what : Written) (b : EntryBody) :
    (e.repointDone what key b original new).entry key = some { t with body := repointedBody what new t.body } := by
  rw [Engine.entry, repointDone_index]
  exact Mounting.entry_changeEntry h _

theorem repointDone_sameEntriesBut (e : Engine) (what : Written) (key : Nat) (b : EntryBody) (original new : Location) :
    (e.repointDone what key b original new).sameEntriesBut e key := fun other ho => by
  rw [Engine.entry, repointDone_index]
  exact Mounting.changeEntry_sameEntriesBut e key _ other ho

theorem repointDone_seg (e : Engine) (what : Written) (key : Nat) (b : EntryBody) (original new : Location) (n : Nat) :
    (e.repointDone what key b original new).seg n =
      ((e.changeEntry key fun t => { t with body := repointedBody what new t.body }).moveLive (some original) new).seg n := by
  rw [repointDone_frame]
  rfl

/-- Only the index, the space, the reclaim and the notices are touched by a claim. -/
structure Claims (key : Nat) (e k : Engine) : Prop where
  entries : k.sameEntriesBut e key
  ctxs : k.ctxs = e.ctxs := by rfl
  rings : k.rings = e.rings := by rfl
  banks : k.banks = e.banks := by rfl

theorem Claims.done (e : Engine) (what : Written) (key : Nat) (b : EntryBody) (original new : Location) :
    Claims key e (e.repointDone what key b original new) := by
  refine ⟨repointDone_sameEntriesBut e what key b original new, ?_, ?_, ?_⟩ <;> rw [repointDone_frame, repointed_frame]

theorem Claims.changed (e : Engine) (what : Written) (key : Nat) : Claims key e (e.repointChanged what key) := by
  have hclaim (k : Engine) (hk : k.sameEntriesBut e key) (hc : k.ctxs = e.ctxs) (hr : k.rings = e.rings)
      (hb : k.banks = e.banks) (f : Tallies → Tallies) : Claims key e ((k.decrementClaim key).tally f) := by
    refine ⟨sameEntriesBut_trans (decrementClaim_sameEntriesBut k key) hk, ?_, ?_, ?_⟩ <;> rw [decrementClaim_frame]
    · exact hc
    · exact hr
    · exact hb
  cases what with
  | valueCopy => exact hclaim _ (Mounting.changeEntry_sameEntriesBut e key _) rfl rfl rfl fun t =>
      { t with stalePassed := t.stalePassed + 1 }
  | lossMarker => exact hclaim e (fun _ _ => rfl) rfl rfl rfl fun t => { t with stalePassed := t.stalePassed + 1 }
  | lossCopy | tombstone => exact { entries := fun _ _ => rfl }

theorem repointedBody_eq (what : Written) (new : Location) (b : EntryBody) : repointedBody what new b =
    match what, b with
    | .lossMarker, b => .lost new b.rseq .marker
    | _, .value _ r n => .value new r n
    | _, .deleted _ r => .deleted new r
    | _, .lost _ r f => .lost new r f
    | _, .nascent => .nascent := by
  cases what <;> cases b <;> rfl

theorem repointChanged_notices (e : Engine) (what : Written) (key : Nat) :
    (e.repointChanged what key).notices = e.notices := by
  have hclaim (k : Engine) : (k.decrementClaim key).notices = k.notices := by rw [decrementClaim_frame]
  cases what with
  | valueCopy => exact hclaim (e.changeEntry key _)
  | lossMarker => exact hclaim e
  | lossCopy | tombstone => rfl

/-- A VALUE original that is not current is tallied as stale (R118, R120). -/
theorem repointChanged_tallies (e : Engine) (what : Written) (key : Nat) : (e.repointChanged what key).reclaim.tallies =
    { e.reclaim.tallies with stalePassed :=
      e.reclaim.tallies.stalePassed + if what = .lossMarker ∨ what = .valueCopy then 1 else 0 } := by
  have hrise (k : Engine) :
      ((k.decrementClaim key).tallied fun t => { t with stalePassed := t.stalePassed + 1 }).reclaim.tallies =
      { k.reclaim.tallies with stalePassed := k.reclaim.tallies.stalePassed + 1 } := by
    rw [decrementClaim_frame]
    rfl
  cases what with
  | valueCopy => exact hrise (e.changeEntry key _)
  | lossMarker => exact hrise e
  | lossCopy | tombstone => rfl

/-- A VALUE copy's rise and the decrement for its original cancel, but for the removal test (R19, R20). -/
theorem risen_lowered_spent (h : e.entry key = some t) (hs : spent t) :
    ((e.changeEntry key fun t => { t with stale := t.stale + 1 }).decrementClaim key).entry key = none := by
  have hrisen : (e.changeEntry key fun t => { t with stale := t.stale + 1 }).entry key =
    some { t with stale := t.stale + 1 } := Mounting.entry_changeEntry h _
  rw [decrementClaim_spent hrisen hs]
  exact dropEntry_entry (entry_lowered hrisen)

theorem risen_lowered_kept (h : e.entry key = some t) (hs : ¬ spent t) :
    ((e.changeEntry key fun t => { t with stale := t.stale + 1 }).decrementClaim key).entry key = some t := by
  have hrisen : (e.changeEntry key fun t => { t with stale := t.stale + 1 }).entry key =
    some { t with stale := t.stale + 1 } := Mounting.entry_changeEntry h _
  rw [decrementClaim_kept hrisen hs]
  exact entry_lowered hrisen

theorem reclaimProgramPassed_done {what : Written} (hs : e.reclaim.step = .program what key original)
    (h : e.entry key = some t) (hl : t.body.loc? = some original) : e.reclaimProgramPassed new =
      ((e.tallyCopy what).repointDone what key t.body original new).passRecord key original.count := by
  simp only [Engine.reclaimProgramPassed, hs, Mounting.lookup_some h, if_pos hl]

theorem reclaimProgramPassed_changed {what : Written} (hs : e.reclaim.step = .program what key original)
    (h : ∀ t, e.entry key = some t → t.body.loc? ≠ some original) : e.reclaimProgramPassed new =
      ((e.tallyCopy what).repointChanged what key).passRecord key original.count := by
  cases hk : e.entry key with
  | none => simp only [Engine.reclaimProgramPassed, hs, Mounting.lookup_none hk]
  | some t => simp only [Engine.reclaimProgramPassed, hs, Mounting.lookup_some hk, if_neg (h t hk)]

end Repoint

/-- Settles O47, from the rules of the decrement claim and of the two answers of the conditional repoint. -/
theorem aClaimSettlesItsKeyAlone : Obligations.AClaimSettlesItsKeyAlone := by
  refine ⟨fun e key => ⟨decrementClaim_absent, fun t h => ⟨fun l r hb hs hp => ?_, fun hn => ?_⟩,
    decrementClaim_sameEntriesBut e key⟩, fun e new original what key hs => ?_⟩
  · have hspent : spent { t with stale := t.stale - 1 } := ⟨⟨l, r, hb⟩, Nat.sub_eq_zero_of_le hs, hp⟩
    rw [decrementClaim_spent h hspent]
    refine ⟨dropEntry_entry (entry_lowered h), ?_⟩
    rw [dropEntry_frame (entry_lowered h), hb]
    rfl
  · have hkept : ¬ spent { t with stale := t.stale - 1 } := fun ⟨hb, hz, hp⟩ => hn ⟨hb, Nat.le_of_sub_eq_zero hz, hp⟩
    rw [decrementClaim_kept h hkept]
    exact ⟨entry_lowered h, rfl⟩
  · by_cases hd : ∃ t, e.entry key = some t ∧ t.body.loc? = some original
    · obtain ⟨t, h, hl⟩ := hd
      refine ⟨_, reclaimProgramPassed_done hs h hl, ?_⟩
      rw [tallyCopy_eq]
      have hc := Claims.done (e.tallied fun t => { t with copied := t.copied + if what = .lossMarker then 0 else 1 }) what key
        t.body original new
      refine ⟨hc.entries, hc.ctxs, hc.rings, hc.banks, fun u hu _ hn => ?_, fun hno => absurd hl (hno t h)⟩
      obtain rfl : t = u := Option.some.inj (h.symm.trans hu)
      refine ⟨(repointDone_entry (e := e.tallied _) h what _).trans ?_, ?_, fun hne => ?_, ?_, fun hw => ?_⟩
      · exact congrArg (fun b => some { t with body := b }) (repointedBody_eq what new t.body)
      · rw [repointDone_seg]
        exact moveLive_live_new (e := (e.tallied _).changeEntry key _) hn (some original)
      · rw [repointDone_seg]
        exact moveLive_live_old hne
      · rintro rfl
        rw [repointDone_marker, repointed_frame]
        exact ⟨rfl, rfl⟩
      · rw [repointDone_copy hw, repointed_frame]
        exact ⟨rfl, by simp [Engine.tallied, hw]⟩
    · have hchanged : ∀ t, e.entry key = some t → t.body.loc? ≠ some original := fun t h hl => hd ⟨t, h, hl⟩
      refine ⟨_, reclaimProgramPassed_changed hs hchanged, ?_⟩
      rw [tallyCopy_eq]
      have hc := Claims.changed (e.tallied fun t => { t with copied := t.copied + if what = .lossMarker then 0 else 1 }) what key
      refine ⟨hc.entries, hc.ctxs, hc.rings, hc.banks, fun t h hl => absurd hl (hchanged t h), fun _ =>
        ⟨repointChanged_notices _ _ _, repointChanged_tallies _ _ _, ?_, ?_, ?_⟩⟩
      · rintro (rfl | rfl) <;> exact ⟨rfl, rfl⟩
      · rintro rfl
        exact ⟨rfl, rfl⟩
      · rintro rfl t h
        exact ⟨fun hb hz hp => risen_lowered_spent (e := e.tallied _) h ⟨hb, hz, hp⟩,
          risen_lowered_kept (e := e.tallied _) h⟩

/-! ### The end of a passed write (R13, R29, R30, R34, R38) -/

theorem holds_eq (k : KeyKind) : k.holds = (k == .value || k == .lost) := by cases k <;> rfl

theorem writeOutcome_put {x : JobContext} (h : x.job = some .put) (g : Grant) (n : Nat) :
    writeOutcome x.writeKind g .ok n =
      { status := .ok, kind := g.kind, results := .record g.rseq n
        flags := { succeeded := true, found := g.kind == .value || g.kind == .lost, matched := g.matched } } := by
  rw [SegmentSpace.writeKind_put h, ← holds_eq]
  rfl

theorem writeOutcome_delete {x : JobContext} (h : x.job = some .delete) (g : Grant) (n : Nat) :
    writeOutcome x.writeKind g .ok n =
      { status := .ok, kind := g.kind, results := .record g.rseq 0
        flags := { succeeded := true, found := true } } := by
  rw [SegmentSpace.writeKind_delete h]
  rfl

/-- The value length of a written record. -/
def writtenLen (x : JobContext) : Nat :=
  match x.writeKind with
  | .put => Descriptor.length x.descriptor
  | .delete => 0

/-- The engine in which a passed write's entry is repointed and its pending write DURABLE (R13, R63). -/
def durable (e : Engine) (c : Nat) (x : JobContext) (g : Grant) (old : Option Location) (l : Location) : Engine :=
  ((e.changeEntry x.key fun t => { t with
      body := durableBody x.writeKind l g.rseq (writtenLen x)
      stale := if t.body.supersedesValue then t.stale + 1 else t.stale }).moveLive old l).changeEntry x.key fun t =>
    { t with pending := t.pending.map fun p => if p.ctx = c then { p with progress := .durable } else p }

section Written

variable {e : Engine} {c : Nat} {x : JobContext} {g : Grant} {t : Entry} {p : PendingWrite}

theorem durable_frame (e : Engine) (c : Nat) (x : JobContext) (g : Grant) (old : Option Location) (l : Location) :
    durable e c x g old l = { e with
      index := { e.index with entries := Machine.changeEntry (Machine.changeEntry e.index.entries x.key fun t => { t with
          body := durableBody x.writeKind l g.rseq (writtenLen x)
          stale := if t.body.supersedesValue then t.stale + 1 else t.stale }) x.key fun t =>
        { t with pending := t.pending.map fun p => if p.ctx = c then { p with progress := .durable } else p } }
      space := (durable e c x g old l).space
      reclaim := (durable e c x g old l).reclaim } := by
  rw [durable, moveLive_frame]
  rfl

/-- The entry points at the new record, its stale count risen where that supersedes a VALUE record (R13). -/
theorem durable_entry (h : e.entry x.key = some t) (hp : t.pending = some p) (hc : p.ctx = c) (old : Option Location)
    (l : Location) : (durable e c x g old l).entry x.key = some { t with
      body := durableBody x.writeKind l g.rseq (writtenLen x)
      stale := if t.body.supersedesValue then t.stale + 1 else t.stale
      pending := some { p with progress := .durable } } := by
  have hrisen := Mounting.entry_changeEntry h fun t => { t with
    body := durableBody x.writeKind l g.rseq (writtenLen x)
    stale := if t.body.supersedesValue then t.stale + 1 else t.stale }
  rw [durable_frame]
  refine (Mounting.entry_changeEntry hrisen _).trans ?_
  simp only [hp, Option.map_some, if_pos hc]

theorem durable_sameEntriesBut (e : Engine) (c : Nat) (x : JobContext) (g : Grant) (old : Option Location) (l : Location) :
    (durable e c x g old l).sameEntriesBut e x.key := fun other ho => by
  rw [durable_frame]
  exact (findEntry_changeEntry_ne _ _ _ _ ho).trans (findEntry_changeEntry_ne _ _ _ _ ho)

theorem durable_seg (e : Engine) (c : Nat) (x : JobContext) (g : Grant) (old : Option Location) (l : Location) (n : Nat) :
    (durable e c x g old l).seg n = ((e.changeEntry x.key fun t => { t with
      body := durableBody x.writeKind l g.rseq (writtenLen x)
      stale := if t.body.supersedesValue then t.stale + 1 else t.stale }).moveLive old l).seg n := rfl

/-- A passed write keeps its lock until its done record is written, so that the removal test finds a pending write. -/
theorem hostProgramPassed_eq (hx : e.ctxs[c]? = some x) (hg : x.grant = some g) (h : e.entry x.key = some t)
    (hp : t.pending = some p) (hc : p.ctx = c) (l : Location) : e.hostProgramPassed c l =
      (durable e c x g t.body.loc? l).complete c (writeOutcome x.writeKind g .ok (writtenLen x)) := by
  have hkept : (durable e c x g t.body.loc? l).removalTest x.key = durable e c x g t.body.loc? l :=
    removalTest_kept (durable_entry h hp hc _ l) fun ⟨_, _, hn⟩ => nomatch hn
  have hctx : ((e.changeEntry x.key fun t => { t with
      body := durableBody x.writeKind l g.rseq (writtenLen x)
      stale := if t.body.supersedesValue then t.stale + 1 else t.stale }).moveLive t.body.loc? l).ctx c = x := by
    rw [moveLive_frame]
    exact Engine.ctx_of hx
  simp only [Engine.hostProgramPassed, Engine.ctx_of hx, hg, Mounting.lookup_some h, Engine.changePending]
  refine (congrArg (fun y : JobContext =>
    Engine.complete (Engine.removalTest (Engine.changeEntry _ y.key _) _) _ _) hctx).trans ?_
  exact congrArg (fun k : Engine => k.complete c _) hkept

end Written

/-- Settles O42, by the kind of the write. -/
theorem aPassedWriteRepointsItsEntry : Obligations.APassedWriteRepointsItsEntry := by
  intro e c x g l t p hx hg hj h hp hc hl
  have hw : (durableBody x.writeKind l g.rseq (writtenLen x) =
      if x.job = some .put then .value l g.rseq (Descriptor.length x.descriptor) else .deleted l g.rseq)
      ∧ writeOutcome x.writeKind g .ok (writtenLen x) = if x.job = some .put then
          { status := .ok, kind := g.kind, results := .record g.rseq (Descriptor.length x.descriptor)
            flags := { succeeded := true, found := g.kind == .value || g.kind == .lost, matched := g.matched } }
        else { status := .ok, kind := g.kind, results := .record g.rseq 0, flags := { succeeded := true, found := true } } := by
    rcases hj with hj | hj
    · rw [writeOutcome_put hj, writtenLen, SegmentSpace.writeKind_put hj, if_pos hj, if_pos hj]
      exact ⟨rfl, rfl⟩
    · rw [writeOutcome_delete hj, writtenLen, SegmentSpace.writeKind_delete hj, hj]
      exact ⟨rfl, rfl⟩
  obtain ⟨hbody, houtcome⟩ := hw
  refine ⟨_, rfl, ?_⟩
  rw [hostProgramPassed_eq hx hg h hp hc]
  refine ⟨(durable_entry h hp hc _ l).trans ?_, durable_sameEntriesBut e c x g _ l, ?_, fun old ho hne => ?_, ?_, ?_, ?_⟩
  · rw [hbody]
    cases t with
    | mk key body stale => rcases body with _ | _ | _ | ⟨_, _, _ | _⟩ <;> rfl
  · exact moveLive_live_new (e := e.changeEntry x.key _) hl _
  · refine (congrArg SegRecord.live (durable_seg e c x g _ l old.seg)).trans ?_
    rw [ho]
    exact moveLive_live_old hne
  · have hxd : (durable e c x g t.body.loc? l).ctxs[c]? = some x := by rw [durable_frame]; exact hx
    rw [Engine.complete_set hxd, houtcome, durable_frame]
  · rw [durable_frame]; rfl
  · rw [durable_frame]; rfl


/-! ### The checks of an admission (R11, R29, R30, R34) -/

section Checks

theorem admissionKind_holds (b : EntryBody) :
    (admissionKind (some b)).holds = (b.kind == .value || b.kind == .lost) := by
  cases b <;> rfl

theorem admissionKind_eq_value (b : EntryBody) : admissionKind (some b) = .value ↔ b.kind = .value := by
  cases b <;> simp [admissionKind, EntryBody.kind]

theorem refusal_delete (d : Descriptor) (barred : Bool) (b : Option EntryBody) : refusal .delete d barred b =
    if barred = true then some .readOnly else if (admissionKind b).holds = true then none else some .notFound := rfl

/-- IF_RSEQ is satisfied by an entry that holds a value and has the expected sequence (R11). -/
theorem rseqMatches_iff (d : Descriptor) (b : Option EntryBody) : rseqMatches d b = true ↔
    (admissionKind b).holds = true ∧ (b.map EntryBody.rseq).getD 0 = d.expected := by
  cases b with
  | none => simp [rseqMatches, admissionKind, KeyKind.holds]
  | some b => simp [rseqMatches]

theorem refusal_put (d : Descriptor) (barred : Bool) (b : Option EntryBody) : refusal .put d barred b =
    if barred = true then some .readOnly
    else if d.createOnly = true ∧ (admissionKind b).holds = true then some .exists
    else if d.replaceOnly = true ∧ admissionKind b ≠ .value then some .notFound
    else if d.ifRseq = true ∧ ¬ ((admissionKind b).holds = true ∧ (b.map EntryBody.rseq).getD 0 = d.expected)
      then some .conflict
    else none := by
  simp only [refusal, ← rseqMatches_iff, Bool.and_eq_true, bne_iff_ne, Bool.not_eq_true', Bool.not_eq_true]

theorem writesBarred_iff (e : Engine) : e.writesBarred = true ↔ e.readOnly = true ∨ e.index.writeSeq = 2 ^ 48 := by
  simp only [Engine.writesBarred, Bool.or_eq_true, beq_iff_eq]
  rfl

theorem refusedOutcome_flags (w : WriteKind) (k : KeyKind) {st : Status} (hok : st ≠ .ok) (hspace : st ≠ .noSpace)
    (hmedia : st ≠ .mediaError) : writeFlags w st k false =
      { found := w == .put && (st == .exists || (k.holds && (st == .notFound || st == .conflict))) } := by
  cases w with
  | delete => cases st <;> simp_all [writeFlags, deleteFlags]
  | put => cases st <;> simp_all [writeFlags, putFlags]

/-- The outcome of a refused write, by its kind of write and its status (R29, R30, R34). -/
theorem refusedOutcome_eq (w : WriteKind) (b : Option EntryBody) {st : Status} (hok : st ≠ .ok) (hspace : st ≠ .noSpace)
    (hmedia : st ≠ .mediaError) : refusedOutcome w st b =
      { status := st, kind := admissionKind b
        flags := { found := w == .put && (st == .exists || ((admissionKind b).holds && (st == .notFound || st == .conflict))) }
        results := if w = .put ∧ (st = .exists ∨ st = .conflict) then .record ((b.map EntryBody.rseq).getD 0) 0
          else .record 0 0 } := by
  unfold refusedOutcome
  rw [refusedOutcome_flags w _ hok hspace hmedia]
  congr 1
  cases w with
  | delete => rfl
  | put => cases st <;> cases b <;> rfl

variable {e : Engine} {c : Nat} {x : JobContext} {st : Status}

theorem checkWrite_refused (hx : e.ctxs[c]? = some x)
    (hr : refusal x.writeKind x.descriptor e.writesBarred (e.lookup x.key) = some st) :
    e.checkWrite c = (e.complete c (refusedOutcome x.writeKind st (e.lookup x.key)), false) := by
  simp only [Engine.checkWrite, Engine.ctx_of hx, hr]

theorem checkWrite_full (hx : e.ctxs[c]? = some x)
    (hr : refusal x.writeKind x.descriptor e.writesBarred (e.lookup x.key) = none) (h : e.entry x.key = none)
    (hl : 65536 ≤ e.index.entries.length) :
    e.checkWrite c = (e.complete c (refusedOutcome x.writeKind .indexFull none), false) := by
  have hb := Mounting.lookup_none h
  rw [hb] at hr
  simp only [Engine.checkWrite, Engine.ctx_of hx, hb, hr]
  exact if_pos (by simpa using hl)

theorem checkWrite_admitted (hx : e.ctxs[c]? = some x)
    (hr : refusal x.writeKind x.descriptor e.writesBarred (e.lookup x.key) = none)
    (hl : e.entry x.key = none → e.index.entries.length < 65536) : e.checkWrite c = (e.admitWrite c, true) := by
  have hroom : ¬ ((e.lookup x.key).isNone && decide (indexCapacity ≤ e.index.entries.length)) = true := by
    cases h : e.entry x.key with
    | none => simpa [Mounting.lookup_none h] using hl h
    | some t => simp [Mounting.lookup_some h]
  simp only [Engine.checkWrite, Engine.ctx_of hx, hr, if_neg hroom]

end Checks

/-! ### The release of a lock (R16) -/

section Release

variable {e : Engine} {c key : Nat} {x : JobContext} {t : Entry}

theorem releaseLock_held (hx : e.ctxs[c]? = some x) (h : e.entry x.key = some t) {p : PendingWrite}
    (hp : t.pending = some p) (hc : p.ctx = c) :
    e.releaseLock c = (e.changeEntry x.key fun t => { t with pending := none }).handOn x.key t.waiters := by
  simp only [Engine.releaseLock, Engine.ctx_of hx, h, hp, Option.map_some, hc, if_true]

theorem releaseLock_notHeld (hx : e.ctxs[c]? = some x) (h : e.entry x.key = some t)
    (hp : ∀ p, t.pending = some p → p.ctx ≠ c) : e.releaseLock c = e := by
  have hn : t.pending.map (·.ctx) ≠ some c := fun hm => by
    obtain ⟨p, hp', hc⟩ := Option.map_eq_some_iff.mp hm
    exact hp p hp' hc
  simp only [Engine.releaseLock, Engine.ctx_of hx, h, if_neg hn]

/-- An entry that is left with nothing when no waiter is admitted (R15, R16). -/
theorem handOn_nil_drops (h : e.entry key = some t) (hp : t.pending = none)
    (hb : t.body = .nascent ∨ ((∃ l r, t.body = .deleted l r) ∧ t.stale = 0)) : e.handOn key [] = e.dropEntry key := by
  rcases hb with hb | ⟨hb, hz⟩
  · simp only [Engine.handOn, Mounting.lookup_some h, hb]
  · obtain ⟨l, r, hb'⟩ := hb
    simp only [Engine.handOn, Mounting.lookup_some h, hb']
    exact removalTest_spent h ⟨⟨l, r, hb'⟩, hz, hp⟩

theorem handOn_nil_keeps (h : e.entry key = some t) (hb : t.body ≠ .nascent)
    (hd : ¬ ((∃ l r, t.body = .deleted l r) ∧ t.stale = 0)) : e.handOn key [] = e := by
  have hkept := removalTest_kept h fun ⟨hb, hz, _⟩ => hd ⟨hb, hz⟩
  simp only [Engine.handOn, Mounting.lookup_some h]
  split
  · next hn => exact absurd (Option.some.inj hn) hb
  · exact hkept

/-- The oldest waiter, off the list, is checked afresh (R16). -/
theorem handOn_cons_refused {w : Nat} {ws : List Nat} {k : Engine}
    (hw : (e.changeEntry key fun t => { t with waiters := ws }).checkWrite w = (k, false)) :
    e.handOn key (w :: ws) = k.handOn key ws := by
  simp only [Engine.handOn, hw]

theorem handOn_cons_admitted {w : Nat} {ws : List Nat} {k : Engine}
    (hw : (e.changeEntry key fun t => { t with waiters := ws }).checkWrite w = (k, true)) :
    e.handOn key (w :: ws) = k := by
  simp only [Engine.handOn, hw]

theorem entry_waiting (h : e.entry key = some t) {y : JobContext} (hk : y.key = key) (ws : List Nat) :
    (e.changeEntry key fun t => { t with waiters := ws }).entry y.key = some { t with waiters := ws } :=
  hk ▸ Mounting.entry_changeEntry h _

/-- A waiter's check finds the entry's body as it was: leaving the list changes no body. -/
theorem handOn_refused {w : Nat} {ws : List Nat} {y : JobContext} {st : Status} (h : e.entry key = some t)
    (hy : e.ctxs[w]? = some y) (hk : y.key = key)
    (hr : refusal y.writeKind y.descriptor e.writesBarred (some t.body) = some st) : e.handOn key (w :: ws) =
      ((e.changeEntry key fun t => { t with waiters := ws }).complete w
        (refusedOutcome y.writeKind st (some t.body))).handOn key ws := by
  have hb := Mounting.lookup_some (entry_waiting h hk ws)
  have hw := checkWrite_refused (e := e.changeEntry key fun t => { t with waiters := ws }) (c := w) hy (hb.symm ▸ hr)
  exact handOn_cons_refused (hb ▸ hw)

theorem handOn_admitted {w : Nat} {ws : List Nat} {y : JobContext} (h : e.entry key = some t)
    (hy : e.ctxs[w]? = some y) (hk : y.key = key)
    (hr : refusal y.writeKind y.descriptor e.writesBarred (some t.body) = none) : e.handOn key (w :: ws) =
      (e.changeEntry key fun t => { t with waiters := ws }).admitWrite w := by
  have he := entry_waiting h hk ws
  refine handOn_cons_admitted (checkWrite_admitted hy ?_ fun hn => nomatch he.symm.trans hn)
  rw [Mounting.lookup_some he]
  exact hr

end Release

theorem admissionKind_some (b : EntryBody) : admissionKind (some b) = if b = .nascent then .absent else b.kind := by
  cases b <;> rfl

/-- Settles O43, by the waiting list: the oldest waiter is refused and leaves the rest, or is admitted. -/
theorem aReleasedLockIsHandedOn : Obligations.AReleasedLockIsHandedOn := by
  refine ⟨fun e c x t hx h => ⟨fun p hp hc => releaseLock_held hx h hp hc, releaseLock_notHeld hx h⟩,
    fun e key t h hp => ⟨fun hb => ?_, handOn_nil_keeps h, fun w ws y k hy hk he => ?_⟩⟩
  · rw [handOn_nil_drops h hp hb]
    exact ⟨dropEntry_entry h, dropEntry_sameEntriesBut h, congrArg Engine.space (dropEntry_frame h)⟩
  · subst he
    refine ⟨fun st => handOn_refused h hy hk, handOn_admitted h hy hk, writesBarred_iff e, fun d held hheld => ?_⟩
    obtain rfl : held = (admissionKind (some t.body)).holds := by
      rw [Bool.eq_iff_iff, hheld, admissionKind_holds]
      simp
    refine ⟨refusal_delete d _ _, ?_, fun w st hok hspace hmedia => ?_⟩
    · simp only [refusal_put, ne_eq, admissionKind_eq_value, Option.map_some, Option.getD_some]
    · rw [refusedOutcome_eq w _ hok hspace hmedia, ← admissionKind_some]
      rfl

/-! ### Admission (R10 to R12, R4, R177) -/

section Admission

variable {e : Engine} {c : Nat} {x : JobContext} {st : Status}

theorem refusal_barred (w : WriteKind) (d : Descriptor) (b : Option EntryBody) : refusal w d true b = some .readOnly := by
  cases w <;> rfl

theorem refusal_put_admits {d : Descriptor} {barred : Bool} {b : Option EntryBody} (hbar : ¬ barred = true)
    (hc : d.createOnly = true → ¬ (admissionKind b).holds = true) (hr : d.replaceOnly = true → admissionKind b = .value)
    (hi : d.ifRseq = true → (admissionKind b).holds = true ∧ (b.map EntryBody.rseq).getD 0 = d.expected) :
    refusal .put d barred b = none := by
  rw [refusal_put, if_neg hbar, if_neg (not_and.mpr hc), if_neg fun h => h.2 (hr h.1), if_neg fun h => h.2 (hi h.1)]

theorem takeSequence_goesOn (h : e.index.writeSeq + 1 ≠ 2 ^ 48 ∨ e.state = .mounting) :
    e.takeSequence = { e with index := { e.index with writeSeq := e.index.writeSeq + 1 } } := by
  rcases h with h | h
  · exact if_neg h
  · have hm := SegmentSpace.addCause_mounting (e := { e with index := { e.index with writeSeq := e.index.writeSeq + 1 } }) h
    simp only [Engine.takeSequence, hm, ite_self]

/-- The sequence that exhausts the counter ends the mode WRITABLE (R177). -/
theorem takeSequence_exhausts (h : e.index.writeSeq + 1 = 2 ^ 48) (hm : e.state ≠ .mounting) (hr : e.readOnly = false) :
    e.takeSequence = { e with
      index := { e.index with writeSeq := e.index.writeSeq + 1 }
      control := { e.control with causes := { e.control.causes with writeSequence := true } }
      notices := e.notices.raise (.writeMode { e.control.causes with writeSequence := true } .writeSequence)
      reclaim := { e.reclaim with causes := { e.reclaim.causes with readOnly := true } } } :=
  (if_pos h).trans (SegmentSpace.addCause_writable (e := { e with
    index := { e.index with writeSeq := e.index.writeSeq + 1 } }) hm hr _)

theorem takeSequence_ctxs (e : Engine) : e.takeSequence.ctxs = e.ctxs := by
  unfold Engine.takeSequence
  split
  · exact DataJobs.addCause_ctxs _ _
  · rfl

/-- The index entries once a write of the key holds its lock: an absent key has a NASCENT entry (R10, R15). -/
def lockedEntries (e : Engine) (c : Nat) (x : JobContext) : List Entry :=
  Machine.changeEntry
    (if (e.lookup x.key).isNone then insertEntry e.index.entries { key := x.key, body := .nascent } else e.index.entries)
    x.key fun t => { t with
      pending := some { ctx := c, write := x.writeKind, rseq := e.index.writeSeq, progress := .inFlight } }

theorem lockedEntries_self (e : Engine) (c : Nat) (x : JobContext) : findEntry (lockedEntries e c x) x.key =
    some { (e.entry x.key).getD { key := x.key, body := .nascent } with
      pending := some { ctx := c, write := x.writeKind, rseq := e.index.writeSeq, progress := .inFlight } } := by
  rw [lockedEntries, findEntry_changeEntry_self]
  cases h : e.entry x.key with
  | none =>
    rw [Mounting.lookup_none h, Option.isNone_none, if_pos rfl]
    exact congrArg (Option.map _) (Mounting.findEntry_insertEntry_self _ { key := x.key, body := .nascent } h)
  | some t =>
    rw [Mounting.lookup_some h, Option.isNone_some, if_neg Bool.false_ne_true, ← (DataJobs.entry_mem h).2]
    exact congrArg (Option.map _) ((DataJobs.entry_mem h).2 ▸ h)

theorem lockedEntries_ne (e : Engine) (c : Nat) (x : JobContext) {other : Nat} (ho : other ≠ x.key) :
    findEntry (lockedEntries e c x) other = e.entry other := by
  rw [lockedEntries, findEntry_changeEntry_ne _ _ _ _ ho]
  split
  · exact Mounting.findEntry_insertEntry_ne _ { key := x.key, body := .nascent } ho
  · rfl

/-- The context of an admitted write, with what it was granted. -/
def granted (e : Engine) (x : JobContext) : JobContext :=
  { x with grant := some { kind := admissionKind (e.lookup x.key), rseq := e.index.writeSeq
                           matched := x.writeKind == .put && Descriptor.ifRseq x.descriptor } }

/-- The grant is written to the context when the sequence is taken, which touches no context. -/
theorem admitWrite_eq (hx : e.ctxs[c]? = some x) : e.admitWrite c = Engine.placeWrite
    { (e.setEntries (lockedEntries e c x)).takeSequence with ctxs := e.ctxs.set c (granted e x) } c := by
  have hc : (e.setEntries (lockedEntries e c x)).takeSequence.ctxs = e.ctxs := takeSequence_ctxs _
  have hgrant := Engine.modCtx_set (hc ▸ hx) fun y => { y with grant := (granted e x).grant }
  rw [hc] at hgrant
  refine Eq.trans ?_ (congrArg (Engine.placeWrite · c) hgrant)
  simp only [Engine.admitWrite, Engine.ctx_of hx, lockedEntries, granted]
  split <;> rfl

theorem askAdmission_waits (hx : e.ctxs[c]? = some x) {t : Entry} {p : PendingWrite} (h : e.entry x.key = some t)
    (hp : t.pending = some p) : e.askAdmission c = { e with
      index := { e.index with entries := Machine.changeEntry e.index.entries x.key fun t =>
        { t with waiters := t.waiters ++ [c] } }
      ctxs := e.ctxs.set c { x with state := .keyWait, ready := false } } := by
  simp only [Engine.askAdmission, Engine.ctx_of hx, h, Option.bind_some, hp]
  exact Engine.modCtx_set (e := e.changeEntry x.key _) hx _

theorem askAdmission_checks (hx : e.ctxs[c]? = some x) (hn : ∀ t, e.entry x.key = some t → t.pending = none) :
    e.askAdmission c = (e.checkWrite c).1 := by
  have hb : (e.entry x.key).bind (·.pending) = none := Option.bind_eq_none_iff.mpr hn
  simp only [Engine.askAdmission, Engine.ctx_of hx, hb]

/-- A refused write completes at once (R11, R29, R30, R34). -/
theorem askAdmission_refused (hx : e.ctxs[c]? = some x) (hn : ∀ t, e.entry x.key = some t → t.pending = none)
    {w : WriteKind} (hw : x.writeKind = w) (hst : st ≠ .ok ∧ st ≠ .noSpace ∧ st ≠ .mediaError)
    (hr : refusal w x.descriptor e.writesBarred (e.lookup x.key) = some st) : e.askAdmission c = e.complete c
      { status := st, kind := admissionKind (e.lookup x.key)
        flags := { found := w == .put &&
          (st == .exists || ((admissionKind (e.lookup x.key)).holds && (st == .notFound || st == .conflict))) }
        results := if w = .put ∧ (st = .exists ∨ st = .conflict)
          then .record (((e.lookup x.key).map EntryBody.rseq).getD 0) 0 else .record 0 0 } := by
  obtain ⟨hok, hspace, hmedia⟩ := hst
  subst hw
  rw [askAdmission_checks hx hn, checkWrite_refused hx hr, refusedOutcome_eq _ _ hok hspace hmedia]

theorem askAdmission_admitted (hx : e.ctxs[c]? = some x) (hn : ∀ t, e.entry x.key = some t → t.pending = none)
    (hr : refusal x.writeKind x.descriptor e.writesBarred (e.lookup x.key) = none)
    (hl : e.entry x.key = none → e.index.entries.length < 65536) : e.askAdmission c = e.admitWrite c := by
  rw [askAdmission_checks hx hn, checkWrite_admitted hx hr hl]

/-- The engine that asks for a placement of an admitted write. -/
def admitted (e : Engine) (c : Nat) (x : JobContext) : Engine := { e with
  index := { entries := lockedEntries e c x, writeSeq := e.index.writeSeq + 1 }
  ctxs := e.ctxs.set c (granted e x) }

theorem admitWrite_goesOn (hx : e.ctxs[c]? = some x) (h : e.index.writeSeq + 1 ≠ 2 ^ 48 ∨ e.state = .mounting) :
    e.admitWrite c = (admitted e c x).placeWrite c := by
  rw [admitWrite_eq hx, takeSequence_goesOn (e := e.setEntries (lockedEntries e c x)) h]
  rfl

theorem admitWrite_exhausts (hx : e.ctxs[c]? = some x) (h : e.index.writeSeq + 1 = 2 ^ 48) (hm : e.state ≠ .mounting)
    (hr : e.readOnly = false) : e.admitWrite c = Engine.placeWrite { admitted e c x with
      control := { e.control with causes := { e.control.causes with writeSequence := true } }
      notices := e.notices.raise (.writeMode { e.control.causes with writeSequence := true } .writeSequence)
      reclaim := { e.reclaim with causes := { e.reclaim.causes with readOnly := true } } } c := by
  rw [admitWrite_eq hx, takeSequence_exhausts (e := e.setEntries (lockedEntries e c x)) h hm hr]
  rfl

/-- What an admission leaves (R4, R10, R177). -/
theorem admitWrite_admits (hx : e.ctxs[c]? = some x) (hr : e.readOnly = false) : ∃ k : Engine,
    (e.index.writeSeq + 1 ≠ 2 ^ 48 ∨ e.state = .mounting → k = admitted e c x)
    ∧ (e.index.writeSeq + 1 = 2 ^ 48 → e.state ≠ .mounting → k = { admitted e c x with
      control := { e.control with causes := { e.control.causes with writeSequence := true } }
      notices := e.notices.raise (.writeMode { e.control.causes with writeSequence := true } .writeSequence)
      reclaim := { e.reclaim with causes := { e.reclaim.causes with readOnly := true } } })
    ∧ e.admitWrite c = k.placeWrite c := by
  by_cases h : e.index.writeSeq + 1 ≠ 2 ^ 48 ∨ e.state = .mounting
  · exact ⟨_, fun _ => rfl, fun hq hm => (h.elim (absurd hq) hm).elim, admitWrite_goesOn hx h⟩
  · obtain ⟨hq, hm⟩ := not_or.mp h
    exact ⟨_, fun hg => absurd hg h, fun _ _ => rfl, admitWrite_exhausts hx (not_not.mp hq) hm hr⟩

end Admission

/-- Settles O40, by the checks of R11 in their order. -/
theorem admissionTakesTheLockAndASequence : Obligations.AdmissionTakesTheLockAndASequence := by
  refine ⟨?_, ⟨rfl, rfl, fun b hb => by rw [admissionKind_some, if_neg hb]⟩, DataJobs.keyKind_holds_iff⟩
  rintro e c x d kind rseq put delete held hx rfl hput hdelete hjob rfl rfl hheld
  rw [← DataJobs.keyKind_holds_iff] at hheld
  simp only [hheld]
  have hwput (h : put) : x.writeKind = .put := SegmentSpace.writeKind_put (hput.mp h)
  have hwdelete (h : delete) : x.writeKind = .delete := SegmentSpace.writeKind_delete (hdelete.mp h)
  refine ⟨fun t p h hp => askAdmission_waits hx h hp, fun hn => ⟨fun hb => ?_, fun hro hq =>
    ⟨fun hd hh => ?_, fun hp hc hh => ?_, fun hp hc hr hk => ?_, fun hp hc hr hi hm => ?_, fun hp hr hi h hl => ?_,
      fun hpass => ?_⟩⟩⟩
  · have hr : refusal x.writeKind x.descriptor e.writesBarred (e.lookup x.key) = some .readOnly := by
      rw [(writesBarred_iff e).mpr hb, refusal_barred]
    rw [askAdmission_checks hx hn, checkWrite_refused hx hr]
    cases x.writeKind <;> cases e.lookup x.key <;> rfl
  all_goals
    have hbar : ¬ e.writesBarred = true := by rw [writesBarred_iff, hro]; exact fun h => h.elim (fun h => nomatch h) hq
  · refine askAdmission_refused hx hn (hwdelete hd) (by decide) ?_
    rw [refusal_delete, if_neg hbar, if_neg hh]
  · refine askAdmission_refused hx hn (st := .exists) (hwput hp) (by decide) ?_
    rw [refusal_put, if_neg hbar, if_pos ⟨hc, hh⟩]
  · refine (askAdmission_refused hx hn (st := .notFound) (hwput hp) (by decide) ?_).trans ?_
    · rw [refusal_put, if_neg hbar, if_neg (not_and.mpr hc), if_pos ⟨hr, hk⟩]
    · rw [holds_eq, beq_eq_false_iff_ne.mpr hk, Bool.false_or]
      simp [show (Status.notFound == Status.exists) = false from rfl]
  · refine (askAdmission_refused hx hn (st := .conflict) (hwput hp) (by decide) ?_).trans ?_
    · rw [refusal_put, if_neg hbar, if_neg (not_and.mpr hc), if_neg fun h => h.2 (hr h.1), if_pos ⟨hi, hm⟩]
    · rw [holds_eq]
      simp [show (Status.conflict == Status.exists) = false from rfl]
  · have hb := Mounting.lookup_none h
    have hr : refusal x.writeKind x.descriptor e.writesBarred (e.lookup x.key) = none := by
      rw [hwput hp, hb]
      exact refusal_put_admits hbar (fun _ h => nomatch h) (fun h => nomatch hr.symm.trans h) fun h => nomatch hi.symm.trans h
    rw [askAdmission_checks hx hn, checkWrite_full hx hr h hl, hwput hp]
    rfl
  · have hr : refusal x.writeKind x.descriptor e.writesBarred (e.lookup x.key) = none := by
      rcases hpass with ⟨hd, hh⟩ | ⟨hp, hc, hr, hi, _⟩
      · rw [hwdelete hd, refusal_delete, if_neg hbar, if_pos hh]
      · rw [hwput hp]
        exact refusal_put_admits hbar hc hr hi
    have hroom (h : e.entry x.key = none) : e.index.entries.length < 65536 := by
      rcases hpass with ⟨_, hh⟩ | ⟨_, _, _, _, hl⟩
      · rw [Mounting.lookup_none h] at hh
        exact nomatch hh
      · exact hl h
    obtain ⟨k, hgoes, hends, hplace⟩ := admitWrite_admits hx hro
    exact ⟨k, admitted e c x, x.writeKind, hwput, hwdelete, rfl, lockedEntries_self e c x,
      fun other => lockedEntries_ne e c x, hgoes, hends, (askAdmission_admitted hx hn hr hroom).trans hplace, hplace⟩

/-! ### The walk of a SCAN (R18, R41, R42) -/

section Scan

/-- The entries that a walk from a key on may report (R18). -/
def reportedFrom (next : Nat) (l : List Entry) : List Entry := l.filter fun t => next ≤ t.key && t.body.reportable

section Ascending

variable {t : Entry} {l : List Entry} {next left room : Nat}

theorem reportedFrom_passed (h : t.key < next) : reportedFrom next (t :: l) = reportedFrom next l :=
  List.filter_cons_of_neg (by simp [h])

theorem key_lt_of_mem (h : ((t :: l).map (·.key)).Pairwise (· < ·)) {u : Entry} (hu : u ∈ l) : t.key < u.key :=
  List.rel_of_pairwise_cons h (List.mem_map_of_mem hu)

/-- In key order, what follows an entry that is not passed over stands after its key. -/
theorem reportedFrom_tail (h : ((t :: l).map (·.key)).Pairwise (· < ·)) (hn : next ≤ t.key) :
    reportedFrom next l = reportedFrom (t.key + 1) l := by
  refine List.filter_congr fun u hu => ?_
  have hlt := key_lt_of_mem h hu
  rw [decide_eq_true (by omega : next ≤ u.key), decide_eq_true (by omega : t.key + 1 ≤ u.key)]

theorem reportedFrom_reported (h : ((t :: l).map (·.key)).Pairwise (· < ·)) (hn : next ≤ t.key)
    (hr : t.body.reportable = true) : reportedFrom next (t :: l) = t :: reportedFrom (t.key + 1) l := by
  rw [← reportedFrom_tail h hn]
  exact List.filter_cons_of_pos (by simp [hn, hr])

theorem reportedFrom_other (h : ((t :: l).map (·.key)).Pairwise (· < ·)) (hn : next ≤ t.key)
    (hr : ¬ t.body.reportable = true) : reportedFrom next (t :: l) = reportedFrom (t.key + 1) l := by
  rw [← reportedFrom_tail h hn]
  exact List.filter_cons_of_neg (by simp [hr])

/-- With no key passed over, what may be reported is what is of a reportable kind. -/
theorem reportedFrom_all (h : ((t :: l).map (·.key)).Pairwise (· < ·)) (hn : next ≤ t.key) :
    reportedFrom next (t :: l) = (t :: l).filter (·.body.reportable) := by
  refine List.filter_congr fun u hu => ?_
  have hle : next ≤ u.key := by
    rcases List.mem_cons.mp hu with rfl | hu
    · exact hn
    · exact hn.trans (key_lt_of_mem h hu).le
  rw [decide_eq_true hle, Bool.true_and]

theorem scanWalk_passed (h : t.key < next) : scanWalk (t :: l) next left room = scanWalk l next left room := if_pos h

theorem scanWalk_reported (hn : ¬ t.key < next) (hl : left ≠ 0) (hr : room ≠ 0) (ht : t.body.reportable = true) :
    scanWalk (t :: l) next left room = { scanWalk l (t.key + 1) (left - 1) (room - 1) with
      bytes := scanEntry t.key t.body ++ (scanWalk l (t.key + 1) (left - 1) (room - 1)).bytes
      count := (scanWalk l (t.key + 1) (left - 1) (room - 1)).count + 1 } := by
  rw [scanWalk, if_neg hn, if_neg hl, if_neg hr, if_pos ht]

theorem scanWalk_other (hn : ¬ t.key < next) (hl : left ≠ 0) (hr : room ≠ 0) (ht : ¬ t.body.reportable = true) :
    scanWalk (t :: l) next left room = scanWalk l (t.key + 1) left room := by
  rw [scanWalk, if_neg hn, if_neg hl, if_neg hr, if_neg ht]

/-- Staging is full: the walk pauses where a key is left (R41). -/
theorem scanWalk_noRoom (h : ∀ u ∈ l, next ≤ u.key) (hl : left ≠ 0) : scanWalk l next left 0 =
    { next := next, ended := if l = [] then some 0 else none } := by
  cases l with
  | nil => rfl
  | cons u l =>
    rw [scanWalk, if_neg (Nat.not_lt.mpr (h u List.mem_cons_self)), if_neg hl, if_pos rfl, if_neg (List.cons_ne_nil _ _)]

end Ascending

theorem firstReportable_eq (l : List Entry) :
    firstReportable l = ((l.filter (·.body.reportable)).head?.map (·.key)).getD 0 := by
  induction l with
  | nil => rfl
  | cons t l ih =>
    rw [firstReportable, List.filter_cons]
    split
    · rfl
    · exact ih

/-- What a walk takes: the first entries it may report, as many as its limit and staging allow. -/
theorem scanWalk_takes {l : List Entry} (h : (l.map (·.key)).Pairwise (· < ·)) (next left room : Nat) :
    (scanWalk l next left room).bytes =
        ((reportedFrom next l).take (min left room)).flatMap (fun t => scanEntry t.key t.body)
      ∧ (scanWalk l next left room).count = ((reportedFrom next l).take (min left room)).length := by
  induction l, next, left, room using scanWalk.induct with
  | case1 next left room => simp [scanWalk, reportedFrom]
  | case2 t l next left room hp ih =>
    rw [scanWalk_passed hp, reportedFrom_passed hp]
    exact ih h.of_cons
  | case3 t l next room hp => simp [scanWalk, hp]
  | case4 t l next left hp hl => simp [scanWalk, hp, hl]
  | case5 t l next left room hp hl hr ht ih =>
    obtain ⟨left, rfl⟩ := Nat.exists_eq_succ_of_ne_zero hl
    obtain ⟨room, rfl⟩ := Nat.exists_eq_succ_of_ne_zero hr
    obtain ⟨hbytes, hcount⟩ := ih h.of_cons
    rw [scanWalk_reported hp hl hr ht, reportedFrom_reported h (Nat.le_of_not_lt hp) ht,
      Nat.succ_min_succ, List.take_succ_cons]
    exact ⟨congrArg _ hbytes, congrArg _ hcount⟩
  | case6 t l next left room hp hl hr ht ih =>
    rw [scanWalk_other hp hl hr ht, reportedFrom_other h (Nat.le_of_not_lt hp) ht]
    exact ih h.of_cons

/-- A walk whose limit staging can hold ends with the next key it may report, or 0 (R18). -/
theorem scanWalk_limit {l : List Entry} (h : (l.map (·.key)).Pairwise (· < ·)) {next left room : Nat} (hlr : left ≤ room) :
    (scanWalk l next left room).ended = some (((reportedFrom next l)[left]?.map (·.key)).getD 0) := by
  induction l, next, left, room using scanWalk.induct with
  | case1 next left room => rfl
  | case2 t l next left room hp ih =>
    rw [scanWalk_passed hp, reportedFrom_passed hp]
    exact ih h.of_cons hlr
  | case3 t l next room hp =>
    rw [scanWalk, if_neg hp, if_pos rfl, reportedFrom_all h (Nat.le_of_not_lt hp), ← List.head?_eq_getElem?]
    exact congrArg some (firstReportable_eq _)
  | case4 t l next left hp hl => exact absurd (Nat.le_zero.mp hlr) hl
  | case5 t l next left room hp hl hr ht ih =>
    obtain ⟨left, rfl⟩ := Nat.exists_eq_succ_of_ne_zero hl
    rw [scanWalk_reported hp hl hr ht, reportedFrom_reported h (Nat.le_of_not_lt hp) ht]
    exact ih h.of_cons (by omega)
  | case6 t l next left room hp hl hr ht ih =>
    rw [scanWalk_other hp hl hr ht, reportedFrom_other h (Nat.le_of_not_lt hp) ht]
    exact ih h.of_cons hlr

/-- A walk that staging and its limit do not stop ends with 0 (R18). -/
theorem scanWalk_exhausts {l : List Entry} (h : (l.map (·.key)).Pairwise (· < ·)) {next left room : Nat} (hlr : room < left)
    (hs : (reportedFrom next l).length < room) : (scanWalk l next left room).ended = some 0 := by
  induction l, next, left, room using scanWalk.induct with
  | case1 next left room => rfl
  | case2 t l next left room hp ih =>
    rw [reportedFrom_passed hp] at hs
    rw [scanWalk_passed hp]
    exact ih h.of_cons hlr hs
  | case3 t l next room hp => exact absurd hlr (Nat.not_lt_zero _)
  | case4 t l next left hp hl => exact absurd hs (Nat.not_lt_zero _)
  | case5 t l next left room hp hl hr ht ih =>
    rw [reportedFrom_reported h (Nat.le_of_not_lt hp) ht, List.length_cons] at hs
    rw [scanWalk_reported hp hl hr ht]
    exact ih h.of_cons (by omega) (by omega)
  | case6 t l next left room hp hl hr ht ih =>
    rw [reportedFrom_other h (Nat.le_of_not_lt hp) ht] at hs
    rw [scanWalk_other hp hl hr ht]
    exact ih h.of_cons hlr hs

/-- A walk that has filled staging with the entry `last` pauses after it, or ends when no key of the list is left. -/
def stopsAfter (last : Entry) (l : List Entry) (w : WalkResult) : Prop :=
  ((∃ t ∈ l, last.key < t.key) → w.ended = none ∧ w.next = last.key + 1)
    ∧ ((∀ t ∈ l, t.key ≤ last.key) → w.ended = some 0)

theorem stopsAfter_cons {t last : Entry} {l : List Entry} {w : WalkResult} (ht : t.key ≤ last.key)
    (h : stopsAfter last l w) : stopsAfter last (t :: l) w := by
  obtain ⟨hpause, hend⟩ := h
  refine ⟨fun ⟨u, hu, hlt⟩ => hpause ?_, fun hall => hend fun u hu => hall u (List.mem_cons_of_mem t hu)⟩
  rcases List.mem_cons.mp hu with rfl | hu
  · exact absurd hlt (Nat.not_lt.mpr ht)
  · exact ⟨u, hu, hlt⟩

theorem stopsAfter_noRoom {t : Entry} {l : List Entry} {left : Nat} (h : ∀ u ∈ l, t.key < u.key) (hl : left ≠ 0) :
    stopsAfter t l (scanWalk l (t.key + 1) left 0) := by
  rw [scanWalk_noRoom h hl]
  refine ⟨fun ⟨u, hu, _⟩ => ⟨if_neg (List.ne_nil_of_mem hu), rfl⟩, fun hall => if_pos ?_⟩
  exact List.eq_nil_iff_forall_not_mem.mpr fun u hu => absurd (h u hu) (Nat.not_lt.mpr (hall u hu))

/-- A walk that fills staging below its limit (R41). -/
theorem scanWalk_full {l : List Entry} (h : (l.map (·.key)).Pairwise (· < ·)) {next left room : Nat} (h0 : room ≠ 0)
    (hlr : room < left) {last : Entry} (hlast : (reportedFrom next l)[room - 1]? = some last) :
    stopsAfter last l (scanWalk l next left room) := by
  have hmem {n i : Nat} {l : List Entry} (hi : (reportedFrom n l)[i]? = some last) : last ∈ l :=
    List.mem_of_mem_filter (List.mem_of_getElem? hi)
  induction l, next, left, room using scanWalk.induct with
  | case1 next left room => cases hlast
  | case2 t l next left room hp ih =>
    rw [reportedFrom_passed hp] at hlast
    rw [scanWalk_passed hp]
    exact stopsAfter_cons (key_lt_of_mem h (hmem hlast)).le (ih h.of_cons h0 hlr hlast)
  | case3 t l next room hp => exact absurd hlr (Nat.not_lt_zero _)
  | case4 t l next left hp hl => exact absurd rfl h0
  | case5 t l next left room hp hl hr ht ih =>
    rw [reportedFrom_reported h (Nat.le_of_not_lt hp) ht] at hlast
    rw [scanWalk_reported hp hl hr ht]
    rcases Nat.eq_zero_or_pos (room - 1) with hz | hz
    · rw [hz] at hlast ⊢
      obtain rfl : t = last := Option.some.inj hlast
      exact stopsAfter_cons le_rfl (stopsAfter_noRoom (fun u => key_lt_of_mem h) (by omega))
    · rw [← Nat.succ_pred_eq_of_pos hz, List.getElem?_cons_succ] at hlast
      exact stopsAfter_cons (key_lt_of_mem h (hmem hlast)).le (ih h.of_cons hz.ne' (by omega) hlast)
  | case6 t l next left room hp hl hr ht ih =>
    rw [reportedFrom_other h (Nat.le_of_not_lt hp) ht] at hlast
    rw [scanWalk_other hp hl hr ht]
    exact stopsAfter_cons (key_lt_of_mem h (hmem hlast)).le (ih h.of_cons h0 hlr hlast)

end Scan

/-! ### The steps of a SCAN (R41, R42) -/

section ScanSteps

/-- The walk of a SCAN from where it stands. -/
def walked (l : List Entry) (x : JobContext) : WalkResult := scanWalk l x.scan.next x.scan.left 256

/-- What a walk leaves of the SCAN's work. -/
def scanned (l : List Entry) (x : JobContext) : ScanWork :=
  { x.scan with
    next := (walked l x).next, left := x.scan.left - (walked l x).count, count := x.scan.count + (walked l x).count
    ended := (walked l x).ended }

/-- The entries that the walk takes into staging. -/
def scanTaken (l : List Entry) (x : JobContext) : List Entry :=
  (reportedFrom x.scan.next l).take (min x.scan.left 256)

variable {l : List Entry} {e : Engine} {c : Nat} {x : JobContext}

theorem walked_bytes (h : indexLaw l) (x : JobContext) :
    (walked l x).bytes = (scanTaken l x).flatMap fun t => scanEntry t.key t.body := (scanWalk_takes h.1 _ _ _).1

theorem walked_count (h : indexLaw l) (x : JobContext) : (walked l x).count = (scanTaken l x).length :=
  (scanWalk_takes h.1 _ _ _).2

/-- A walk that takes nothing ends with the key it stands at: its limit is used up, or no key is left. -/
theorem walked_ended_of_nothing (h : indexLaw l) (hb : scanTaken l x = []) :
    (walked l x).ended = some (((reportedFrom x.scan.next l).head?.map (·.key)).getD 0) := by
  rcases List.take_eq_nil_iff.mp hb with hz | hnil
  · have hl : x.scan.left = 0 := by omega
    rw [walked, hl, List.head?_eq_getElem?]
    exact scanWalk_limit h.1 (Nat.zero_le _)
  · rw [hnil]
    rcases Nat.lt_or_ge 256 x.scan.left with hl | hl
    · exact scanWalk_exhausts h.1 hl (by rw [hnil]; exact Nat.zero_lt_succ _)
    · refine (scanWalk_limit h.1 hl).trans ?_
      rw [hnil]
      rfl

theorem scanStep_completes (hx : e.ctxs[c]? = some x) (h : indexLaw e.index.entries) (hb : scanTaken e.index.entries x = []) :
    e.scanStep c = Engine.complete { e with ctxs := e.ctxs.set c { x with staging := [], scan := scanned e.index.entries x } } c
      { status := .ok, flags := { succeeded := true, found := 1 ≤ (scanned e.index.entries x).count }
        results := .scan (((reportedFrom x.scan.next e.index.entries).head?.map (·.key)).getD 0)
          (scanned e.index.entries x).count } := by
  have hbytes := walked_bytes h x
  have hcount := walked_count h x
  have hend := walked_ended_of_nothing h hb
  rw [hb] at hbytes hcount
  simp only [Engine.scanStep, Engine.ctx_of hx, Engine.modCtx_set hx]
  split
  next k _ hk =>
    obtain rfl : _ = k := Option.some.inj (hend.symm.trans hk)
    rw [show (scanWalk _ _ _ scanBatch).bytes = [] from hbytes]
    rfl
  next hn => exact (hn _ hcount hend).elim

theorem scanStep_returns (hx : e.ctxs[c]? = some x) (h : indexLaw e.index.entries) (hb : scanTaken e.index.entries x ≠ []) :
    e.scanStep c = { e with ctxs := e.ctxs.set c { x with
      state := .returning, ready := false, scan := scanned e.index.entries x
      staging := (scanTaken e.index.entries x).flatMap fun t => scanEntry t.key t.body
      transfer := some (.store (Descriptor.buffer x.descriptor + x.scan.written)
        ((scanTaken e.index.entries x).flatMap fun t => scanEntry t.key t.body)) } } := by
  have hcount : (walked e.index.entries x).count ≠ 0 := by
    rw [walked_count h]
    exact fun hz => hb (List.eq_nil_of_length_eq_zero hz)
  rw [← walked_bytes h x]
  simp only [Engine.scanStep, Engine.ctx_of hx, Engine.modCtx_set hx]
  split
  next hz _ => exact absurd hz hcount
  next =>
    rw [Engine.beginTransfer, Engine.modCtx_set (set_there hx _), List.set_set]
    rfl

theorem exec_scan {s : State} (hj : s.jobAt c .scan x) :
    exec (.scan c) s = .next { s with engine := (s.engine.scanBegin c).settle } := congrArg Host.Outcome.next (hj.step _)

/-- A SCAN's first walk stands at its start key, with its capacity as its limit (R41). -/
def scanBegun (x : JobContext) : JobContext := { x with ready := false, scan := scanStart x.descriptor }

theorem scanBegin_eq (hx : e.ctxs[c]? = some x) :
    e.scanBegin c = Engine.scanStep { e with ctxs := e.ctxs.set c (scanBegun x) } c := by
  rw [Engine.scanBegin, Engine.modCtx_set hx]
  rfl

theorem scanBegin_completes (hx : e.ctxs[c]? = some x) (h : indexLaw e.index.entries)
    (hb : scanTaken e.index.entries (scanBegun x) = []) : e.scanBegin c = Engine.complete { e with
        ctxs := e.ctxs.set c { scanBegun x with staging := [], scan := scanned e.index.entries (scanBegun x) } } c
      { status := .ok, flags := { succeeded := true }
        results := .scan (((reportedFrom (Descriptor.key x.descriptor) e.index.entries).head?.map (·.key)).getD 0) 0 } := by
  have hcount : (scanned e.index.entries (scanBegun x)).count = 0 :=
    (Nat.zero_add _).trans ((walked_count h (scanBegun x)).trans (congrArg List.length hb))
  have hstep := scanStep_completes (e := { e with ctxs := e.ctxs.set c (scanBegun x) }) (set_there hx _) h hb
  rw [List.set_set, hcount] at hstep
  exact (scanBegin_eq hx).trans hstep

theorem scanBegin_returns (hx : e.ctxs[c]? = some x) (h : indexLaw e.index.entries)
    (hb : scanTaken e.index.entries (scanBegun x) ≠ []) : e.scanBegin c = { e with ctxs := e.ctxs.set c { x with
      state := .returning, ready := false, scan := scanned e.index.entries (scanBegun x)
      staging := (scanTaken e.index.entries (scanBegun x)).flatMap fun t => scanEntry t.key t.body
      transfer := some (.store (Descriptor.buffer x.descriptor)
        ((scanTaken e.index.entries (scanBegun x)).flatMap fun t => scanEntry t.key t.body)) } } := by
  have hstep := scanStep_returns (e := { e with ctxs := e.ctxs.set c (scanBegun x) }) (set_there hx _) h hb
  rw [List.set_set] at hstep
  exact (scanBegin_eq hx).trans hstep

/-- A scan entry's pieces (R196). -/
def scanPieces (key rseq last : Nat) : List (Nat × Nat) := [(8, key), (6, rseq), (2, last)]

theorem scanEntry_value (key r n : Nat) (m : Location) :
    scanEntry key (.value m r n) = RingUnit.spell (scanPieces key r (n % 8192)) := by
  simp [scanEntry, RingUnit.spell, scanPieces]

theorem scanEntry_lost (key r : Nat) (m : Location) (f : LossForm) :
    scanEntry key (.lost m r f) = RingUnit.spell (scanPieces key r 0x8000) := by
  simp [scanEntry, RingUnit.spell, scanPieces]

theorem field_scanPieces {key r n : Nat} {f : Nat × Nat × Nat} (h : f ∈ RingUnit.places 0 (scanPieces key r n)) :
    field (RingUnit.spell (scanPieces key r n)) f.1 f.2.1 = f.2.2 % 256 ^ f.2.1 := RingUnit.field_of_place (before := []) h

theorem scanPieces_layout (key r n : Nat) : (RingUnit.spell (scanPieces key r n)).length = 16
    ∧ field (RingUnit.spell (scanPieces key r n)) 0 8 = key % 2 ^ 64
    ∧ field (RingUnit.spell (scanPieces key r n)) 8 6 = r % 2 ^ 48
    ∧ field (RingUnit.spell (scanPieces key r n)) 14 2 = n % 2 ^ 16 := by
  refine ⟨RingUnit.length_spell _, field_scanPieces (f := (0, 8, key)) ?_, field_scanPieces (f := (8, 6, r)) ?_,
    field_scanPieces (f := (14, 2, n)) ?_⟩ <;> simp [RingUnit.places, scanPieces]

end ScanSteps

/-- Settles O37, from what a walk in key order takes and where it stops. -/
theorem aScanListsKeysInOrder : Obligations.AScanListsKeysInOrder := by
  refine ⟨fun s c x l limit hj hlaw hl hlim => ?_, fun e c left x l hx hlaw hl hleft => ?_, fun b => ?_,
    fun key r n m f b hb => ?_⟩
  · subst hl hlim
    have hx := DataJobs.jobAt_ctxs hj
    refine ⟨scanTaken _ (scanBegun x), scanned _ (scanBegun x), rfl, (Nat.zero_add _).trans (walked_count hlaw _),
      congrArg _ (walked_count hlaw _), rfl, scanWalk_limit hlaw.1, scanWalk_exhausts hlaw.1,
      fun hlt last hlast => scanWalk_full hlaw.1 (by decide) hlt hlast, fun hb => ?_, fun hb => ?_⟩
    · rw [exec_scan hj, scanBegin_completes hx hlaw hb]
      rfl
    · rw [exec_scan hj, scanBegin_returns hx hlaw hb]
  · subst hl hleft
    exact ⟨scanTaken e.index.entries x, scanned e.index.entries x, _, rfl, rfl, congrArg _ (walked_count hlaw x),
      congrArg _ (walked_count hlaw x), rfl, scanWalk_limit hlaw.1, scanWalk_exhausts hlaw.1,
      fun hlt last hlast => scanWalk_full hlaw.1 (by decide) hlt hlast, scanStep_completes hx hlaw,
      scanStep_returns hx hlaw⟩
  · cases b <;> simp [EntryBody.reportable, EntryBody.kind]
  · rcases hb with rfl | rfl
    · rw [scanEntry_value]
      obtain ⟨hlen, hkey, hrseq, hvalue⟩ := scanPieces_layout key r (n % 8192)
      exact ⟨hlen, hkey, hrseq, fun _ => hvalue.trans (Nat.mod_eq_of_lt (by omega)), nofun⟩
    · rw [scanEntry_lost]
      obtain ⟨hlen, hkey, hrseq, hlost⟩ := scanPieces_layout key r 0x8000
      exact ⟨hlen, hkey, hrseq, nofun, fun _ => hlost⟩

end Sys2Proof.Machine.KeyIndex
end
